-- ==== Sys2Proof/Word.lean ====
section
/-! DEFINITION. The word types of the LZX frame decoder: bytes, the 32-bit register word, the 24-bit block
counter word and the code length (spec/00_scope.md R12, spec/10_state.md R33–R40). -/

namespace Sys2Proof

/-- One byte of the input stream, the window or the output buffer (spec/20_memory.md R60). -/
abbrev Byte := BitVec 8

/-- A repeat-offset register or `e8_magic` (spec/00_scope.md R12). -/
abbrev Word32 := BitVec 32

/-- `block_length` and `block_remaining`: 24-bit unsigned (spec/00_scope.md R12). -/
abbrev Word24 := BitVec 24

/-- A code length of the main or length tree, 0..16 (spec/10_state.md R39, R40); its subtraction is the
modulo-17 delta of spec/41_huffman.md R168. -/
abbrev Len := Fin 17

end Sys2Proof
end

