-- ==== Sys2Proof/Config.lean ====
section
/-! DEFINITION. What is fixed for the machine (spec/00_scope.md R8, R10) and the parameters with which `State.reset`
is constructed (notes/assumptions/4.md). The spec leaves no value open that a run can read
(spec/93_implementation_defined.md section 1 gives every such behaviour a treatment), so there is no free value. -/

namespace Sys2Proof.Config

/-- `FRAME_SIZE` (`LZX_FRAME_SIZE`): decompressed bytes of every frame but the last (R8). -/
def frameSize : Nat := 32768

/-- Symbols of the pretree (R10). -/
def preSymbols : Nat := 20

/-- Symbols of the length tree (R10). -/
def lenSymbols : Nat := 249

/-- Symbols of the aligned-offset tree (R10). -/
def alSymbols : Nat := 8

/-- Literals of the main tree: symbols below it are literals (spec/30_encoding.md R100). -/
def literals : Nat := 256

/-- `WINDOW_BITS` of `State.reset` (DESIGN CHOICE, notes/assumptions/4.md; R6 gives the range 15..21). -/
def resetWindowBits : Nat := 15

/-- `RESET_INTERVAL` of `State.reset` (DESIGN CHOICE, notes/assumptions/4.md; R7). -/
def resetInterval : Nat := 0

/-- `INBUF_SIZE` of `State.reset` (DESIGN CHOICE, notes/assumptions/4.md; R11 leaves it OPEN). -/
def resetInbufSize : Nat := 4096

end Sys2Proof.Config
end

