-- ==== Sys2Proof/Syntax.lean ====
section
/-! DEFINITION. The elements of the LZX bitstream and the two host commands (spec/30_encoding.md R90): one constructor
per row of spec/opcode_table.json. Beside them the names the decoder needs: reader modes, trees, the places in the
stream where an element may stand, and the error kinds of spec/60_exceptions.md R291. -/

namespace Sys2Proof

/-- The read mode of the bit/byte reader (spec/10_state.md R21). -/
inductive Mode where
  | bitstream
  | bytestream
deriving DecidableEq, Repr

/-- The four Huffman tables (spec/41_huffman.md R160). -/
inductive Tree where
  | pre
  | main
  | len
  | al
deriving DecidableEq, Repr

/-- The value a host answers a pull request with when it reports an error of its own; the decoder passes it on
unchanged (spec/40_bitreader.md R135). The spec gives it no type: a number stands for it (notes/assumptions/6.md). -/
abbrev HostError := Nat

/-- The error kinds 1..17 of spec/60_exceptions.md R291, in the order of their codes. -/
inductive ErrKind where
  | badPadding
  | prematureEOF
  | unknownBlockType
  | incompleteHuffmanTree
  | huffmanDecodeOverrun
  | windowOverrun
  | blockOverrun
  | inconsistentResetState
  | wrongMode
  | callbackOverflow
  | callbackError (e : HostError)
  | emptyTableDecode
  | lengthRunOverrun
  | badLengthCode
  | zeroOffset
  | undefinedWindowRead
  | frameOverrun
deriving DecidableEq, Repr

/-- The numeric code of an error kind (spec/60_exceptions.md R291). -/
def ErrKind.code : ErrKind → Nat
  | .badPadding => 1
  | .prematureEOF => 2
  | .unknownBlockType => 3
  | .incompleteHuffmanTree => 4
  | .huffmanDecodeOverrun => 5
  | .windowOverrun => 6
  | .blockOverrun => 7
  | .inconsistentResetState => 8
  | .wrongMode => 9
  | .callbackOverflow => 10
  | .callbackError _ => 11
  | .emptyTableDecode => 12
  | .lengthRunOverrun => 13
  | .badLengthCode => 14
  | .zeroOffset => 15
  | .undefinedWindowRead => 16
  | .frameOverrun => 17

/-- Where in the stream the next element stands: what the state (spec/30_encoding.md R109) says comes next. -/
inductive Site where
  | e8Header
  | blockHeader
  | alignLen
  | preLen
  | lenCode
  | mainSym
  | lenSym
  | alSym
  | uncPad
  | uncWords
  | payload
  | padByte
deriving DecidableEq, Repr

/-- The reader mode in which the element of a site is read (spec/30_encoding.md R92–R97). -/
def Site.mode : Site → Mode
  | .uncWords | .payload | .padByte => .bytestream
  | .e8Header | .blockHeader | .alignLen | .preLen | .lenCode | .mainSym | .lenSym | .alSym | .uncPad => .bitstream

/-- The instructions: the two host commands and the elements of the bitstream, one constructor per row of
spec/opcode_table.json. -/
inductive Instr where
  /-- `Construct(read_callback, window_bits, reset_interval)`, spec/70_reset_and_hazards.md R320. -/
  | construct (windowBits resetInterval : Nat)
  /-- `DecodeFrame(out)`, spec/42_frame_blocks.md R190; the operand is the size of the host's output buffer. -/
  | decodeFrame (outSize : Nat)
  /-- E8 header with `f = 0`, R92. -/
  | e8hdrOff
  /-- E8 header with `f = 1`, R92; `magic` is the two 16-bit halves, high half first. -/
  | e8hdrOn (magic : Word32)
  /-- Block headers, one per type code, R93, R94; `len` is the 24-bit block length. -/
  | blockType0 (len : Word24)
  | blockVerbatim (len : Word24)
  | blockAligned (len : Word24)
  | blockUncompressed (len : Word24)
  | blockType4 (len : Word24)
  | blockType5 (len : Word24)
  | blockType6 (len : Word24)
  | blockType7 (len : Word24)
  /-- One 3-bit length of the aligned-offset tree, R96. -/
  | alignlen (a : BitVec 3)
  /-- One 4-bit length of the pretree, R98. -/
  | prelen (p : BitVec 4)
  /-- The length codes 0..16 of a length-list, R99. -/
  | delta0
  | delta1
  | delta2
  | delta3
  | delta4
  | delta5
  | delta6
  | delta7
  | delta8
  | delta9
  | delta10
  | delta11
  | delta12
  | delta13
  | delta14
  | delta15
  | delta16
  /-- Length code 17: a short run of zero lengths, R99. -/
  | zrun4 (k : BitVec 4)
  /-- Length code 18: a long run of zero lengths, R99. -/
  | zrun20 (k : BitVec 5)
  /-- Length code 19: a run of one delta-coded length; `z2` is the inner pretree symbol, R99. -/
  | srun (k : BitVec 1) (z2 : Nat)
  /-- A literal, R100. -/
  | lit (b : Byte)
  /-- A match of position slot 0..49 with its length header, R100. -/
  | matchS0 (hdr : BitVec 3)
  | matchS1 (hdr : BitVec 3)
  | matchS2 (hdr : BitVec 3)
  | matchS3 (hdr : BitVec 3)
  | matchS4 (hdr : BitVec 3)
  | matchS5 (hdr : BitVec 3)
  | matchS6 (hdr : BitVec 3)
  | matchS7 (hdr : BitVec 3)
  | matchS8 (hdr : BitVec 3)
  | matchS9 (hdr : BitVec 3)
  | matchS10 (hdr : BitVec 3)
  | matchS11 (hdr : BitVec 3)
  | matchS12 (hdr : BitVec 3)
  | matchS13 (hdr : BitVec 3)
  | matchS14 (hdr : BitVec 3)
  | matchS15 (hdr : BitVec 3)
  | matchS16 (hdr : BitVec 3)
  | matchS17 (hdr : BitVec 3)
  | matchS18 (hdr : BitVec 3)
  | matchS19 (hdr : BitVec 3)
  | matchS20 (hdr : BitVec 3)
  | matchS21 (hdr : BitVec 3)
  | matchS22 (hdr : BitVec 3)
  | matchS23 (hdr : BitVec 3)
  | matchS24 (hdr : BitVec 3)
  | matchS25 (hdr : BitVec 3)
  | matchS26 (hdr : BitVec 3)
  | matchS27 (hdr : BitVec 3)
  | matchS28 (hdr : BitVec 3)
  | matchS29 (hdr : BitVec 3)
  | matchS30 (hdr : BitVec 3)
  | matchS31 (hdr : BitVec 3)
  | matchS32 (hdr : BitVec 3)
  | matchS33 (hdr : BitVec 3)
  | matchS34 (hdr : BitVec 3)
  | matchS35 (hdr : BitVec 3)
  | matchS36 (hdr : BitVec 3)
  | matchS37 (hdr : BitVec 3)
  | matchS38 (hdr : BitVec 3)
  | matchS39 (hdr : BitVec 3)
  | matchS40 (hdr : BitVec 3)
  | matchS41 (hdr : BitVec 3)
  | matchS42 (hdr : BitVec 3)
  | matchS43 (hdr : BitVec 3)
  | matchS44 (hdr : BitVec 3)
  | matchS45 (hdr : BitVec 3)
  | matchS46 (hdr : BitVec 3)
  | matchS47 (hdr : BitVec 3)
  | matchS48 (hdr : BitVec 3)
  | matchS49 (hdr : BitVec 3)
  /-- The length-tree symbol of a match with length header 7, R104. -/
  | lsym (l : Nat)
  /-- The aligned-tree symbol of a match in an Aligned block, R103. -/
  | alsym (a : BitVec 3)
  /-- The 1 to 16 padding bits before the header of an Uncompressed block, R97 (a). -/
  | uncPad
  /-- The three 32-bit words of an Uncompressed block's header, R97 (b). -/
  | uncRWords (w0 w1 w2 : Word32)
  /-- The payload bytes of an Uncompressed block that the current frame takes, R97 (c). -/
  | uncPayload
  /-- The pad byte after an odd-length payload, R97 (d). -/
  | uncPadByte (x : Byte)
deriving DecidableEq, Repr

/-- Where in the stream an element stands; a host command stands nowhere in it. -/
def Instr.site : Instr → Option Site
  | .construct _ _ | .decodeFrame _ => none
  | .e8hdrOff | .e8hdrOn _ => some .e8Header
  | .blockType0 _ | .blockVerbatim _ | .blockAligned _ | .blockUncompressed _ => some .blockHeader
  | .blockType4 _ | .blockType5 _ | .blockType6 _ | .blockType7 _ => some .blockHeader
  | .alignlen _ => some .alignLen
  | .prelen _ => some .preLen
  | .delta0 | .delta1 | .delta2 | .delta3 | .delta4 | .delta5 | .delta6 | .delta7 | .delta8 => some .lenCode
  | .delta9 | .delta10 | .delta11 | .delta12 | .delta13 | .delta14 | .delta15 | .delta16 => some .lenCode
  | .zrun4 _ | .zrun20 _ | .srun _ _ => some .lenCode
  | .lit _ => some .mainSym
  | .matchS0 _ | .matchS1 _ | .matchS2 _ | .matchS3 _ | .matchS4 _ | .matchS5 _ | .matchS6 _ | .matchS7 _ | .matchS8 _ | .matchS9 _ => some .mainSym
  | .matchS10 _ | .matchS11 _ | .matchS12 _ | .matchS13 _ | .matchS14 _ | .matchS15 _ | .matchS16 _ | .matchS17 _ | .matchS18 _ | .matchS19 _ => some .mainSym
  | .matchS20 _ | .matchS21 _ | .matchS22 _ | .matchS23 _ | .matchS24 _ | .matchS25 _ | .matchS26 _ | .matchS27 _ | .matchS28 _ | .matchS29 _ => some .mainSym
  | .matchS30 _ | .matchS31 _ | .matchS32 _ | .matchS33 _ | .matchS34 _ | .matchS35 _ | .matchS36 _ | .matchS37 _ | .matchS38 _ | .matchS39 _ => some .mainSym
  | .matchS40 _ | .matchS41 _ | .matchS42 _ | .matchS43 _ | .matchS44 _ | .matchS45 _ | .matchS46 _ | .matchS47 _ | .matchS48 _ | .matchS49 _ => some .mainSym
  | .lsym _ => some .lenSym
  | .alsym _ => some .alSym
  | .uncPad => some .uncPad
  | .uncRWords _ _ _ => some .uncWords
  | .uncPayload => some .payload
  | .uncPadByte _ => some .padByte

end Sys2Proof
end

