-- ==== Sys2Proof/WellFormed.lean ====
section
/-! DEFINITION. Which instruction terms an element of the stream can be. Every fixed-width operand has its width in its
type; two operands are Huffman symbols whose ranges are checked here (spec/30_encoding.md R99, R104). -/

namespace Sys2Proof

/-- The checks: the inner symbol of a code-19 run is a delta 0..16 (spec/41_huffman.md R171), a length-tree symbol is
one of the 249 (spec/30_encoding.md R104). -/
def Instr.wellFormed : Instr → Bool
  | .srun _ z2 => z2 ≤ 16
  | .lsym l => l < Config.lenSymbols
  | .construct _ _ | .decodeFrame _ | .e8hdrOff | .e8hdrOn _ => true
  | .blockType0 _ | .blockVerbatim _ | .blockAligned _ | .blockUncompressed _ => true
  | .blockType4 _ | .blockType5 _ | .blockType6 _ | .blockType7 _ | .alignlen _ | .prelen _ => true
  | .delta0 | .delta1 | .delta2 | .delta3 | .delta4 | .delta5 | .delta6 | .delta7 | .delta8 => true
  | .delta9 | .delta10 | .delta11 | .delta12 | .delta13 | .delta14 | .delta15 | .delta16 | .zrun4 _ | .zrun20 _ => true
  | .matchS0 _ | .matchS1 _ | .matchS2 _ | .matchS3 _ | .matchS4 _ | .matchS5 _ | .matchS6 _ | .matchS7 _ | .matchS8 _ | .matchS9 _ => true
  | .matchS10 _ | .matchS11 _ | .matchS12 _ | .matchS13 _ | .matchS14 _ | .matchS15 _ | .matchS16 _ | .matchS17 _ | .matchS18 _ | .matchS19 _ => true
  | .matchS20 _ | .matchS21 _ | .matchS22 _ | .matchS23 _ | .matchS24 _ | .matchS25 _ | .matchS26 _ | .matchS27 _ | .matchS28 _ | .matchS29 _ => true
  | .matchS30 _ | .matchS31 _ | .matchS32 _ | .matchS33 _ | .matchS34 _ | .matchS35 _ | .matchS36 _ | .matchS37 _ | .matchS38 _ | .matchS39 _ => true
  | .matchS40 _ | .matchS41 _ | .matchS42 _ | .matchS43 _ | .matchS44 _ | .matchS45 _ | .matchS46 _ | .matchS47 _ | .matchS48 _ | .matchS49 _ => true
  | .lit _ | .alsym _ | .uncPad | .uncRWords _ _ _ | .uncPayload | .uncPadByte _ => true

end Sys2Proof
end

