-- ==== Sys2Proof/Decode.lean ====
section
/-! DEFINITION. The decoder and the encoder: the bit order of the stream (spec/20_memory.md R67, R68,
spec/40_bitreader.md R132), the canonical Huffman code (spec/41_huffman.md R161), for every place in the stream the
fields an element is read as and the instruction they make (spec/30_encoding.md), the decoder over plain bits and bytes,
the reading of an opcode-table word, and after them the encoder.

The decoder of a place is a `Parser`: it says which field is read next and what the values make. The machine runs the
same parser over its reader, pulling input as it goes (Sys2Proof/Machine/Fetch.lean), so encoding facts stand here
once. -/

namespace Sys2Proof

/-! ## Window-size tables -/

/-- `NPS`, the number of position slots for a `WINDOW_BITS` (spec/00_scope.md R9; PRESUMED by the spec from general
knowledge, notes/assumptions/12.md). -/
def nps (windowBits : Nat) : Nat :=
  match windowBits with
  | 15 => 30
  | 16 => 32
  | 17 => 34
  | 18 => 36
  | 19 => 38
  | 20 => 42
  | _ => 50

/-- `NMAIN = 256 + 8 * NPS`, the number of main-tree symbols (spec/00_scope.md R9, spec/90_conflicts.md C4). -/
def nmain (windowBits : Nat) : Nat := Config.literals + 8 * nps windowBits

/-! ## Bits -/

/-- The `n` low bits of `v`, most significant first (spec/20_memory.md R68). -/
def toBits : Nat → Nat → List Bool
  | 0, _ => []
  | n + 1, v => v.testBit n :: toBits n v

/-- The unsigned value of bits read most significant first (R68). -/
def ofBits (bs : List Bool) : Nat := bs.foldl (fun v b => 2 * v + b.toNat) 0

/-- Take `n` bits off a bit list, as an unsigned value. -/
def takeBits (n : Nat) (bs : List Bool) : Option (Nat × List Bool) :=
  if n ≤ bs.length then some (ofBits (bs.take n), bs.drop n) else none

/-- Bit `b` of the sequence `B`: units of two bytes, little-endian, most significant bit first
(spec/40_bitreader.md R132). Bits 0..7 of a unit are its second byte, bits 8..15 its first. -/
def bitAt (bytes : List Byte) (b : Nat) : Bool :=
  let j := b % 16
  let i := 2 * (b / 16)
  if j < 8 then (bytes.getD (i + 1) 0).getLsbD (7 - j) else (bytes.getD i 0).getLsbD (15 - j)

/-- The bits that whole units of a byte string deliver in `Bitstream` mode (R132, R150: a lone last byte delivers
none). -/
def unitBits (bytes : List Byte) : List Bool :=
  (List.range (16 * (bytes.length / 2))).map (bitAt bytes)

/-- The bits of a byte string in stream order of its bytes, as a `Bytestream` read sees them (spec/20_memory.md R69). -/
def byteBits (bytes : List Byte) : List Bool := bytes.flatMap fun b => toBits 8 b.toNat

/-- Byte `i` of the units whose bits, in the order of `B`, are `bs` (bits past the end are 0): the inverse layout of
`bitAt`. -/
def unitByte (bs : List Bool) (i : Nat) : Byte :=
  BitVec.ofNat 8 (ofBits ((List.range 8).map fun j =>
    bs.getD (16 * (i / 2) + (if i % 2 = 1 then 0 else 8) + j) false))

/-- A little-endian 32-bit word of four bytes, first byte lowest (spec/40_bitreader.md R146). -/
def leWord (b0 b1 b2 b3 : Nat) : Nat := b0 + 2 ^ 8 * b1 + 2 ^ 16 * b2 + 2 ^ 24 * b3

/-- Byte `k` of a 32-bit word stored little-endian (spec/20_memory.md R69). -/
def leByte (w : Word32) (k : Nat) : Byte := BitVec.ofNat 8 (w.toNat / 2 ^ (8 * k))

/-! ## Canonical Huffman codes -/

/-- One code word: the symbol, its length and its bits as a number, most significant bit read first
(spec/41_huffman.md R161). -/
structure CodeWord where
  sym : Nat
  len : Nat
  code : Nat
deriving DecidableEq, Repr

/-- The symbols of length `l`, ascending; `i` is the symbol of the list's head. -/
def symsOfLen (l i : Nat) : List Nat → List Nat
  | [] => []
  | x :: xs => if x = l then i :: symsOfLen l (i + 1) xs else symsOfLen l (i + 1) xs

/-- The used symbols with their lengths in ascending order of (length, symbol); lengths are 1..16
(spec/41_huffman.md R160). -/
def usedSyms (lens : List Nat) : List (Nat × Nat) :=
  (List.range 16).flatMap fun k => (symsOfLen (k + 1) 0 lens).map fun s => (k + 1, s)

/-- The loop of R161: consecutive code words, shifted left by each growth of the length. -/
def assignCodes (code prev : Nat) : List (Nat × Nat) → List CodeWord
  | [] => []
  | (l, s) :: rest =>
    ⟨s, l, code <<< (l - prev)⟩ :: assignCodes ((code <<< (l - prev)) + 1) l rest

/-- The canonical code of a length set (spec/41_huffman.md R161; its first code word is all zeros, so the starting
length of the loop is of no account). -/
def canonical (lens : List Nat) : List CodeWord := assignCodes 0 0 (usedSyms lens)

/-- The Kraft sum in units of `2^-16` (spec/41_huffman.md R162). -/
def kraftSum (lens : List Nat) : Nat :=
  (lens.map fun l => if l = 0 then 0 else 2 ^ (16 - l)).sum

/-- The code word that stands at the head of 16 peeked bits (spec/41_huffman.md R164). -/
def findCode (codes : List CodeWord) (v : Nat) : Option CodeWord :=
  codes.find? fun c => c.code == v >>> (16 - c.len)

/-- The bits of a code word in stream order. -/
def CodeWord.bits (c : CodeWord) : List Bool := toBits c.len c.code

/-! ## Elements -/

/-- One field of an element, in the form in which it is read: `n` verbatim bits, a Huffman symbol, a byte, or a
little-endian 32-bit word. -/
inductive Field where
  | bits (n : Nat)
  | sym (t : Tree)
  | byte
  | word32
deriving DecidableEq, Repr

/-- The decoder of one place in the stream: an instruction, a rejection under an error kind's name, or a field to read
and what follows from its value. -/
inductive Parser where
  | done (i : Instr)
  | reject (e : ErrKind)
  | read (f : Field) (k : Nat → Parser)

/-- The length codes 0..16 (spec/30_encoding.md R99). -/
def deltaInstr : Nat → Option Instr
  | 0 => some .delta0
  | 1 => some .delta1
  | 2 => some .delta2
  | 3 => some .delta3
  | 4 => some .delta4
  | 5 => some .delta5
  | 6 => some .delta6
  | 7 => some .delta7
  | 8 => some .delta8
  | 9 => some .delta9
  | 10 => some .delta10
  | 11 => some .delta11
  | 12 => some .delta12
  | 13 => some .delta13
  | 14 => some .delta14
  | 15 => some .delta15
  | 16 => some .delta16
  | _ => none

/-- The block header of a type code (spec/30_encoding.md R93, R94; the codes are PRESUMED by the spec,
notes/assumptions/12.md). -/
def blockInstr (t : Nat) (len : Word24) : Instr :=
  match t with
  | 0 => .blockType0 len
  | 1 => .blockVerbatim len
  | 2 => .blockAligned len
  | 3 => .blockUncompressed len
  | 4 => .blockType4 len
  | 5 => .blockType5 len
  | 6 => .blockType6 len
  | _ => .blockType7 len

/-- The match of a position slot (spec/30_encoding.md R100). -/
def matchInstr (slot : Nat) (hdr : BitVec 3) : Option Instr :=
  match slot with
  | 0 => some (.matchS0 hdr)
  | 1 => some (.matchS1 hdr)
  | 2 => some (.matchS2 hdr)
  | 3 => some (.matchS3 hdr)
  | 4 => some (.matchS4 hdr)
  | 5 => some (.matchS5 hdr)
  | 6 => some (.matchS6 hdr)
  | 7 => some (.matchS7 hdr)
  | 8 => some (.matchS8 hdr)
  | 9 => some (.matchS9 hdr)
  | 10 => some (.matchS10 hdr)
  | 11 => some (.matchS11 hdr)
  | 12 => some (.matchS12 hdr)
  | 13 => some (.matchS13 hdr)
  | 14 => some (.matchS14 hdr)
  | 15 => some (.matchS15 hdr)
  | 16 => some (.matchS16 hdr)
  | 17 => some (.matchS17 hdr)
  | 18 => some (.matchS18 hdr)
  | 19 => some (.matchS19 hdr)
  | 20 => some (.matchS20 hdr)
  | 21 => some (.matchS21 hdr)
  | 22 => some (.matchS22 hdr)
  | 23 => some (.matchS23 hdr)
  | 24 => some (.matchS24 hdr)
  | 25 => some (.matchS25 hdr)
  | 26 => some (.matchS26 hdr)
  | 27 => some (.matchS27 hdr)
  | 28 => some (.matchS28 hdr)
  | 29 => some (.matchS29 hdr)
  | 30 => some (.matchS30 hdr)
  | 31 => some (.matchS31 hdr)
  | 32 => some (.matchS32 hdr)
  | 33 => some (.matchS33 hdr)
  | 34 => some (.matchS34 hdr)
  | 35 => some (.matchS35 hdr)
  | 36 => some (.matchS36 hdr)
  | 37 => some (.matchS37 hdr)
  | 38 => some (.matchS38 hdr)
  | 39 => some (.matchS39 hdr)
  | 40 => some (.matchS40 hdr)
  | 41 => some (.matchS41 hdr)
  | 42 => some (.matchS42 hdr)
  | 43 => some (.matchS43 hdr)
  | 44 => some (.matchS44 hdr)
  | 45 => some (.matchS45 hdr)
  | 46 => some (.matchS46 hdr)
  | 47 => some (.matchS47 hdr)
  | 48 => some (.matchS48 hdr)
  | 49 => some (.matchS49 hdr)
  | _ => none

/-- An instruction, or the rejection of a symbol for which a table built as the spec says has no code word
(spec/30_encoding.md R106: such a symbol cannot be decoded). -/
def Parser.ofOption : Option Instr → Parser
  | some i => .done i
  | none => .reject .huffmanDecodeOverrun

/-- The E8 header (R92): `f`, and if it is 1 the two halves of `e8_magic`, high half first. -/
def parseE8Header : Parser :=
  .read (.bits 1) fun f =>
    if f = 0 then .done .e8hdrOff
    else .read (.bits 16) fun hi => .read (.bits 16) fun lo =>
      .done (.e8hdrOn (BitVec.ofNat 32 (2 ^ 16 * hi + lo)))

/-- The block header (R93): the type, then the high 16 and the low 8 bits of the length. -/
def parseBlockHeader : Parser :=
  .read (.bits 3) fun t => .read (.bits 16) fun hi => .read (.bits 8) fun lo =>
    .done (blockInstr t (BitVec.ofNat 24 (2 ^ 8 * hi + lo)))

/-- A length code (R99): the pretree symbol, then the fields of an escape code. The inner symbol of a code-19 run is
checked once it is read (spec/41_huffman.md R171, R173). -/
def parseLenCode : Parser :=
  .read (.sym .pre) fun z =>
    if z = 17 then .read (.bits 4) fun k => .done (.zrun4 (BitVec.ofNat 4 k))
    else if z = 18 then .read (.bits 5) fun k => .done (.zrun20 (BitVec.ofNat 5 k))
    else if z = 19 then .read (.bits 1) fun k => .read (.sym .pre) fun z2 =>
      if z2 ≤ 16 then .done (.srun (BitVec.ofNat 1 k) z2) else .reject .badLengthCode
    else .ofOption (deltaInstr z)

/-- A main-tree symbol (R100): a literal below 256, else a match with length header `m & 7` and slot `m >> 3`. -/
def parseMainSym : Parser :=
  .read (.sym .main) fun sym =>
    if sym < Config.literals then .done (.lit (BitVec.ofNat 8 sym))
    else .ofOption (matchInstr ((sym - Config.literals) / 8) (BitVec.ofNat 3 (sym - Config.literals)))

/-- The decoder of each place in the stream. The padding and the payload have no fields here: their bits are read by
their meanings (spec/40_bitreader.md R141, spec/43_symbols_matches.md R248). -/
def parserOf : Site → Parser
  | .e8Header => parseE8Header
  | .blockHeader => parseBlockHeader
  | .alignLen => .read (.bits 3) fun a => .done (.alignlen (BitVec.ofNat 3 a))
  | .preLen => .read (.bits 4) fun p => .done (.prelen (BitVec.ofNat 4 p))
  | .lenCode => parseLenCode
  | .mainSym => parseMainSym
  | .lenSym => .read (.sym .len) fun l =>
      if l < Config.lenSymbols then .done (.lsym l) else .reject .huffmanDecodeOverrun
  | .alSym => .read (.sym .al) fun a =>
      if a < Config.alSymbols then .done (.alsym (BitVec.ofNat 3 a)) else .reject .huffmanDecodeOverrun
  | .uncPad => .done .uncPad
  | .uncWords => .read .word32 fun w0 => .read .word32 fun w1 => .read .word32 fun w2 =>
      .done (.uncRWords (BitVec.ofNat 32 w0) (BitVec.ofNat 32 w1) (BitVec.ofNat 32 w2))
  | .payload => .done .uncPayload
  | .padByte => .read .byte fun x => .done (.uncPadByte (BitVec.ofNat 8 x))

/-! ## Decoding plain bits and bytes -/

/-- Why bits do not decode. -/
inductive Reject where
  /-- the element is one the spec gives an error kind for -/
  | error (e : ErrKind)
  /-- the bits end inside the element -/
  | truncated
  /-- no code word of the tree stands at the head of the bits -/
  | noCodeWord (t : Tree)
deriving DecidableEq, Repr

/-- What decoding answers: an instruction with the bits after it, or a rejection by name. -/
inductive Decoded where
  | instr (i : Instr) (rest : List Bool)
  | rejected (r : Reject)
deriving DecidableEq, Repr

/-- The code words in force for each tree. -/
abbrev Codes := Tree → List CodeWord

/-- Read one field off a bit list. -/
def readField (f : Field) (codes : Codes) (bs : List Bool) : Except Reject (Nat × List Bool) :=
  match f with
  | .bits n => match takeBits n bs with
    | some r => .ok r
    | none => .error .truncated
  | .byte => match takeBits 8 bs with
    | some r => .ok r
    | none => .error .truncated
  | .word32 => match takeBits 32 bs with
    | some (v, rest) =>
      .ok (leWord (v / 2 ^ 24 % 2 ^ 8) (v / 2 ^ 16 % 2 ^ 8) (v / 2 ^ 8 % 2 ^ 8) (v % 2 ^ 8), rest)
    | none => .error .truncated
  | .sym t => match (codes t).find? fun c => c.bits.isPrefixOf bs with
    | some c => .ok (c.sym, bs.drop c.len)
    | none => .error (.noCodeWord t)

/-- Run a parser over a bit list. -/
def Parser.runBits (codes : Codes) : Parser → List Bool → Decoded
  | .done i, bs => .instr i bs
  | .reject e, _ => .rejected (.error e)
  | .read f k, bs => match readField f codes bs with
    | .ok (v, rest) => (k v).runBits codes rest
    | .error r => .rejected r

/-- Decode the bits that stand at a place of the stream under the codes in force. -/
def decodeBits (site : Site) (codes : Codes) (bs : List Bool) : Decoded := (parserOf site).runBits codes bs

/-- Decode the bytes that stand at a place of the stream, in the bit order of the place's reader mode: total on any
bytes. -/
def decode (site : Site) (codes : Codes) (bytes : List Byte) : Decoded :=
  decodeBits site codes (match site.mode with
    | .bitstream => unitBits bytes
    | .bytestream => byteBits bytes)

/-- Run a parser on field values given outright; a field past the end of the list is 0. -/
def Parser.runFields : Parser → List Nat → Option Instr
  | .done i, _ => some i
  | .reject _, _ => none
  | .read _ k, [] => (k 0).runFields []
  | .read _ k, v :: vs => (k v).runFields vs

/-! ## Opcode-table words -/

/-- A 32-bit table word that fits a row of slots 24..31: the symbol in the low 10 bits, and beside it at most the two
bits that the table calls the row's fields, bit `slot` and bit `extra_bits`. -/
def slotWord (w : Nat) : Bool :=
  let sym := w % 2 ^ 10
  let slot := (sym - Config.literals) / 8
  24 ≤ slot && slot < 32 && [0, 2 ^ slot, 2 ^ ((slot - 2) / 2), 2 ^ slot + 2 ^ ((slot - 2) / 2)].contains (w - sym)

/-- The place in the stream and the field values of an instruction whose table bits are `w`. The table gives no context,
and its rows overlap (spec/30_encoding.md R112: `match`/`mask` are over the field bits or over the decoded symbol), so
the place is read from the width the table gives the row (notes/assumptions/15.md): 8 bits hold a pretree symbol (R99),
16 a main-tree symbol (R100), 32 a block header (R93), 40 the E8 header with `f = 1` (R92). The reader's table widens
the rows of length codes 17..19 to 24 bits and of slots 16..31 to 24 or 32 bits; their symbol stands in the low 10
bits. An 8-bit word is a pretree symbol where it can be one and the 1-bit E8 header otherwise.

A 32-bit word that fits a row of slots 24..31 and a block header both is read as the match (DESIGN CHOICE,
notes/assumptions/15.md): the block headers of type 0, 1, 2 and 4 that `slotWord` lists are lost to it. -/
def tableFields (nbits w : Nat) : Option (Site × List Nat) :=
  let sym := w % 2 ^ 10
  if nbits = 0 then none
  else if nbits ≤ 8 then
    if w % 2 ^ 5 < Config.preSymbols then some (.lenCode, [w % 2 ^ 5])
    else if w % 2 = 0 then some (.e8Header, [0])
    else none
  else if nbits ≤ 16 then some (.mainSym, [sym])
  else if nbits ≤ 24 then
    if 17 ≤ sym ∧ sym ≤ 19 then some (.lenCode, [sym]) else some (.mainSym, [sym])
  else if nbits ≤ 32 then
    if slotWord w then some (.mainSym, [sym])
    else some (.blockHeader, [w / 2 ^ 24 % 2 ^ 3, w / 2 ^ 8 % 2 ^ 16, w % 2 ^ 8])
  else if nbits ≤ 40 then
    some (.e8Header, [w / 2 ^ 32 % 2, w / 2 ^ 16 % 2 ^ 16, w % 2 ^ 16])
  else none

/-- The instruction the decoder reads from an opcode-table word of `nbits` bits; fields the table gives no bits are 0. The
table gives `Construct` one field, bits 21..15, and nothing else in 24 bits; no other row of that width has its low 15
bits 0. -/
def decodeTableWord (nbits w : Nat) : Option Instr :=
  if 16 < nbits ∧ nbits ≤ 24 ∧ w % 2 ^ 15 = 0 then some (.construct (w / 2 ^ 15 % 2 ^ 7) 0)
  else match tableFields nbits w with
    | some (site, fields) => (parserOf site).runFields fields
    | none => none

/-! ## The encoder -/

/-- The main-tree symbol of a match (spec/30_encoding.md R100). -/
def matchSym (slot : Nat) (hdr : BitVec 3) : Nat := Config.literals + 8 * slot + hdr.toNat

/-- The fields of a block header (R93). -/
def blockFields (t : Nat) (len : Word24) : List (Field × Nat) :=
  [(.bits 3, t), (.bits 16, len.toNat / 2 ^ 8), (.bits 8, len.toNat % 2 ^ 8)]

/-- An instruction as the fields of its element in stream order (spec/30_encoding.md R92–R104). A host command has none;
the padding and the payload have none of their own (R97, R112). -/
def encode : Instr → List (Field × Nat)
  | .construct _ _ => []
  | .decodeFrame _ => []
  | .e8hdrOff => [(.bits 1, 0)]
  | .e8hdrOn magic => [(.bits 1, 1), (.bits 16, magic.toNat / 2 ^ 16), (.bits 16, magic.toNat % 2 ^ 16)]
  | .blockType0 len => blockFields 0 len
  | .blockVerbatim len => blockFields 1 len
  | .blockAligned len => blockFields 2 len
  | .blockUncompressed len => blockFields 3 len
  | .blockType4 len => blockFields 4 len
  | .blockType5 len => blockFields 5 len
  | .blockType6 len => blockFields 6 len
  | .blockType7 len => blockFields 7 len
  | .alignlen a => [(.bits 3, a.toNat)]
  | .prelen p => [(.bits 4, p.toNat)]
  | .delta0 => [(.sym .pre, 0)]
  | .delta1 => [(.sym .pre, 1)]
  | .delta2 => [(.sym .pre, 2)]
  | .delta3 => [(.sym .pre, 3)]
  | .delta4 => [(.sym .pre, 4)]
  | .delta5 => [(.sym .pre, 5)]
  | .delta6 => [(.sym .pre, 6)]
  | .delta7 => [(.sym .pre, 7)]
  | .delta8 => [(.sym .pre, 8)]
  | .delta9 => [(.sym .pre, 9)]
  | .delta10 => [(.sym .pre, 10)]
  | .delta11 => [(.sym .pre, 11)]
  | .delta12 => [(.sym .pre, 12)]
  | .delta13 => [(.sym .pre, 13)]
  | .delta14 => [(.sym .pre, 14)]
  | .delta15 => [(.sym .pre, 15)]
  | .delta16 => [(.sym .pre, 16)]
  | .zrun4 k => [(.sym .pre, 17), (.bits 4, k.toNat)]
  | .zrun20 k => [(.sym .pre, 18), (.bits 5, k.toNat)]
  | .srun k z2 => [(.sym .pre, 19), (.bits 1, k.toNat), (.sym .pre, z2)]
  | .lit b => [(.sym .main, b.toNat)]
  | .matchS0 hdr => [(.sym .main, matchSym 0 hdr)]
  | .matchS1 hdr => [(.sym .main, matchSym 1 hdr)]
  | .matchS2 hdr => [(.sym .main, matchSym 2 hdr)]
  | .matchS3 hdr => [(.sym .main, matchSym 3 hdr)]
  | .matchS4 hdr => [(.sym .main, matchSym 4 hdr)]
  | .matchS5 hdr => [(.sym .main, matchSym 5 hdr)]
  | .matchS6 hdr => [(.sym .main, matchSym 6 hdr)]
  | .matchS7 hdr => [(.sym .main, matchSym 7 hdr)]
  | .matchS8 hdr => [(.sym .main, matchSym 8 hdr)]
  | .matchS9 hdr => [(.sym .main, matchSym 9 hdr)]
  | .matchS10 hdr => [(.sym .main, matchSym 10 hdr)]
  | .matchS11 hdr => [(.sym .main, matchSym 11 hdr)]
  | .matchS12 hdr => [(.sym .main, matchSym 12 hdr)]
  | .matchS13 hdr => [(.sym .main, matchSym 13 hdr)]
  | .matchS14 hdr => [(.sym .main, matchSym 14 hdr)]
  | .matchS15 hdr => [(.sym .main, matchSym 15 hdr)]
  | .matchS16 hdr => [(.sym .main, matchSym 16 hdr)]
  | .matchS17 hdr => [(.sym .main, matchSym 17 hdr)]
  | .matchS18 hdr => [(.sym .main, matchSym 18 hdr)]
  | .matchS19 hdr => [(.sym .main, matchSym 19 hdr)]
  | .matchS20 hdr => [(.sym .main, matchSym 20 hdr)]
  | .matchS21 hdr => [(.sym .main, matchSym 21 hdr)]
  | .matchS22 hdr => [(.sym .main, matchSym 22 hdr)]
  | .matchS23 hdr => [(.sym .main, matchSym 23 hdr)]
  | .matchS24 hdr => [(.sym .main, matchSym 24 hdr)]
  | .matchS25 hdr => [(.sym .main, matchSym 25 hdr)]
  | .matchS26 hdr => [(.sym .main, matchSym 26 hdr)]
  | .matchS27 hdr => [(.sym .main, matchSym 27 hdr)]
  | .matchS28 hdr => [(.sym .main, matchSym 28 hdr)]
  | .matchS29 hdr => [(.sym .main, matchSym 29 hdr)]
  | .matchS30 hdr => [(.sym .main, matchSym 30 hdr)]
  | .matchS31 hdr => [(.sym .main, matchSym 31 hdr)]
  | .matchS32 hdr => [(.sym .main, matchSym 32 hdr)]
  | .matchS33 hdr => [(.sym .main, matchSym 33 hdr)]
  | .matchS34 hdr => [(.sym .main, matchSym 34 hdr)]
  | .matchS35 hdr => [(.sym .main, matchSym 35 hdr)]
  | .matchS36 hdr => [(.sym .main, matchSym 36 hdr)]
  | .matchS37 hdr => [(.sym .main, matchSym 37 hdr)]
  | .matchS38 hdr => [(.sym .main, matchSym 38 hdr)]
  | .matchS39 hdr => [(.sym .main, matchSym 39 hdr)]
  | .matchS40 hdr => [(.sym .main, matchSym 40 hdr)]
  | .matchS41 hdr => [(.sym .main, matchSym 41 hdr)]
  | .matchS42 hdr => [(.sym .main, matchSym 42 hdr)]
  | .matchS43 hdr => [(.sym .main, matchSym 43 hdr)]
  | .matchS44 hdr => [(.sym .main, matchSym 44 hdr)]
  | .matchS45 hdr => [(.sym .main, matchSym 45 hdr)]
  | .matchS46 hdr => [(.sym .main, matchSym 46 hdr)]
  | .matchS47 hdr => [(.sym .main, matchSym 47 hdr)]
  | .matchS48 hdr => [(.sym .main, matchSym 48 hdr)]
  | .matchS49 hdr => [(.sym .main, matchSym 49 hdr)]
  | .lsym l => [(.sym .len, l)]
  | .alsym a => [(.sym .al, a.toNat)]
  | .uncPad => []
  | .uncRWords w0 w1 w2 => [(.word32, w0.toNat), (.word32, w1.toNat), (.word32, w2.toNat)]
  | .uncPayload => []
  | .uncPadByte x => [(.byte, x.toNat)]

/-- The bits of one field in the order in which its mode reads them; a symbol without a code word has none. -/
def fieldBits (codes : Codes) (f : Field) (v : Nat) : Option (List Bool) :=
  match f with
  | .bits n => some (toBits n v)
  | .byte => some (toBits 8 v)
  | .word32 => some (toBits 8 v ++ toBits 8 (v / 2 ^ 8) ++ toBits 8 (v / 2 ^ 16) ++ toBits 8 (v / 2 ^ 24))
  | .sym t => match (codes t).find? fun c => c.sym == v with
    | some c => some c.bits
    | none => none

/-- The bits of a field list, each field after the one before it. -/
def fieldsBits (codes : Codes) : List (Field × Nat) → Option (List Bool)
  | [] => some []
  | (f, v) :: rest => match fieldBits codes f v, fieldsBits codes rest with
    | some a, some b => some (a ++ b)
    | _, _ => none

/-- The bits of an instruction under the codes in force. -/
def encodeBits (codes : Codes) (i : Instr) : Option (List Bool) := fieldsBits codes (encode i)

end Sys2Proof
end

