-- ==== Sys2Proof/Machine/State.lean ====
section
/-! DEFINITION. The state of the LZX frame decoder as plain data: every piece of state of spec/10_state.md, the host's
side of the interface (commands, pull replies, output buffer), and the decoder's place inside a command. Then its values
after construction, which is the block's reset (spec/70_reset_and_hazards.md R320, R321). -/

namespace Sys2Proof.Machine

/-- A byte-addressed memory: address and byte pairs, addresses strictly rising. An address that is not listed holds no
value: a window byte never written (spec/10_state.md R28), an output byte that is still the host's
(spec/20_memory.md R65). So no listed entry can equal what an unlisted address reads as. -/
abbrev Memory := List Host.Cell

/-- The canonical form: addresses strictly rising. -/
abbrev Memory.wf (m : Memory) : Prop := m.Pairwise fun c d => c.1 < d.1

/-- A decode table (spec/10_state.md R43): the lengths it was last built from, whose canonical code it is
(spec/41_huffman.md R161, R163), and the flag `empty`. A table not built yet has no lengths, so no code word. -/
structure Table where
  lens : List Nat
  empty : Bool
deriving DecidableEq, Repr

/-- The reset value of a table: not built (R43). -/
def Table.notBuilt : Table := ⟨[], false⟩

/-- `block_type` (spec/10_state.md R34), `noBlock` being its reset value "none (no block)". -/
inductive BlockType where
  | noBlock
  | verbatim
  | aligned
  | uncompressed
deriving DecidableEq, Repr

/-- The decoder status (spec/10_state.md R25). -/
inductive Status where
  | ready
  | done
  | failed (e : ErrKind)
deriving DecidableEq, Repr

/-- What a host command returned (spec/42_frame_blocks.md R190, spec/70_reset_and_hazards.md R320). -/
inductive Result where
  | constructed
  | ok (frameSize : Nat)
  | err (e : ErrKind)
  | refused
deriving DecidableEq, Repr

/-- What the host does to the decoder next: one of the two commands (spec/30_encoding.md R90), or the end of the decoder
(spec/70_reset_and_hazards.md R324), which is no command and has no row in the opcode table. -/
inductive HostCmd where
  | construct (windowBits resetInterval : Nat)
  | decodeFrame (outSize : Nat)
  | destroy
deriving DecidableEq, Repr

/-- The host's answer to a pull request (spec/40_bitreader.md R133): bytes, none of them meaning end of input, or an
error of its own. -/
inductive Answer where
  | data (bytes : List Byte)
  | error (e : HostError)
deriving DecidableEq, Repr

/-- One pull reply; `reentrant` says that the host issued a `DecodeFrame` to the same decoder while answering
(spec/70_reset_and_hazards.md R326). -/
structure Reply where
  reentrant : Bool
  answer : Answer
deriving DecidableEq, Repr

/-- The length-list being read (spec/42_frame_blocks.md R199): main symbols 0..255, main symbols 256..NMAIN-1, length
symbols 0..248. -/
inductive LenList where
  | mainLow
  | mainHigh
  | length
deriving DecidableEq, Repr

/-- Where the decoder stands inside a host command: the program position that the pseudocode of spec/42_frame_blocks.md
R193–R203 has between two elements. `idle` is between commands. -/
inductive Ctl where
  | idle
  | e8Header
  | blockLoop
  | blockHeader
  | alignLens
  | preLens
  | lenCodes
  | lenSym
  | alSym
  | uncPad
  | uncWords
deriving DecidableEq, Repr

/-- The locals of a match between its elements (spec/43_symbols_matches.md R233): its slot, its length once known, and
the verbatim high bits of its offset (R242). -/
structure Pending where
  slot : Nat
  length : Nat
  hi : Nat
deriving DecidableEq, Repr

/-- The state. The groups follow the sections of spec/10_state.md; INVENTORY.md lists every field with its rule. -/
structure State where
  mode : Mode
  pos : Nat
  eof : Bool
  inp : List Byte
  nreal : Nat
  status : Status
  refused : Bool
  windowBits : Nat
  resetInterval : Nat
  inbufSize : Nat
  window : Memory
  totalWritten : Nat
  outTotal : Nat
  windowPos : Nat
  framePos : Nat
  frameIndex : Nat
  r0 : Word32
  r1 : Word32
  r2 : Word32
  blockType : BlockType
  blockLength : Word24
  blockRemaining : Word24
  e8Magic : Word32
  headerRead : Bool
  lMain : List Len
  lLen : List Len
  lAl : List (BitVec 3)
  lPre : List (BitVec 4)
  tPre : Table
  tMain : Table
  tLen : Table
  tAl : Table
  out : Memory
  alive : Bool
  cmds : List HostCmd
  replies : List Reply
  result : Option Result
  ctl : Ctl
  produced : Nat
  lenList : LenList
  lenPos : Nat
  fieldIdx : Nat
  pend : Pending
deriving DecidableEq, Repr

/-- Why the machine stops. Every error the spec names is no stop: it is a next state with the status `Failed`
(spec/60_exceptions.md R310). -/
inductive Fault where
  /-- Raised by a pull request that the host never answers (the reply list is used up): the command has no next step
  (spec/93_implementation_defined.md U13). Safe: nothing is claimed of a host that answers later. -/
  | hostSilent
  /-- Raised by a window access at an index of `W` or more, which spec/20_memory.md R60 says does not exist. No state
  that a run reaches raises it (spec/43_symbols_matches.md R230). Safe. -/
  | windowIndex
  /-- Raised by an output access at an index of 32768 or more, outside the buffer of spec/20_memory.md R66. No state
  that a run reaches raises it. Safe. -/
  | outputIndex
deriving DecidableEq, Repr

/-- Why an instruction has no meaning. -/
inductive Refusal where
  /-- Raised by exec for an instruction without a meaning yet; no arm does. Safe. -/
  | notModelled (mnemonic : String)
deriving DecidableEq, Repr

/-- `W`, the window size (spec/00_scope.md R6). -/
abbrev State.winSize (s : State) : Nat := 2 ^ s.windowBits

/-- `NMAIN` of the state (spec/10_state.md R27). -/
abbrev State.nmain (s : State) : Nat := Sys2Proof.nmain s.windowBits

/-- Every field at its value after `Construct` with the given parameters (spec/70_reset_and_hazards.md R321 and the
table of spec/10_state.md section 13). The spec gives `e8_magic`, `L_al` and `L_pre` no value and says they are never
read before they are written: 0 stands there (DESIGN CHOICE, notes/assumptions/5.md). -/
def State.fresh (windowBits resetInterval : Nat) : State where
  mode := .bitstream
  pos := 0
  eof := false
  inp := []
  nreal := 0
  status := .ready
  refused := false
  windowBits := windowBits
  resetInterval := resetInterval
  inbufSize := Config.resetInbufSize
  window := []
  totalWritten := 0
  outTotal := 0
  windowPos := 0
  framePos := 0
  frameIndex := 0
  r0 := 1
  r1 := 1
  r2 := 1
  blockType := .noBlock
  blockLength := 0
  blockRemaining := 0
  e8Magic := 0
  headerRead := false
  lMain := List.replicate (Sys2Proof.nmain windowBits) 0
  lLen := List.replicate Config.lenSymbols 0
  lAl := List.replicate Config.alSymbols 0
  lPre := List.replicate Config.preSymbols 0
  tPre := Table.notBuilt
  tMain := Table.notBuilt
  tLen := Table.notBuilt
  tAl := Table.notBuilt
  out := []
  alive := true
  cmds := []
  replies := []
  result := none
  ctl := .idle
  produced := 0
  lenList := .mainLow
  lenPos := 0
  fieldIdx := 0
  pend := ⟨0, 0, 0⟩

/-- The machine right after reset: a decoder just constructed, with the parameters of Config (notes/assumptions/4.md),
whose host has issued no command and lined up no reply. -/
def State.reset : State := State.fresh Config.resetWindowBits Config.resetInterval

end Sys2Proof.Machine
end

