-- ==== Sys2Proof/Machine/Flags.lean ====
section
/-! DEFINITION. The flags (spec/10_state.md R44: there are no condition codes; the flags are `mode`, `eof`,
`header_read`, `T_len.empty` and the status) and every condition the rules test on them. Each flag is written by the
operations named here and by no other. -/

namespace Sys2Proof.Machine

/-- `mode <- Bytestream` with `pos` turned from bits to bytes (spec/40_bitreader.md R141). -/
def State.enterByteMode (s : State) : State := { s with mode := .bytestream, pos := s.pos / 8 }

/-- `mode <- Bitstream` with `pos` turned from bytes to bits (spec/40_bitreader.md R142). -/
def State.enterBitMode (s : State) : State := { s with mode := .bitstream, pos := s.pos * 8 }

/-- `header_read <- true` with the `e8_magic` of the header (spec/42_frame_blocks.md R194). -/
def State.setHeader (s : State) (magic : Word32) : State := { s with e8Magic := magic, headerRead := true }

/-- The condition under which a `DecodeFrame` has a meaning: a decoder exists and runs no command
(spec/70_reset_and_hazards.md R320, R326), its status is `Ready` (spec/42_frame_blocks.md R191) and the output buffer
holds at least 32768 bytes (R327). -/
def State.accepts (s : State) (outSize : Nat) : Bool :=
  s.alive && (s.ctl == .idle) && (s.status == .ready) && decide (Config.frameSize ≤ outSize)

/-- The periodic-reset test (spec/42_frame_blocks.md R192). -/
def State.resetDue (s : State) : Bool := s.resetInterval != 0 && s.frameIndex % s.resetInterval == 0

/-- The mark and the result of a command without meaning (spec/10_state.md R26, spec/42_frame_blocks.md R191). -/
def State.refuse (s : State) : State := { s with refused := true, result := some .refused }

end Sys2Proof.Machine
end

