-- ==== Sys2Proof/Machine/Ops.lean ====
section
/-! DEFINITION. The named operations over the three address spaces (spec/20_memory.md), the reader
(spec/40_bitreader.md), the decode tables (spec/41_huffman.md), and the entry into an error (spec/60_exceptions.md
R310), each written once. There is no return from an error (R312). -/

namespace Sys2Proof.Machine

/-! ## Outcomes inside a command -/

/-- What an operation inside a command ends in: a value and the state after it; an error kind raised
(spec/00_scope.md R17) with the state at that point; or a stop of the machine. -/
inductive Res (α : Type) where
  | ok (a : α) (s : State)
  | raise (e : ErrKind) (s : State)
  | stop (f : Fault)

/-- One operation after another: what is raised ends the command at once (spec/60_exceptions.md R290). -/
def Res.bind {α β : Type} (r : Res α) (k : α → State → Res β) : Res β :=
  match r with
  | .ok a s => k a s
  | .raise e s => .raise e s
  | .stop f => .stop f

/-- Entering an error (spec/60_exceptions.md R310): the status becomes `Failed`, the command returns the error kind, and
no later step of it runs. Every other piece of state keeps what the steps before wrote; no output byte is written
(R311). -/
def State.takeError (s : State) (e : ErrKind) : State :=
  { s with status := .failed e, result := some (.err e), ctl := .idle }

/-- The outcome of a meaning. -/
def Res.finish (r : Res Unit) : Host.Outcome State Fault Refusal :=
  match r with
  | .ok _ s => .next s
  | .raise e s => .next (s.takeError e)
  | .stop f => .fault f

/-! ## Memory -/

/-- The byte at an address; none where nothing is listed. -/
def Memory.read (m : Memory) (i : Nat) : Option Byte :=
  match m with
  | [] => none
  | c :: rest => if c.1 = i then some c.2 else Memory.read rest i

/-- Write one byte, keeping the canonical form. -/
def Memory.write (m : Memory) (i : Nat) (v : Byte) : Memory :=
  match m with
  | [] => [(i, v)]
  | c :: rest =>
    if i < c.1 then (i, v) :: c :: rest
    else if i = c.1 then (i, v) :: rest
    else c :: Memory.write rest i v

/-- `WinRead(i)` (spec/20_memory.md R61): a byte that holds no value raises `UndefinedWindowRead`. -/
def winRead (i : Nat) (s : State) : Res Byte :=
  if i < s.winSize then
    match Memory.read s.window i with
    | some v => .ok v s
    | none => .raise .undefinedWindowRead s
  else .stop .windowIndex

/-- `WinWrite(window_pos, v)` and the step of `window_pos` that follows each of its uses
(spec/43_symbols_matches.md R231, R245, R248; spec/20_memory.md R61). -/
def State.put (s : State) (v : Byte) : State :=
  { s with
    window := Memory.write s.window s.windowPos v
    windowPos := s.windowPos + 1
    totalWritten := s.totalWritten + 1 }

/-- The window write at `window_pos`, which must lie in the window (spec/20_memory.md R60). -/
def putByte (v : Byte) (s : State) : Res Unit :=
  if s.windowPos < s.winSize then .ok () (s.put v) else .stop .windowIndex

/-- `OutWrite` (spec/20_memory.md R66) of a run of bytes from index `i` on. -/
def outWrite (i : Nat) (bytes : List Byte) (s : State) : Res Unit :=
  match bytes with
  | [] => .ok () s
  | v :: rest =>
    if i < Config.frameSize then outWrite (i + 1) rest { s with out := Memory.write s.out i v }
    else .stop .outputIndex

/-- `block_remaining` and `produced` after `n` bytes (spec/43_symbols_matches.md R231, R247, R248). -/
def State.consume (s : State) (n : Nat) : State :=
  { s with blockRemaining := s.blockRemaining - BitVec.ofNat 24 n, produced := s.produced + n }

/-- Where the decoder goes next inside the command. -/
def State.goto (s : State) (c : Ctl) : State := { s with ctl := c }

/-! ## Input pulls -/

/-- The state after a reply of `bytes`, the first empty one meaning end of input and adding the two synthesized zero
bytes (spec/40_bitreader.md R134). -/
def State.feed (s : State) (bytes : List Byte) : State :=
  match bytes with
  | [] => { s with eof := true, inp := s.inp ++ [0, 0] }
  | _ :: _ => { s with inp := s.inp ++ bytes, nreal := s.nreal + bytes.length }

/-- What the host's answer to a pull request does (spec/40_bitreader.md R134, R135, R137). -/
def takeAnswer (a : Answer) (s : State) : Res Unit :=
  match a with
  | .error e => .raise (.callbackError e) s
  | .data bytes => if s.inbufSize < bytes.length then .raise .callbackOverflow s else .ok () (s.feed bytes)

/-- A reply: a `DecodeFrame` issued while the host answers is refused (spec/70_reset_and_hazards.md R326), then the
answer. -/
def takeReply (r : Reply) (s : State) : Res Unit := takeAnswer r.answer (if r.reentrant then s.refuse else s)

/-- `Pull()` (spec/40_bitreader.md R134, R149). A host that never answers leaves the command without a next step
(spec/93_implementation_defined.md U13). -/
def pull (s : State) : Res Unit :=
  if s.eof then .raise .prematureEOF s
  else match s.replies with
    | [] => .stop .hostSilent
    | r :: rs => takeReply r { s with replies := rs }

/-- The loop of `Fetch(i)` (spec/40_bitreader.md R136): pull while byte `i` is missing. Each pull uses up a reply, so
`fuel`, their number, ends the loop by itself: with no reply left `Pull` has no value. -/
def fetchLoop (i : Nat) (fuel : Nat) (s : State) : Res Unit :=
  if i < s.inp.length then .ok () s
  else match fuel with
    | 0 => pull s
    | fuel + 1 => (pull s).bind fun _ s' => fetchLoop i fuel s'

/-- `Fetch(i)` (spec/40_bitreader.md R136). -/
def fetchByte (i : Nat) (s : State) : Res Unit := fetchLoop i s.replies.length s

/-- The pull loop of `EofAtBoundary` (spec/40_bitreader.md R148), with the same fuel as `fetchLoop`. -/
def eofLoop (q : Nat) (fuel : Nat) (s : State) : Res Bool :=
  if s.nreal ≤ q ∧ s.eof = false then
    match fuel with
    | 0 => (pull s).bind fun _ s' => .ok (decide (s'.nreal ≤ q)) s'
    | fuel + 1 => (pull s).bind fun _ s' => eofLoop q fuel s'
  else .ok (decide (s.nreal ≤ q)) s

/-- The first byte at which a next block header could start (spec/40_bitreader.md R148). -/
def State.boundaryByte (s : State) : Nat :=
  match s.mode with
  | .bitstream => 2 * ((s.pos + 15) / 16)
  | .bytestream => s.pos + s.pos % 2

/-- `EofAtBoundary()` (spec/40_bitreader.md R148). -/
def eofAtBoundary (s : State) : Res Bool := eofLoop s.boundaryByte s.replies.length s

/-! ## Bit and byte reads -/

/-- `Need(n)` (spec/40_bitreader.md R138). -/
def need (n : Nat) (s : State) : Res Unit :=
  if n = 0 then .ok () s else fetchByte (2 * ((s.pos + n - 1) / 16) + 1) s

/-- The `n` bits of `B` from bit `p` on, most significant first (spec/40_bitreader.md R132, R140). -/
def bitsFrom (bytes : List Byte) (p n : Nat) : List Bool := (List.range n).map fun i => bitAt bytes (p + i)

/-- `Peek(n)` (spec/40_bitreader.md R140). -/
def State.peek (s : State) (n : Nat) : Nat := ofBits (bitsFrom s.inp s.pos n)

/-- `ReadBits(n)` (spec/40_bitreader.md R139, R144). -/
def readBits (n : Nat) (s : State) : Res Nat :=
  match s.mode with
  | .bytestream => .raise .wrongMode s
  | .bitstream => (need n s).bind fun _ s => .ok (s.peek n) { s with pos := s.pos + n }

/-- `ReadByte()` (spec/40_bitreader.md R144, R145). -/
def readByte (s : State) : Res Byte :=
  match s.mode with
  | .bitstream => .raise .wrongMode s
  | .bytestream => (fetchByte s.pos s).bind fun _ s => .ok (s.inp.getD s.pos 0) { s with pos := s.pos + 1 }

/-- `ReadU32LE()` (spec/40_bitreader.md R146). -/
def readU32LE (s : State) : Res Nat :=
  (readByte s).bind fun b0 s => (readByte s).bind fun b1 s => (readByte s).bind fun b2 s =>
    (readByte s).bind fun b3 s => .ok (leWord b0.toNat b1.toNat b2.toNat b3.toNat) s

/-! ## Mode switches -/

/-- The bits `ToByteMode` discards: 1 to 16, up to the next unit boundary (spec/40_bitreader.md R141,
spec/90_conflicts.md C1). -/
def padBits (pos : Nat) : Nat := if pos % 16 = 0 then 16 else 16 - pos % 16

/-- `ToByteMode()` (spec/40_bitreader.md R141). -/
def toByteMode (s : State) : Res Unit :=
  match s.mode with
  | .bytestream => .ok () s
  | .bitstream => (need (padBits s.pos) s).bind fun _ s =>
      if s.peek (padBits s.pos) = 0 then .ok () { s with pos := s.pos + padBits s.pos }.enterByteMode
      else .raise .badPadding s

/-- `ToBitMode()` (spec/40_bitreader.md R142): an odd byte position skips one pad byte, unchecked. -/
def toBitMode (s : State) : Res Unit :=
  match s.mode with
  | .bitstream => .ok () s
  | .bytestream =>
    if s.pos % 2 = 1 then
      (fetchByte s.pos s).bind fun _ s => .ok () { s with pos := s.pos + 1 }.enterBitMode
    else .ok () s.enterBitMode

/-- `Realign()` (spec/40_bitreader.md R143): the next unit boundary, in `Bitstream` mode only. -/
def State.realign (s : State) : State :=
  match s.mode with
  | .bitstream => if s.pos % 16 = 0 then s else { s with pos := s.pos + (16 - s.pos % 16) }
  | .bytestream => s

/-! ## Decode tables -/

/-- `Build(T, L, allow_empty)` (spec/41_huffman.md R162): the table, or `IncompleteHuffmanTree`. -/
def buildTable (lens : List Nat) (allowEmpty : Bool) : Except ErrKind Table :=
  if lens.all (· == 0) then
    if allowEmpty then .ok ⟨lens, true⟩ else .error .incompleteHuffmanTree
  else if kraftSum lens = 2 ^ 16 then .ok ⟨lens, false⟩
  else .error .incompleteHuffmanTree

/-- The table of a tree. -/
def State.table (s : State) (t : Tree) : Table :=
  match t with
  | .pre => s.tPre
  | .main => s.tMain
  | .len => s.tLen
  | .al => s.tAl

/-- Replace a whole table (spec/20_memory.md R82). -/
def State.setTable (s : State) (t : Tree) (tab : Table) : State :=
  match t with
  | .pre => { s with tPre := tab }
  | .main => { s with tMain := tab }
  | .len => { s with tLen := tab }
  | .al => { s with tAl := tab }

/-- The lengths a tree is built from (spec/41_huffman.md R160). -/
def State.lengths (s : State) (t : Tree) : List Nat :=
  match t with
  | .pre => s.lPre.map BitVec.toNat
  | .main => s.lMain.map Fin.val
  | .len => s.lLen.map Fin.val
  | .al => s.lAl.map BitVec.toNat

/-- Rebuild a tree's table from its lengths; only the length tree may be empty (R160, R162). -/
def rebuild (t : Tree) (s : State) : Res Unit :=
  match buildTable (s.lengths t) (t == .len) with
  | .ok tab => .ok () (s.setTable t tab)
  | .error e => .raise e s

/-- `ReadSym(T)` (spec/41_huffman.md R164–R166; the order of the checks is spec/60_exceptions.md R309 (d)). -/
def readSym (t : Tree) (s : State) : Res Nat :=
  if (s.table t).empty then .raise .emptyTableDecode s
  else match s.mode with
    | .bytestream => .raise .wrongMode s
    | .bitstream => (need 16 s).bind fun _ s =>
        match findCode (canonical (s.table t).lens) (s.peek 16) with
        | some c => .ok c.sym { s with pos := s.pos + c.len }
        | none => .raise .huffmanDecodeOverrun s

/-! ## Code-length lists -/

/-- First symbol of a length-list's range (spec/42_frame_blocks.md R199). -/
def LenList.first : LenList → Nat
  | .mainLow => 0
  | .mainHigh => Config.literals
  | .length => 0

/-- One past the last symbol of the range of the length-list being read (R199). -/
def State.listLast (s : State) : Nat :=
  match s.lenList with
  | .mainLow => Config.literals
  | .mainHigh => s.nmain
  | .length => Config.lenSymbols

/-- The length array the length-list writes. -/
def State.listLens (s : State) : List Len :=
  match s.lenList with
  | .mainLow | .mainHigh => s.lMain
  | .length => s.lLen

/-- Replace the length array the length-list writes. -/
def State.setListLens (s : State) (l : List Len) : State :=
  match s.lenList with
  | .mainLow | .mainHigh => { s with lMain := l }
  | .length => { s with lLen := l }

/-- `L[x .. x+n-1] <- v`. -/
def setRun (l : List Len) (x : Nat) (n : Nat) (v : Len) : List Len :=
  match n with
  | 0 => l
  | n + 1 => setRun (l.set x v) (x + 1) n v

end Sys2Proof.Machine
end

