-- ==== Sys2Proof/Machine/Operands.lean ====
section
/-! DEFINITION. How every operand is assembled (spec/30_encoding.md R99–R105): the static tables of the position slots,
the offset and length of a match, the repeat-offset registers, the delta-coded lengths, and the little-endian signed
operand of the E8 pass. -/

namespace Sys2Proof.Machine

/-! ## Position slots -/

/-- `extra_bits[slot]` (spec/30_encoding.md R101; PRESUMED by the spec, notes/assumptions/12.md). -/
def extraBits (slot : Nat) : Nat := if slot < 4 then 0 else if slot < 36 then (slot - 2) / 2 else 17

/-- `position_base[slot]` (spec/30_encoding.md R102; PRESUMED by the spec, notes/assumptions/12.md). -/
def positionBase : Nat → Nat
  | 0 => 0
  | s + 1 => positionBase s + 2 ^ extraBits s

/-- The offset of an explicit slot from its extra value (spec/30_encoding.md R103). -/
def explicitOffset (slot extra : Nat) : Nat := positionBase slot - 2 + extra

/-- The match length from the length header, when no length-tree symbol follows (spec/30_encoding.md R104). -/
def shortLength (hdr : BitVec 3) : Nat := hdr.toNat + 2

/-- The match length from the length-tree symbol after a length header of 7 (spec/30_encoding.md R104). -/
def longLength (lsym : Nat) : Nat := 9 + lsym

/-- The extra value of an Aligned block's offset: verbatim high bits above the aligned symbol
(spec/43_symbols_matches.md R241, R242). -/
def alignedExtra (hi : Nat) (a : BitVec 3) : Nat := (hi <<< 3) + a.toNat

/-- `m`, the number of verbatim bits a slot reads, and whether an aligned symbol follows them, by block type
(spec/30_encoding.md R103). -/
def offsetFields (bt : BlockType) (slot : Nat) : Nat × Bool :=
  if bt = .aligned ∧ 3 ≤ extraBits slot then (extraBits slot - 3, true) else (extraBits slot, false)

/-! ## Repeat-offset registers -/

/-- Slot 1: `R0` and `R1` swap (spec/43_symbols_matches.md R236, spec/90_conflicts.md C3). -/
def State.swapR1 (s : State) : State := { s with r0 := s.r1, r1 := s.r0 }

/-- Slot 2: `R0` and `R2` swap (spec/43_symbols_matches.md R237, spec/90_conflicts.md C3). -/
def State.swapR2 (s : State) : State := { s with r0 := s.r2, r2 := s.r0 }

/-- An explicit offset is shifted in (spec/43_symbols_matches.md R243). -/
def State.shiftR (s : State) (offset : Nat) : State :=
  { s with r0 := BitVec.ofNat 32 offset, r1 := s.r0, r2 := s.r1 }

/-- The three registers loaded at once (spec/42_frame_blocks.md R201, R192). -/
def State.loadR (s : State) (w0 w1 w2 : Word32) : State := { s with r0 := w0, r1 := w1, r2 := w2 }

/-! ## Code lengths -/

/-- The new length of a delta code, `(prev - z) mod 17` (spec/41_huffman.md R168). -/
def deltaLen (prev : Len) (z : Nat) : Len := prev - Fin.ofNat 17 z

/-- The length that the symbol at the place of the length-list had before (R168). -/
def State.prevLen (s : State) : Len := s.listLens.getD s.lenPos 0

/-! ## E8 operands -/

/-- The operand of an `0xE8` byte: four bytes, little-endian, signed (spec/44_e8_postprocess.md R273). -/
def e8Operand (b0 b1 b2 b3 : Byte) : Int := (BitVec.ofNat 32 (leWord b0.toNat b1.toNat b2.toNat b3.toNat)).toInt

/-- The rewritten operand when it is in range (spec/44_e8_postprocess.md R275, R276), `cur` being `file_pos`. -/
def e8Rel (abs cur magic : Int) : Option Word32 :=
  if -cur ≤ abs ∧ abs < magic then
    some (BitVec.ofInt 32 (if 0 ≤ abs then abs - cur else abs + magic))
  else none

/-- The four operand bytes after the pass, little-endian (R276), or as they were (R275). -/
def e8Bytes (b0 b1 b2 b3 : Byte) (cur magic : Int) : List Byte :=
  match e8Rel (e8Operand b0 b1 b2 b3) cur magic with
  | some w => [leByte w 0, leByte w 1, leByte w 2, leByte w 3]
  | none => [b0, b1, b2, b3]

end Sys2Proof.Machine
end

