-- ==== Sys2Proof/Machine/HostCommands.lean ====
section
/-! DEFINITION. The two host commands (spec/70_reset_and_hazards.md R320, spec/42_frame_blocks.md R190–R193), the end of
a decoder (spec/70_reset_and_hazards.md R324), and the end of a frame: steps 4 to 7 and the return (R204–R208), with the
Intel E8 pass (spec/44_e8_postprocess.md). -/

namespace Sys2Proof.Machine

/-! ## Construct -/

/-- The decoder after `Construct` (spec/70_reset_and_hazards.md R320): every piece of its state at its reset value. What
is the host's own stays: the output buffer, the pull replies to come (the callback), the commands to come, and
`INBUF_SIZE`, which no operand of `Construct` sets (notes/assumptions/7.md). -/
def State.constructed (s : State) (wb ri : Nat) : State :=
  { State.fresh wb ri with
    inbufSize := s.inbufSize
    out := s.out
    cmds := s.cmds
    replies := s.replies
    result := some .constructed }

/-- `Construct(read_callback, window_bits, reset_interval)` (R320). Out of range it is refused and no decoder exists;
while a command runs it is refused (spec/93_implementation_defined.md U11). -/
def execConstruct (wb ri : Nat) (s : State) : Host.Outcome State Fault Refusal :=
  if s.ctl ≠ .idle then .next s.refuse
  else if wb < 15 ∨ 21 < wb then .next { s.refuse with alive := false }
  else .next (s.constructed wb ri)

/-! ## Destruction -/

/-- The machine after its decoder is destroyed (spec/70_reset_and_hazards.md R324): no state of the decoder survives, and
none exists. What is the host's own stays, as at a construction (notes/assumptions/22.md). -/
def State.destroyed (s : State) : State :=
  { s.constructed Config.resetWindowBits Config.resetInterval with alive := false, result := none }

/-- The host destroys the decoder; with none to destroy the act has no meaning (notes/assumptions/22.md). -/
def State.destroy (s : State) : State := if s.alive then s.destroyed else s.refuse

/-! ## DecodeFrame: the start of a command -/

/-- What the periodic reset changes, and nothing else (spec/42_frame_blocks.md R192, spec/20_memory.md R63). -/
def State.periodicReset (s : State) : State :=
  { s.loadR 1 1 1 with
    lMain := List.replicate s.nmain 0
    lLen := List.replicate Config.lenSymbols 0
    headerRead := false }

/-- Step 1 of a command (spec/42_frame_blocks.md R192). -/
def resetStep (s : State) : Res Unit :=
  if s.resetDue then
    if s.blockRemaining ≠ 0 then .raise .inconsistentResetState s else .ok () s.periodicReset
  else .ok () s

/-- Where a command goes after step 1: the E8 header if it is not read yet (R194), else the block loop (R195). -/
def State.afterReset (s : State) : State := s.goto (if s.headerRead then .blockLoop else .e8Header)

/-- `DecodeFrame(out)` (R190, R193): refused (R191, R326, R327), or step 1 of the command, after which the elements of
the frame are decoded one a step. -/
def execDecodeFrame (outSize : Nat) (s : State) : Host.Outcome State Fault Refusal :=
  if s.accepts outSize then
    ((resetStep { s with produced := 0 }).bind fun _ s => .ok () s.afterReset).finish
  else .next s.refuse

/-! ## The Intel E8 pass -/

/-- The scan of spec/44_e8_postprocess.md R270 over the frame's bytes from index `i` on; `lim = frame_size - 10` ends it
(R272), `total` is `out_total` (R274). After every `0xE8` it moves on by 5 (R277). -/
def e8Scan (magic : Int) (total lim : Nat) (i : Nat) (bytes : List Byte) : List Byte :=
  match bytes with
  | b :: b0 :: b1 :: b2 :: b3 :: rest =>
    if lim ≤ i then bytes
    else if b = 0xE8 then
      b :: (e8Bytes b0 b1 b2 b3 (total + i : Nat) magic ++ e8Scan magic total lim (i + 5) rest)
    else b :: e8Scan magic total lim (i + 1) (b0 :: b1 :: b2 :: b3 :: rest)
  | _ => bytes

/-- `E8Pass` on the output bytes of the frame (R270, R271). -/
def State.e8Pass (s : State) (bytes : List Byte) : List Byte :=
  if s.e8Magic = 0 ∨ 32768 ≤ s.frameIndex then bytes
  else e8Scan s.e8Magic.toInt s.outTotal (bytes.length - 10) 0 bytes

/-! ## The end of a frame -/

/-- The `n` window bytes from index `i` on (spec/42_frame_blocks.md R204). -/
def readWindow (i n : Nat) (s : State) : Res (List Byte) :=
  match n with
  | 0 => .ok [] s
  | n + 1 => (winRead i s).bind fun v s => (readWindow (i + 1) n s).bind fun vs s => .ok (v :: vs) s

/-- An index brought back to 0 when it reaches `W` (spec/42_frame_blocks.md R207). -/
def wrapAt (w i : Nat) : Nat := if i = w then 0 else i

/-- Step 7 (R207) for a frame of `n` bytes, and the return (R208): `Done` after an empty frame, `Ready` otherwise. -/
def State.endFrame (s : State) (n : Nat) : State :=
  { s with
    framePos := wrapAt s.winSize (s.framePos + n)
    windowPos := wrapAt s.winSize s.windowPos
    outTotal := s.outTotal + n
    frameIndex := s.frameIndex + 1
    status := if n = 0 then .done else s.status
    result := some (.ok n)
    ctl := .idle
    produced := 0 }

/-- Steps 4 to 7 of a command and its return (R204–R208): the frame's bytes are copied to the output buffer, E8
translated there, the reader is realigned and the counters advance. -/
def completeFrame (s : State) : Res Unit :=
  (readWindow s.framePos s.produced s).bind fun bytes s =>
    (outWrite 0 (s.e8Pass bytes) s).bind fun _ s => .ok () (s.realign.endFrame s.produced)

end Sys2Proof.Machine
end

