-- ==== Sys2Proof/Machine/Headers.lean ====
section
/-! DEFINITION. The E8 header and the block headers (spec/42_frame_blocks.md R194, R197–R201). The decoder has read the
header's bits when its meaning runs. -/

namespace Sys2Proof.Machine

/-- The E8 header is read; the block loop follows (spec/42_frame_blocks.md R193, R194). -/
def e8Header (magic : Word32) (s : State) : Res Unit := .ok () ((s.setHeader magic).goto .blockLoop)

/-- `f = 0`: `e8_magic <- 0` (R194). -/
def execE8hdrOff (s : State) : Host.Outcome State Fault Refusal := (e8Header 0 s).finish

/-- `f = 1`: `e8_magic` from the stream (R194). -/
def execE8hdrOn (magic : Word32) (s : State) : Host.Outcome State Fault Refusal := (e8Header magic s).finish

/-- The length fields of a block header (R197). -/
def State.setBlock (s : State) (len : Word24) : State := { s with blockLength := len, blockRemaining := len }

/-- Start reading a length-list: its twenty pretree lengths come first (spec/41_huffman.md R167). -/
def State.beginList (s : State) (l : LenList) : State :=
  { s with lenList := l, lenPos := l.first, fieldIdx := 0, ctl := .preLens }

/-- A header whose type is no block type raises `UnknownBlockType` (R197, R198). -/
def unknownBlock (len : Word24) (s : State) : Res Unit := .raise .unknownBlockType (s.setBlock len)

def execBlockType0 (len : Word24) (s : State) : Host.Outcome State Fault Refusal := (unknownBlock len s).finish

def execBlockType4 (len : Word24) (s : State) : Host.Outcome State Fault Refusal := (unknownBlock len s).finish

def execBlockType5 (len : Word24) (s : State) : Host.Outcome State Fault Refusal := (unknownBlock len s).finish

def execBlockType6 (len : Word24) (s : State) : Host.Outcome State Fault Refusal := (unknownBlock len s).finish

def execBlockType7 (len : Word24) (s : State) : Host.Outcome State Fault Refusal := (unknownBlock len s).finish

/-- A Verbatim block: its three length-lists follow (R197, R199). -/
def execBlockVerbatim (len : Word24) (s : State) : Host.Outcome State Fault Refusal :=
  .next ({ s.setBlock len with blockType := .verbatim }.beginList .mainLow)

/-- An Aligned block: its eight aligned lengths follow (R197, R200). -/
def execBlockAligned (len : Word24) (s : State) : Host.Outcome State Fault Refusal :=
  .next { s.setBlock len with blockType := .aligned, fieldIdx := 0, ctl := .alignLens }

/-- An Uncompressed block: its padding and three words follow (R197, R201). -/
def execBlockUncompressed (len : Word24) (s : State) : Host.Outcome State Fault Refusal :=
  .next ({ s.setBlock len with blockType := .uncompressed }.goto .uncPad)

end Sys2Proof.Machine
end

