-- ==== Sys2Proof/Machine/Lengths.lean ====
section
/-! DEFINITION. The tree sections of Verbatim and Aligned blocks: aligned lengths, pretree lengths and length codes
(spec/42_frame_blocks.md R199, R200, spec/41_huffman.md R167–R174). -/

namespace Sys2Proof.Machine

/-! ## The end of a length-list -/

/-- What follows a length-list (spec/42_frame_blocks.md R199): the next list, the main tree being built between the second
and the third, or, the length tree built, the block's elements. -/
def finishList (s : State) : Res Unit :=
  match s.lenList with
  | .mainLow => .ok () (s.beginList .mainHigh)
  | .mainHigh => (rebuild .main s).bind fun _ s => .ok () (s.beginList .length)
  | .length => (rebuild .len s).bind fun _ s => .ok () (s.goto .blockLoop)

/-- `L[x .. x+n-1] <- v; x <- x + n`, and the end of the list if the range is covered (spec/41_huffman.md R167). -/
def writeRun (n : Nat) (v : Len) (s : State) : Res Unit :=
  let s' := { s.setListLens (setRun s.listLens s.lenPos n v) with lenPos := s.lenPos + n }
  if s'.lenPos < s'.listLast then .ok () s' else finishList s'

/-- A run that would pass the end of its range raises `LengthRunOverrun` and writes no length (spec/41_huffman.md R172). -/
def checkedRun (n : Nat) (v : Len) (s : State) : Res Unit :=
  if s.listLast < s.lenPos + n then .raise .lengthRunOverrun s else writeRun n v s

/-! ## Aligned and pretree lengths -/

/-- One aligned length; after the eighth the aligned tree is built and the length-lists follow
(spec/42_frame_blocks.md R200). -/
def alignLength (a : BitVec 3) (s : State) : Res Unit :=
  let s' := { s with lAl := s.lAl.set s.fieldIdx a, fieldIdx := s.fieldIdx + 1 }
  if s'.fieldIdx < Config.alSymbols then .ok () s'
  else (rebuild .al s').bind fun _ s => .ok () (s.beginList .mainLow)

def execAlignlen (a : BitVec 3) (s : State) : Host.Outcome State Fault Refusal := (alignLength a s).finish

/-- One pretree length; after the twentieth the pretree is built and the length codes follow
(spec/41_huffman.md R167). -/
def preLength (p : BitVec 4) (s : State) : Res Unit :=
  let s' := { s with lPre := s.lPre.set s.fieldIdx p, fieldIdx := s.fieldIdx + 1 }
  if s'.fieldIdx < Config.preSymbols then .ok () s'
  else (rebuild .pre s').bind fun _ s => .ok () (s.goto .lenCodes)

def execPrelen (p : BitVec 4) (s : State) : Host.Outcome State Fault Refusal := (preLength p s).finish

/-! ## Length codes -/

/-- Length code `z` = 0..16: one symbol (spec/41_huffman.md R168). -/
def deltaCode (z : Nat) (s : State) : Res Unit := writeRun 1 (deltaLen s.prevLen z) s

def execDelta0 (s : State) : Host.Outcome State Fault Refusal := (deltaCode 0 s).finish

def execDelta1 (s : State) : Host.Outcome State Fault Refusal := (deltaCode 1 s).finish

def execDelta2 (s : State) : Host.Outcome State Fault Refusal := (deltaCode 2 s).finish

def execDelta3 (s : State) : Host.Outcome State Fault Refusal := (deltaCode 3 s).finish

def execDelta4 (s : State) : Host.Outcome State Fault Refusal := (deltaCode 4 s).finish

def execDelta5 (s : State) : Host.Outcome State Fault Refusal := (deltaCode 5 s).finish

def execDelta6 (s : State) : Host.Outcome State Fault Refusal := (deltaCode 6 s).finish

def execDelta7 (s : State) : Host.Outcome State Fault Refusal := (deltaCode 7 s).finish

def execDelta8 (s : State) : Host.Outcome State Fault Refusal := (deltaCode 8 s).finish

def execDelta9 (s : State) : Host.Outcome State Fault Refusal := (deltaCode 9 s).finish

def execDelta10 (s : State) : Host.Outcome State Fault Refusal := (deltaCode 10 s).finish

def execDelta11 (s : State) : Host.Outcome State Fault Refusal := (deltaCode 11 s).finish

def execDelta12 (s : State) : Host.Outcome State Fault Refusal := (deltaCode 12 s).finish

def execDelta13 (s : State) : Host.Outcome State Fault Refusal := (deltaCode 13 s).finish

def execDelta14 (s : State) : Host.Outcome State Fault Refusal := (deltaCode 14 s).finish

def execDelta15 (s : State) : Host.Outcome State Fault Refusal := (deltaCode 15 s).finish

def execDelta16 (s : State) : Host.Outcome State Fault Refusal := (deltaCode 16 s).finish

/-- Length code 17: `4 + k` zero lengths (spec/41_huffman.md R169). -/
def execZrun4 (k : BitVec 4) (s : State) : Host.Outcome State Fault Refusal := (checkedRun (4 + k.toNat) 0 s).finish

/-- Length code 18: `20 + k` zero lengths (R170). -/
def execZrun20 (k : BitVec 5) (s : State) : Host.Outcome State Fault Refusal := (checkedRun (20 + k.toNat) 0 s).finish

/-- Length code 19: `4 + k` symbols of one delta-coded length, its base the previous length of the run's first symbol
(R171); an inner symbol that is no delta raises `BadLengthCode` before the run's range is checked (R173). -/
def execSrun (k : BitVec 1) (z2 : Nat) (s : State) : Host.Outcome State Fault Refusal :=
  if 16 < z2 then (Res.raise .badLengthCode s).finish
  else (checkedRun (4 + k.toNat) (deltaLen s.prevLen z2) s).finish

end Sys2Proof.Machine
end

