-- ==== Sys2Proof/Machine/Symbols.lean ====
section
/-! DEFINITION. Literals and matches (spec/43_symbols_matches.md R230–R247). A match is up to three elements of the
stream: its main-tree symbol, a length-tree symbol if its length header is 7, and an aligned-tree symbol in an Aligned
block whose slot has three or more extra bits; its verbatim offset bits are read between the last two (R103). `pend`
carries its locals from one element to the next. -/

namespace Sys2Proof.Machine

/-! ## Literal -/

/-- `Literal(sym)` (R231). -/
def execLit (b : Byte) (s : State) : Host.Outcome State Fault Refusal :=
  ((putByte b s).bind fun _ s => .ok () ((s.consume 1).goto .blockLoop)).finish

/-! ## Checks and copy -/

/-- `MatchChecks` (R244): the first check that holds, in the spec's order. -/
def matchError (offset length : Nat) (s : State) : Option ErrKind :=
  if s.winSize ≤ offset then some .windowOverrun
  else if offset = 0 then some .zeroOffset
  else if s.totalWritten < offset then some .undefinedWindowRead
  else if s.winSize < s.windowPos + length then some .windowOverrun
  else if s.blockRemaining.toNat < length then some .blockOverrun
  else if Config.frameSize < s.produced + length then some .frameOverrun
  else none

/-- `(window_pos - offset) mod W`, the window index a match copies from (R245). -/
def State.sourceIndex (s : State) (offset : Nat) : Nat := (s.windowPos + s.winSize - offset) % s.winSize

/-- `CopyMatch` (R245): one byte at a time, so a byte just written can be read again. -/
def copyMatch (offset : Nat) (length : Nat) (s : State) : Res Unit :=
  match length with
  | 0 => .ok () s
  | n + 1 => (winRead (s.sourceIndex offset) s).bind fun b s =>
      (putByte b s).bind fun _ s => copyMatch offset n s

/-- The end of `Match` once offset and length are known and the registers are updated (R233, R244–R247). -/
def finishMatch (offset length : Nat) (s : State) : Res Unit :=
  match matchError offset length s with
  | some e => .raise e s
  | none => (copyMatch offset length s).bind fun _ s => .ok () ((s.consume length).goto .blockLoop)

/-! ## Offsets -/

/-- An explicit offset: the registers shift, then the checks and the copy (R238–R243). -/
def explicitMatch (slot extra length : Nat) (s : State) : Res Unit :=
  finishMatch (explicitOffset slot extra) length (s.shiftR (explicitOffset slot extra))

/-- `Match` from the point where its length is known: the offset fields of its slot (R233, R235–R242). -/
def matchOffset (slot length : Nat) (s : State) : Res Unit :=
  match slot with
  | 0 => finishMatch s.r0.toNat length s
  | 1 => finishMatch s.r1.toNat length s.swapR1
  | 2 => finishMatch s.r2.toNat length s.swapR2
  | slot =>
    (readBits (offsetFields s.blockType slot).1 s).bind fun v s =>
      if (offsetFields s.blockType slot).2 then .ok () { s with pend := ⟨slot, length, v⟩, ctl := .alSym }
      else explicitMatch slot v length s

/-- `Match(sym)` of a slot and length header (R233): with header 7 a length-tree symbol comes next (R232). -/
def startMatch (slot : Nat) (hdr : BitVec 3) (s : State) : Res Unit :=
  if hdr = 7 then .ok () { s with pend := ⟨slot, 0, 0⟩, ctl := .lenSym }
  else matchOffset slot (shortLength hdr) s

def execMatchS0 (hdr : BitVec 3) (s : State) : Host.Outcome State Fault Refusal := (startMatch 0 hdr s).finish

def execMatchS1 (hdr : BitVec 3) (s : State) : Host.Outcome State Fault Refusal := (startMatch 1 hdr s).finish

def execMatchS2 (hdr : BitVec 3) (s : State) : Host.Outcome State Fault Refusal := (startMatch 2 hdr s).finish

def execMatchS3 (hdr : BitVec 3) (s : State) : Host.Outcome State Fault Refusal := (startMatch 3 hdr s).finish

def execMatchS4 (hdr : BitVec 3) (s : State) : Host.Outcome State Fault Refusal := (startMatch 4 hdr s).finish

def execMatchS5 (hdr : BitVec 3) (s : State) : Host.Outcome State Fault Refusal := (startMatch 5 hdr s).finish

def execMatchS6 (hdr : BitVec 3) (s : State) : Host.Outcome State Fault Refusal := (startMatch 6 hdr s).finish

def execMatchS7 (hdr : BitVec 3) (s : State) : Host.Outcome State Fault Refusal := (startMatch 7 hdr s).finish

def execMatchS8 (hdr : BitVec 3) (s : State) : Host.Outcome State Fault Refusal := (startMatch 8 hdr s).finish

def execMatchS9 (hdr : BitVec 3) (s : State) : Host.Outcome State Fault Refusal := (startMatch 9 hdr s).finish

def execMatchS10 (hdr : BitVec 3) (s : State) : Host.Outcome State Fault Refusal := (startMatch 10 hdr s).finish

def execMatchS11 (hdr : BitVec 3) (s : State) : Host.Outcome State Fault Refusal := (startMatch 11 hdr s).finish

def execMatchS12 (hdr : BitVec 3) (s : State) : Host.Outcome State Fault Refusal := (startMatch 12 hdr s).finish

def execMatchS13 (hdr : BitVec 3) (s : State) : Host.Outcome State Fault Refusal := (startMatch 13 hdr s).finish

def execMatchS14 (hdr : BitVec 3) (s : State) : Host.Outcome State Fault Refusal := (startMatch 14 hdr s).finish

def execMatchS15 (hdr : BitVec 3) (s : State) : Host.Outcome State Fault Refusal := (startMatch 15 hdr s).finish

def execMatchS16 (hdr : BitVec 3) (s : State) : Host.Outcome State Fault Refusal := (startMatch 16 hdr s).finish

def execMatchS17 (hdr : BitVec 3) (s : State) : Host.Outcome State Fault Refusal := (startMatch 17 hdr s).finish

def execMatchS18 (hdr : BitVec 3) (s : State) : Host.Outcome State Fault Refusal := (startMatch 18 hdr s).finish

def execMatchS19 (hdr : BitVec 3) (s : State) : Host.Outcome State Fault Refusal := (startMatch 19 hdr s).finish

def execMatchS20 (hdr : BitVec 3) (s : State) : Host.Outcome State Fault Refusal := (startMatch 20 hdr s).finish

def execMatchS21 (hdr : BitVec 3) (s : State) : Host.Outcome State Fault Refusal := (startMatch 21 hdr s).finish

def execMatchS22 (hdr : BitVec 3) (s : State) : Host.Outcome State Fault Refusal := (startMatch 22 hdr s).finish

def execMatchS23 (hdr : BitVec 3) (s : State) : Host.Outcome State Fault Refusal := (startMatch 23 hdr s).finish

def execMatchS24 (hdr : BitVec 3) (s : State) : Host.Outcome State Fault Refusal := (startMatch 24 hdr s).finish

def execMatchS25 (hdr : BitVec 3) (s : State) : Host.Outcome State Fault Refusal := (startMatch 25 hdr s).finish

def execMatchS26 (hdr : BitVec 3) (s : State) : Host.Outcome State Fault Refusal := (startMatch 26 hdr s).finish

def execMatchS27 (hdr : BitVec 3) (s : State) : Host.Outcome State Fault Refusal := (startMatch 27 hdr s).finish

def execMatchS28 (hdr : BitVec 3) (s : State) : Host.Outcome State Fault Refusal := (startMatch 28 hdr s).finish

def execMatchS29 (hdr : BitVec 3) (s : State) : Host.Outcome State Fault Refusal := (startMatch 29 hdr s).finish

def execMatchS30 (hdr : BitVec 3) (s : State) : Host.Outcome State Fault Refusal := (startMatch 30 hdr s).finish

def execMatchS31 (hdr : BitVec 3) (s : State) : Host.Outcome State Fault Refusal := (startMatch 31 hdr s).finish

def execMatchS32 (hdr : BitVec 3) (s : State) : Host.Outcome State Fault Refusal := (startMatch 32 hdr s).finish

def execMatchS33 (hdr : BitVec 3) (s : State) : Host.Outcome State Fault Refusal := (startMatch 33 hdr s).finish

def execMatchS34 (hdr : BitVec 3) (s : State) : Host.Outcome State Fault Refusal := (startMatch 34 hdr s).finish

def execMatchS35 (hdr : BitVec 3) (s : State) : Host.Outcome State Fault Refusal := (startMatch 35 hdr s).finish

def execMatchS36 (hdr : BitVec 3) (s : State) : Host.Outcome State Fault Refusal := (startMatch 36 hdr s).finish

def execMatchS37 (hdr : BitVec 3) (s : State) : Host.Outcome State Fault Refusal := (startMatch 37 hdr s).finish

def execMatchS38 (hdr : BitVec 3) (s : State) : Host.Outcome State Fault Refusal := (startMatch 38 hdr s).finish

def execMatchS39 (hdr : BitVec 3) (s : State) : Host.Outcome State Fault Refusal := (startMatch 39 hdr s).finish

def execMatchS40 (hdr : BitVec 3) (s : State) : Host.Outcome State Fault Refusal := (startMatch 40 hdr s).finish

def execMatchS41 (hdr : BitVec 3) (s : State) : Host.Outcome State Fault Refusal := (startMatch 41 hdr s).finish

def execMatchS42 (hdr : BitVec 3) (s : State) : Host.Outcome State Fault Refusal := (startMatch 42 hdr s).finish

def execMatchS43 (hdr : BitVec 3) (s : State) : Host.Outcome State Fault Refusal := (startMatch 43 hdr s).finish

def execMatchS44 (hdr : BitVec 3) (s : State) : Host.Outcome State Fault Refusal := (startMatch 44 hdr s).finish

def execMatchS45 (hdr : BitVec 3) (s : State) : Host.Outcome State Fault Refusal := (startMatch 45 hdr s).finish

def execMatchS46 (hdr : BitVec 3) (s : State) : Host.Outcome State Fault Refusal := (startMatch 46 hdr s).finish

def execMatchS47 (hdr : BitVec 3) (s : State) : Host.Outcome State Fault Refusal := (startMatch 47 hdr s).finish

def execMatchS48 (hdr : BitVec 3) (s : State) : Host.Outcome State Fault Refusal := (startMatch 48 hdr s).finish

def execMatchS49 (hdr : BitVec 3) (s : State) : Host.Outcome State Fault Refusal := (startMatch 49 hdr s).finish

/-- The length-tree symbol of the match under way (R232). -/
def execLsym (l : Nat) (s : State) : Host.Outcome State Fault Refusal :=
  (matchOffset s.pend.slot (longLength l) s).finish

/-- The aligned-tree symbol of the match under way: the low three bits of its extra value (R241, R242). -/
def execAlsym (a : BitVec 3) (s : State) : Host.Outcome State Fault Refusal :=
  (explicitMatch s.pend.slot (alignedExtra s.pend.hi a) s.pend.length s).finish

end Sys2Proof.Machine
end

