-- ==== Sys2Proof/Machine/Uncompressed.lean ====
section
/-! DEFINITION. The elements of Uncompressed blocks: padding, register words, payload and pad byte
(spec/30_encoding.md R97, spec/42_frame_blocks.md R201, spec/43_symbols_matches.md R248). -/

namespace Sys2Proof.Machine

/-- The padding: `ToByteMode()` (spec/40_bitreader.md R141), after which the three words follow
(spec/42_frame_blocks.md R201). -/
def execUncPad (s : State) : Host.Outcome State Fault Refusal :=
  ((toByteMode s).bind fun _ s => .ok () (s.goto .uncWords)).finish

/-- The three words load the repeat-offset registers (R201). -/
def execUncRWords (w0 w1 w2 : Word32) (s : State) : Host.Outcome State Fault Refusal :=
  .next ((s.loadR w0 w1 w2).goto .blockLoop)

/-- `n` payload bytes read and put into the window (spec/43_symbols_matches.md R248). -/
def payloadBytes (n : Nat) (s : State) : Res Unit :=
  match n with
  | 0 => .ok () s
  | n + 1 => (readByte s).bind fun b s => (putByte b s).bind fun _ s => payloadBytes n s

/-- The bytes of an Uncompressed block that the current frame still takes (R248). -/
def State.payloadRun (s : State) : Nat := min s.blockRemaining.toNat (Config.frameSize - s.produced)

/-- `PayloadRun()` (R248). -/
def execUncPayload (s : State) : Host.Outcome State Fault Refusal :=
  ((payloadBytes s.payloadRun s).bind fun _ t => .ok () ((t.consume s.payloadRun).goto .blockLoop)).finish

/-- The pad byte: `ToBitMode()` (spec/40_bitreader.md R142), the byte itself having been read and its value not being
checked (spec/30_encoding.md R107). -/
def execUncPadByte (_x : Byte) (s : State) : Host.Outcome State Fault Refusal := (toBitMode s).finish

end Sys2Proof.Machine
end

