-- ==== Sys2Proof/Machine/Dispatch.lean ====
section
/-! DEFINITION. The meaning of every instruction, one arm per constructor. -/

namespace Sys2Proof.Machine

def exec (i : Instr) (s : State) : Host.Outcome State Fault Refusal :=
  match i with
  | .construct wb ri => Sys2Proof.Machine.execConstruct wb ri s
  | .decodeFrame n => Sys2Proof.Machine.execDecodeFrame n s
  | .e8hdrOff => Sys2Proof.Machine.execE8hdrOff s
  | .e8hdrOn m => Sys2Proof.Machine.execE8hdrOn m s
  | .blockType0 len => Sys2Proof.Machine.execBlockType0 len s
  | .blockVerbatim len => Sys2Proof.Machine.execBlockVerbatim len s
  | .blockAligned len => Sys2Proof.Machine.execBlockAligned len s
  | .blockUncompressed len => Sys2Proof.Machine.execBlockUncompressed len s
  | .blockType4 len => Sys2Proof.Machine.execBlockType4 len s
  | .blockType5 len => Sys2Proof.Machine.execBlockType5 len s
  | .blockType6 len => Sys2Proof.Machine.execBlockType6 len s
  | .blockType7 len => Sys2Proof.Machine.execBlockType7 len s
  | .alignlen a => Sys2Proof.Machine.execAlignlen a s
  | .prelen p => Sys2Proof.Machine.execPrelen p s
  | .delta0 => Sys2Proof.Machine.execDelta0 s
  | .delta1 => Sys2Proof.Machine.execDelta1 s
  | .delta2 => Sys2Proof.Machine.execDelta2 s
  | .delta3 => Sys2Proof.Machine.execDelta3 s
  | .delta4 => Sys2Proof.Machine.execDelta4 s
  | .delta5 => Sys2Proof.Machine.execDelta5 s
  | .delta6 => Sys2Proof.Machine.execDelta6 s
  | .delta7 => Sys2Proof.Machine.execDelta7 s
  | .delta8 => Sys2Proof.Machine.execDelta8 s
  | .delta9 => Sys2Proof.Machine.execDelta9 s
  | .delta10 => Sys2Proof.Machine.execDelta10 s
  | .delta11 => Sys2Proof.Machine.execDelta11 s
  | .delta12 => Sys2Proof.Machine.execDelta12 s
  | .delta13 => Sys2Proof.Machine.execDelta13 s
  | .delta14 => Sys2Proof.Machine.execDelta14 s
  | .delta15 => Sys2Proof.Machine.execDelta15 s
  | .delta16 => Sys2Proof.Machine.execDelta16 s
  | .zrun4 k => Sys2Proof.Machine.execZrun4 k s
  | .zrun20 k => Sys2Proof.Machine.execZrun20 k s
  | .srun k z2 => Sys2Proof.Machine.execSrun k z2 s
  | .lit b => Sys2Proof.Machine.execLit b s
  | .matchS0 hdr => Sys2Proof.Machine.execMatchS0 hdr s
  | .matchS1 hdr => Sys2Proof.Machine.execMatchS1 hdr s
  | .matchS2 hdr => Sys2Proof.Machine.execMatchS2 hdr s
  | .matchS3 hdr => Sys2Proof.Machine.execMatchS3 hdr s
  | .matchS4 hdr => Sys2Proof.Machine.execMatchS4 hdr s
  | .matchS5 hdr => Sys2Proof.Machine.execMatchS5 hdr s
  | .matchS6 hdr => Sys2Proof.Machine.execMatchS6 hdr s
  | .matchS7 hdr => Sys2Proof.Machine.execMatchS7 hdr s
  | .matchS8 hdr => Sys2Proof.Machine.execMatchS8 hdr s
  | .matchS9 hdr => Sys2Proof.Machine.execMatchS9 hdr s
  | .matchS10 hdr => Sys2Proof.Machine.execMatchS10 hdr s
  | .matchS11 hdr => Sys2Proof.Machine.execMatchS11 hdr s
  | .matchS12 hdr => Sys2Proof.Machine.execMatchS12 hdr s
  | .matchS13 hdr => Sys2Proof.Machine.execMatchS13 hdr s
  | .matchS14 hdr => Sys2Proof.Machine.execMatchS14 hdr s
  | .matchS15 hdr => Sys2Proof.Machine.execMatchS15 hdr s
  | .matchS16 hdr => Sys2Proof.Machine.execMatchS16 hdr s
  | .matchS17 hdr => Sys2Proof.Machine.execMatchS17 hdr s
  | .matchS18 hdr => Sys2Proof.Machine.execMatchS18 hdr s
  | .matchS19 hdr => Sys2Proof.Machine.execMatchS19 hdr s
  | .matchS20 hdr => Sys2Proof.Machine.execMatchS20 hdr s
  | .matchS21 hdr => Sys2Proof.Machine.execMatchS21 hdr s
  | .matchS22 hdr => Sys2Proof.Machine.execMatchS22 hdr s
  | .matchS23 hdr => Sys2Proof.Machine.execMatchS23 hdr s
  | .matchS24 hdr => Sys2Proof.Machine.execMatchS24 hdr s
  | .matchS25 hdr => Sys2Proof.Machine.execMatchS25 hdr s
  | .matchS26 hdr => Sys2Proof.Machine.execMatchS26 hdr s
  | .matchS27 hdr => Sys2Proof.Machine.execMatchS27 hdr s
  | .matchS28 hdr => Sys2Proof.Machine.execMatchS28 hdr s
  | .matchS29 hdr => Sys2Proof.Machine.execMatchS29 hdr s
  | .matchS30 hdr => Sys2Proof.Machine.execMatchS30 hdr s
  | .matchS31 hdr => Sys2Proof.Machine.execMatchS31 hdr s
  | .matchS32 hdr => Sys2Proof.Machine.execMatchS32 hdr s
  | .matchS33 hdr => Sys2Proof.Machine.execMatchS33 hdr s
  | .matchS34 hdr => Sys2Proof.Machine.execMatchS34 hdr s
  | .matchS35 hdr => Sys2Proof.Machine.execMatchS35 hdr s
  | .matchS36 hdr => Sys2Proof.Machine.execMatchS36 hdr s
  | .matchS37 hdr => Sys2Proof.Machine.execMatchS37 hdr s
  | .matchS38 hdr => Sys2Proof.Machine.execMatchS38 hdr s
  | .matchS39 hdr => Sys2Proof.Machine.execMatchS39 hdr s
  | .matchS40 hdr => Sys2Proof.Machine.execMatchS40 hdr s
  | .matchS41 hdr => Sys2Proof.Machine.execMatchS41 hdr s
  | .matchS42 hdr => Sys2Proof.Machine.execMatchS42 hdr s
  | .matchS43 hdr => Sys2Proof.Machine.execMatchS43 hdr s
  | .matchS44 hdr => Sys2Proof.Machine.execMatchS44 hdr s
  | .matchS45 hdr => Sys2Proof.Machine.execMatchS45 hdr s
  | .matchS46 hdr => Sys2Proof.Machine.execMatchS46 hdr s
  | .matchS47 hdr => Sys2Proof.Machine.execMatchS47 hdr s
  | .matchS48 hdr => Sys2Proof.Machine.execMatchS48 hdr s
  | .matchS49 hdr => Sys2Proof.Machine.execMatchS49 hdr s
  | .lsym l => Sys2Proof.Machine.execLsym l s
  | .alsym a => Sys2Proof.Machine.execAlsym a s
  | .uncPad => Sys2Proof.Machine.execUncPad s
  | .uncRWords w0 w1 w2 => Sys2Proof.Machine.execUncRWords w0 w1 w2 s
  | .uncPayload => Sys2Proof.Machine.execUncPayload s
  | .uncPadByte x => Sys2Proof.Machine.execUncPadByte x s

end Sys2Proof.Machine
end

