-- ==== Sys2Proof/Machine/Fetch.lean ====
section
/-! DEFINITION. Which element comes next and how it is read from the stream: the sequencing of spec/42_frame_blocks.md
R193–R203 between two elements, and the running of the place's decoder over the reader. -/

namespace Sys2Proof.Machine

/-- What the command does next: decode the element at a place of the stream, or end the frame. -/
inductive Action where
  | element (site : Site)
  | complete
deriving DecidableEq, Repr

/-- `ToBitMode()` before an element read in `Bitstream` mode (spec/42_frame_blocks.md R194, R196): an odd byte position
makes the pad byte the next element, else the switch is made and `site` is next. -/
def bitSite (site : Site) (s : State) : Res Action :=
  match s.mode with
  | .bitstream => .ok (.element site) s
  | .bytestream =>
    if s.pos % 2 = 1 then .ok (.element .padByte) s else .ok (.element site) s.enterBitMode

/-- The head of the block loop (spec/42_frame_blocks.md R195, R203): the frame is full or the input ends at a block
boundary, and the frame is complete; or a block header comes next; or an element of the current block. -/
def loopHead (s : State) : Res Action :=
  if Config.frameSize ≤ s.produced then .ok .complete s
  else if s.blockRemaining = 0 then
    (eofAtBoundary s).bind fun ended s =>
      if ended then .ok .complete s else bitSite .blockHeader (s.goto .blockHeader)
  else if s.blockType = .uncompressed then .ok (.element .payload) s
  else .ok (.element .mainSym) s

/-- What comes next in the command that is running. -/
def seek (s : State) : Res Action :=
  match s.ctl with
  | .idle => .ok .complete s
  | .e8Header => bitSite .e8Header s
  | .blockLoop => loopHead s
  | .blockHeader => bitSite .blockHeader s
  | .alignLens => .ok (.element .alignLen) s
  | .preLens => .ok (.element .preLen) s
  | .lenCodes => .ok (.element .lenCode) s
  | .lenSym => .ok (.element .lenSym) s
  | .alSym => .ok (.element .alSym) s
  | .uncPad => .ok (.element .uncPad) s
  | .uncWords => .ok (.element .uncWords) s

/-- Read one field with the reader (spec/40_bitreader.md, spec/41_huffman.md R164). -/
def readFieldAt (f : Field) (s : State) : Res Nat :=
  match f with
  | .bits n => readBits n s
  | .sym t => readSym t s
  | .byte => (readByte s).bind fun b s => .ok b.toNat s
  | .word32 => readU32LE s

/-- Run a decoder over the reader: input is pulled as the fields need it. -/
def runParser (p : Parser) (s : State) : Res Instr :=
  match p with
  | .done i => .ok i s
  | .reject e => .raise e s
  | .read f k => (readFieldAt f s).bind fun v s => runParser (k v) s

/-- The instruction at a place of the stream, and the state after its fields. -/
def fetchInstr (site : Site) (s : State) : Res Instr := runParser (parserOf site) s

/-- The next instruction of the running command, or none where the frame is complete. -/
def nextInstr (s : State) : Res (Option Instr) :=
  (seek s).bind fun a s => match a with
    | .complete => .ok none s
    | .element site => (fetchInstr site s).bind fun i s => .ok (some i) s

end Sys2Proof.Machine
end

