-- ==== Sys2Proof/Machine/Place.lean ====
section
/-! DEFINITION. Putting one instruction where the machine takes its next one from: the state in which the stream stands
at that instruction, used by `State.withFetchWord` (notes/assumptions/16.md). The bits come from the encoder. -/

namespace Sys2Proof.Machine

/-- The pretree lengths of the spec's own streams (spec/95_test_vectors.md section 1): every pretree symbol has a code. -/
def placedPretree : List Nat := [4, 4, 4, 4, 4, 4, 4, 4, 4, 4, 4, 4, 5, 5, 5, 5, 5, 5, 5, 5]

/-- A complete code of two one-bit words, one of them `sym`'s. -/
def twoSymbols (sym : Nat) : List Nat := List.replicate (2 * (sym / 2)) 0 ++ [1, 1]

/-- The value of an element's first field, by which its table is chosen. -/
def firstValue (fields : List (Field × Nat)) : Nat :=
  match fields with
  | [] => 0
  | (_, v) :: _ => v

/-- The table lengths under which an element is placed. -/
def placedLens (i : Instr) (t : Tree) : List Nat :=
  match t with
  | .pre => placedPretree
  | _ => twoSymbols (firstValue (encode i))

/-- The bits of an instruction as placed. -/
def placedBits (i : Instr) : List Bool := (encodeBits (fun t => canonical (placedLens i t)) i).getD []

/-- How many bytes are placed: the instruction's, and zero bytes past it for the peek of a symbol read and for the
fields a meaning reads. -/
def placedBytes : Nat := 32

/-- The first byte of a group of bits, most significant first, each byte's bits as they come. -/
def plainByte (bs : List Bool) (i : Nat) : Byte :=
  BitVec.ofNat 8 (ofBits ((List.range 8).map fun j => bs.getD (8 * i + j) false))

/-- The input bytes whose bits at a place of the stream are `bs`, zero bits after them. -/
def placedInput (mode : Mode) (bs : List Bool) : List Byte :=
  (List.range placedBytes).map (match mode with
    | .bitstream => unitByte bs
    | .bytestream => plainByte bs)

/-- The reader at the start of an input that begins with the bits `bs`. -/
def State.placeInput (s : State) (mode : Mode) (bs : List Bool) : State :=
  { s with mode := mode, pos := 0, inp := placedInput mode bs, nreal := placedBytes, eof := false }

/-- A place of the stream inside a running command. A block element needs a block with bytes left and a frame not yet
full; the tables get codes for the placed symbols. -/
def State.placeAt (s : State) (site : Site) (i : Instr) : State :=
  let s := { s.placeInput site.mode (placedBits i) with alive := true, status := .ready }
  let inBlock (bt : BlockType) : State :=
    { s with ctl := .blockLoop, blockType := bt, blockLength := 32768, blockRemaining := 32768, produced := 0 }
  match site with
  | .e8Header => s.goto .e8Header
  | .blockHeader => s.goto .blockHeader
  | .alignLen => s.goto .alignLens
  | .preLen => s.goto .preLens
  | .lenCode => { s with ctl := .lenCodes, tPre := ⟨placedLens i .pre, false⟩ }
  | .mainSym => { inBlock .verbatim with tMain := ⟨placedLens i .main, false⟩ }
  | .lenSym => { inBlock .verbatim with ctl := .lenSym, tLen := ⟨placedLens i .len, false⟩ }
  | .alSym => { inBlock .aligned with ctl := .alSym, tAl := ⟨placedLens i .al, false⟩ }
  | .uncPad => s.goto .uncPad
  | .uncWords => s.goto .uncWords
  | .payload => inBlock .uncompressed
  | .padByte => { s with ctl := .blockHeader, pos := 1, inp := 0 :: s.inp, nreal := placedBytes + 1 }

/-- The smallest `WINDOW_BITS` whose main tree has a slot (spec/43_symbols_matches.md R249). -/
def firstWindowBits (slot : Nat) : Nat :=
  if slot < 30 then 15 else if slot < 32 then 16 else if slot < 34 then 17 else if slot < 36 then 18
  else if slot < 38 then 19 else if slot < 42 then 20 else 21

/-- The window a placed match needs: one whose main tree codes its slot. -/
def placedWindowBits (i : Instr) (wb : Nat) : Nat :=
  match i.site with
  | some .mainSym => max wb (firstWindowBits ((firstValue (encode i) - Config.literals) / 8))
  | _ => wb

/-- The instruction placed as the machine's next one: an element where the stream stands, a host command at the head of
the commands to come. -/
def State.place (s : State) (i : Instr) : State :=
  match i with
  | .construct wb ri => { s with ctl := .idle, cmds := .construct wb ri :: s.cmds }
  | .decodeFrame n => { s with ctl := .idle, cmds := .decodeFrame n :: s.cmds }
  | i => match i.site with
    | some site => { s with windowBits := placedWindowBits i s.windowBits }.placeAt site i
    | none => s

end Sys2Proof.Machine
end

