-- ==== Sys2Proof/Machine/Step.lean ====
section
/-! DEFINITION. One step of the machine: between commands the next host command, inside a command its next element or
the end of the frame. A step is one element, where spec/92_eei_decisions.md D1 counts a whole command as one: the command
is the run of its steps (notes/assumptions/1.md). -/

namespace Sys2Proof.Machine

/-- What the host does to the decoder: a command is executed, or the decoder is destroyed. -/
def HostCmd.run (c : HostCmd) (s : State) : Host.Outcome State Fault Refusal :=
  match c with
  | .construct wb ri => exec (.construct wb ri) s
  | .decodeFrame n => exec (.decodeFrame n) s
  | .destroy => .next s.destroy

/-- A step between commands: what the host does next takes place; with nothing to come, the block holds its state
(spec/60_exceptions.md R318). -/
def commandStep (s : State) : Host.Outcome State Fault Refusal :=
  match s.cmds with
  | [] => .next s
  | c :: cs => c.run { s with cmds := cs }

/-- A step inside a command: the next element is read and executed, or the frame is completed (spec/42_frame_blocks.md
R193). -/
def elementStep (s : State) : Host.Outcome State Fault Refusal :=
  match nextInstr s with
  | .ok (some i) s' => exec i s'
  | .ok none s' => (completeFrame s').finish
  | .raise e s' => .next (s'.takeError e)
  | .stop f => .fault f

/-- One step. -/
def step (s : State) : Host.Outcome State Fault Refusal :=
  match s.ctl with
  | .idle => commandStep s
  | _ => elementStep s

/-- The state whose next step runs the instruction of an opcode-table word. -/
def State.withFetchWord (s : State) (nbits w : Nat) : State :=
  match decodeTableWord nbits w with
  | some i => s.place i
  | none => s

end Sys2Proof.Machine
end

