-- ==== Sys2Proof/Safety.lean ====
section
/-! DEFINITION. The terms claims are stated in: what holds of the state in every run (spec/10_state.md R46 and the
derived parts of the other rules), as invariants of one state each, and what a match copy or a payload run leaves in the
window. A safe run is one in which every step answers a next state; under the invariants only a host that falls silent
ends one. -/

namespace Sys2Proof.Machine

/-! ## Configuration and memories -/

/-- The parameters are in their ranges (spec/00_scope.md R6, R11). -/
structure State.ConfigInv (s : State) : Prop where
  windowBits : 15 ≤ s.windowBits ∧ s.windowBits ≤ 21
  inbufSize : 0 < s.inbufSize

/-- Both memories are in canonical form and list no address outside their ranges (spec/20_memory.md R60, R61, R66). -/
structure State.MemoryInv (s : State) : Prop where
  windowWf : s.window.wf
  windowRange : ∀ c ∈ s.window, c.1 < s.winSize
  outWf : s.out.wf
  outRange : ∀ c ∈ s.out, c.1 < Config.frameSize

/-- `IN` is the `nreal` real bytes, and after end of input two zero bytes more (spec/10_state.md R24,
spec/40_bitreader.md R131). -/
structure State.ReaderInv (s : State) : Prop where
  length : s.inp.length = s.nreal + if s.eof then 2 else 0
  zeros : s.eof = true → s.inp.drop s.nreal = [0, 0]

/-! ## Lengths and tables -/

/-- The number of symbols of a tree (spec/41_huffman.md R160). -/
def State.symbols (s : State) : Tree → Nat
  | .pre => Config.preSymbols
  | .main => s.nmain
  | .len => Config.lenSymbols
  | .al => Config.alSymbols

/-- A table is not built yet, or is what `Build` makes of a length set with that many symbols
(spec/10_state.md R43, spec/41_huffman.md R160, R162). -/
def Table.Legal (t : Table) (symbols : Nat) (allowEmpty : Bool) : Prop :=
  t = Table.notBuilt ∨
    t.lens.length = symbols ∧ (∀ l ∈ t.lens, l ≤ 16) ∧ buildTable t.lens allowEmpty = .ok t

/-- The length arrays have an entry for each symbol and every table is legal (spec/10_state.md R39–R43). -/
structure State.LengthsInv (s : State) : Prop where
  main : s.lMain.length = s.nmain
  len : s.lLen.length = Config.lenSymbols
  al : s.lAl.length = Config.alSymbols
  pre : s.lPre.length = Config.preSymbols
  tables : ∀ t, (s.table t).Legal (s.symbols t) (t == .len)

/-! ## Counters and the window -/

/-- The counters of a decoder that has not failed (spec/10_state.md R29, R31, R46, spec/43_symbols_matches.md R230). -/
structure State.FrameInv (s : State) : Prop where
  position : s.status = .ready → s.windowPos = s.framePos + s.produced
  inWindow : s.status = .ready → s.windowPos ≤ s.winSize
  framePos : s.status = .ready → s.framePos < s.winSize
  produced : s.status = .ready → s.produced ≤ Config.frameSize
  written : s.status = .ready → s.totalWritten = s.outTotal + s.produced
  block : s.status = .ready → s.blockRemaining ≤ s.blockLength
  between : s.status = .ready → s.ctl = .idle → s.produced = 0 ∧ s.windowPos < s.winSize

/-- The window holds a value exactly where a byte has been written, and the next byte goes to `total_written mod W`
(spec/10_state.md R28, R29, spec/20_memory.md R62). -/
structure State.WindowInv (s : State) : Prop where
  inWindow : s.windowPos ≤ s.winSize
  position : s.windowPos % s.winSize = s.totalWritten % s.winSize
  filled : ∀ a, a < s.winSize → ((Memory.read s.window a).isSome ↔ a < s.totalWritten)

/-! ## The place in the command -/

/-- No real byte is left at or after the next block boundary, and none will come (spec/40_bitreader.md R148). -/
def State.ended (s : State) : Prop := s.eof = true ∧ s.nreal ≤ s.boundaryByte

/-- What `header_read`, the mode and the block say of each other at every place of a command
(spec/10_state.md R45, R46, spec/40_bitreader.md R144, spec/42_frame_blocks.md R194–R203). -/
structure State.ControlInv (s : State) : Prop where
  aligned : s.status = .ready → s.ctl = .idle → s.mode = .bitstream → s.pos % 16 = 0
  header : s.status = .ready → s.ctl = .idle → s.frameIndex = 0 ∨ s.headerRead = true
  inHeader : s.status = .ready → s.ctl ≠ .idle → s.ctl ≠ .e8Header → s.headerRead = true
  noHeader : s.status = .ready → s.headerRead = false ∨ s.ctl = .e8Header ∨ s.ctl = .blockHeader → s.blockRemaining = 0
  inBlock : s.status = .ready → s.blockRemaining ≠ 0 → s.ctl = .idle ∨ s.ctl = .blockLoop →
    s.blockType ≠ .noBlock ∧ (s.mode = .bytestream ↔ s.blockType = .uncompressed)
  inTrees : s.status = .ready → s.ctl = .alignLens ∨ s.ctl = .preLens ∨ s.ctl = .lenCodes →
    s.mode = .bitstream ∧ (s.blockType = .verbatim ∨ s.blockType = .aligned)
  inMatch : s.status = .ready → s.ctl = .lenSym ∨ s.ctl = .alSym →
    s.mode = .bitstream ∧ (s.blockType = .verbatim ∨ s.blockType = .aligned)
  atAligned : s.status = .ready → s.ctl = .alSym → s.blockType = .aligned
  atPad : s.status = .ready → s.ctl = .uncPad → s.mode = .bitstream ∧ s.blockType = .uncompressed
  atWords : s.status = .ready → s.ctl = .uncWords → s.mode = .bytestream ∧ s.blockType = .uncompressed

/-- The decoder stands where symbols of a Verbatim or Aligned block's elements are read. -/
def State.inElements (s : State) : Prop :=
  s.ctl = .lenSym ∨ s.ctl = .alSym ∨
    (s.ctl = .idle ∨ s.ctl = .blockLoop) ∧ s.blockRemaining ≠ 0 ∧ s.blockType ≠ .uncompressed

/-- Every table is built before it is read (spec/10_state.md R43, spec/20_memory.md R81). -/
structure State.BuiltInv (s : State) : Prop where
  pre : s.status = .ready → s.ctl = .lenCodes → s.tPre ≠ .notBuilt
  mainRead : s.status = .ready → s.ctl = .preLens ∨ s.ctl = .lenCodes → s.lenList = .length → s.tMain ≠ .notBuilt
  elements : s.status = .ready → s.inElements → s.tMain ≠ .notBuilt ∧ s.tLen ≠ .notBuilt
  aligned : s.status = .ready → s.blockType = .aligned → s.inElements ∨ s.ctl = .preLens ∨ s.ctl = .lenCodes →
    s.tAl ≠ .notBuilt

/-- A frame begins at a multiple of 32768, or the input has ended and no element follows
(spec/42_frame_blocks.md R209, spec/43_symbols_matches.md R230). -/
structure State.PlacedInv (s : State) : Prop where
  placed : s.status = .ready → s.framePos % Config.frameSize = 0 ∨
    s.ended ∧ s.produced = 0 ∧ s.blockRemaining = 0 ∧ (s.ctl = .idle ∨ s.ctl = .e8Header ∨ s.ctl = .blockLoop)

/-- A decoder that has ended or failed runs no command (spec/42_frame_blocks.md R208, spec/60_exceptions.md R310). -/
structure State.StatusInv (s : State) : Prop where
  stopped : s.status ≠ .ready → s.ctl = .idle

/-- All of them. -/
structure State.Inv (s : State) : Prop where
  config : s.ConfigInv
  memory : s.MemoryInv
  reader : s.ReaderInv
  lengths : s.LengthsInv
  frame : s.FrameInv
  window : s.WindowInv
  control : s.ControlInv
  built : s.BuiltInv
  placed : s.PlacedInv
  status : s.StatusInv

/-! ## The stream, as the spec writes it -/

/-- Bit `b` of the bit sequence `B` (spec/40_bitreader.md R132): `unit(k) = InByte(2k) | (InByte(2k+1) << 8)` and
`B[16k + j] = unit(k)[15 - j]`. -/
def streamBit (inp : List Byte) (b : Nat) : Bool :=
  ((inp.getD (2 * (b / 16)) 0).toNat + 2 ^ 8 * (inp.getD (2 * (b / 16) + 1) 0).toNat).testBit (15 - b % 16)

/-- The `n`-bit field of `B` at bit `p`, its first bit the most significant (spec/20_memory.md R68). -/
def streamField (inp : List Byte) (p : Nat) : Nat → Nat
  | 0 => 0
  | n + 1 => 2 * streamField inp p n + (streamBit inp (p + n)).toNat

/-- The little-endian 32-bit word at byte `p` of the input (spec/40_bitreader.md R146). -/
def streamWord (inp : List Byte) (p : Nat) : Word32 :=
  inp.getD (p + 3) 0 ++ inp.getD (p + 2) 0 ++ inp.getD (p + 1) 0 ++ inp.getD p 0

/-- The next `n` bits are at hand (spec/40_bitreader.md R132). -/
def State.hasBits (s : State) (n : Nat) : Prop := n = 0 ∨ 2 * ((s.pos + n - 1) / 16) + 1 < s.inp.length

/-- The next `n` bytes are at hand (spec/40_bitreader.md R131). -/
def State.hasBytes (s : State) (n : Nat) : Prop := s.pos + n ≤ s.inp.length

/-- How many bits must be at hand for the reader to fetch what the plain decoder makes (`d`) of the next `n` bits: those
bits, and the 16 bits that a symbol's peek sees (spec/41_huffman.md R164). Where a length code has a second symbol (of a
code-19 run, or of one that is refused) that symbol begins at the last of the `n` bits or before. -/
def bitsToFetch (site : Site) (d : Decoded) (n : Nat) : Nat :=
  match site with
  | .e8Header | .blockHeader | .alignLen | .preLen => n
  | .lenCode => match d with
    | .instr (.srun _ _) _ | .rejected _ => n + 15
    | _ => max n 16
  | .mainSym | .lenSym | .alSym => max n 16
  | .uncPad | .uncWords | .payload | .padByte => n

/-- The reader's position in bits (spec/10_state.md R22). -/
def State.bitPos (s : State) : Nat :=
  match s.mode with
  | .bitstream => s.pos
  | .bytestream => 8 * s.pos

/-! ## The tables of the spec -/

/-- The table of spec/43_symbols_matches.md R249: slot, `extra_bits`, `position_base`, the smallest `WINDOW_BITS` that has
the slot. -/
def slotRows : List (Nat × Nat × Nat × Nat) :=
  [(0, 0, 0, 15), (1, 0, 1, 15), (2, 0, 2, 15), (3, 0, 3, 15), (4, 1, 4, 15)] ++
  [(5, 1, 6, 15), (6, 2, 8, 15), (7, 2, 12, 15), (8, 3, 16, 15), (9, 3, 24, 15)] ++
  [(10, 4, 32, 15), (11, 4, 48, 15), (12, 5, 64, 15), (13, 5, 96, 15), (14, 6, 128, 15)] ++
  [(15, 6, 192, 15), (16, 7, 256, 15), (17, 7, 384, 15), (18, 8, 512, 15), (19, 8, 768, 15)] ++
  [(20, 9, 1024, 15), (21, 9, 1536, 15), (22, 10, 2048, 15), (23, 10, 3072, 15), (24, 11, 4096, 15)] ++
  [(25, 11, 6144, 15), (26, 12, 8192, 15), (27, 12, 12288, 15), (28, 13, 16384, 15), (29, 13, 24576, 15)] ++
  [(30, 14, 32768, 16), (31, 14, 49152, 16), (32, 15, 65536, 17), (33, 15, 98304, 17), (34, 16, 131072, 18)] ++
  [(35, 16, 196608, 18), (36, 17, 262144, 19), (37, 17, 393216, 19), (38, 17, 524288, 20), (39, 17, 655360, 20)] ++
  [(40, 17, 786432, 20), (41, 17, 917504, 20), (42, 17, 1048576, 21), (43, 17, 1179648, 21), (44, 17, 1310720, 21)] ++
  [(45, 17, 1441792, 21), (46, 17, 1572864, 21), (47, 17, 1703936, 21), (48, 17, 1835008, 21), (49, 17, 1966080, 21)]

/-- The slot and the length header of a match (spec/30_encoding.md R100). -/
def matchParts : Instr → Option (Nat × BitVec 3)
  | .matchS0 hdr => some (0, hdr)
  | .matchS1 hdr => some (1, hdr)
  | .matchS2 hdr => some (2, hdr)
  | .matchS3 hdr => some (3, hdr)
  | .matchS4 hdr => some (4, hdr)
  | .matchS5 hdr => some (5, hdr)
  | .matchS6 hdr => some (6, hdr)
  | .matchS7 hdr => some (7, hdr)
  | .matchS8 hdr => some (8, hdr)
  | .matchS9 hdr => some (9, hdr)
  | .matchS10 hdr => some (10, hdr)
  | .matchS11 hdr => some (11, hdr)
  | .matchS12 hdr => some (12, hdr)
  | .matchS13 hdr => some (13, hdr)
  | .matchS14 hdr => some (14, hdr)
  | .matchS15 hdr => some (15, hdr)
  | .matchS16 hdr => some (16, hdr)
  | .matchS17 hdr => some (17, hdr)
  | .matchS18 hdr => some (18, hdr)
  | .matchS19 hdr => some (19, hdr)
  | .matchS20 hdr => some (20, hdr)
  | .matchS21 hdr => some (21, hdr)
  | .matchS22 hdr => some (22, hdr)
  | .matchS23 hdr => some (23, hdr)
  | .matchS24 hdr => some (24, hdr)
  | .matchS25 hdr => some (25, hdr)
  | .matchS26 hdr => some (26, hdr)
  | .matchS27 hdr => some (27, hdr)
  | .matchS28 hdr => some (28, hdr)
  | .matchS29 hdr => some (29, hdr)
  | .matchS30 hdr => some (30, hdr)
  | .matchS31 hdr => some (31, hdr)
  | .matchS32 hdr => some (32, hdr)
  | .matchS33 hdr => some (33, hdr)
  | .matchS34 hdr => some (34, hdr)
  | .matchS35 hdr => some (35, hdr)
  | .matchS36 hdr => some (36, hdr)
  | .matchS37 hdr => some (37, hdr)
  | .matchS38 hdr => some (38, hdr)
  | .matchS39 hdr => some (39, hdr)
  | .matchS40 hdr => some (40, hdr)
  | .matchS41 hdr => some (41, hdr)
  | .matchS42 hdr => some (42, hdr)
  | .matchS43 hdr => some (43, hdr)
  | .matchS44 hdr => some (44, hdr)
  | .matchS45 hdr => some (45, hdr)
  | .matchS46 hdr => some (46, hdr)
  | .matchS47 hdr => some (47, hdr)
  | .matchS48 hdr => some (48, hdr)
  | .matchS49 hdr => some (49, hdr)
  | _ => none

/-- The run a length code writes, how many symbols and which length, `prev` being the previous length of its first symbol
(spec/30_encoding.md R99); none for what is no length code. -/
def lengthRun (i : Instr) (prev : Nat) : Option (Nat × Nat) :=
  match i with
  | .delta0 => some (1, (prev + 17) % 17)
  | .delta1 => some (1, (prev + 16) % 17)
  | .delta2 => some (1, (prev + 15) % 17)
  | .delta3 => some (1, (prev + 14) % 17)
  | .delta4 => some (1, (prev + 13) % 17)
  | .delta5 => some (1, (prev + 12) % 17)
  | .delta6 => some (1, (prev + 11) % 17)
  | .delta7 => some (1, (prev + 10) % 17)
  | .delta8 => some (1, (prev + 9) % 17)
  | .delta9 => some (1, (prev + 8) % 17)
  | .delta10 => some (1, (prev + 7) % 17)
  | .delta11 => some (1, (prev + 6) % 17)
  | .delta12 => some (1, (prev + 5) % 17)
  | .delta13 => some (1, (prev + 4) % 17)
  | .delta14 => some (1, (prev + 3) % 17)
  | .delta15 => some (1, (prev + 2) % 17)
  | .delta16 => some (1, (prev + 1) % 17)
  | .zrun4 k => some (4 + k.toNat, 0)
  | .zrun20 k => some (20 + k.toNat, 0)
  | .srun k z2 => if z2 ≤ 16 then some (4 + k.toNat, (prev + 17 - z2) % 17) else none
  | _ => none

/-! ## Matches -/

/-- The instruction brings the match under way to the point where its slot and length are known
(spec/43_symbols_matches.md R232, R234): a match symbol with a length header below 7, or the length-tree symbol. -/
def MatchForm (i : Instr) (s : State) (slot length : Nat) : Prop :=
  (∃ hdr, matchParts i = some (slot, hdr) ∧ hdr ≠ 7 ∧ length = hdr.toNat + 2) ∨
    (∃ l, i = .lsym l ∧ slot = s.pend.slot ∧ slot < 50 ∧ length = 9 + l)

/-- The three repeat-offset registers after an element, as one value. -/
structure Regs where
  r0 : Word32
  r1 : Word32
  r2 : Word32
deriving DecidableEq, Repr

/-- Slots 0, 1, 2: the offset and the registers after it (spec/43_symbols_matches.md R235–R237). -/
def RepeatOffset (s : State) (slot offset : Nat) (r : Regs) : Prop :=
  slot = 0 ∧ offset = s.r0.toNat ∧ r = ⟨s.r0, s.r1, s.r2⟩ ∨
  slot = 1 ∧ offset = s.r1.toNat ∧ r = ⟨s.r1, s.r0, s.r2⟩ ∨
  slot = 2 ∧ offset = s.r2.toNat ∧ r = ⟨s.r2, s.r1, s.r0⟩

/-- Slots 3 and up whose offset field is verbatim bits only (spec/43_symbols_matches.md R238–R240, R243): the offset, the
number of bits read and the registers after it. -/
def VerbatimOffset (s : State) (slot offset bits : Nat) (r : Regs) : Prop :=
  3 ≤ slot ∧ ∃ base wb, (slot, bits, base, wb) ∈ slotRows ∧ ¬ (s.blockType = .aligned ∧ 3 ≤ bits) ∧
    s.mode = .bitstream ∧ s.hasBits bits ∧
    offset = base - 2 + streamField s.inp s.pos bits ∧ r = ⟨BitVec.ofNat 32 offset, s.r0, s.r1⟩

/-- The checks of a match in the spec's order, each with the error it raises (spec/43_symbols_matches.md R244). -/
def matchChecks (s : State) (offset length : Nat) : List (Bool × ErrKind) :=
  [(decide (s.winSize ≤ offset), .windowOverrun),
   (decide (offset = 0), .zeroOffset),
   (decide (s.totalWritten < offset), .undefinedWindowRead),
   (decide (s.winSize < s.windowPos + length), .windowOverrun),
   (decide (s.blockRemaining.toNat < length), .blockOverrun),
   (decide (32768 < s.produced + length), .frameOverrun)]

/-- The first check that holds. -/
def firstCheck (s : State) (offset length : Nat) : Option ErrKind :=
  ((matchChecks s offset length).find? Prod.fst).map Prod.snd

/-- `s` with the registers of `r` and the reader `bits` further. -/
def State.withRegs (s : State) (bits : Nat) (r : Regs) : State :=
  { s with pos := s.pos + bits, r0 := r.r0, r1 := r.r1, r2 := r.r2 }

/-- `t` is `s` after a match of `length` bytes, but for the window's bytes (spec/43_symbols_matches.md R233, R247). -/
def MatchDone (s t : State) (bits : Nat) (r : Regs) (length : Nat) : Prop :=
  t = { s with
    pos := s.pos + bits, r0 := r.r0, r1 := r.r1, r2 := r.r2
    window := t.window, windowPos := s.windowPos + length, totalWritten := s.totalWritten + length
    blockRemaining := s.blockRemaining - BitVec.ofNat 24 length, produced := s.produced + length, ctl := .blockLoop }

/-! ## The E8 pass, as the spec writes it -/

/-- `out[i+1 .. i+4] <- w`, little-endian (spec/44_e8_postprocess.md R276). -/
def setWord (out : List Byte) (i : Nat) (w : Word32) : List Byte :=
  (((out.set (i + 1) (w.extractLsb' 0 8)).set (i + 2) (w.extractLsb' 8 8)).set (i + 3) (w.extractLsb' 16 8)).set (i + 4)
    (w.extractLsb' 24 8)

/-- The loop of spec/44_e8_postprocess.md R270 over the output bytes, indexed as the pseudocode indexes them; each turn
moves `i` on, so the frame's size is fuel enough. -/
def e8Loop (magic : Int) (total : Nat) : Nat → Nat → List Byte → List Byte
  | 0, _, out => out
  | fuel + 1, i, out =>
    if (i : Int) < (out.length : Int) - 10 then
      if out.getD i 0 ≠ 0xE8 then e8Loop magic total fuel (i + 1) out
      else
        let abs : Int := (streamWord out (i + 1)).toInt
        let cur : Int := ((total + i : Nat) : Int)
        let out' :=
          if -cur ≤ abs ∧ abs < magic then
            setWord out i (BitVec.ofInt 32 (if 0 ≤ abs then abs - cur else abs + magic))
          else out
        e8Loop magic total fuel (i + 5) out'
    else out

/-! ## What a run of window bytes leaves -/

/-- `t`'s window is `s`'s with the bytes `f 0 .. f (n-1)` at `window_pos` and after it, and no other byte changed. -/
structure WritesRun (s t : State) (n : Nat) (f : Nat → Option Byte) : Prop where
  bytes : ∀ i, i < n → Memory.read t.window (s.windowPos + i) = f i
  others : ∀ a, a < s.windowPos ∨ s.windowPos + n ≤ a → Memory.read t.window a = Memory.read s.window a

/-- Byte `i` of a match copied from `offset` back (spec/43_symbols_matches.md R245): a byte this copy wrote, or the
window byte `offset` places before, around the end of the window. -/
def copiedByte (s t : State) (offset i : Nat) : Option Byte :=
  if offset ≤ i then Memory.read t.window (s.windowPos + i - offset)
  else Memory.read s.window ((s.windowPos + i + s.winSize - offset) % s.winSize)

/-- The window after a match of `length` bytes from `offset` back. -/
def MatchCopied (s t : State) (offset length : Nat) : Prop := WritesRun s t length (copiedByte s t offset)

end Sys2Proof.Machine
end

