-- ==== Sys2Proof/Certificates/Slice0/Obligations.lean ====
section
/-! DEFINITION. The statements for the provers, each one proposition about the machine. Its docstring names the rules of
spec/ it states; where it rests on a choice of the model it says so and names the log entry. -/

open Sys2Proof Sys2Proof.Machine

/-! ## Encoding -/

/-- Words of the spec's own encodings decode to the instructions they stand for: the E8 headers of R92, the Uncompressed
header of 10 bytes that R197 writes out, an aligned and a pretree length, a length code of the pretree of
95_test_vectors.md section 1, and the three register words of P1. The halves of `e8_magic`, the code 3, the 4-bit
pretree length and the canonical code are G2, G3, G4 and G10, which the spec takes from general knowledge (log entry
12). -/
def Obligations.SpecWordsDecode : Prop :=
  decodeBits .e8Header (fun _ => []) [false] = .instr .e8hdrOff [] ∧
  decodeBits .e8Header (fun _ => []) (true :: (toBits 16 0 ++ toBits 16 0x1000)) = .instr (.e8hdrOn 4096) [] ∧
  decodeBits .blockHeader (fun _ => []) ([false, true, true] ++ toBits 16 0 ++ toBits 8 10)
    = .instr (.blockUncompressed 10) [] ∧
  decodeBits .alignLen (fun _ => []) [true, false, true] = .instr (.alignlen 5) [] ∧
  decodeBits .preLen (fun _ => []) [true, false, false, true] = .instr (.prelen 9) [] ∧
  decodeBits .lenCode (fun _ => canonical [4, 4, 4, 4, 4, 4, 4, 4, 4, 4, 4, 4, 5, 5, 5, 5, 5, 5, 5, 5])
    ([true, true, true, false, true] ++ [false, true, false, true]) = .instr (.zrun4 5) [] ∧
  decode .uncWords (fun _ => []) [1, 0, 0, 0, 1, 0, 0, 0, 1, 0, 0, 0] = .instr (.uncRWords 1 1 1) []

/-- Decoding the bits an instruction is encoded as gives the instruction back and leaves the bits after it, for every
well-formed element, under the canonical codes of any length sets of lengths up to 16 whose Kraft sum does not exceed
1 (the codes that `Build` can make, R162, among them). -/
def Obligations.DecodeOfEncode : Prop :=
  ∀ (i : Instr) (site : Site) (lens : Tree → List Nat) (bits rest : List Bool),
    i.wellFormed = true → i.site = some site →
    (∀ t, (∀ l ∈ lens t, l ≤ 16) ∧ kraftSum (lens t) ≤ 2 ^ 16) →
    encodeBits (fun t => canonical (lens t)) i = some bits →
    decodeBits site (fun t => canonical (lens t)) (bits ++ rest) = .instr i rest

/-- R161: the canonical code has one code word for each used symbol and no other, of its length; left-aligned in 16
bits, a code word is the sum of the shares of the symbols before it in the order of (length, symbol). It is G10, which
the spec takes from general knowledge (log entry 12). -/
def Obligations.CanonicalCodeValues : Prop :=
  ∀ lens : List Nat, (∀ l ∈ lens, l ≤ 16) →
    (∀ c ∈ canonical lens, lens[c.sym]? = some c.len ∧ 1 ≤ c.len ∧
      c.code * 2 ^ (16 - c.len) =
        ((lens.zipIdx.filter fun p => decide (0 < p.1 ∧ (p.1 < c.len ∨ p.1 = c.len ∧ p.2 < c.sym))).map
          fun p => 2 ^ (16 - p.1)).sum) ∧
    ∀ sym l, lens[sym]? = some l → 0 < l → ∃! c, c ∈ canonical lens ∧ c.sym = sym

/-- R165: a table that `Build` made matches exactly one code word against any 16 bits, so a symbol read from it never
raises `HuffmanDecodeOverrun`; that error kind keeps its code 5. The code is the canonical one (G10, log entry 12). -/
def Obligations.CompleteCode : Prop :=
  ErrKind.huffmanDecodeOverrun.code = 5 ∧
  ∀ (tab : Table) (allowEmpty : Bool), (∀ l ∈ tab.lens, l ≤ 16) → buildTable tab.lens allowEmpty = .ok tab →
    (tab.empty = false → ∀ v, v < 2 ^ 16 → ∃! c, c ∈ canonical tab.lens ∧ c.code = v >>> (16 - c.len)) ∧
    ∀ (s u : State) (t : Tree), s.table t = tab → readSym t s ≠ .raise .huffmanDecodeOverrun u

/-- R162: what `Build` makes of a tree's lengths. All zero, the length tree is built empty and any other fails; otherwise
the table is built exactly if the shares `2^-length` add up to 1, and `IncompleteHuffmanTree` is raised if not. -/
def Obligations.BuildRule : Prop :=
  ∀ (t : Tree) (s : State),
    ((∀ l ∈ s.lengths t, l = 0) →
      rebuild t s = if t = .len then .ok () (s.setTable t ⟨s.lengths t, true⟩) else .raise .incompleteHuffmanTree s) ∧
    ((∃ l ∈ s.lengths t, l ≠ 0) →
      (((s.lengths t).filter (· ≠ 0)).map fun l => (1 / 2 : Rat) ^ l).sum = 1 →
        rebuild t s = .ok () (s.setTable t ⟨s.lengths t, false⟩)) ∧
    ((∃ l ∈ s.lengths t, l ≠ 0) →
      (((s.lengths t).filter (· ≠ 0)).map fun l => (1 / 2 : Rat) ^ l).sum ≠ 1 →
        rebuild t s = .raise .incompleteHuffmanTree s)

/-- R249, R102: the position slots. Each row of the spec's table has its `extra_bits`, its `position_base` and the first
window size whose slot count includes it, and for every window size the explicit slots cover every offset from 1 to `W -
3` exactly once and end at `W`. The values are G1 and G8, which the spec takes from general knowledge (log entry 12). -/
def Obligations.SlotTable : Prop :=
  (∀ slot e base wb, (slot, e, base, wb) ∈ slotRows →
    extraBits slot = e ∧ positionBase slot = base ∧ (3 ≤ slot → ∀ x, explicitOffset slot x = base - 2 + x) ∧
      ∀ b, 15 ≤ b → b ≤ 21 → (slot < nps b ↔ wb ≤ b)) ∧
  ∀ wb, 15 ≤ wb → wb ≤ 21 → positionBase (nps wb) = 2 ^ wb ∧
    ∀ offset, 1 ≤ offset → offset ≤ 2 ^ wb - 3 →
      ∃! p : Nat × Nat, 3 ≤ p.1 ∧ p.1 < nps wb ∧ p.2 < 2 ^ extraBits p.1 ∧ explicitOffset p.1 p.2 = offset

/-! ## The reader -/

/-- R134: what a pull does, by the state and the host's next reply. A reply during which the host issued a
`DecodeFrame` to the decoder refuses that command (R326: the mark and its result) and is otherwise like any other; that
its answer is then taken as usual, even an error or one too long, is the model's choice (log entry 8). -/
def Obligations.PullCases : Prop :=
  ∀ (s : State),
    (s.eof = true → pull s = .raise .prematureEOF s) ∧
    (s.eof = false → ∀ (reentrant : Bool) (a : Answer) (rs : List Reply) (u : State), s.replies = ⟨reentrant, a⟩ :: rs →
      u = (if reentrant = true then { s with replies := rs, refused := true, result := some .refused }
        else { s with replies := rs }) →
      (∀ e, a = .error e → pull s = .raise (.callbackError e) u) ∧
      (∀ bytes, a = .data bytes → s.inbufSize < bytes.length → pull s = .raise .callbackOverflow u) ∧
      (a = .data [] → pull s = .ok () { u with eof := true, inp := s.inp ++ [0x00, 0x00] }) ∧
      (∀ bytes, a = .data bytes → 0 < bytes.length → bytes.length ≤ s.inbufSize →
        pull s = .ok () { u with inp := s.inp ++ bytes, nreal := s.nreal + bytes.length }))

/-- R149: after `eof` is set no pull is made, and a byte beyond the input raises `PrematureEOF` whatever replies the host
has left. -/
def Obligations.NoPullAfterEof : Prop :=
  ∀ (s : State) (i : Nat), s.eof = true →
    pull s = .raise .prematureEOF s ∧ (s.inp.length ≤ i → fetchByte i s = .raise .prematureEOF s) ∧
      (i < s.inp.length → fetchByte i s = .ok () s)

/-- R136: `Fetch(i)` pulls while byte `i` is missing and never otherwise; where it ends with a value the byte is there, and
the bytes received before still stand at the head of `IN`. -/
def Obligations.FetchPullsWhatIsMissing : Prop :=
  ∀ (s : State) (i : Nat),
    (i < s.inp.length → fetchByte i s = .ok () s) ∧
    (s.inp.length ≤ i →
      (∀ u, pull s = .ok () u → fetchByte i s = fetchByte i u) ∧
      (∀ e u, pull s = .raise e u → fetchByte i s = .raise e u)) ∧
    ∀ u, fetchByte i s = .ok () u → i < u.inp.length ∧ s.inp <+: u.inp ∧ u.pos = s.pos

/-- R139: `ReadBits(n)`. In the wrong mode it raises `WrongMode` and does nothing; of 0 bits it returns 0 and does nothing;
once `Need(n)` has the bits at hand it returns the next `n` bits of `B`, most significant first, and moves by `n`; an
error of `Need(n)` is its error; with the bits at hand already nothing is pulled. -/
def Obligations.ReadBitsRule : Prop :=
  ∀ (n : Nat) (s : State),
    (s.mode = .bytestream → readBits n s = .raise .wrongMode s) ∧
    (s.mode = .bitstream →
      readBits 0 s = .ok 0 s ∧
      (∀ u, need n s = .ok () u →
        u.pos = s.pos ∧ readBits n s = .ok (streamField u.inp s.pos n) { u with pos := s.pos + n }) ∧
      (∀ e u, need n s = .raise e u → readBits n s = .raise e u)) ∧
    (s.hasBits n → need n s = .ok () s) ∧
    ∀ v u, readBits n s = .ok v u → v < 2 ^ n

/-- R164, R166: `ReadSym` of a table that `Build` made. An empty one raises `EmptyTableDecode`, then the mode is
checked, then an error of `Need(16)` is its error (`PrematureEOF` where the 16 bits lie beyond the ended input, however
short the code word); else the symbol is the one whose code word stands at their head, and exactly its length is
consumed. The code is the canonical one (G10, log entry 12). -/
def Obligations.ReadSymRule : Prop :=
  ∀ (t : Tree) (s : State),
    ((s.table t).empty = true → readSym t s = .raise .emptyTableDecode s) ∧
    ((s.table t).empty = false → s.mode = .bytestream → readSym t s = .raise .wrongMode s) ∧
    ((s.table t).empty = false → s.mode = .bitstream →
      (∀ e u, need 16 s = .raise e u → readSym t s = .raise e u) ∧
      (s.eof = true → ¬ s.hasBits 16 → readSym t s = .raise .prematureEOF s) ∧
      ((∀ l ∈ (s.table t).lens, l ≤ 16) → buildTable (s.table t).lens false = .ok (s.table t) →
        ∀ u, need 16 s = .ok () u → ∃ c ∈ canonical (s.table t).lens,
          streamField u.inp s.pos c.len = c.code ∧ readSym t s = .ok c.sym { u with pos := s.pos + c.len })) ∧
    (s.hasBits 16 → need 16 s = .ok () s)

/-- R148: `EofAtBoundary`. It pulls while the end of input is not known and no real byte is known at or after the place `q`
where the next block header would start; where it has a value it has read no bit, and it is true exactly when no real
byte remains at `q` or later. -/
def Obligations.EofAtBoundaryRule : Prop :=
  ∀ (s : State) (q : Nat),
    (s.mode = .bitstream → q = 2 * ((s.pos + 15) / 16)) → (s.mode = .bytestream → q = s.pos + s.pos % 2) →
    (s.eof = true ∨ q < s.nreal → eofAtBoundary s = .ok (decide (s.nreal ≤ q)) s) ∧
    (s.eof = false → s.nreal ≤ q →
      (∀ u, pull s = .ok () u → eofAtBoundary s = eofAtBoundary u) ∧
      (∀ e u, pull s = .raise e u → eofAtBoundary s = .raise e u)) ∧
    ∀ b u, eofAtBoundary s = .ok b u →
      u.pos = s.pos ∧ u.mode = s.mode ∧ (b = true ↔ u.nreal ≤ q) ∧ (b = true → u.eof = true)

/-! ## The host's commands -/

/-- R320, R321: `Construct` between commands. In range, a decoder with every piece of its state at the value the spec
gives for reset; out of range it is refused and no decoder exists. That a construction clears the mark `refused` is the
model's choice between R26 and R321 (log entry 7). -/
def Obligations.ConstructResets : Prop :=
  ∀ (wb ri : Nat) (s : State), s.ctl = .idle →
    (15 ≤ wb → wb ≤ 21 → ∃ t, exec (.construct wb ri) s = .next t ∧
      t.windowBits = wb ∧ t.resetInterval = ri ∧ t.alive = true ∧ t.refused = false ∧ t.status = .ready ∧
      t.mode = .bitstream ∧ t.pos = 0 ∧ t.eof = false ∧ t.inp = [] ∧ t.nreal = 0 ∧
      (∀ i, Memory.read t.window i = none) ∧ t.totalWritten = 0 ∧ t.outTotal = 0 ∧ t.windowPos = 0 ∧ t.framePos = 0 ∧
      t.frameIndex = 0 ∧ t.r0 = 1 ∧ t.r1 = 1 ∧ t.r2 = 1 ∧
      t.blockType = .noBlock ∧ t.blockLength = 0 ∧ t.blockRemaining = 0 ∧ t.headerRead = false ∧
      t.lMain = List.replicate (256 + 8 * nps wb) 0 ∧ t.lLen = List.replicate 249 0) ∧
    (wb < 15 ∨ 21 < wb → ∃ t, exec (.construct wb ri) s = .next t ∧
      t.refused = true ∧ t.result = some .refused ∧ t.alive = false)

/-- The frame of `Construct`, and the refusals the spec leaves to the model; it rests on the model's choices (log entry 7).
The host's output buffer, its replies and commands to come and `INBUF_SIZE` stay; a refused `Construct` changes the
mark, the result and, between commands, whether a decoder exists, and nothing else; a command issued while one runs
(U11), or a `DecodeFrame` where no decoder exists, is refused. -/
def Obligations.ConstructFrame : Prop :=
  ∀ (wb ri : Nat) (s : State),
    (s.ctl = .idle → 15 ≤ wb → wb ≤ 21 → ∃ t, exec (.construct wb ri) s = .next t ∧
      t.out = s.out ∧ t.replies = s.replies ∧ t.cmds = s.cmds ∧ t.inbufSize = s.inbufSize ∧
      t.result = some .constructed ∧ t.ctl = .idle) ∧
    (s.ctl = .idle → wb < 15 ∨ 21 < wb → exec (.construct wb ri) s
      = .next { s with refused := true, result := some .refused, alive := false }) ∧
    (s.ctl ≠ .idle → exec (.construct wb ri) s = .next { s with refused := true, result := some .refused }) ∧
    ∀ n, s.ctl ≠ .idle ∨ s.alive = false →
      exec (.decodeFrame n) s = .next { s with refused := true, result := some .refused }

/-- R192, R211: an accepted `DecodeFrame` runs the periodic reset when it is due, which changes exactly the
listed state, or raises `InconsistentResetState` while block bytes remain; then the E8 header or the block loop comes
next. -/
def Obligations.DecodeFrameStart : Prop :=
  ∀ (n : Nat) (s : State), s.alive = true → s.ctl = .idle → s.status = .ready → 32768 ≤ n →
    (s.resetInterval ≠ 0 ∧ s.frameIndex % s.resetInterval = 0 →
      (s.blockRemaining ≠ 0 → exec (.decodeFrame n) s = .next { s with
        produced := 0, status := .failed .inconsistentResetState, result := some (.err .inconsistentResetState) }) ∧
      (s.blockRemaining = 0 → exec (.decodeFrame n) s = .next { s with
        produced := 0, r0 := 1, r1 := 1, r2 := 1, lMain := List.replicate s.nmain 0, lLen := List.replicate 249 0
        headerRead := false, ctl := .e8Header })) ∧
    (¬ (s.resetInterval ≠ 0 ∧ s.frameIndex % s.resetInterval = 0) →
      exec (.decodeFrame n) s = .next { s with
        produced := 0, ctl := if s.headerRead = true then .blockLoop else .e8Header })

/-- R191, R327: a `DecodeFrame` in status `Done` or `Failed`, or with a buffer of fewer than 32768 bytes, is refused: the
mark is set, the result is `Refused`, and nothing else of the machine changes. -/
def Obligations.DecodeFrameRefused : Prop :=
  ∀ (n : Nat) (s : State), s.status ≠ .ready ∨ n < 32768 →
    exec (.decodeFrame n) s = .next { s with refused := true, result := some .refused }

/-! ## The end of a frame -/

/-- R204, R206, R207, R208: where the search finds the frame complete, the step copies its bytes from the window to the
output buffer (as the E8 pass leaves them, R205), realigns the reader, advances the counters and returns the frame size;
it raises nothing, and no other output byte changes. -/
def Obligations.FrameCompletes : Prop :=
  ∀ (s u : State), s.ConfigInv → s.FrameInv → s.WindowInv → s.status = .ready → s.ctl = .blockLoop →
    seek s = .ok .complete u →
    ∃ t, step s = .next t ∧
      t = { u with
        out := t.out
        pos := if u.mode = .bitstream then 16 * ((u.pos + 15) / 16) else u.pos
        framePos := if s.framePos + s.produced = s.winSize then 0 else s.framePos + s.produced
        windowPos := if s.windowPos = s.winSize then 0 else s.windowPos
        outTotal := s.outTotal + s.produced
        frameIndex := s.frameIndex + 1
        status := if s.produced = 0 then .done else .ready
        result := some (.ok s.produced)
        ctl := .idle
        produced := 0 } ∧
      t.framePos = t.windowPos ∧
      (∃ bytes : List Byte, bytes.length = s.produced ∧
        (∀ i, i < s.produced → Memory.read s.window (s.framePos + i) = bytes[i]?) ∧
        ∀ i, i < s.produced → Memory.read t.out i = (s.e8Pass bytes)[i]?) ∧
      ∀ a, s.produced ≤ a → Memory.read t.out a = Memory.read s.out a

/-- R195, R196, R203: what comes next at the head of the block loop. -/
def Obligations.BlockLoopHead : Prop :=
  ∀ s : State, s.ctl = .blockLoop →
    (32768 ≤ s.produced → seek s = .ok .complete s) ∧
    (s.produced < 32768 → s.blockRemaining = 0 → ∀ u,
      (eofAtBoundary s = .ok true u → seek s = .ok .complete u) ∧
      (eofAtBoundary s = .ok false u →
        (u.mode = .bitstream → seek s = .ok (.element .blockHeader) { u with ctl := .blockHeader }) ∧
        (u.mode = .bytestream → u.pos % 2 = 0 →
          seek s = .ok (.element .blockHeader) { u with ctl := .blockHeader, mode := .bitstream, pos := u.pos * 8 }) ∧
        (u.mode = .bytestream → u.pos % 2 = 1 → seek s = .ok (.element .padByte) { u with ctl := .blockHeader }))) ∧
    (s.produced < 32768 → s.blockRemaining ≠ 0 →
      seek s = .ok (.element (if s.blockType = .uncompressed then .payload else .mainSym)) s)

/-! ## The E8 pass -/

/-- R270: the pass on the frame's bytes is the spec's: nothing while `e8_magic = 0` or from frame 32768 on, else the
loop of its pseudocode. That `file_pos` is the position of the `0xE8` byte itself is G14, which the spec takes from
general knowledge (log entry 12). -/
def Obligations.E8PassIsSpecLoop : Prop :=
  ∀ (s : State) (bytes : List Byte), s.e8Pass bytes =
    if s.e8Magic = 0 ∨ 32768 ≤ s.frameIndex then bytes
    else e8Loop s.e8Magic.toInt s.outTotal bytes.length 0 bytes

/-- R271, R272: the pass leaves every frame as it is while `e8_magic = 0`, and from frame 32768 on. It keeps the frame's
size, writes only bytes `1 .. frame_size - 7`, and scans nothing of a frame of 10 bytes or fewer; without an `0xE8` among
the bytes before the last 10 it changes nothing. -/
def Obligations.E8PassBounds : Prop :=
  ∀ (s : State) (bytes : List Byte),
    (s.e8Magic = 0 ∨ 32768 ≤ s.frameIndex → s.e8Pass bytes = bytes) ∧
    (s.e8Pass bytes).length = bytes.length ∧
    (s.e8Pass bytes)[0]? = bytes[0]? ∧
    (∀ i, bytes.length ≤ i + 6 → (s.e8Pass bytes)[i]? = bytes[i]?) ∧
    (bytes.length ≤ 10 → s.e8Pass bytes = bytes) ∧
    ((∀ i, i + 10 < bytes.length → bytes[i]? ≠ some 0xE8) → s.e8Pass bytes = bytes)

/-- R273, R275, R276: one operand. It is the little-endian signed value of the four bytes; in `[-file_pos, e8_magic)` it is
rewritten as `abs - file_pos` or `abs + e8_magic`, little-endian, and for a `file_pos` below `2^30` no overflow occurs;
outside it is left as it is. -/
def Obligations.E8Operand : Prop :=
  ∀ (b0 b1 b2 b3 : Byte) (cur magic : Int), 0 ≤ cur → cur < 2 ^ 30 → -2 ^ 31 ≤ magic → magic < 2 ^ 31 →
    ∀ abs : Int, abs = (b3 ++ b2 ++ b1 ++ b0 : BitVec 32).toInt →
      (-cur ≤ abs ∧ abs < magic → ∃ c0 c1 c2 c3 : Byte, e8Bytes b0 b1 b2 b3 cur magic = [c0, c1, c2, c3] ∧
        (c3 ++ c2 ++ c1 ++ c0 : BitVec 32).toInt = if 0 ≤ abs then abs - cur else abs + magic) ∧
      (¬ (-cur ≤ abs ∧ abs < magic) → e8Bytes b0 b1 b2 b3 cur magic = [b0, b1, b2, b3])

/-! ## Headers -/

/-- R92, R194: the E8 header. Its meaning sets `e8_magic` and the mark that the header is read, the block loop comes next,
and every other field is unchanged. A step at it, its bits at hand, reads one bit, and if that is set two 16-bit halves,
the high one first (G2, which the spec takes from general knowledge: log entry 12). Before it `ToBitMode` runs: in
`Bytestream` mode the reader switches at an even byte position, and at an odd one the pad byte comes first. -/
def Obligations.E8Header : Prop :=
  ∀ s : State,
    exec .e8hdrOff s = .next { s with e8Magic := 0, headerRead := true, ctl := .blockLoop } ∧
    (∀ magic, exec (.e8hdrOn magic) s = .next { s with e8Magic := magic, headerRead := true, ctl := .blockLoop }) ∧
    (s.ctl = .e8Header → s.mode = .bitstream →
      (s.hasBits 1 → streamBit s.inp s.pos = false →
        step s = .next { s with pos := s.pos + 1, e8Magic := 0, headerRead := true, ctl := .blockLoop }) ∧
      (s.hasBits 33 → streamBit s.inp s.pos = true →
        step s = .next { s with
          pos := s.pos + 33
          e8Magic := BitVec.ofNat 32 (2 ^ 16 * streamField s.inp (s.pos + 1) 16 + streamField s.inp (s.pos + 17) 16)
          headerRead := true, ctl := .blockLoop })) ∧
    (s.ctl = .e8Header →
      (s.mode = .bitstream → seek s = .ok (.element .e8Header) s) ∧
      (s.mode = .bytestream → s.pos % 2 = 0 →
        seek s = .ok (.element .e8Header) { s with mode := .bitstream, pos := s.pos * 8 }) ∧
      (s.mode = .bytestream → s.pos % 2 = 1 → seek s = .ok (.element .padByte) s))

/-- R197: the meaning of a header of each block type: the lengths and the type set, and the first field of its body next
(the tree sections of R199, R200, the padding of R201); every other field is unchanged. A length of 0 is like any other
(R202). -/
def Obligations.BlockHeaderEffect : Prop :=
  ∀ (len : Word24) (s : State),
    exec (.blockVerbatim len) s = .next { s with
      blockLength := len, blockRemaining := len, blockType := .verbatim
      lenList := .mainLow, lenPos := 0, fieldIdx := 0, ctl := .preLens } ∧
    exec (.blockAligned len) s = .next { s with
      blockLength := len, blockRemaining := len, blockType := .aligned, fieldIdx := 0, ctl := .alignLens } ∧
    exec (.blockUncompressed len) s = .next { s with
      blockLength := len, blockRemaining := len, blockType := .uncompressed, ctl := .uncPad }

/-- R198: a block header of type 0, 4, 5, 6 or 7 raises `UnknownBlockType`: its meaning enters that error, its lengths
having been set, and changes nothing else. Which codes are block types is G3, which the spec takes from general
knowledge (log entry 12). -/
def Obligations.UnknownBlockEffect : Prop :=
  ∀ (len : Word24) (s : State) (i : Instr),
    i = .blockType0 len ∨ i = .blockType4 len ∨ i = .blockType5 len ∨ i = .blockType6 len ∨ i = .blockType7 len →
    exec i s = .next { s with
      blockLength := len, blockRemaining := len
      status := .failed .unknownBlockType, result := some (.err .unknownBlockType), ctl := .idle }

/-- R93, R94, R198: a step at a block header, its 27 bits at hand: the type in the first three, the 24-bit length after
them, high bits first. Which code is which type is G3, which the spec takes from general knowledge (log entry 12). -/
def Obligations.StepReadsBlockHeader : Prop :=
  ∀ s : State, s.ctl = .blockHeader → s.mode = .bitstream → s.hasBits 27 →
    ∀ (type : Nat) (len : Word24), type = streamField s.inp s.pos 3 →
      len = BitVec.ofNat 24 (streamField s.inp (s.pos + 3) 24) →
      (type = 1 → step s = exec (.blockVerbatim len) { s with pos := s.pos + 27 }) ∧
      (type = 2 → step s = exec (.blockAligned len) { s with pos := s.pos + 27 }) ∧
      (type = 3 → step s = exec (.blockUncompressed len) { s with pos := s.pos + 27 }) ∧
      (type = 0 ∨ 4 ≤ type → ∃ t, step s = .next t ∧ t.status = .failed .unknownBlockType ∧ t.pos = s.pos + 27)

/-! ## Code lengths -/

/-- R200: one aligned length. The first seven are stored; the eighth builds the aligned tree, after which the length-lists
begin, or raises `IncompleteHuffmanTree`. -/
def Obligations.AlignedLengths : Prop :=
  ∀ (a : BitVec 3) (s : State),
    (s.fieldIdx + 1 < 8 →
      exec (.alignlen a) s = .next { s with lAl := s.lAl.set s.fieldIdx a, fieldIdx := s.fieldIdx + 1 }) ∧
    (8 ≤ s.fieldIdx + 1 → ∀ l, l = s.lAl.set s.fieldIdx a →
      (kraftSum (l.map BitVec.toNat) = 2 ^ 16 → exec (.alignlen a) s = .next { s with
        lAl := l, tAl := ⟨l.map BitVec.toNat, false⟩, lenList := .mainLow, lenPos := 0, fieldIdx := 0, ctl := .preLens }) ∧
      (kraftSum (l.map BitVec.toNat) ≠ 2 ^ 16 → exec (.alignlen a) s = .next { s with
        lAl := l, fieldIdx := s.fieldIdx + 1
        status := .failed .incompleteHuffmanTree, result := some (.err .incompleteHuffmanTree), ctl := .idle }))

/-- R167, R98: one pretree length. The first nineteen are stored; the twentieth builds the pretree, after which the
length codes begin, or raises `IncompleteHuffmanTree`. The pretree is G4, which the spec takes from general knowledge
(log entry 12). -/
def Obligations.PretreeLengths : Prop :=
  ∀ (p : BitVec 4) (s : State),
    (s.fieldIdx + 1 < 20 →
      exec (.prelen p) s = .next { s with lPre := s.lPre.set s.fieldIdx p, fieldIdx := s.fieldIdx + 1 }) ∧
    (20 ≤ s.fieldIdx + 1 → ∀ l, l = s.lPre.set s.fieldIdx p →
      (kraftSum (l.map BitVec.toNat) = 2 ^ 16 → exec (.prelen p) s = .next { s with
        lPre := l, tPre := ⟨l.map BitVec.toNat, false⟩, fieldIdx := s.fieldIdx + 1, ctl := .lenCodes }) ∧
      (kraftSum (l.map BitVec.toNat) ≠ 2 ^ 16 → exec (.prelen p) s = .next { s with
        lPre := l, fieldIdx := s.fieldIdx + 1
        status := .failed .incompleteHuffmanTree, result := some (.err .incompleteHuffmanTree), ctl := .idle }))

/-- R168, R169, R170, R171: a length code (`lengthRun` lists the twenty, with the run each writes) whose run ends before
the end of its list writes the run's lengths, no other length and no other field but its place in the list. The
direction of the delta and the base of a run are G5 and G6, which the spec takes from general knowledge (log entry
12). -/
def Obligations.LengthCodeWrites : Prop :=
  ∀ (i : Instr) (s : State) (prev : Nat) (n : Nat) (v : Len),
    s.listLens[s.lenPos]?.map Fin.val = some prev → lengthRun i prev = some (n, v.val) → s.lenPos + n < s.listLast →
    ∃ l : List Len, exec i s = .next { s.setListLens l with lenPos := s.lenPos + n } ∧
      l.length = s.listLens.length ∧
      ∀ j, l[j]? = if s.lenPos ≤ j ∧ j < s.lenPos + n ∧ j < l.length then some v else s.listLens[j]?

/-- R199: a length code whose run ends its list. After the low main lengths the high ones follow; after those the main
tree is built; after the length-tree lengths the length tree is built, empty if they are all zero, and the block's
elements follow. A length set that fails the Kraft equality raises `IncompleteHuffmanTree`. The order of the lists is
G11, which the spec takes from general knowledge (log entry 12). -/
def Obligations.LengthListEnds : Prop :=
  ∀ (i : Instr) (s : State) (prev : Nat) (n : Nat) (v : Len),
    s.listLens[s.lenPos]?.map Fin.val = some prev → lengthRun i prev = some (n, v.val) → s.lenPos + n = s.listLast →
    ∃ l : List Len, l.length = s.listLens.length ∧
      (∀ j, l[j]? = if s.lenPos ≤ j ∧ j < s.lenPos + n ∧ j < l.length then some v else s.listLens[j]?) ∧
      (s.lenList = .mainLow → exec i s = .next { s with
        lMain := l, lenList := .mainHigh, lenPos := 256, fieldIdx := 0, ctl := .preLens }) ∧
      (s.lenList = .mainHigh → kraftSum (l.map Fin.val) = 2 ^ 16 → exec i s = .next { s with
        lMain := l, tMain := ⟨l.map Fin.val, false⟩, lenList := .length, lenPos := 0, fieldIdx := 0, ctl := .preLens }) ∧
      (s.lenList = .length → (∀ x ∈ l, x = 0) → exec i s = .next { s with
        lLen := l, tLen := ⟨l.map Fin.val, true⟩, lenPos := s.lenPos + n, ctl := .blockLoop }) ∧
      (s.lenList = .length → kraftSum (l.map Fin.val) = 2 ^ 16 → exec i s = .next { s with
        lLen := l, tLen := ⟨l.map Fin.val, false⟩, lenPos := s.lenPos + n, ctl := .blockLoop }) ∧
      (s.lenList = .mainHigh ∧ kraftSum (l.map Fin.val) ≠ 2 ^ 16 ∨
          s.lenList = .length ∧ (∃ x ∈ l, x ≠ 0) ∧ kraftSum (l.map Fin.val) ≠ 2 ^ 16 →
        exec i s = .next (({ s.setListLens l with lenPos := s.lenPos + n } : State).takeError .incompleteHuffmanTree))

/-- R172, R173: a run of code 17, 18 or 19 that would pass the end of its list raises `LengthRunOverrun` and writes no
length; a code-19 inner symbol above 16 raises `BadLengthCode` first, whatever the run. -/
def Obligations.LengthCodeErrors : Prop :=
  ∀ s : State,
    (∀ k : BitVec 4, s.listLast < s.lenPos + (4 + k.toNat) →
      exec (.zrun4 k) s = .next (s.takeError .lengthRunOverrun)) ∧
    (∀ k : BitVec 5, s.listLast < s.lenPos + (20 + k.toNat) →
      exec (.zrun20 k) s = .next (s.takeError .lengthRunOverrun)) ∧
    (∀ (k : BitVec 1) (z2 : Nat), z2 ≤ 16 → s.listLast < s.lenPos + (4 + k.toNat) →
      exec (.srun k z2) s = .next (s.takeError .lengthRunOverrun)) ∧
    ∀ (k : BitVec 1) (z2 : Nat), 16 < z2 → exec (.srun k z2) s = .next (s.takeError .badLengthCode)

/-! ## Literals and matches -/

/-- R231: a literal writes its byte at `window_pos`, and no other window byte; the four counters move by one and nothing
else changes. -/
def Obligations.LiteralWrites : Prop :=
  ∀ (b : Byte) (s : State), s.windowPos < s.winSize →
    ∃ t, exec (.lit b) s = .next t ∧
      t = { s with
        window := t.window, windowPos := s.windowPos + 1, totalWritten := s.totalWritten + 1
        blockRemaining := s.blockRemaining - 1, produced := s.produced + 1, ctl := .blockLoop } ∧
      WritesRun s t 1 fun _ => some b

/-- R232, R234: a match of any slot with length header 7 waits for its length-tree symbol, which comes before any offset
field: nothing but the match under way changes. The split of the symbol and the place of the length-tree symbol are G7, which
the spec takes from general knowledge (log entry 12); how the match is held is the model's (log entry 19). -/
def Obligations.MatchAwaitsLength : Prop :=
  ∀ (i : Instr) (s : State) (slot : Nat), matchParts i = some (slot, 7) →
    exec i s = .next { s with pend := ⟨slot, 0, 0⟩, ctl := .lenSym }

/-- R235, R236, R237, R245, R247: a match of slot 0, 1 or 2 whose checks hold (R244). The offset is the register's,
slots 1 and 2 swap it with `R0`, the bytes are copied from that far back, no bit is read and nothing else changes. The
split of the symbol and the swaps are G7 and G12, which the spec takes from general knowledge (log entry 12). -/
def Obligations.RepeatMatchCopies : Prop :=
  ∀ (i : Instr) (s : State) (slot length offset : Nat) (r : Regs),
    MatchForm i s slot length → RepeatOffset s slot offset r → s.WindowInv → firstCheck s offset length = none →
    ∃ t, exec i s = .next t ∧ MatchDone s t 0 r length ∧ MatchCopied s t offset length

/-- R238, R239, R240, R243, R245: a match of an explicit slot whose extra bits are verbatim, at hand, and whose checks
hold. The offset is `position_base - 2` plus the bits' value and is shifted into the registers. The split, the slot
table and the shift are G7, G8 and G13, which the spec takes from general knowledge (log entry 12). -/
def Obligations.VerbatimMatchCopies : Prop :=
  ∀ (i : Instr) (s : State) (slot length offset bits : Nat) (r : Regs),
    MatchForm i s slot length → VerbatimOffset s slot offset bits r → s.WindowInv → firstCheck s offset length = none →
    ∃ t, exec i s = .next t ∧ MatchDone s t bits r length ∧ MatchCopied s t offset length

/-- R241, R242: in an Aligned block a match of a slot with three or more extra bits reads all but the last three of them
and waits for the aligned symbol (how the match is held is the model's, log entry 19). The order of the fields is G9,
which the spec takes from general knowledge (log entry 12). -/
def Obligations.AlignedMatchAwaits : Prop :=
  ∀ (i : Instr) (s : State) (slot length bits base wb : Nat),
    MatchForm i s slot length → (slot, bits, base, wb) ∈ slotRows → 3 ≤ bits → s.blockType = .aligned →
    s.mode = .bitstream → s.hasBits (bits - 3) →
    exec i s = .next { s with
      pos := s.pos + (bits - 3), pend := ⟨slot, length, streamField s.inp s.pos (bits - 3)⟩, ctl := .alSym }

/-- R241, R242, R243, R245: the aligned symbol of a match. Its three bits are the low ones of the extra value, above
them the verbatim bits read before; the offset is shifted into the registers and, the checks holding, the bytes are
copied. The slot table, the order of the fields and the shift are G8, G9 and G13, which the spec takes from general
knowledge (log entry 12). -/
def Obligations.AlignedMatchCopies : Prop :=
  ∀ (a : BitVec 3) (s : State) (offset bits base wb : Nat),
    (s.pend.slot, bits, base, wb) ∈ slotRows → 3 ≤ bits → offset = base - 2 + (8 * s.pend.hi + a.toNat) →
    s.WindowInv → firstCheck s offset s.pend.length = none →
    ∃ t, exec (.alsym a) s = .next t ∧ MatchDone s t 0 ⟨BitVec.ofNat 32 offset, s.r0, s.r1⟩ s.pend.length ∧
      MatchCopied s t offset s.pend.length

/-- R244: a match one of whose checks fails raises the error of the first that does, in the spec's order, after the
offset bits and the register update and before any byte is copied. The offsets and the registers are those of the
statements before this one (log entry 12). -/
def Obligations.MatchCheckFails : Prop :=
  ∀ (s : State) (offset : Nat) (e : ErrKind),
    (∀ (i : Instr) (slot length bits : Nat) (r : Regs), MatchForm i s slot length →
      (bits = 0 ∧ RepeatOffset s slot offset r ∨ VerbatimOffset s slot offset bits r) →
      firstCheck s offset length = some e → exec i s = .next ((s.withRegs bits r).takeError e)) ∧
    (∀ (a : BitVec 3) (bits base wb : Nat), (s.pend.slot, bits, base, wb) ∈ slotRows → 3 ≤ bits →
      offset = base - 2 + (8 * s.pend.hi + a.toNat) → firstCheck s offset s.pend.length = some e →
      exec (.alsym a) s = .next ((s.withRegs 0 ⟨BitVec.ofNat 32 offset, s.r0, s.r1⟩).takeError e))

/-- R246: the copy is the source's split copy. With `offset > window_pos` the first `offset - window_pos` bytes come from
the end of the window, from index `W - (offset - window_pos)` up, and the rest from index 0 up. -/
def Obligations.SplitCopy : Prop :=
  ∀ (s : State) (offset length : Nat), s.WindowInv → firstCheck s offset length = none → s.windowPos < offset →
    ∃ t, copyMatch offset length s = .ok () t ∧
      ∀ i, i < length → Memory.read t.window (s.windowPos + i) =
        if i < offset - s.windowPos then Memory.read s.window (s.winSize - (offset - s.windowPos) + i)
        else Memory.read t.window (i - (offset - s.windowPos))

/-! ## Uncompressed blocks -/

/-- R141: `UNC.PAD`, the switch to `Bytestream` mode. It discards the `d` = 1 to 16 bits up to the next unit boundary once
they are at hand: all zero, the reader stands at the even byte after them; one of them set, `BadPadding` is raised and
the position does not move. In `Bytestream` mode already nothing is discarded. -/
def Obligations.PaddingRule : Prop :=
  ∀ (s : State) (d : Nat), d = 16 - s.pos % 16 →
    (s.mode = .bitstream →
      (∀ u, need d s = .ok () u →
        ((∀ b, s.pos ≤ b → b < s.pos + d → streamBit u.inp b = false) →
          exec .uncPad s = .next { u with mode := .bytestream, pos := (s.pos + d) / 8, ctl := .uncWords }) ∧
        ((∃ b, s.pos ≤ b ∧ b < s.pos + d ∧ streamBit u.inp b = true) →
          exec .uncPad s = .next (u.takeError .badPadding))) ∧
      (∀ e u, need d s = .raise e u → exec .uncPad s = .next (u.takeError e))) ∧
    (s.mode = .bytestream → exec .uncPad s = .next { s with ctl := .uncWords }) ∧
    (s.hasBits d → need d s = .ok () s) ∧ 16 ∣ s.pos + d

/-- R201, R33, R146: the three words load the three registers whatever their values; nothing else changes but that the
payload comes next. A step at the words, their twelve bytes at hand, reads each as the little-endian word of four bytes,
in stream order, and moves by twelve. -/
def Obligations.RegisterWordsLoad : Prop :=
  ∀ s : State,
    (∀ w0 w1 w2 : Word32, exec (.uncRWords w0 w1 w2) s = .next { s with r0 := w0, r1 := w1, r2 := w2, ctl := .blockLoop }) ∧
    (s.ctl = .uncWords → s.mode = .bytestream → s.hasBytes 12 →
      step s = .next { s with
        pos := s.pos + 12, r0 := streamWord s.inp s.pos, r1 := streamWord s.inp (s.pos + 4)
        r2 := streamWord s.inp (s.pos + 8), ctl := .blockLoop })

/-- R248: the payload run: the rest of the block or of the frame, whichever is shorter, goes from the stream to the window
byte by byte; no other window byte changes, and no other field but what the pulls for its last byte leave. With the
bytes at hand nothing is pulled. An error of those pulls (the end of input, an error of the host) is the run's error: the
bytes received before it stand in the window, and the block and the frame have not moved on (what an error leaves is the
model's, log entry 21). -/
def Obligations.PayloadCopies : Prop :=
  ∀ (s : State) (n : Nat), n = min s.blockRemaining.toNat (32768 - s.produced) →
    s.mode = .bytestream → s.windowPos + n ≤ s.winSize →
    (∀ u, (n = 0 ∨ s.hasBytes n) ∧ u = s ∨ 0 < n ∧ fetchByte (s.pos + n - 1) s = .ok () u →
      ∃ t, exec .uncPayload s = .next t ∧
        t = { u with
          pos := s.pos + n, window := t.window, windowPos := s.windowPos + n, totalWritten := s.totalWritten + n
          blockRemaining := s.blockRemaining - BitVec.ofNat 24 n, produced := s.produced + n, ctl := .blockLoop } ∧
        WritesRun s t n fun i => u.inp[s.pos + i]?) ∧
    (∀ e u m, 0 < n → fetchByte (s.pos + n - 1) s = .raise e u → m = u.inp.length - s.pos →
      ∃ t, exec .uncPayload s = .next t ∧
        t = { u with
          pos := s.pos + m, window := t.window, windowPos := s.windowPos + m, totalWritten := s.totalWritten + m
          status := .failed e, result := some (.err e), ctl := .idle } ∧
        WritesRun s t m fun i => u.inp[s.pos + i]?) ∧
    ∀ f, 0 < n → fetchByte (s.pos + n - 1) s = .stop f → exec .uncPayload s = .fault f

/-- R142: `UNC.PADBYTE`, the switch back to `Bitstream` mode. From an odd byte index it skips one byte of any value once
the byte is at hand; from an even one it skips nothing; in `Bitstream` mode it does nothing. -/
def Obligations.PadByteRule : Prop :=
  ∀ (x : Byte) (s : State),
    (s.mode = .bytestream → s.pos % 2 = 1 →
      (∀ u, fetchByte s.pos s = .ok () u →
        exec (.uncPadByte x) s = .next { u with mode := .bitstream, pos := 8 * (s.pos + 1) }) ∧
      (∀ e u, fetchByte s.pos s = .raise e u → exec (.uncPadByte x) s = .next (u.takeError e))) ∧
    (s.mode = .bytestream → s.pos % 2 = 0 → exec (.uncPadByte x) s = .next { s with mode := .bitstream, pos := 8 * s.pos }) ∧
    (s.mode = .bitstream → exec (.uncPadByte x) s = .next s) ∧
    (s.hasBytes 1 → fetchByte s.pos s = .ok () s)

/-! ## A step -/

/-- A step runs the decoded instruction: between commands the host's next command, inside one the element that the search
finds, on the state its reading leaves; an error on the way is entered, a stop ends the run, and with no command waiting
nothing happens. Where the host destroys the decoder (R324), every piece of its state is at its reset value, none exists,
and the host's side stays; with none to destroy the act is refused. That a step is one element, that a stop ends the run,
and what a destruction leaves of the host's side are the model's choices (log entries 1, 3 and 22). -/
def Obligations.StepRunsInstruction : Prop :=
  ∀ s : State,
    (s.ctl = .idle → s.cmds = [] → step s = .next s) ∧
    (∀ wb ri cs, s.ctl = .idle → s.cmds = .construct wb ri :: cs → step s = exec (.construct wb ri) { s with cmds := cs }) ∧
    (∀ n cs, s.ctl = .idle → s.cmds = .decodeFrame n :: cs → step s = exec (.decodeFrame n) { s with cmds := cs }) ∧
    (∀ cs, s.ctl = .idle → s.cmds = .destroy :: cs →
      (s.alive = true → step s = .next { State.reset with
        alive := false, cmds := cs, replies := s.replies, inbufSize := s.inbufSize, out := s.out }) ∧
      (s.alive = false → step s = .next { s with cmds := cs, refused := true, result := some .refused })) ∧
    (s.ctl ≠ .idle →
      (∀ site u i v, seek s = .ok (.element site) u → fetchInstr site u = .ok i v → step s = exec i v) ∧
      (∀ site u e v, seek s = .ok (.element site) u → fetchInstr site u = .raise e v → step s = .next (v.takeError e)) ∧
      (∀ site u f, seek s = .ok (.element site) u → fetchInstr site u = .stop f → step s = .fault f) ∧
      (∀ u, seek s = .ok .complete u → step s = (completeFrame u).finish) ∧
      (∀ e u, seek s = .raise e u → step s = .next (u.takeError e)) ∧
      (∀ f, seek s = .stop f → step s = .fault f))

/-- Reading an element from the stream is decoding its bits: where the plain decoder reads an instruction off the bits
that stand at the position, those bits and what its symbols' peeks see being at hand, the reader fetches that instruction
and moves by the bits it took; and where the plain decoder rejects the element with an error kind (a code-19 run whose
inner symbol is no delta, R171), the reader raises that error, some of those bits read. -/
def Obligations.FetchIsDecode : Prop :=
  ∀ (s : State) (site : Site) (n : Nat), s.LengthsInv → s.mode = site.mode →
    (s.mode = .bitstream → ∀ d, d = decodeBits site (fun t => canonical (s.table t).lens)
        ((List.range n).map fun k => streamBit s.inp (s.pos + k)) → s.hasBits (bitsToFetch site d n) →
      (∀ i rest, d = .instr i rest → fetchInstr site s = .ok i { s with pos := s.pos + (n - rest.length) }) ∧
      (∀ e, d = .rejected (.error e) → ∃ k, k ≤ n ∧ fetchInstr site s = .raise e { s with pos := s.pos + k })) ∧
    (s.mode = .bytestream → s.hasBytes n → ∀ (i : Instr) (rest : List Bool),
      decode site (fun t => canonical (s.table t).lens) ((s.inp.drop s.pos).take n) = .instr i rest →
      fetchInstr site s = .ok i { s with pos := s.pos + (n - rest.length / 8) })

/-! ## Invariants -/

/-- The machine after reset meets every invariant. Its parameters, the values the spec does not give and the model's own
fields are the model's choices (log entries 4, 5 and 17). -/
def Obligations.ResetMeetsInv : Prop := State.reset.Inv

/-- R6, R11, R60, R24, R131: every step keeps the parameters in range, the memories in canonical form and inside their
ranges, and `IN` the real bytes followed, once the input has ended, by two zero bytes. -/
def Obligations.StepKeepsMemories : Prop :=
  ∀ s t : State, step s = .next t →
    (s.ConfigInv → t.ConfigInv) ∧ (s.MemoryInv → t.MemoryInv) ∧ (s.ReaderInv → t.ReaderInv)

/-- R39 to R43: every step keeps the length arrays at their sizes and each table not built or a complete code. -/
def Obligations.StepKeepsTables : Prop :=
  ∀ s t : State, s.LengthsInv → step s = .next t → t.LengthsInv

/-- R29, R31, R46, R230: every step keeps the counters' relations. -/
def Obligations.StepKeepsFrame : Prop :=
  ∀ s t : State, s.FrameInv → step s = .next t → t.FrameInv

/-- R28, R62: every step keeps the window holding a value exactly where a byte has been written, the next byte going to
`total_written mod W`. -/
def Obligations.StepKeepsWindow : Prop :=
  ∀ s t : State, s.WindowInv → step s = .next t → t.WindowInv

/-- R46, R45, R144: every step keeps what the header mark, the mode and the block say of each other, between commands (where
in `Bitstream` mode the position is a multiple of 16) and at every place inside one. -/
def Obligations.StepKeepsControl : Prop :=
  ∀ s t : State, s.ControlInv → step s = .next t → t.ControlInv

/-- R43, R81: every step keeps every table built before the decoder comes to a place where it is read. -/
def Obligations.StepKeepsBuilt : Prop :=
  ∀ s t : State, s.ControlInv → s.BuiltInv → step s = .next t → t.BuiltInv

/-- R209, R230: every step keeps frames beginning at multiples of 32768, or the input ended with no element to follow. -/
def Obligations.StepKeepsPlaced : Prop :=
  ∀ s t : State, s.ConfigInv → s.FrameInv → s.ControlInv → s.PlacedInv → step s = .next t → t.PlacedInv

/-! ## Whole-machine rules -/

/-- A step stops only where the host falls silent: the pull that meets no reply has no next step (U13; the fault is the
model's, log entry 3). From every state that meets the invariants no other fault arises, and no instruction is refused
anywhere. -/
def Obligations.OnlySilenceStops : Prop :=
  (∀ s : State, s.eof = false → s.replies = [] → pull s = .stop .hostSilent) ∧
  (∀ (s : State) (f : Fault), s.Inv → s.status = .ready → step s = .fault f → f = .hostSilent) ∧
  ∀ (s : State) (r : Refusal), step s ≠ .refused r

/-- R144, R300, R165: no stream makes the decoder read in the wrong mode or run out of bits in a tree. -/
def Obligations.NoWrongModeNoOverrun : Prop :=
  ∀ (s t : State) (e : ErrKind), s.Inv → s.status = .ready → step s = .next t → t.status = .failed e →
    e ≠ .wrongMode ∧ e ≠ .huffmanDecodeOverrun

/-- R310, R311: a step that fails the decoder ends the command with its error kind and writes no output byte; and the
output buffer is written only by the step that returns a frame. -/
def Obligations.ErrorsWriteNoOutput : Prop :=
  (∀ (s t : State) (e : ErrKind), step s = .next t → s.status = .ready → t.status = .failed e →
    t.result = some (.err e) ∧ t.ctl = .idle ∧ t.out = s.out) ∧
  ∀ s t : State, step s = .next t → t.out ≠ s.out → ∃ n, t.result = some (.ok n) ∧ t.frameIndex = s.frameIndex + 1

/-- R25, R312: `Done` and `Failed` are left only by constructing a new decoder: from a state that keeps `StatusInv` a step
leaves the status as it is, `Done` or the one error, unless it constructs a decoder in range or destroys the one there is,
after which none exists (R324, log entry 22). -/
def Obligations.OnlyConstructRevives : Prop :=
  ∀ s t : State, s.StatusInv → s.status ≠ .ready → step s = .next t →
    t.status = s.status ∨
    s.ctl = .idle ∧ ((∃ wb ri cs, s.cmds = .construct wb ri :: cs ∧ 15 ≤ wb ∧ wb ≤ 21) ∨
      s.alive = true ∧ (∃ cs, s.cmds = .destroy :: cs) ∧ t.alive = false)

/-- R22, R23, R24, R27: but for a new construction or the decoder's end, a step never moves the reader back, never takes
back a byte received, never clears `eof`, and never writes the configuration. -/
def Obligations.ReaderOnlyAdvances : Prop :=
  ∀ s t : State, step s = .next t →
    ¬ (s.ctl = .idle ∧ ∃ c cs, s.cmds = c :: cs ∧ ((∃ wb ri, c = .construct wb ri) ∨ c = .destroy)) →
    s.bitPos ≤ t.bitPos ∧ s.inp <+: t.inp ∧ s.nreal ≤ t.nreal ∧ (s.eof = true → t.eof = true) ∧
      t.windowBits = s.windowBits ∧ t.resetInterval = s.resetInterval ∧ t.inbufSize = s.inbufSize

/-- R33: the writers of the repeat-offset registers are the matches of slots 1 and up, the Uncompressed header, the
periodic reset and construction; no other instruction changes one. -/
def Obligations.RegisterWriters : Prop :=
  ∀ (i : Instr) (s t : State), exec i s = .next t → (t.r0, t.r1, t.r2) ≠ (s.r0, s.r1, s.r2) →
    (∃ slot hdr, matchParts i = some (slot, hdr) ∧ slot ≠ 0) ∨ (∃ l, i = .lsym l ∧ s.pend.slot ≠ 0) ∨
      (∃ a, i = .alsym a) ∨ (∃ w0 w1 w2, i = .uncRWords w0 w1 w2) ∨
      (∃ n, i = .decodeFrame n ∧ s.resetInterval ≠ 0 ∧ s.frameIndex % s.resetInterval = 0) ∨
      ∃ wb ri, i = .construct wb ri

/-- R28, R39 to R43: the writers of the window are literals, matches and the payload; those of the main and length-tree
code lengths are the length codes, and the periodic reset where it is due; of the aligned and the pretree lengths their
own fields; of the tables the three tree sections; and of all of them construction. -/
def Obligations.WindowAndTableWriters : Prop :=
  ∀ (i : Instr) (s t : State), exec i s = .next t →
    (t.window ≠ s.window → (∃ b, i = .lit b) ∨ (∃ p, matchParts i = some p) ∨ (∃ l, i = .lsym l) ∨ (∃ a, i = .alsym a) ∨
      i = .uncPayload ∨ ∃ wb ri, i = .construct wb ri) ∧
    ((t.lMain, t.lLen) ≠ (s.lMain, s.lLen) → (∃ prev p, lengthRun i prev = some p) ∨
      (∃ n, i = .decodeFrame n ∧ s.resetInterval ≠ 0 ∧ s.frameIndex % s.resetInterval = 0) ∨
      ∃ wb ri, i = .construct wb ri) ∧
    (t.lAl ≠ s.lAl → (∃ a, i = .alignlen a) ∨ ∃ wb ri, i = .construct wb ri) ∧
    (t.lPre ≠ s.lPre → (∃ p, i = .prelen p) ∨ ∃ wb ri, i = .construct wb ri) ∧
    (∀ tr, t.table tr ≠ s.table tr → (∃ a, i = .alignlen a) ∨ (∃ p, i = .prelen p) ∨
      (∃ prev p, lengthRun i prev = some p) ∨ ∃ wb ri, i = .construct wb ri)

/-- R25, R208, R310: every step keeps a decoder that has ended or failed between commands. -/
def Obligations.StepKeepsStatus : Prop :=
  ∀ s t : State, s.StatusInv → step s = .next t → t.StatusInv
end

