-- ==== Sys2Proof/Laws/State.lean ====
section
/-! SUPPORT. The value of every field after every named update of the state, true by definition: what a proof about an
operation uses instead of unfolding the update. -/

namespace Sys2Proof.Machine

variable (s : State)

/-! ### `takeError` -/

@[simp] theorem State.takeError_mode (e : ErrKind) : (s.takeError e).mode = s.mode := rfl
@[simp] theorem State.takeError_pos (e : ErrKind) : (s.takeError e).pos = s.pos := rfl
@[simp] theorem State.takeError_eof (e : ErrKind) : (s.takeError e).eof = s.eof := rfl
@[simp] theorem State.takeError_inp (e : ErrKind) : (s.takeError e).inp = s.inp := rfl
@[simp] theorem State.takeError_nreal (e : ErrKind) : (s.takeError e).nreal = s.nreal := rfl
@[simp] theorem State.takeError_status (e : ErrKind) : (s.takeError e).status = .failed e := rfl
@[simp] theorem State.takeError_refused (e : ErrKind) : (s.takeError e).refused = s.refused := rfl
@[simp] theorem State.takeError_windowBits (e : ErrKind) : (s.takeError e).windowBits = s.windowBits := rfl
@[simp] theorem State.takeError_resetInterval (e : ErrKind) : (s.takeError e).resetInterval = s.resetInterval := rfl
@[simp] theorem State.takeError_inbufSize (e : ErrKind) : (s.takeError e).inbufSize = s.inbufSize := rfl
@[simp] theorem State.takeError_window (e : ErrKind) : (s.takeError e).window = s.window := rfl
@[simp] theorem State.takeError_totalWritten (e : ErrKind) : (s.takeError e).totalWritten = s.totalWritten := rfl
@[simp] theorem State.takeError_outTotal (e : ErrKind) : (s.takeError e).outTotal = s.outTotal := rfl
@[simp] theorem State.takeError_windowPos (e : ErrKind) : (s.takeError e).windowPos = s.windowPos := rfl
@[simp] theorem State.takeError_framePos (e : ErrKind) : (s.takeError e).framePos = s.framePos := rfl
@[simp] theorem State.takeError_frameIndex (e : ErrKind) : (s.takeError e).frameIndex = s.frameIndex := rfl
@[simp] theorem State.takeError_r0 (e : ErrKind) : (s.takeError e).r0 = s.r0 := rfl
@[simp] theorem State.takeError_r1 (e : ErrKind) : (s.takeError e).r1 = s.r1 := rfl
@[simp] theorem State.takeError_r2 (e : ErrKind) : (s.takeError e).r2 = s.r2 := rfl
@[simp] theorem State.takeError_blockType (e : ErrKind) : (s.takeError e).blockType = s.blockType := rfl
@[simp] theorem State.takeError_blockLength (e : ErrKind) : (s.takeError e).blockLength = s.blockLength := rfl
@[simp] theorem State.takeError_blockRemaining (e : ErrKind) : (s.takeError e).blockRemaining = s.blockRemaining := rfl
@[simp] theorem State.takeError_e8Magic (e : ErrKind) : (s.takeError e).e8Magic = s.e8Magic := rfl
@[simp] theorem State.takeError_headerRead (e : ErrKind) : (s.takeError e).headerRead = s.headerRead := rfl
@[simp] theorem State.takeError_lMain (e : ErrKind) : (s.takeError e).lMain = s.lMain := rfl
@[simp] theorem State.takeError_lLen (e : ErrKind) : (s.takeError e).lLen = s.lLen := rfl
@[simp] theorem State.takeError_lAl (e : ErrKind) : (s.takeError e).lAl = s.lAl := rfl
@[simp] theorem State.takeError_lPre (e : ErrKind) : (s.takeError e).lPre = s.lPre := rfl
@[simp] theorem State.takeError_tPre (e : ErrKind) : (s.takeError e).tPre = s.tPre := rfl
@[simp] theorem State.takeError_tMain (e : ErrKind) : (s.takeError e).tMain = s.tMain := rfl
@[simp] theorem State.takeError_tLen (e : ErrKind) : (s.takeError e).tLen = s.tLen := rfl
@[simp] theorem State.takeError_tAl (e : ErrKind) : (s.takeError e).tAl = s.tAl := rfl
@[simp] theorem State.takeError_out (e : ErrKind) : (s.takeError e).out = s.out := rfl
@[simp] theorem State.takeError_alive (e : ErrKind) : (s.takeError e).alive = s.alive := rfl
@[simp] theorem State.takeError_cmds (e : ErrKind) : (s.takeError e).cmds = s.cmds := rfl
@[simp] theorem State.takeError_replies (e : ErrKind) : (s.takeError e).replies = s.replies := rfl
@[simp] theorem State.takeError_result (e : ErrKind) : (s.takeError e).result = some (.err e) := rfl
@[simp] theorem State.takeError_ctl (e : ErrKind) : (s.takeError e).ctl = .idle := rfl
@[simp] theorem State.takeError_produced (e : ErrKind) : (s.takeError e).produced = s.produced := rfl
@[simp] theorem State.takeError_lenList (e : ErrKind) : (s.takeError e).lenList = s.lenList := rfl
@[simp] theorem State.takeError_lenPos (e : ErrKind) : (s.takeError e).lenPos = s.lenPos := rfl
@[simp] theorem State.takeError_fieldIdx (e : ErrKind) : (s.takeError e).fieldIdx = s.fieldIdx := rfl
@[simp] theorem State.takeError_pend (e : ErrKind) : (s.takeError e).pend = s.pend := rfl

/-! ### `goto` -/

@[simp] theorem State.goto_mode (c : Ctl) : (s.goto c).mode = s.mode := rfl
@[simp] theorem State.goto_pos (c : Ctl) : (s.goto c).pos = s.pos := rfl
@[simp] theorem State.goto_eof (c : Ctl) : (s.goto c).eof = s.eof := rfl
@[simp] theorem State.goto_inp (c : Ctl) : (s.goto c).inp = s.inp := rfl
@[simp] theorem State.goto_nreal (c : Ctl) : (s.goto c).nreal = s.nreal := rfl
@[simp] theorem State.goto_status (c : Ctl) : (s.goto c).status = s.status := rfl
@[simp] theorem State.goto_refused (c : Ctl) : (s.goto c).refused = s.refused := rfl
@[simp] theorem State.goto_windowBits (c : Ctl) : (s.goto c).windowBits = s.windowBits := rfl
@[simp] theorem State.goto_resetInterval (c : Ctl) : (s.goto c).resetInterval = s.resetInterval := rfl
@[simp] theorem State.goto_inbufSize (c : Ctl) : (s.goto c).inbufSize = s.inbufSize := rfl
@[simp] theorem State.goto_window (c : Ctl) : (s.goto c).window = s.window := rfl
@[simp] theorem State.goto_totalWritten (c : Ctl) : (s.goto c).totalWritten = s.totalWritten := rfl
@[simp] theorem State.goto_outTotal (c : Ctl) : (s.goto c).outTotal = s.outTotal := rfl
@[simp] theorem State.goto_windowPos (c : Ctl) : (s.goto c).windowPos = s.windowPos := rfl
@[simp] theorem State.goto_framePos (c : Ctl) : (s.goto c).framePos = s.framePos := rfl
@[simp] theorem State.goto_frameIndex (c : Ctl) : (s.goto c).frameIndex = s.frameIndex := rfl
@[simp] theorem State.goto_r0 (c : Ctl) : (s.goto c).r0 = s.r0 := rfl
@[simp] theorem State.goto_r1 (c : Ctl) : (s.goto c).r1 = s.r1 := rfl
@[simp] theorem State.goto_r2 (c : Ctl) : (s.goto c).r2 = s.r2 := rfl
@[simp] theorem State.goto_blockType (c : Ctl) : (s.goto c).blockType = s.blockType := rfl
@[simp] theorem State.goto_blockLength (c : Ctl) : (s.goto c).blockLength = s.blockLength := rfl
@[simp] theorem State.goto_blockRemaining (c : Ctl) : (s.goto c).blockRemaining = s.blockRemaining := rfl
@[simp] theorem State.goto_e8Magic (c : Ctl) : (s.goto c).e8Magic = s.e8Magic := rfl
@[simp] theorem State.goto_headerRead (c : Ctl) : (s.goto c).headerRead = s.headerRead := rfl
@[simp] theorem State.goto_lMain (c : Ctl) : (s.goto c).lMain = s.lMain := rfl
@[simp] theorem State.goto_lLen (c : Ctl) : (s.goto c).lLen = s.lLen := rfl
@[simp] theorem State.goto_lAl (c : Ctl) : (s.goto c).lAl = s.lAl := rfl
@[simp] theorem State.goto_lPre (c : Ctl) : (s.goto c).lPre = s.lPre := rfl
@[simp] theorem State.goto_tPre (c : Ctl) : (s.goto c).tPre = s.tPre := rfl
@[simp] theorem State.goto_tMain (c : Ctl) : (s.goto c).tMain = s.tMain := rfl
@[simp] theorem State.goto_tLen (c : Ctl) : (s.goto c).tLen = s.tLen := rfl
@[simp] theorem State.goto_tAl (c : Ctl) : (s.goto c).tAl = s.tAl := rfl
@[simp] theorem State.goto_out (c : Ctl) : (s.goto c).out = s.out := rfl
@[simp] theorem State.goto_alive (c : Ctl) : (s.goto c).alive = s.alive := rfl
@[simp] theorem State.goto_cmds (c : Ctl) : (s.goto c).cmds = s.cmds := rfl
@[simp] theorem State.goto_replies (c : Ctl) : (s.goto c).replies = s.replies := rfl
@[simp] theorem State.goto_result (c : Ctl) : (s.goto c).result = s.result := rfl
@[simp] theorem State.goto_ctl (c : Ctl) : (s.goto c).ctl = c := rfl
@[simp] theorem State.goto_produced (c : Ctl) : (s.goto c).produced = s.produced := rfl
@[simp] theorem State.goto_lenList (c : Ctl) : (s.goto c).lenList = s.lenList := rfl
@[simp] theorem State.goto_lenPos (c : Ctl) : (s.goto c).lenPos = s.lenPos := rfl
@[simp] theorem State.goto_fieldIdx (c : Ctl) : (s.goto c).fieldIdx = s.fieldIdx := rfl
@[simp] theorem State.goto_pend (c : Ctl) : (s.goto c).pend = s.pend := rfl

/-! ### `consume` -/

@[simp] theorem State.consume_mode (n : Nat) : (s.consume n).mode = s.mode := rfl
@[simp] theorem State.consume_pos (n : Nat) : (s.consume n).pos = s.pos := rfl
@[simp] theorem State.consume_eof (n : Nat) : (s.consume n).eof = s.eof := rfl
@[simp] theorem State.consume_inp (n : Nat) : (s.consume n).inp = s.inp := rfl
@[simp] theorem State.consume_nreal (n : Nat) : (s.consume n).nreal = s.nreal := rfl
@[simp] theorem State.consume_status (n : Nat) : (s.consume n).status = s.status := rfl
@[simp] theorem State.consume_refused (n : Nat) : (s.consume n).refused = s.refused := rfl
@[simp] theorem State.consume_windowBits (n : Nat) : (s.consume n).windowBits = s.windowBits := rfl
@[simp] theorem State.consume_resetInterval (n : Nat) : (s.consume n).resetInterval = s.resetInterval := rfl
@[simp] theorem State.consume_inbufSize (n : Nat) : (s.consume n).inbufSize = s.inbufSize := rfl
@[simp] theorem State.consume_window (n : Nat) : (s.consume n).window = s.window := rfl
@[simp] theorem State.consume_totalWritten (n : Nat) : (s.consume n).totalWritten = s.totalWritten := rfl
@[simp] theorem State.consume_outTotal (n : Nat) : (s.consume n).outTotal = s.outTotal := rfl
@[simp] theorem State.consume_windowPos (n : Nat) : (s.consume n).windowPos = s.windowPos := rfl
@[simp] theorem State.consume_framePos (n : Nat) : (s.consume n).framePos = s.framePos := rfl
@[simp] theorem State.consume_frameIndex (n : Nat) : (s.consume n).frameIndex = s.frameIndex := rfl
@[simp] theorem State.consume_r0 (n : Nat) : (s.consume n).r0 = s.r0 := rfl
@[simp] theorem State.consume_r1 (n : Nat) : (s.consume n).r1 = s.r1 := rfl
@[simp] theorem State.consume_r2 (n : Nat) : (s.consume n).r2 = s.r2 := rfl
@[simp] theorem State.consume_blockType (n : Nat) : (s.consume n).blockType = s.blockType := rfl
@[simp] theorem State.consume_blockLength (n : Nat) : (s.consume n).blockLength = s.blockLength := rfl
@[simp] theorem State.consume_blockRemaining (n : Nat) : (s.consume n).blockRemaining = s.blockRemaining - BitVec.ofNat 24 n := rfl
@[simp] theorem State.consume_e8Magic (n : Nat) : (s.consume n).e8Magic = s.e8Magic := rfl
@[simp] theorem State.consume_headerRead (n : Nat) : (s.consume n).headerRead = s.headerRead := rfl
@[simp] theorem State.consume_lMain (n : Nat) : (s.consume n).lMain = s.lMain := rfl
@[simp] theorem State.consume_lLen (n : Nat) : (s.consume n).lLen = s.lLen := rfl
@[simp] theorem State.consume_lAl (n : Nat) : (s.consume n).lAl = s.lAl := rfl
@[simp] theorem State.consume_lPre (n : Nat) : (s.consume n).lPre = s.lPre := rfl
@[simp] theorem State.consume_tPre (n : Nat) : (s.consume n).tPre = s.tPre := rfl
@[simp] theorem State.consume_tMain (n : Nat) : (s.consume n).tMain = s.tMain := rfl
@[simp] theorem State.consume_tLen (n : Nat) : (s.consume n).tLen = s.tLen := rfl
@[simp] theorem State.consume_tAl (n : Nat) : (s.consume n).tAl = s.tAl := rfl
@[simp] theorem State.consume_out (n : Nat) : (s.consume n).out = s.out := rfl
@[simp] theorem State.consume_alive (n : Nat) : (s.consume n).alive = s.alive := rfl
@[simp] theorem State.consume_cmds (n : Nat) : (s.consume n).cmds = s.cmds := rfl
@[simp] theorem State.consume_replies (n : Nat) : (s.consume n).replies = s.replies := rfl
@[simp] theorem State.consume_result (n : Nat) : (s.consume n).result = s.result := rfl
@[simp] theorem State.consume_ctl (n : Nat) : (s.consume n).ctl = s.ctl := rfl
@[simp] theorem State.consume_produced (n : Nat) : (s.consume n).produced = s.produced + n := rfl
@[simp] theorem State.consume_lenList (n : Nat) : (s.consume n).lenList = s.lenList := rfl
@[simp] theorem State.consume_lenPos (n : Nat) : (s.consume n).lenPos = s.lenPos := rfl
@[simp] theorem State.consume_fieldIdx (n : Nat) : (s.consume n).fieldIdx = s.fieldIdx := rfl
@[simp] theorem State.consume_pend (n : Nat) : (s.consume n).pend = s.pend := rfl

/-! ### `refuse` -/

@[simp] theorem State.refuse_mode : (s.refuse).mode = s.mode := rfl
@[simp] theorem State.refuse_pos : (s.refuse).pos = s.pos := rfl
@[simp] theorem State.refuse_eof : (s.refuse).eof = s.eof := rfl
@[simp] theorem State.refuse_inp : (s.refuse).inp = s.inp := rfl
@[simp] theorem State.refuse_nreal : (s.refuse).nreal = s.nreal := rfl
@[simp] theorem State.refuse_status : (s.refuse).status = s.status := rfl
@[simp] theorem State.refuse_refused : (s.refuse).refused = true := rfl
@[simp] theorem State.refuse_windowBits : (s.refuse).windowBits = s.windowBits := rfl
@[simp] theorem State.refuse_resetInterval : (s.refuse).resetInterval = s.resetInterval := rfl
@[simp] theorem State.refuse_inbufSize : (s.refuse).inbufSize = s.inbufSize := rfl
@[simp] theorem State.refuse_window : (s.refuse).window = s.window := rfl
@[simp] theorem State.refuse_totalWritten : (s.refuse).totalWritten = s.totalWritten := rfl
@[simp] theorem State.refuse_outTotal : (s.refuse).outTotal = s.outTotal := rfl
@[simp] theorem State.refuse_windowPos : (s.refuse).windowPos = s.windowPos := rfl
@[simp] theorem State.refuse_framePos : (s.refuse).framePos = s.framePos := rfl
@[simp] theorem State.refuse_frameIndex : (s.refuse).frameIndex = s.frameIndex := rfl
@[simp] theorem State.refuse_r0 : (s.refuse).r0 = s.r0 := rfl
@[simp] theorem State.refuse_r1 : (s.refuse).r1 = s.r1 := rfl
@[simp] theorem State.refuse_r2 : (s.refuse).r2 = s.r2 := rfl
@[simp] theorem State.refuse_blockType : (s.refuse).blockType = s.blockType := rfl
@[simp] theorem State.refuse_blockLength : (s.refuse).blockLength = s.blockLength := rfl
@[simp] theorem State.refuse_blockRemaining : (s.refuse).blockRemaining = s.blockRemaining := rfl
@[simp] theorem State.refuse_e8Magic : (s.refuse).e8Magic = s.e8Magic := rfl
@[simp] theorem State.refuse_headerRead : (s.refuse).headerRead = s.headerRead := rfl
@[simp] theorem State.refuse_lMain : (s.refuse).lMain = s.lMain := rfl
@[simp] theorem State.refuse_lLen : (s.refuse).lLen = s.lLen := rfl
@[simp] theorem State.refuse_lAl : (s.refuse).lAl = s.lAl := rfl
@[simp] theorem State.refuse_lPre : (s.refuse).lPre = s.lPre := rfl
@[simp] theorem State.refuse_tPre : (s.refuse).tPre = s.tPre := rfl
@[simp] theorem State.refuse_tMain : (s.refuse).tMain = s.tMain := rfl
@[simp] theorem State.refuse_tLen : (s.refuse).tLen = s.tLen := rfl
@[simp] theorem State.refuse_tAl : (s.refuse).tAl = s.tAl := rfl
@[simp] theorem State.refuse_out : (s.refuse).out = s.out := rfl
@[simp] theorem State.refuse_alive : (s.refuse).alive = s.alive := rfl
@[simp] theorem State.refuse_cmds : (s.refuse).cmds = s.cmds := rfl
@[simp] theorem State.refuse_replies : (s.refuse).replies = s.replies := rfl
@[simp] theorem State.refuse_result : (s.refuse).result = some .refused := rfl
@[simp] theorem State.refuse_ctl : (s.refuse).ctl = s.ctl := rfl
@[simp] theorem State.refuse_produced : (s.refuse).produced = s.produced := rfl
@[simp] theorem State.refuse_lenList : (s.refuse).lenList = s.lenList := rfl
@[simp] theorem State.refuse_lenPos : (s.refuse).lenPos = s.lenPos := rfl
@[simp] theorem State.refuse_fieldIdx : (s.refuse).fieldIdx = s.fieldIdx := rfl
@[simp] theorem State.refuse_pend : (s.refuse).pend = s.pend := rfl

/-! ### `enterByteMode` -/

@[simp] theorem State.enterByteMode_mode : (s.enterByteMode).mode = .bytestream := rfl
@[simp] theorem State.enterByteMode_pos : (s.enterByteMode).pos = s.pos / 8 := rfl
@[simp] theorem State.enterByteMode_eof : (s.enterByteMode).eof = s.eof := rfl
@[simp] theorem State.enterByteMode_inp : (s.enterByteMode).inp = s.inp := rfl
@[simp] theorem State.enterByteMode_nreal : (s.enterByteMode).nreal = s.nreal := rfl
@[simp] theorem State.enterByteMode_status : (s.enterByteMode).status = s.status := rfl
@[simp] theorem State.enterByteMode_refused : (s.enterByteMode).refused = s.refused := rfl
@[simp] theorem State.enterByteMode_windowBits : (s.enterByteMode).windowBits = s.windowBits := rfl
@[simp] theorem State.enterByteMode_resetInterval : (s.enterByteMode).resetInterval = s.resetInterval := rfl
@[simp] theorem State.enterByteMode_inbufSize : (s.enterByteMode).inbufSize = s.inbufSize := rfl
@[simp] theorem State.enterByteMode_window : (s.enterByteMode).window = s.window := rfl
@[simp] theorem State.enterByteMode_totalWritten : (s.enterByteMode).totalWritten = s.totalWritten := rfl
@[simp] theorem State.enterByteMode_outTotal : (s.enterByteMode).outTotal = s.outTotal := rfl
@[simp] theorem State.enterByteMode_windowPos : (s.enterByteMode).windowPos = s.windowPos := rfl
@[simp] theorem State.enterByteMode_framePos : (s.enterByteMode).framePos = s.framePos := rfl
@[simp] theorem State.enterByteMode_frameIndex : (s.enterByteMode).frameIndex = s.frameIndex := rfl
@[simp] theorem State.enterByteMode_r0 : (s.enterByteMode).r0 = s.r0 := rfl
@[simp] theorem State.enterByteMode_r1 : (s.enterByteMode).r1 = s.r1 := rfl
@[simp] theorem State.enterByteMode_r2 : (s.enterByteMode).r2 = s.r2 := rfl
@[simp] theorem State.enterByteMode_blockType : (s.enterByteMode).blockType = s.blockType := rfl
@[simp] theorem State.enterByteMode_blockLength : (s.enterByteMode).blockLength = s.blockLength := rfl
@[simp] theorem State.enterByteMode_blockRemaining : (s.enterByteMode).blockRemaining = s.blockRemaining := rfl
@[simp] theorem State.enterByteMode_e8Magic : (s.enterByteMode).e8Magic = s.e8Magic := rfl
@[simp] theorem State.enterByteMode_headerRead : (s.enterByteMode).headerRead = s.headerRead := rfl
@[simp] theorem State.enterByteMode_lMain : (s.enterByteMode).lMain = s.lMain := rfl
@[simp] theorem State.enterByteMode_lLen : (s.enterByteMode).lLen = s.lLen := rfl
@[simp] theorem State.enterByteMode_lAl : (s.enterByteMode).lAl = s.lAl := rfl
@[simp] theorem State.enterByteMode_lPre : (s.enterByteMode).lPre = s.lPre := rfl
@[simp] theorem State.enterByteMode_tPre : (s.enterByteMode).tPre = s.tPre := rfl
@[simp] theorem State.enterByteMode_tMain : (s.enterByteMode).tMain = s.tMain := rfl
@[simp] theorem State.enterByteMode_tLen : (s.enterByteMode).tLen = s.tLen := rfl
@[simp] theorem State.enterByteMode_tAl : (s.enterByteMode).tAl = s.tAl := rfl
@[simp] theorem State.enterByteMode_out : (s.enterByteMode).out = s.out := rfl
@[simp] theorem State.enterByteMode_alive : (s.enterByteMode).alive = s.alive := rfl
@[simp] theorem State.enterByteMode_cmds : (s.enterByteMode).cmds = s.cmds := rfl
@[simp] theorem State.enterByteMode_replies : (s.enterByteMode).replies = s.replies := rfl
@[simp] theorem State.enterByteMode_result : (s.enterByteMode).result = s.result := rfl
@[simp] theorem State.enterByteMode_ctl : (s.enterByteMode).ctl = s.ctl := rfl
@[simp] theorem State.enterByteMode_produced : (s.enterByteMode).produced = s.produced := rfl
@[simp] theorem State.enterByteMode_lenList : (s.enterByteMode).lenList = s.lenList := rfl
@[simp] theorem State.enterByteMode_lenPos : (s.enterByteMode).lenPos = s.lenPos := rfl
@[simp] theorem State.enterByteMode_fieldIdx : (s.enterByteMode).fieldIdx = s.fieldIdx := rfl
@[simp] theorem State.enterByteMode_pend : (s.enterByteMode).pend = s.pend := rfl

/-! ### `enterBitMode` -/

@[simp] theorem State.enterBitMode_mode : (s.enterBitMode).mode = .bitstream := rfl
@[simp] theorem State.enterBitMode_pos : (s.enterBitMode).pos = s.pos * 8 := rfl
@[simp] theorem State.enterBitMode_eof : (s.enterBitMode).eof = s.eof := rfl
@[simp] theorem State.enterBitMode_inp : (s.enterBitMode).inp = s.inp := rfl
@[simp] theorem State.enterBitMode_nreal : (s.enterBitMode).nreal = s.nreal := rfl
@[simp] theorem State.enterBitMode_status : (s.enterBitMode).status = s.status := rfl
@[simp] theorem State.enterBitMode_refused : (s.enterBitMode).refused = s.refused := rfl
@[simp] theorem State.enterBitMode_windowBits : (s.enterBitMode).windowBits = s.windowBits := rfl
@[simp] theorem State.enterBitMode_resetInterval : (s.enterBitMode).resetInterval = s.resetInterval := rfl
@[simp] theorem State.enterBitMode_inbufSize : (s.enterBitMode).inbufSize = s.inbufSize := rfl
@[simp] theorem State.enterBitMode_window : (s.enterBitMode).window = s.window := rfl
@[simp] theorem State.enterBitMode_totalWritten : (s.enterBitMode).totalWritten = s.totalWritten := rfl
@[simp] theorem State.enterBitMode_outTotal : (s.enterBitMode).outTotal = s.outTotal := rfl
@[simp] theorem State.enterBitMode_windowPos : (s.enterBitMode).windowPos = s.windowPos := rfl
@[simp] theorem State.enterBitMode_framePos : (s.enterBitMode).framePos = s.framePos := rfl
@[simp] theorem State.enterBitMode_frameIndex : (s.enterBitMode).frameIndex = s.frameIndex := rfl
@[simp] theorem State.enterBitMode_r0 : (s.enterBitMode).r0 = s.r0 := rfl
@[simp] theorem State.enterBitMode_r1 : (s.enterBitMode).r1 = s.r1 := rfl
@[simp] theorem State.enterBitMode_r2 : (s.enterBitMode).r2 = s.r2 := rfl
@[simp] theorem State.enterBitMode_blockType : (s.enterBitMode).blockType = s.blockType := rfl
@[simp] theorem State.enterBitMode_blockLength : (s.enterBitMode).blockLength = s.blockLength := rfl
@[simp] theorem State.enterBitMode_blockRemaining : (s.enterBitMode).blockRemaining = s.blockRemaining := rfl
@[simp] theorem State.enterBitMode_e8Magic : (s.enterBitMode).e8Magic = s.e8Magic := rfl
@[simp] theorem State.enterBitMode_headerRead : (s.enterBitMode).headerRead = s.headerRead := rfl
@[simp] theorem State.enterBitMode_lMain : (s.enterBitMode).lMain = s.lMain := rfl
@[simp] theorem State.enterBitMode_lLen : (s.enterBitMode).lLen = s.lLen := rfl
@[simp] theorem State.enterBitMode_lAl : (s.enterBitMode).lAl = s.lAl := rfl
@[simp] theorem State.enterBitMode_lPre : (s.enterBitMode).lPre = s.lPre := rfl
@[simp] theorem State.enterBitMode_tPre : (s.enterBitMode).tPre = s.tPre := rfl
@[simp] theorem State.enterBitMode_tMain : (s.enterBitMode).tMain = s.tMain := rfl
@[simp] theorem State.enterBitMode_tLen : (s.enterBitMode).tLen = s.tLen := rfl
@[simp] theorem State.enterBitMode_tAl : (s.enterBitMode).tAl = s.tAl := rfl
@[simp] theorem State.enterBitMode_out : (s.enterBitMode).out = s.out := rfl
@[simp] theorem State.enterBitMode_alive : (s.enterBitMode).alive = s.alive := rfl
@[simp] theorem State.enterBitMode_cmds : (s.enterBitMode).cmds = s.cmds := rfl
@[simp] theorem State.enterBitMode_replies : (s.enterBitMode).replies = s.replies := rfl
@[simp] theorem State.enterBitMode_result : (s.enterBitMode).result = s.result := rfl
@[simp] theorem State.enterBitMode_ctl : (s.enterBitMode).ctl = s.ctl := rfl
@[simp] theorem State.enterBitMode_produced : (s.enterBitMode).produced = s.produced := rfl
@[simp] theorem State.enterBitMode_lenList : (s.enterBitMode).lenList = s.lenList := rfl
@[simp] theorem State.enterBitMode_lenPos : (s.enterBitMode).lenPos = s.lenPos := rfl
@[simp] theorem State.enterBitMode_fieldIdx : (s.enterBitMode).fieldIdx = s.fieldIdx := rfl
@[simp] theorem State.enterBitMode_pend : (s.enterBitMode).pend = s.pend := rfl

/-! ### `setHeader` -/

@[simp] theorem State.setHeader_mode (m : Word32) : (s.setHeader m).mode = s.mode := rfl
@[simp] theorem State.setHeader_pos (m : Word32) : (s.setHeader m).pos = s.pos := rfl
@[simp] theorem State.setHeader_eof (m : Word32) : (s.setHeader m).eof = s.eof := rfl
@[simp] theorem State.setHeader_inp (m : Word32) : (s.setHeader m).inp = s.inp := rfl
@[simp] theorem State.setHeader_nreal (m : Word32) : (s.setHeader m).nreal = s.nreal := rfl
@[simp] theorem State.setHeader_status (m : Word32) : (s.setHeader m).status = s.status := rfl
@[simp] theorem State.setHeader_refused (m : Word32) : (s.setHeader m).refused = s.refused := rfl
@[simp] theorem State.setHeader_windowBits (m : Word32) : (s.setHeader m).windowBits = s.windowBits := rfl
@[simp] theorem State.setHeader_resetInterval (m : Word32) : (s.setHeader m).resetInterval = s.resetInterval := rfl
@[simp] theorem State.setHeader_inbufSize (m : Word32) : (s.setHeader m).inbufSize = s.inbufSize := rfl
@[simp] theorem State.setHeader_window (m : Word32) : (s.setHeader m).window = s.window := rfl
@[simp] theorem State.setHeader_totalWritten (m : Word32) : (s.setHeader m).totalWritten = s.totalWritten := rfl
@[simp] theorem State.setHeader_outTotal (m : Word32) : (s.setHeader m).outTotal = s.outTotal := rfl
@[simp] theorem State.setHeader_windowPos (m : Word32) : (s.setHeader m).windowPos = s.windowPos := rfl
@[simp] theorem State.setHeader_framePos (m : Word32) : (s.setHeader m).framePos = s.framePos := rfl
@[simp] theorem State.setHeader_frameIndex (m : Word32) : (s.setHeader m).frameIndex = s.frameIndex := rfl
@[simp] theorem State.setHeader_r0 (m : Word32) : (s.setHeader m).r0 = s.r0 := rfl
@[simp] theorem State.setHeader_r1 (m : Word32) : (s.setHeader m).r1 = s.r1 := rfl
@[simp] theorem State.setHeader_r2 (m : Word32) : (s.setHeader m).r2 = s.r2 := rfl
@[simp] theorem State.setHeader_blockType (m : Word32) : (s.setHeader m).blockType = s.blockType := rfl
@[simp] theorem State.setHeader_blockLength (m : Word32) : (s.setHeader m).blockLength = s.blockLength := rfl
@[simp] theorem State.setHeader_blockRemaining (m : Word32) : (s.setHeader m).blockRemaining = s.blockRemaining := rfl
@[simp] theorem State.setHeader_e8Magic (m : Word32) : (s.setHeader m).e8Magic = m := rfl
@[simp] theorem State.setHeader_headerRead (m : Word32) : (s.setHeader m).headerRead = true := rfl
@[simp] theorem State.setHeader_lMain (m : Word32) : (s.setHeader m).lMain = s.lMain := rfl
@[simp] theorem State.setHeader_lLen (m : Word32) : (s.setHeader m).lLen = s.lLen := rfl
@[simp] theorem State.setHeader_lAl (m : Word32) : (s.setHeader m).lAl = s.lAl := rfl
@[simp] theorem State.setHeader_lPre (m : Word32) : (s.setHeader m).lPre = s.lPre := rfl
@[simp] theorem State.setHeader_tPre (m : Word32) : (s.setHeader m).tPre = s.tPre := rfl
@[simp] theorem State.setHeader_tMain (m : Word32) : (s.setHeader m).tMain = s.tMain := rfl
@[simp] theorem State.setHeader_tLen (m : Word32) : (s.setHeader m).tLen = s.tLen := rfl
@[simp] theorem State.setHeader_tAl (m : Word32) : (s.setHeader m).tAl = s.tAl := rfl
@[simp] theorem State.setHeader_out (m : Word32) : (s.setHeader m).out = s.out := rfl
@[simp] theorem State.setHeader_alive (m : Word32) : (s.setHeader m).alive = s.alive := rfl
@[simp] theorem State.setHeader_cmds (m : Word32) : (s.setHeader m).cmds = s.cmds := rfl
@[simp] theorem State.setHeader_replies (m : Word32) : (s.setHeader m).replies = s.replies := rfl
@[simp] theorem State.setHeader_result (m : Word32) : (s.setHeader m).result = s.result := rfl
@[simp] theorem State.setHeader_ctl (m : Word32) : (s.setHeader m).ctl = s.ctl := rfl
@[simp] theorem State.setHeader_produced (m : Word32) : (s.setHeader m).produced = s.produced := rfl
@[simp] theorem State.setHeader_lenList (m : Word32) : (s.setHeader m).lenList = s.lenList := rfl
@[simp] theorem State.setHeader_lenPos (m : Word32) : (s.setHeader m).lenPos = s.lenPos := rfl
@[simp] theorem State.setHeader_fieldIdx (m : Word32) : (s.setHeader m).fieldIdx = s.fieldIdx := rfl
@[simp] theorem State.setHeader_pend (m : Word32) : (s.setHeader m).pend = s.pend := rfl

/-! ### `setBlock` -/

@[simp] theorem State.setBlock_mode (n : Word24) : (s.setBlock n).mode = s.mode := rfl
@[simp] theorem State.setBlock_pos (n : Word24) : (s.setBlock n).pos = s.pos := rfl
@[simp] theorem State.setBlock_eof (n : Word24) : (s.setBlock n).eof = s.eof := rfl
@[simp] theorem State.setBlock_inp (n : Word24) : (s.setBlock n).inp = s.inp := rfl
@[simp] theorem State.setBlock_nreal (n : Word24) : (s.setBlock n).nreal = s.nreal := rfl
@[simp] theorem State.setBlock_status (n : Word24) : (s.setBlock n).status = s.status := rfl
@[simp] theorem State.setBlock_refused (n : Word24) : (s.setBlock n).refused = s.refused := rfl
@[simp] theorem State.setBlock_windowBits (n : Word24) : (s.setBlock n).windowBits = s.windowBits := rfl
@[simp] theorem State.setBlock_resetInterval (n : Word24) : (s.setBlock n).resetInterval = s.resetInterval := rfl
@[simp] theorem State.setBlock_inbufSize (n : Word24) : (s.setBlock n).inbufSize = s.inbufSize := rfl
@[simp] theorem State.setBlock_window (n : Word24) : (s.setBlock n).window = s.window := rfl
@[simp] theorem State.setBlock_totalWritten (n : Word24) : (s.setBlock n).totalWritten = s.totalWritten := rfl
@[simp] theorem State.setBlock_outTotal (n : Word24) : (s.setBlock n).outTotal = s.outTotal := rfl
@[simp] theorem State.setBlock_windowPos (n : Word24) : (s.setBlock n).windowPos = s.windowPos := rfl
@[simp] theorem State.setBlock_framePos (n : Word24) : (s.setBlock n).framePos = s.framePos := rfl
@[simp] theorem State.setBlock_frameIndex (n : Word24) : (s.setBlock n).frameIndex = s.frameIndex := rfl
@[simp] theorem State.setBlock_r0 (n : Word24) : (s.setBlock n).r0 = s.r0 := rfl
@[simp] theorem State.setBlock_r1 (n : Word24) : (s.setBlock n).r1 = s.r1 := rfl
@[simp] theorem State.setBlock_r2 (n : Word24) : (s.setBlock n).r2 = s.r2 := rfl
@[simp] theorem State.setBlock_blockType (n : Word24) : (s.setBlock n).blockType = s.blockType := rfl
@[simp] theorem State.setBlock_blockLength (n : Word24) : (s.setBlock n).blockLength = n := rfl
@[simp] theorem State.setBlock_blockRemaining (n : Word24) : (s.setBlock n).blockRemaining = n := rfl
@[simp] theorem State.setBlock_e8Magic (n : Word24) : (s.setBlock n).e8Magic = s.e8Magic := rfl
@[simp] theorem State.setBlock_headerRead (n : Word24) : (s.setBlock n).headerRead = s.headerRead := rfl
@[simp] theorem State.setBlock_lMain (n : Word24) : (s.setBlock n).lMain = s.lMain := rfl
@[simp] theorem State.setBlock_lLen (n : Word24) : (s.setBlock n).lLen = s.lLen := rfl
@[simp] theorem State.setBlock_lAl (n : Word24) : (s.setBlock n).lAl = s.lAl := rfl
@[simp] theorem State.setBlock_lPre (n : Word24) : (s.setBlock n).lPre = s.lPre := rfl
@[simp] theorem State.setBlock_tPre (n : Word24) : (s.setBlock n).tPre = s.tPre := rfl
@[simp] theorem State.setBlock_tMain (n : Word24) : (s.setBlock n).tMain = s.tMain := rfl
@[simp] theorem State.setBlock_tLen (n : Word24) : (s.setBlock n).tLen = s.tLen := rfl
@[simp] theorem State.setBlock_tAl (n : Word24) : (s.setBlock n).tAl = s.tAl := rfl
@[simp] theorem State.setBlock_out (n : Word24) : (s.setBlock n).out = s.out := rfl
@[simp] theorem State.setBlock_alive (n : Word24) : (s.setBlock n).alive = s.alive := rfl
@[simp] theorem State.setBlock_cmds (n : Word24) : (s.setBlock n).cmds = s.cmds := rfl
@[simp] theorem State.setBlock_replies (n : Word24) : (s.setBlock n).replies = s.replies := rfl
@[simp] theorem State.setBlock_result (n : Word24) : (s.setBlock n).result = s.result := rfl
@[simp] theorem State.setBlock_ctl (n : Word24) : (s.setBlock n).ctl = s.ctl := rfl
@[simp] theorem State.setBlock_produced (n : Word24) : (s.setBlock n).produced = s.produced := rfl
@[simp] theorem State.setBlock_lenList (n : Word24) : (s.setBlock n).lenList = s.lenList := rfl
@[simp] theorem State.setBlock_lenPos (n : Word24) : (s.setBlock n).lenPos = s.lenPos := rfl
@[simp] theorem State.setBlock_fieldIdx (n : Word24) : (s.setBlock n).fieldIdx = s.fieldIdx := rfl
@[simp] theorem State.setBlock_pend (n : Word24) : (s.setBlock n).pend = s.pend := rfl

/-! ### `beginList` -/

@[simp] theorem State.beginList_mode (l : LenList) : (s.beginList l).mode = s.mode := rfl
@[simp] theorem State.beginList_pos (l : LenList) : (s.beginList l).pos = s.pos := rfl
@[simp] theorem State.beginList_eof (l : LenList) : (s.beginList l).eof = s.eof := rfl
@[simp] theorem State.beginList_inp (l : LenList) : (s.beginList l).inp = s.inp := rfl
@[simp] theorem State.beginList_nreal (l : LenList) : (s.beginList l).nreal = s.nreal := rfl
@[simp] theorem State.beginList_status (l : LenList) : (s.beginList l).status = s.status := rfl
@[simp] theorem State.beginList_refused (l : LenList) : (s.beginList l).refused = s.refused := rfl
@[simp] theorem State.beginList_windowBits (l : LenList) : (s.beginList l).windowBits = s.windowBits := rfl
@[simp] theorem State.beginList_resetInterval (l : LenList) : (s.beginList l).resetInterval = s.resetInterval := rfl
@[simp] theorem State.beginList_inbufSize (l : LenList) : (s.beginList l).inbufSize = s.inbufSize := rfl
@[simp] theorem State.beginList_window (l : LenList) : (s.beginList l).window = s.window := rfl
@[simp] theorem State.beginList_totalWritten (l : LenList) : (s.beginList l).totalWritten = s.totalWritten := rfl
@[simp] theorem State.beginList_outTotal (l : LenList) : (s.beginList l).outTotal = s.outTotal := rfl
@[simp] theorem State.beginList_windowPos (l : LenList) : (s.beginList l).windowPos = s.windowPos := rfl
@[simp] theorem State.beginList_framePos (l : LenList) : (s.beginList l).framePos = s.framePos := rfl
@[simp] theorem State.beginList_frameIndex (l : LenList) : (s.beginList l).frameIndex = s.frameIndex := rfl
@[simp] theorem State.beginList_r0 (l : LenList) : (s.beginList l).r0 = s.r0 := rfl
@[simp] theorem State.beginList_r1 (l : LenList) : (s.beginList l).r1 = s.r1 := rfl
@[simp] theorem State.beginList_r2 (l : LenList) : (s.beginList l).r2 = s.r2 := rfl
@[simp] theorem State.beginList_blockType (l : LenList) : (s.beginList l).blockType = s.blockType := rfl
@[simp] theorem State.beginList_blockLength (l : LenList) : (s.beginList l).blockLength = s.blockLength := rfl
@[simp] theorem State.beginList_blockRemaining (l : LenList) : (s.beginList l).blockRemaining = s.blockRemaining := rfl
@[simp] theorem State.beginList_e8Magic (l : LenList) : (s.beginList l).e8Magic = s.e8Magic := rfl
@[simp] theorem State.beginList_headerRead (l : LenList) : (s.beginList l).headerRead = s.headerRead := rfl
@[simp] theorem State.beginList_lMain (l : LenList) : (s.beginList l).lMain = s.lMain := rfl
@[simp] theorem State.beginList_lLen (l : LenList) : (s.beginList l).lLen = s.lLen := rfl
@[simp] theorem State.beginList_lAl (l : LenList) : (s.beginList l).lAl = s.lAl := rfl
@[simp] theorem State.beginList_lPre (l : LenList) : (s.beginList l).lPre = s.lPre := rfl
@[simp] theorem State.beginList_tPre (l : LenList) : (s.beginList l).tPre = s.tPre := rfl
@[simp] theorem State.beginList_tMain (l : LenList) : (s.beginList l).tMain = s.tMain := rfl
@[simp] theorem State.beginList_tLen (l : LenList) : (s.beginList l).tLen = s.tLen := rfl
@[simp] theorem State.beginList_tAl (l : LenList) : (s.beginList l).tAl = s.tAl := rfl
@[simp] theorem State.beginList_out (l : LenList) : (s.beginList l).out = s.out := rfl
@[simp] theorem State.beginList_alive (l : LenList) : (s.beginList l).alive = s.alive := rfl
@[simp] theorem State.beginList_cmds (l : LenList) : (s.beginList l).cmds = s.cmds := rfl
@[simp] theorem State.beginList_replies (l : LenList) : (s.beginList l).replies = s.replies := rfl
@[simp] theorem State.beginList_result (l : LenList) : (s.beginList l).result = s.result := rfl
@[simp] theorem State.beginList_ctl (l : LenList) : (s.beginList l).ctl = .preLens := rfl
@[simp] theorem State.beginList_produced (l : LenList) : (s.beginList l).produced = s.produced := rfl
@[simp] theorem State.beginList_lenList (l : LenList) : (s.beginList l).lenList = l := rfl
@[simp] theorem State.beginList_lenPos (l : LenList) : (s.beginList l).lenPos = l.first := rfl
@[simp] theorem State.beginList_fieldIdx (l : LenList) : (s.beginList l).fieldIdx = 0 := rfl
@[simp] theorem State.beginList_pend (l : LenList) : (s.beginList l).pend = s.pend := rfl

/-! ### `shiftR` -/

@[simp] theorem State.shiftR_mode (o : Nat) : (s.shiftR o).mode = s.mode := rfl
@[simp] theorem State.shiftR_pos (o : Nat) : (s.shiftR o).pos = s.pos := rfl
@[simp] theorem State.shiftR_eof (o : Nat) : (s.shiftR o).eof = s.eof := rfl
@[simp] theorem State.shiftR_inp (o : Nat) : (s.shiftR o).inp = s.inp := rfl
@[simp] theorem State.shiftR_nreal (o : Nat) : (s.shiftR o).nreal = s.nreal := rfl
@[simp] theorem State.shiftR_status (o : Nat) : (s.shiftR o).status = s.status := rfl
@[simp] theorem State.shiftR_refused (o : Nat) : (s.shiftR o).refused = s.refused := rfl
@[simp] theorem State.shiftR_windowBits (o : Nat) : (s.shiftR o).windowBits = s.windowBits := rfl
@[simp] theorem State.shiftR_resetInterval (o : Nat) : (s.shiftR o).resetInterval = s.resetInterval := rfl
@[simp] theorem State.shiftR_inbufSize (o : Nat) : (s.shiftR o).inbufSize = s.inbufSize := rfl
@[simp] theorem State.shiftR_window (o : Nat) : (s.shiftR o).window = s.window := rfl
@[simp] theorem State.shiftR_totalWritten (o : Nat) : (s.shiftR o).totalWritten = s.totalWritten := rfl
@[simp] theorem State.shiftR_outTotal (o : Nat) : (s.shiftR o).outTotal = s.outTotal := rfl
@[simp] theorem State.shiftR_windowPos (o : Nat) : (s.shiftR o).windowPos = s.windowPos := rfl
@[simp] theorem State.shiftR_framePos (o : Nat) : (s.shiftR o).framePos = s.framePos := rfl
@[simp] theorem State.shiftR_frameIndex (o : Nat) : (s.shiftR o).frameIndex = s.frameIndex := rfl
@[simp] theorem State.shiftR_r0 (o : Nat) : (s.shiftR o).r0 = BitVec.ofNat 32 o := rfl
@[simp] theorem State.shiftR_r1 (o : Nat) : (s.shiftR o).r1 = s.r0 := rfl
@[simp] theorem State.shiftR_r2 (o : Nat) : (s.shiftR o).r2 = s.r1 := rfl
@[simp] theorem State.shiftR_blockType (o : Nat) : (s.shiftR o).blockType = s.blockType := rfl
@[simp] theorem State.shiftR_blockLength (o : Nat) : (s.shiftR o).blockLength = s.blockLength := rfl
@[simp] theorem State.shiftR_blockRemaining (o : Nat) : (s.shiftR o).blockRemaining = s.blockRemaining := rfl
@[simp] theorem State.shiftR_e8Magic (o : Nat) : (s.shiftR o).e8Magic = s.e8Magic := rfl
@[simp] theorem State.shiftR_headerRead (o : Nat) : (s.shiftR o).headerRead = s.headerRead := rfl
@[simp] theorem State.shiftR_lMain (o : Nat) : (s.shiftR o).lMain = s.lMain := rfl
@[simp] theorem State.shiftR_lLen (o : Nat) : (s.shiftR o).lLen = s.lLen := rfl
@[simp] theorem State.shiftR_lAl (o : Nat) : (s.shiftR o).lAl = s.lAl := rfl
@[simp] theorem State.shiftR_lPre (o : Nat) : (s.shiftR o).lPre = s.lPre := rfl
@[simp] theorem State.shiftR_tPre (o : Nat) : (s.shiftR o).tPre = s.tPre := rfl
@[simp] theorem State.shiftR_tMain (o : Nat) : (s.shiftR o).tMain = s.tMain := rfl
@[simp] theorem State.shiftR_tLen (o : Nat) : (s.shiftR o).tLen = s.tLen := rfl
@[simp] theorem State.shiftR_tAl (o : Nat) : (s.shiftR o).tAl = s.tAl := rfl
@[simp] theorem State.shiftR_out (o : Nat) : (s.shiftR o).out = s.out := rfl
@[simp] theorem State.shiftR_alive (o : Nat) : (s.shiftR o).alive = s.alive := rfl
@[simp] theorem State.shiftR_cmds (o : Nat) : (s.shiftR o).cmds = s.cmds := rfl
@[simp] theorem State.shiftR_replies (o : Nat) : (s.shiftR o).replies = s.replies := rfl
@[simp] theorem State.shiftR_result (o : Nat) : (s.shiftR o).result = s.result := rfl
@[simp] theorem State.shiftR_ctl (o : Nat) : (s.shiftR o).ctl = s.ctl := rfl
@[simp] theorem State.shiftR_produced (o : Nat) : (s.shiftR o).produced = s.produced := rfl
@[simp] theorem State.shiftR_lenList (o : Nat) : (s.shiftR o).lenList = s.lenList := rfl
@[simp] theorem State.shiftR_lenPos (o : Nat) : (s.shiftR o).lenPos = s.lenPos := rfl
@[simp] theorem State.shiftR_fieldIdx (o : Nat) : (s.shiftR o).fieldIdx = s.fieldIdx := rfl
@[simp] theorem State.shiftR_pend (o : Nat) : (s.shiftR o).pend = s.pend := rfl

/-! ### `swapR1` -/

@[simp] theorem State.swapR1_mode : (s.swapR1).mode = s.mode := rfl
@[simp] theorem State.swapR1_pos : (s.swapR1).pos = s.pos := rfl
@[simp] theorem State.swapR1_eof : (s.swapR1).eof = s.eof := rfl
@[simp] theorem State.swapR1_inp : (s.swapR1).inp = s.inp := rfl
@[simp] theorem State.swapR1_nreal : (s.swapR1).nreal = s.nreal := rfl
@[simp] theorem State.swapR1_status : (s.swapR1).status = s.status := rfl
@[simp] theorem State.swapR1_refused : (s.swapR1).refused = s.refused := rfl
@[simp] theorem State.swapR1_windowBits : (s.swapR1).windowBits = s.windowBits := rfl
@[simp] theorem State.swapR1_resetInterval : (s.swapR1).resetInterval = s.resetInterval := rfl
@[simp] theorem State.swapR1_inbufSize : (s.swapR1).inbufSize = s.inbufSize := rfl
@[simp] theorem State.swapR1_window : (s.swapR1).window = s.window := rfl
@[simp] theorem State.swapR1_totalWritten : (s.swapR1).totalWritten = s.totalWritten := rfl
@[simp] theorem State.swapR1_outTotal : (s.swapR1).outTotal = s.outTotal := rfl
@[simp] theorem State.swapR1_windowPos : (s.swapR1).windowPos = s.windowPos := rfl
@[simp] theorem State.swapR1_framePos : (s.swapR1).framePos = s.framePos := rfl
@[simp] theorem State.swapR1_frameIndex : (s.swapR1).frameIndex = s.frameIndex := rfl
@[simp] theorem State.swapR1_r0 : (s.swapR1).r0 = s.r1 := rfl
@[simp] theorem State.swapR1_r1 : (s.swapR1).r1 = s.r0 := rfl
@[simp] theorem State.swapR1_r2 : (s.swapR1).r2 = s.r2 := rfl
@[simp] theorem State.swapR1_blockType : (s.swapR1).blockType = s.blockType := rfl
@[simp] theorem State.swapR1_blockLength : (s.swapR1).blockLength = s.blockLength := rfl
@[simp] theorem State.swapR1_blockRemaining : (s.swapR1).blockRemaining = s.blockRemaining := rfl
@[simp] theorem State.swapR1_e8Magic : (s.swapR1).e8Magic = s.e8Magic := rfl
@[simp] theorem State.swapR1_headerRead : (s.swapR1).headerRead = s.headerRead := rfl
@[simp] theorem State.swapR1_lMain : (s.swapR1).lMain = s.lMain := rfl
@[simp] theorem State.swapR1_lLen : (s.swapR1).lLen = s.lLen := rfl
@[simp] theorem State.swapR1_lAl : (s.swapR1).lAl = s.lAl := rfl
@[simp] theorem State.swapR1_lPre : (s.swapR1).lPre = s.lPre := rfl
@[simp] theorem State.swapR1_tPre : (s.swapR1).tPre = s.tPre := rfl
@[simp] theorem State.swapR1_tMain : (s.swapR1).tMain = s.tMain := rfl
@[simp] theorem State.swapR1_tLen : (s.swapR1).tLen = s.tLen := rfl
@[simp] theorem State.swapR1_tAl : (s.swapR1).tAl = s.tAl := rfl
@[simp] theorem State.swapR1_out : (s.swapR1).out = s.out := rfl
@[simp] theorem State.swapR1_alive : (s.swapR1).alive = s.alive := rfl
@[simp] theorem State.swapR1_cmds : (s.swapR1).cmds = s.cmds := rfl
@[simp] theorem State.swapR1_replies : (s.swapR1).replies = s.replies := rfl
@[simp] theorem State.swapR1_result : (s.swapR1).result = s.result := rfl
@[simp] theorem State.swapR1_ctl : (s.swapR1).ctl = s.ctl := rfl
@[simp] theorem State.swapR1_produced : (s.swapR1).produced = s.produced := rfl
@[simp] theorem State.swapR1_lenList : (s.swapR1).lenList = s.lenList := rfl
@[simp] theorem State.swapR1_lenPos : (s.swapR1).lenPos = s.lenPos := rfl
@[simp] theorem State.swapR1_fieldIdx : (s.swapR1).fieldIdx = s.fieldIdx := rfl
@[simp] theorem State.swapR1_pend : (s.swapR1).pend = s.pend := rfl

/-! ### `swapR2` -/

@[simp] theorem State.swapR2_mode : (s.swapR2).mode = s.mode := rfl
@[simp] theorem State.swapR2_pos : (s.swapR2).pos = s.pos := rfl
@[simp] theorem State.swapR2_eof : (s.swapR2).eof = s.eof := rfl
@[simp] theorem State.swapR2_inp : (s.swapR2).inp = s.inp := rfl
@[simp] theorem State.swapR2_nreal : (s.swapR2).nreal = s.nreal := rfl
@[simp] theorem State.swapR2_status : (s.swapR2).status = s.status := rfl
@[simp] theorem State.swapR2_refused : (s.swapR2).refused = s.refused := rfl
@[simp] theorem State.swapR2_windowBits : (s.swapR2).windowBits = s.windowBits := rfl
@[simp] theorem State.swapR2_resetInterval : (s.swapR2).resetInterval = s.resetInterval := rfl
@[simp] theorem State.swapR2_inbufSize : (s.swapR2).inbufSize = s.inbufSize := rfl
@[simp] theorem State.swapR2_window : (s.swapR2).window = s.window := rfl
@[simp] theorem State.swapR2_totalWritten : (s.swapR2).totalWritten = s.totalWritten := rfl
@[simp] theorem State.swapR2_outTotal : (s.swapR2).outTotal = s.outTotal := rfl
@[simp] theorem State.swapR2_windowPos : (s.swapR2).windowPos = s.windowPos := rfl
@[simp] theorem State.swapR2_framePos : (s.swapR2).framePos = s.framePos := rfl
@[simp] theorem State.swapR2_frameIndex : (s.swapR2).frameIndex = s.frameIndex := rfl
@[simp] theorem State.swapR2_r0 : (s.swapR2).r0 = s.r2 := rfl
@[simp] theorem State.swapR2_r1 : (s.swapR2).r1 = s.r1 := rfl
@[simp] theorem State.swapR2_r2 : (s.swapR2).r2 = s.r0 := rfl
@[simp] theorem State.swapR2_blockType : (s.swapR2).blockType = s.blockType := rfl
@[simp] theorem State.swapR2_blockLength : (s.swapR2).blockLength = s.blockLength := rfl
@[simp] theorem State.swapR2_blockRemaining : (s.swapR2).blockRemaining = s.blockRemaining := rfl
@[simp] theorem State.swapR2_e8Magic : (s.swapR2).e8Magic = s.e8Magic := rfl
@[simp] theorem State.swapR2_headerRead : (s.swapR2).headerRead = s.headerRead := rfl
@[simp] theorem State.swapR2_lMain : (s.swapR2).lMain = s.lMain := rfl
@[simp] theorem State.swapR2_lLen : (s.swapR2).lLen = s.lLen := rfl
@[simp] theorem State.swapR2_lAl : (s.swapR2).lAl = s.lAl := rfl
@[simp] theorem State.swapR2_lPre : (s.swapR2).lPre = s.lPre := rfl
@[simp] theorem State.swapR2_tPre : (s.swapR2).tPre = s.tPre := rfl
@[simp] theorem State.swapR2_tMain : (s.swapR2).tMain = s.tMain := rfl
@[simp] theorem State.swapR2_tLen : (s.swapR2).tLen = s.tLen := rfl
@[simp] theorem State.swapR2_tAl : (s.swapR2).tAl = s.tAl := rfl
@[simp] theorem State.swapR2_out : (s.swapR2).out = s.out := rfl
@[simp] theorem State.swapR2_alive : (s.swapR2).alive = s.alive := rfl
@[simp] theorem State.swapR2_cmds : (s.swapR2).cmds = s.cmds := rfl
@[simp] theorem State.swapR2_replies : (s.swapR2).replies = s.replies := rfl
@[simp] theorem State.swapR2_result : (s.swapR2).result = s.result := rfl
@[simp] theorem State.swapR2_ctl : (s.swapR2).ctl = s.ctl := rfl
@[simp] theorem State.swapR2_produced : (s.swapR2).produced = s.produced := rfl
@[simp] theorem State.swapR2_lenList : (s.swapR2).lenList = s.lenList := rfl
@[simp] theorem State.swapR2_lenPos : (s.swapR2).lenPos = s.lenPos := rfl
@[simp] theorem State.swapR2_fieldIdx : (s.swapR2).fieldIdx = s.fieldIdx := rfl
@[simp] theorem State.swapR2_pend : (s.swapR2).pend = s.pend := rfl

/-! ### `put` -/

@[simp] theorem State.put_mode (v : Byte) : (s.put v).mode = s.mode := rfl
@[simp] theorem State.put_pos (v : Byte) : (s.put v).pos = s.pos := rfl
@[simp] theorem State.put_eof (v : Byte) : (s.put v).eof = s.eof := rfl
@[simp] theorem State.put_inp (v : Byte) : (s.put v).inp = s.inp := rfl
@[simp] theorem State.put_nreal (v : Byte) : (s.put v).nreal = s.nreal := rfl
@[simp] theorem State.put_status (v : Byte) : (s.put v).status = s.status := rfl
@[simp] theorem State.put_refused (v : Byte) : (s.put v).refused = s.refused := rfl
@[simp] theorem State.put_windowBits (v : Byte) : (s.put v).windowBits = s.windowBits := rfl
@[simp] theorem State.put_resetInterval (v : Byte) : (s.put v).resetInterval = s.resetInterval := rfl
@[simp] theorem State.put_inbufSize (v : Byte) : (s.put v).inbufSize = s.inbufSize := rfl
@[simp] theorem State.put_window (v : Byte) : (s.put v).window = Memory.write s.window s.windowPos v := rfl
@[simp] theorem State.put_totalWritten (v : Byte) : (s.put v).totalWritten = s.totalWritten + 1 := rfl
@[simp] theorem State.put_outTotal (v : Byte) : (s.put v).outTotal = s.outTotal := rfl
@[simp] theorem State.put_windowPos (v : Byte) : (s.put v).windowPos = s.windowPos + 1 := rfl
@[simp] theorem State.put_framePos (v : Byte) : (s.put v).framePos = s.framePos := rfl
@[simp] theorem State.put_frameIndex (v : Byte) : (s.put v).frameIndex = s.frameIndex := rfl
@[simp] theorem State.put_r0 (v : Byte) : (s.put v).r0 = s.r0 := rfl
@[simp] theorem State.put_r1 (v : Byte) : (s.put v).r1 = s.r1 := rfl
@[simp] theorem State.put_r2 (v : Byte) : (s.put v).r2 = s.r2 := rfl
@[simp] theorem State.put_blockType (v : Byte) : (s.put v).blockType = s.blockType := rfl
@[simp] theorem State.put_blockLength (v : Byte) : (s.put v).blockLength = s.blockLength := rfl
@[simp] theorem State.put_blockRemaining (v : Byte) : (s.put v).blockRemaining = s.blockRemaining := rfl
@[simp] theorem State.put_e8Magic (v : Byte) : (s.put v).e8Magic = s.e8Magic := rfl
@[simp] theorem State.put_headerRead (v : Byte) : (s.put v).headerRead = s.headerRead := rfl
@[simp] theorem State.put_lMain (v : Byte) : (s.put v).lMain = s.lMain := rfl
@[simp] theorem State.put_lLen (v : Byte) : (s.put v).lLen = s.lLen := rfl
@[simp] theorem State.put_lAl (v : Byte) : (s.put v).lAl = s.lAl := rfl
@[simp] theorem State.put_lPre (v : Byte) : (s.put v).lPre = s.lPre := rfl
@[simp] theorem State.put_tPre (v : Byte) : (s.put v).tPre = s.tPre := rfl
@[simp] theorem State.put_tMain (v : Byte) : (s.put v).tMain = s.tMain := rfl
@[simp] theorem State.put_tLen (v : Byte) : (s.put v).tLen = s.tLen := rfl
@[simp] theorem State.put_tAl (v : Byte) : (s.put v).tAl = s.tAl := rfl
@[simp] theorem State.put_out (v : Byte) : (s.put v).out = s.out := rfl
@[simp] theorem State.put_alive (v : Byte) : (s.put v).alive = s.alive := rfl
@[simp] theorem State.put_cmds (v : Byte) : (s.put v).cmds = s.cmds := rfl
@[simp] theorem State.put_replies (v : Byte) : (s.put v).replies = s.replies := rfl
@[simp] theorem State.put_result (v : Byte) : (s.put v).result = s.result := rfl
@[simp] theorem State.put_ctl (v : Byte) : (s.put v).ctl = s.ctl := rfl
@[simp] theorem State.put_produced (v : Byte) : (s.put v).produced = s.produced := rfl
@[simp] theorem State.put_lenList (v : Byte) : (s.put v).lenList = s.lenList := rfl
@[simp] theorem State.put_lenPos (v : Byte) : (s.put v).lenPos = s.lenPos := rfl
@[simp] theorem State.put_fieldIdx (v : Byte) : (s.put v).fieldIdx = s.fieldIdx := rfl
@[simp] theorem State.put_pend (v : Byte) : (s.put v).pend = s.pend := rfl

/-! ### `periodicReset` -/

@[simp] theorem State.periodicReset_mode : (s.periodicReset).mode = s.mode := rfl
@[simp] theorem State.periodicReset_pos : (s.periodicReset).pos = s.pos := rfl
@[simp] theorem State.periodicReset_eof : (s.periodicReset).eof = s.eof := rfl
@[simp] theorem State.periodicReset_inp : (s.periodicReset).inp = s.inp := rfl
@[simp] theorem State.periodicReset_nreal : (s.periodicReset).nreal = s.nreal := rfl
@[simp] theorem State.periodicReset_status : (s.periodicReset).status = s.status := rfl
@[simp] theorem State.periodicReset_refused : (s.periodicReset).refused = s.refused := rfl
@[simp] theorem State.periodicReset_windowBits : (s.periodicReset).windowBits = s.windowBits := rfl
@[simp] theorem State.periodicReset_resetInterval : (s.periodicReset).resetInterval = s.resetInterval := rfl
@[simp] theorem State.periodicReset_inbufSize : (s.periodicReset).inbufSize = s.inbufSize := rfl
@[simp] theorem State.periodicReset_window : (s.periodicReset).window = s.window := rfl
@[simp] theorem State.periodicReset_totalWritten : (s.periodicReset).totalWritten = s.totalWritten := rfl
@[simp] theorem State.periodicReset_outTotal : (s.periodicReset).outTotal = s.outTotal := rfl
@[simp] theorem State.periodicReset_windowPos : (s.periodicReset).windowPos = s.windowPos := rfl
@[simp] theorem State.periodicReset_framePos : (s.periodicReset).framePos = s.framePos := rfl
@[simp] theorem State.periodicReset_frameIndex : (s.periodicReset).frameIndex = s.frameIndex := rfl
@[simp] theorem State.periodicReset_r0 : (s.periodicReset).r0 = 1 := rfl
@[simp] theorem State.periodicReset_r1 : (s.periodicReset).r1 = 1 := rfl
@[simp] theorem State.periodicReset_r2 : (s.periodicReset).r2 = 1 := rfl
@[simp] theorem State.periodicReset_blockType : (s.periodicReset).blockType = s.blockType := rfl
@[simp] theorem State.periodicReset_blockLength : (s.periodicReset).blockLength = s.blockLength := rfl
@[simp] theorem State.periodicReset_blockRemaining : (s.periodicReset).blockRemaining = s.blockRemaining := rfl
@[simp] theorem State.periodicReset_e8Magic : (s.periodicReset).e8Magic = s.e8Magic := rfl
@[simp] theorem State.periodicReset_headerRead : (s.periodicReset).headerRead = false := rfl
@[simp] theorem State.periodicReset_lMain : (s.periodicReset).lMain = List.replicate s.nmain 0 := rfl
@[simp] theorem State.periodicReset_lLen : (s.periodicReset).lLen = List.replicate Config.lenSymbols 0 := by unfold State.periodicReset; rfl
@[simp] theorem State.periodicReset_lAl : (s.periodicReset).lAl = s.lAl := rfl
@[simp] theorem State.periodicReset_lPre : (s.periodicReset).lPre = s.lPre := rfl
@[simp] theorem State.periodicReset_tPre : (s.periodicReset).tPre = s.tPre := rfl
@[simp] theorem State.periodicReset_tMain : (s.periodicReset).tMain = s.tMain := rfl
@[simp] theorem State.periodicReset_tLen : (s.periodicReset).tLen = s.tLen := rfl
@[simp] theorem State.periodicReset_tAl : (s.periodicReset).tAl = s.tAl := rfl
@[simp] theorem State.periodicReset_out : (s.periodicReset).out = s.out := rfl
@[simp] theorem State.periodicReset_alive : (s.periodicReset).alive = s.alive := rfl
@[simp] theorem State.periodicReset_cmds : (s.periodicReset).cmds = s.cmds := rfl
@[simp] theorem State.periodicReset_replies : (s.periodicReset).replies = s.replies := rfl
@[simp] theorem State.periodicReset_result : (s.periodicReset).result = s.result := rfl
@[simp] theorem State.periodicReset_ctl : (s.periodicReset).ctl = s.ctl := rfl
@[simp] theorem State.periodicReset_produced : (s.periodicReset).produced = s.produced := rfl
@[simp] theorem State.periodicReset_lenList : (s.periodicReset).lenList = s.lenList := rfl
@[simp] theorem State.periodicReset_lenPos : (s.periodicReset).lenPos = s.lenPos := rfl
@[simp] theorem State.periodicReset_fieldIdx : (s.periodicReset).fieldIdx = s.fieldIdx := rfl
@[simp] theorem State.periodicReset_pend : (s.periodicReset).pend = s.pend := rfl

/-! ### `endFrame` -/

@[simp] theorem State.endFrame_mode (n : Nat) : (s.endFrame n).mode = s.mode := rfl
@[simp] theorem State.endFrame_pos (n : Nat) : (s.endFrame n).pos = s.pos := rfl
@[simp] theorem State.endFrame_eof (n : Nat) : (s.endFrame n).eof = s.eof := rfl
@[simp] theorem State.endFrame_inp (n : Nat) : (s.endFrame n).inp = s.inp := rfl
@[simp] theorem State.endFrame_nreal (n : Nat) : (s.endFrame n).nreal = s.nreal := rfl
@[simp] theorem State.endFrame_status (n : Nat) : (s.endFrame n).status = (if n = 0 then .done else s.status) := rfl
@[simp] theorem State.endFrame_refused (n : Nat) : (s.endFrame n).refused = s.refused := rfl
@[simp] theorem State.endFrame_windowBits (n : Nat) : (s.endFrame n).windowBits = s.windowBits := rfl
@[simp] theorem State.endFrame_resetInterval (n : Nat) : (s.endFrame n).resetInterval = s.resetInterval := rfl
@[simp] theorem State.endFrame_inbufSize (n : Nat) : (s.endFrame n).inbufSize = s.inbufSize := rfl
@[simp] theorem State.endFrame_window (n : Nat) : (s.endFrame n).window = s.window := rfl
@[simp] theorem State.endFrame_totalWritten (n : Nat) : (s.endFrame n).totalWritten = s.totalWritten := rfl
@[simp] theorem State.endFrame_outTotal (n : Nat) : (s.endFrame n).outTotal = s.outTotal + n := rfl
@[simp] theorem State.endFrame_windowPos (n : Nat) : (s.endFrame n).windowPos = wrapAt s.winSize s.windowPos := rfl
@[simp] theorem State.endFrame_framePos (n : Nat) : (s.endFrame n).framePos = wrapAt s.winSize (s.framePos + n) := rfl
@[simp] theorem State.endFrame_frameIndex (n : Nat) : (s.endFrame n).frameIndex = s.frameIndex + 1 := rfl
@[simp] theorem State.endFrame_r0 (n : Nat) : (s.endFrame n).r0 = s.r0 := rfl
@[simp] theorem State.endFrame_r1 (n : Nat) : (s.endFrame n).r1 = s.r1 := rfl
@[simp] theorem State.endFrame_r2 (n : Nat) : (s.endFrame n).r2 = s.r2 := rfl
@[simp] theorem State.endFrame_blockType (n : Nat) : (s.endFrame n).blockType = s.blockType := rfl
@[simp] theorem State.endFrame_blockLength (n : Nat) : (s.endFrame n).blockLength = s.blockLength := rfl
@[simp] theorem State.endFrame_blockRemaining (n : Nat) : (s.endFrame n).blockRemaining = s.blockRemaining := rfl
@[simp] theorem State.endFrame_e8Magic (n : Nat) : (s.endFrame n).e8Magic = s.e8Magic := rfl
@[simp] theorem State.endFrame_headerRead (n : Nat) : (s.endFrame n).headerRead = s.headerRead := rfl
@[simp] theorem State.endFrame_lMain (n : Nat) : (s.endFrame n).lMain = s.lMain := rfl
@[simp] theorem State.endFrame_lLen (n : Nat) : (s.endFrame n).lLen = s.lLen := rfl
@[simp] theorem State.endFrame_lAl (n : Nat) : (s.endFrame n).lAl = s.lAl := rfl
@[simp] theorem State.endFrame_lPre (n : Nat) : (s.endFrame n).lPre = s.lPre := rfl
@[simp] theorem State.endFrame_tPre (n : Nat) : (s.endFrame n).tPre = s.tPre := rfl
@[simp] theorem State.endFrame_tMain (n : Nat) : (s.endFrame n).tMain = s.tMain := rfl
@[simp] theorem State.endFrame_tLen (n : Nat) : (s.endFrame n).tLen = s.tLen := rfl
@[simp] theorem State.endFrame_tAl (n : Nat) : (s.endFrame n).tAl = s.tAl := rfl
@[simp] theorem State.endFrame_out (n : Nat) : (s.endFrame n).out = s.out := rfl
@[simp] theorem State.endFrame_alive (n : Nat) : (s.endFrame n).alive = s.alive := rfl
@[simp] theorem State.endFrame_cmds (n : Nat) : (s.endFrame n).cmds = s.cmds := rfl
@[simp] theorem State.endFrame_replies (n : Nat) : (s.endFrame n).replies = s.replies := rfl
@[simp] theorem State.endFrame_result (n : Nat) : (s.endFrame n).result = some (.ok n) := rfl
@[simp] theorem State.endFrame_ctl (n : Nat) : (s.endFrame n).ctl = .idle := rfl
@[simp] theorem State.endFrame_produced (n : Nat) : (s.endFrame n).produced = 0 := rfl
@[simp] theorem State.endFrame_lenList (n : Nat) : (s.endFrame n).lenList = s.lenList := rfl
@[simp] theorem State.endFrame_lenPos (n : Nat) : (s.endFrame n).lenPos = s.lenPos := rfl
@[simp] theorem State.endFrame_fieldIdx (n : Nat) : (s.endFrame n).fieldIdx = s.fieldIdx := rfl
@[simp] theorem State.endFrame_pend (n : Nat) : (s.endFrame n).pend = s.pend := rfl

/-! ### `loadR` -/

@[simp] theorem State.loadR_mode (a b c : Word32) : (s.loadR a b c).mode = s.mode := rfl
@[simp] theorem State.loadR_pos (a b c : Word32) : (s.loadR a b c).pos = s.pos := rfl
@[simp] theorem State.loadR_eof (a b c : Word32) : (s.loadR a b c).eof = s.eof := rfl
@[simp] theorem State.loadR_inp (a b c : Word32) : (s.loadR a b c).inp = s.inp := rfl
@[simp] theorem State.loadR_nreal (a b c : Word32) : (s.loadR a b c).nreal = s.nreal := rfl
@[simp] theorem State.loadR_status (a b c : Word32) : (s.loadR a b c).status = s.status := rfl
@[simp] theorem State.loadR_refused (a b c : Word32) : (s.loadR a b c).refused = s.refused := rfl
@[simp] theorem State.loadR_windowBits (a b c : Word32) : (s.loadR a b c).windowBits = s.windowBits := rfl
@[simp] theorem State.loadR_resetInterval (a b c : Word32) : (s.loadR a b c).resetInterval = s.resetInterval := rfl
@[simp] theorem State.loadR_inbufSize (a b c : Word32) : (s.loadR a b c).inbufSize = s.inbufSize := rfl
@[simp] theorem State.loadR_window (a b c : Word32) : (s.loadR a b c).window = s.window := rfl
@[simp] theorem State.loadR_totalWritten (a b c : Word32) : (s.loadR a b c).totalWritten = s.totalWritten := rfl
@[simp] theorem State.loadR_outTotal (a b c : Word32) : (s.loadR a b c).outTotal = s.outTotal := rfl
@[simp] theorem State.loadR_windowPos (a b c : Word32) : (s.loadR a b c).windowPos = s.windowPos := rfl
@[simp] theorem State.loadR_framePos (a b c : Word32) : (s.loadR a b c).framePos = s.framePos := rfl
@[simp] theorem State.loadR_frameIndex (a b c : Word32) : (s.loadR a b c).frameIndex = s.frameIndex := rfl
@[simp] theorem State.loadR_r0 (a b c : Word32) : (s.loadR a b c).r0 = a := rfl
@[simp] theorem State.loadR_r1 (a b c : Word32) : (s.loadR a b c).r1 = b := rfl
@[simp] theorem State.loadR_r2 (a b c : Word32) : (s.loadR a b c).r2 = c := rfl
@[simp] theorem State.loadR_blockType (a b c : Word32) : (s.loadR a b c).blockType = s.blockType := rfl
@[simp] theorem State.loadR_blockLength (a b c : Word32) : (s.loadR a b c).blockLength = s.blockLength := rfl
@[simp] theorem State.loadR_blockRemaining (a b c : Word32) : (s.loadR a b c).blockRemaining = s.blockRemaining := rfl
@[simp] theorem State.loadR_e8Magic (a b c : Word32) : (s.loadR a b c).e8Magic = s.e8Magic := rfl
@[simp] theorem State.loadR_headerRead (a b c : Word32) : (s.loadR a b c).headerRead = s.headerRead := rfl
@[simp] theorem State.loadR_lMain (a b c : Word32) : (s.loadR a b c).lMain = s.lMain := rfl
@[simp] theorem State.loadR_lLen (a b c : Word32) : (s.loadR a b c).lLen = s.lLen := rfl
@[simp] theorem State.loadR_lAl (a b c : Word32) : (s.loadR a b c).lAl = s.lAl := rfl
@[simp] theorem State.loadR_lPre (a b c : Word32) : (s.loadR a b c).lPre = s.lPre := rfl
@[simp] theorem State.loadR_tPre (a b c : Word32) : (s.loadR a b c).tPre = s.tPre := rfl
@[simp] theorem State.loadR_tMain (a b c : Word32) : (s.loadR a b c).tMain = s.tMain := rfl
@[simp] theorem State.loadR_tLen (a b c : Word32) : (s.loadR a b c).tLen = s.tLen := rfl
@[simp] theorem State.loadR_tAl (a b c : Word32) : (s.loadR a b c).tAl = s.tAl := rfl
@[simp] theorem State.loadR_out (a b c : Word32) : (s.loadR a b c).out = s.out := rfl
@[simp] theorem State.loadR_alive (a b c : Word32) : (s.loadR a b c).alive = s.alive := rfl
@[simp] theorem State.loadR_cmds (a b c : Word32) : (s.loadR a b c).cmds = s.cmds := rfl
@[simp] theorem State.loadR_replies (a b c : Word32) : (s.loadR a b c).replies = s.replies := rfl
@[simp] theorem State.loadR_result (a b c : Word32) : (s.loadR a b c).result = s.result := rfl
@[simp] theorem State.loadR_ctl (a b c : Word32) : (s.loadR a b c).ctl = s.ctl := rfl
@[simp] theorem State.loadR_produced (a b c : Word32) : (s.loadR a b c).produced = s.produced := rfl
@[simp] theorem State.loadR_lenList (a b c : Word32) : (s.loadR a b c).lenList = s.lenList := rfl
@[simp] theorem State.loadR_lenPos (a b c : Word32) : (s.loadR a b c).lenPos = s.lenPos := rfl
@[simp] theorem State.loadR_fieldIdx (a b c : Word32) : (s.loadR a b c).fieldIdx = s.fieldIdx := rfl
@[simp] theorem State.loadR_pend (a b c : Word32) : (s.loadR a b c).pend = s.pend := rfl

end Sys2Proof.Machine
end

