-- ==== Sys2Proof/Laws/Reader.lean ====
section
/-! SUPPORT. The reader's operations (spec/40_bitreader.md), each said once: when the input is at hand the value and the
state are these, and whatever happens nothing but the reader's own state, the host's replies and the marks of a refused
command changes. -/

namespace Sys2Proof.Machine

/-! ## Results -/

/-- The state a result leaves, whether a value or an error, satisfies `P`; a stop leaves none. -/
def Res.Leaves {α : Type} (r : Res α) (P : State → Prop) : Prop :=
  match r with
  | .ok _ t => P t
  | .raise _ t => P t
  | .stop _ => True

@[simp] theorem Res.leaves_ok {α : Type} (a : α) (t : State) (P : State → Prop) : (Res.ok a t).Leaves P ↔ P t := Iff.rfl

@[simp] theorem Res.leaves_raise {α : Type} (e : ErrKind) (t : State) (P : State → Prop) :
    (Res.raise e t : Res α).Leaves P ↔ P t := Iff.rfl

@[simp] theorem Res.leaves_stop {α : Type} (f : Fault) (P : State → Prop) : (Res.stop f : Res α).Leaves P ↔ True := Iff.rfl

theorem Res.leaves_bind {α β : Type} {r : Res α} {k : α → State → Res β} {P : State → Prop}
    (hr : r.Leaves P) (hk : ∀ a t, r = .ok a t → P t → (k a t).Leaves P) : (r.bind k).Leaves P := by
  cases r with
  | ok a t => exact hk a t rfl hr
  | raise e t => exact hr
  | stop f => trivial

theorem Res.Leaves.mono {α : Type} {r : Res α} {P Q : State → Prop} (h : r.Leaves P) (hPQ : ∀ t, P t → Q t) :
    r.Leaves Q := by
  cases r with
  | ok a t => exact hPQ t h
  | raise e t => exact hPQ t h
  | stop f => trivial

theorem Res.bind_eq_ok {α β : Type} {r : Res α} {k : α → State → Res β} {b : β} {u : State}
    (h : r.bind k = .ok b u) : ∃ a t, r = .ok a t ∧ k a t = .ok b u := by
  cases r with
  | ok a t => exact ⟨a, t, rfl, h⟩
  | raise e t => cases h
  | stop f => cases h

theorem Res.bind_eq_raise {α β : Type} {r : Res α} {k : α → State → Res β} {e : ErrKind} {u : State}
    (h : r.bind k = .raise e u) : r = .raise e u ∨ ∃ a t, r = .ok a t ∧ k a t = .raise e u := by
  cases r with
  | ok a t => exact .inr ⟨a, t, rfl, h⟩
  | raise e' t => cases h; exact .inl rfl
  | stop f => cases h

theorem Res.bind_assoc {α β γ : Type} (r : Res α) (k : α → State → Res β) (l : β → State → Res γ) :
    (r.bind k).bind l = r.bind fun a t => (k a t).bind l := by
  cases r <;> rfl

@[simp] theorem Res.bind_ok {α β : Type} (a : α) (s : State) (k : α → State → Res β) : (Res.ok a s).bind k = k a s := rfl

@[simp] theorem Res.bind_raise {α β : Type} (e : ErrKind) (s : State) (k : α → State → Res β) :
    (Res.raise e s : Res α).bind k = .raise e s := rfl

@[simp] theorem Res.finish_ok (s : State) : (Res.ok () s).finish = .next s := rfl

@[simp] theorem Res.finish_raise (e : ErrKind) (s : State) : (Res.raise e s).finish = .next (s.takeError e) := rfl

/-- What the next state of a finished meaning is. -/
theorem Res.finish_eq_next {r : Res Unit} {t : State} (h : r.finish = .next t) :
    r = .ok () t ∨ ∃ e u, r = .raise e u ∧ t = u.takeError e := by
  cases r with
  | ok a u => cases h; exact .inl rfl
  | raise e u => cases h; exact .inr ⟨e, u, rfl, rfl⟩
  | stop f => cases h

/-! ## What the reader changes -/

/-- `t` differs from `s` at most in the reader's state, the replies still to come, and the mark and result of a command
refused during a pull. -/
def ReaderOnly (s t : State) : Prop :=
  t = { s with mode := t.mode, pos := t.pos, eof := t.eof, inp := t.inp, nreal := t.nreal, replies := t.replies,
               refused := t.refused, result := t.result }

theorem ReaderOnly.refl (s : State) : ReaderOnly s s := rfl

theorem ReaderOnly.trans {s t u : State} (h : ReaderOnly s t) (k : ReaderOnly t u) : ReaderOnly s u := by
  unfold ReaderOnly at *
  rw [k, h]

/-- Pulling changes only the input received: `t` is `s` after some pull replies. -/
def PullsOnly (s t : State) : Prop :=
  t = { s with eof := t.eof, inp := t.inp, nreal := t.nreal, replies := t.replies, refused := t.refused,
               result := t.result } ∧ s.inp <+: t.inp

theorem PullsOnly.refl (s : State) : PullsOnly s s := ⟨rfl, List.prefix_rfl⟩

theorem PullsOnly.trans {s t u : State} (h : PullsOnly s t) (k : PullsOnly t u) : PullsOnly s u := by
  refine ⟨?_, h.2.trans k.2⟩
  have h1 := h.1
  have k1 := k.1
  rw [k1, h1]

theorem PullsOnly.mode {s t : State} (h : PullsOnly s t) : t.mode = s.mode := by rw [h.1]

theorem PullsOnly.pos {s t : State} (h : PullsOnly s t) : t.pos = s.pos := by rw [h.1]

theorem PullsOnly.readerOnly {s t : State} (h : PullsOnly s t) : ReaderOnly s t := by
  have h1 := h.1
  unfold ReaderOnly
  rw [h1]

theorem State.feed_pullsOnly (s : State) (bs : List Byte) : PullsOnly s (s.feed bs) := by
  cases bs <;> exact ⟨rfl, ⟨_, rfl⟩⟩

theorem takeAnswer_leaves (a : Answer) (s : State) : (takeAnswer a s).Leaves (PullsOnly s) := by
  cases a with
  | error e => exact .refl s
  | data bytes =>
    by_cases hl : s.inbufSize < bytes.length
    · simpa [takeAnswer, hl] using PullsOnly.refl s
    · simpa [takeAnswer, hl] using State.feed_pullsOnly s bytes

/-- Where an answer gives a value, it is bytes, at most as many as requested. -/
theorem takeAnswer_ok {a : Answer} {s t : State} (h : takeAnswer a s = .ok () t) :
    ∃ bytes, a = .data bytes ∧ bytes.length ≤ s.inbufSize ∧ t = s.feed bytes := by
  cases a with
  | error e => cases h
  | data bytes =>
    unfold takeAnswer at h
    by_cases hl : s.inbufSize < bytes.length
    · simp [hl] at h
    · simp only [hl, if_false, Res.ok.injEq, true_and] at h
      exact ⟨bytes, rfl, by omega, h.symm⟩

@[simp] theorem State.feed_replies (s : State) (bs : List Byte) : (s.feed bs).replies = s.replies := by
  cases bs <;> rfl

theorem takeReply_leaves (r : Reply) (s : State) : (takeReply r s).Leaves (PullsOnly s) := by
  have h0 : PullsOnly s (if r.reentrant then s.refuse else s) := by
    split
    · exact ⟨rfl, List.prefix_rfl⟩
    · exact .refl s
  exact (takeAnswer_leaves _ _).mono fun t ht => h0.trans ht

/-- Everything `Pull` can change (spec/40_bitreader.md R134). -/
theorem pull_leaves (s : State) : (pull s).Leaves (PullsOnly s) := by
  unfold pull
  split
  · exact .refl s
  · split
    · trivial
    · rename_i r rs _
      have h0 : PullsOnly s { s with replies := rs } := ⟨rfl, List.prefix_rfl⟩
      exact (takeReply_leaves r _).mono fun t ht => h0.trans ht

/-- Where `Pull` has a value, one reply is used up. -/
theorem pull_ok {s t : State} (h : pull s = .ok () t) :
    s.eof = false ∧ s.replies.length = t.replies.length + 1 := by
  unfold pull at h
  split at h
  · cases h
  · rename_i he
    split at h
    · cases h
    · rename_i r rs hr
      refine ⟨by simpa using he, ?_⟩
      obtain ⟨bytes, -, -, rfl⟩ := takeAnswer_ok h
      rw [hr]
      cases r.reentrant <;> simp

theorem fetchLoop_leaves (i fuel : Nat) (s : State) : (fetchLoop i fuel s).Leaves (PullsOnly s) := by
  induction fuel generalizing s with
  | zero =>
    unfold fetchLoop
    split
    · exact .refl s
    · exact pull_leaves s
  | succ n ih =>
    unfold fetchLoop
    split
    · exact .refl s
    · exact Res.leaves_bind (pull_leaves s) fun _ t _ ht => (ih t).mono fun u hu => ht.trans hu

/-- Everything `Fetch` can change (spec/40_bitreader.md R136). -/
theorem fetchByte_leaves (i : Nat) (s : State) : (fetchByte i s).Leaves (PullsOnly s) := fetchLoop_leaves i _ s

theorem fetchLoop_ok {i fuel : Nat} {s t : State} (hf : s.replies.length = fuel) (h : fetchLoop i fuel s = .ok () t) :
    i < t.inp.length := by
  induction fuel generalizing s with
  | zero =>
    unfold fetchLoop at h
    split at h
    · cases h; assumption
    · have := (pull_ok h).2
      omega
  | succ n ih =>
    unfold fetchLoop at h
    split at h
    · cases h; assumption
    · obtain ⟨_, u, hu, hk⟩ := Res.bind_eq_ok h
      exact ih (by have := (pull_ok hu).2; omega) hk

/-- After `Fetch(i)` byte `i` is at hand. -/
theorem fetchByte_ok {i : Nat} {s t : State} (h : fetchByte i s = .ok () t) : i < t.inp.length := fetchLoop_ok rfl h

/-- `Fetch` of a byte at hand pulls nothing. -/
theorem fetchByte_here {i : Nat} {s : State} (h : i < s.inp.length) : fetchByte i s = .ok () s := by
  unfold fetchByte
  cases s.replies.length <;> simp [fetchLoop, h]

/-! ### Fetching and what the window does meanwhile -/

/-- The state with the reader and the window brought elsewhere. -/
def State.moved (p : Nat) (w : Memory) (wp tw : Nat) (s : State) : State :=
  { s with pos := p, window := w, windowPos := wp, totalWritten := tw }

/-- A result with its state changed. -/
def Res.onState {α : Type} (f : State → State) : Res α → Res α
  | .ok a s => .ok a (f s)
  | .raise e s => .raise e (f s)
  | .stop x => .stop x

theorem pull_moved (p : Nat) (w : Memory) (wp tw : Nat) (s : State) :
    pull (s.moved p w wp tw) = (pull s).onState (State.moved p w wp tw) := by
  unfold pull
  show (if s.eof then _ else match s.replies with | [] => _ | r :: rs => _) = _
  split
  · rfl
  · cases s.replies with
    | nil => rfl
    | cons r rs =>
      obtain ⟨re, a⟩ := r
      cases re <;> cases a with
      | error e => rfl
      | data bytes =>
        show (if s.inbufSize < bytes.length then _ else _) = Res.onState _ (if s.inbufSize < bytes.length then _ else _)
        split
        · rfl
        · cases bytes <;> rfl

theorem fetchLoop_moved (i fuel p : Nat) (w : Memory) (wp tw : Nat) (s : State) :
    fetchLoop i fuel (s.moved p w wp tw) = (fetchLoop i fuel s).onState (State.moved p w wp tw) := by
  induction fuel generalizing s with
  | zero =>
    unfold fetchLoop
    show (if i < s.inp.length then _ else _) = _
    split
    · rfl
    · exact pull_moved ..
  | succ n ih =>
    unfold fetchLoop
    show (if i < s.inp.length then _ else _) = _
    split
    · rfl
    · simp only [pull_moved]
      cases pull s <;> simp only [Res.onState, Res.bind]
      exact ih _

theorem fetchByte_moved (i p : Nat) (w : Memory) (wp tw : Nat) (s : State) :
    fetchByte i (s.moved p w wp tw) = (fetchByte i s).onState (State.moved p w wp tw) := fetchLoop_moved ..

theorem fetchByte_step {i : Nat} {s : State} (h : s.inp.length ≤ i) :
    fetchByte i s = (pull s).bind fun _ u => fetchByte i u := by
  unfold fetchByte
  cases hr : s.replies with
  | nil =>
    have hs : ∀ u, pull s ≠ .ok () u := by
      intro u hu
      have := (pull_ok hu).2
      simp [hr] at this
    simp only [List.length_nil, fetchLoop, if_neg (Nat.not_lt.mpr h)]
    cases hp : pull s with
    | ok a u => exact absurd hp (hs u)
    | raise e u => rfl
    | stop f => rfl
  | cons r rs =>
    simp only [List.length_cons, fetchLoop, if_neg (Nat.not_lt.mpr h)]
    cases hp : pull s with
    | ok a u =>
      have := (pull_ok hp).2
      rw [hr, List.length_cons] at this
      simp only [Res.bind, Nat.succ.inj this]
    | raise e u => rfl
    | stop f => rfl

/-- Fetching a byte fetches every byte before it first. -/
theorem fetchByte_split {i j : Nat} (h : i ≤ j) (s : State) :
    fetchByte j s = (fetchByte i s).bind fun _ u => fetchByte j u := by
  generalize hn : s.replies.length = n
  induction n generalizing s with
  | zero =>
    rcases Nat.lt_or_ge i s.inp.length with hi | hi
    · rw [fetchByte_here hi]; rfl
    · rw [fetchByte_step hi, fetchByte_step (i := j) (by omega)]
      cases hp : pull s with
      | ok a u => have := (pull_ok hp).2; omega
      | raise e u => rfl
      | stop f => rfl
  | succ n ih =>
    rcases Nat.lt_or_ge i s.inp.length with hi | hi
    · rw [fetchByte_here hi]; rfl
    · rw [fetchByte_step hi, fetchByte_step (i := j) (by omega)]
      cases hp : pull s with
      | ok a u => exact ih u (by have := (pull_ok hp).2; omega)
      | raise e u => rfl
      | stop f => rfl

theorem takeAnswer_raise {a : Answer} {s u : State} {e : ErrKind} (h : takeAnswer a s = .raise e u) : u = s := by
  unfold takeAnswer at h
  split at h
  · cases h; rfl
  · split at h
    · cases h; rfl
    · cases h

/-- A pull that raises an error receives no byte. -/
theorem pull_raise_inp {s u : State} {e : ErrKind} (h : pull s = .raise e u) : u.inp = s.inp := by
  unfold pull at h
  split at h
  · cases h; rfl
  · split at h
    · cases h
    · rename_i r rs _
      rw [takeAnswer_raise h]
      cases r.reentrant <;> rfl

/-- An error of a fetch comes at the end of the bytes received: none of them lies at or after the byte asked for. -/
theorem fetchByte_raise {i : Nat} {s u : State} {e : ErrKind} (h : fetchByte i s = .raise e u) :
    PullsOnly s u ∧ u.inp.length ≤ i := by
  have hl := fetchByte_leaves i s
  rw [h] at hl
  refine ⟨hl, ?_⟩
  clear hl
  generalize hn : s.replies.length = n
  induction n generalizing s with
  | zero =>
    rcases Nat.lt_or_ge i s.inp.length with hi | hi
    · rw [fetchByte_here hi] at h; cases h
    · rw [fetchByte_step hi] at h
      cases hp : pull s with
      | ok a u => have := (pull_ok hp).2; omega
      | raise e u => rw [hp] at h; cases h; rw [pull_raise_inp hp]; exact hi
      | stop f => rw [hp] at h; cases h
  | succ n ih =>
    rcases Nat.lt_or_ge i s.inp.length with hi | hi
    · rw [fetchByte_here hi] at h; cases h
    · rw [fetchByte_step hi] at h
      cases hp : pull s with
      | ok a u => rw [hp] at h; exact ih h (by have := (pull_ok hp).2; omega)
      | raise e u => rw [hp] at h; cases h; rw [pull_raise_inp hp]; exact hi
      | stop f => rw [hp] at h; cases h

theorem State.moved_self {s t : State} (h : PullsOnly s t) : t.moved s.pos s.window s.windowPos s.totalWritten = t := by
  rw [h.1]; rfl

theorem State.moved_moved (s : State) (p q : Nat) (w x : Memory) (a b c d : Nat) :
    (s.moved p w a b).moved q x c d = s.moved q x c d := rfl

/-! ### The end of input at a block boundary -/

theorem eofLoop_leaves (q fuel : Nat) (s : State) : (eofLoop q fuel s).Leaves (PullsOnly s) := by
  induction fuel generalizing s with
  | zero =>
    unfold eofLoop
    split
    · exact Res.leaves_bind (pull_leaves s) fun _ t _ ht => ht
    · exact .refl s
  | succ n ih =>
    unfold eofLoop
    split
    · exact Res.leaves_bind (pull_leaves s) fun _ t _ ht => (ih t).mono fun u hu => ht.trans hu
    · exact .refl s

/-- Everything `EofAtBoundary` can change (spec/40_bitreader.md R148). -/
theorem eofAtBoundary_leaves (s : State) : (eofAtBoundary s).Leaves (PullsOnly s) := eofLoop_leaves _ _ s

theorem need_leaves (n : Nat) (s : State) : (need n s).Leaves (PullsOnly s) := by
  unfold need
  split
  · exact .refl s
  · exact fetchByte_leaves _ s

/-! ## Reads with the input at hand -/

theorem need_here {n : Nat} {s : State} (h : s.hasBits n) : need n s = .ok () s := by
  unfold need
  rcases h with h | h
  · simp [h]
  · split
    · rfl
    · exact fetchByte_here h

theorem readBits_here {n : Nat} {s : State} (hm : s.mode = .bitstream) (h : s.hasBits n) :
    readBits n s = .ok (s.peek n) { s with pos := s.pos + n } := by
  simp [readBits, hm, need_here h]

theorem readByte_here {s : State} (hm : s.mode = .bytestream) (h : s.hasBytes 1) :
    readByte s = .ok (s.inp.getD s.pos 0) { s with pos := s.pos + 1 } := by
  simp [readByte, hm, fetchByte_here (show s.pos < s.inp.length by unfold State.hasBytes at h; omega)]

/-- Everything `ReadBits` can change (spec/40_bitreader.md R139). -/
theorem readBits_leaves (n : Nat) (s : State) : (readBits n s).Leaves (ReaderOnly s) := by
  unfold readBits
  split
  · exact .refl s
  · exact Res.leaves_bind ((need_leaves n s).mono fun _ h => h.readerOnly) fun _ t _ ht => ht.trans rfl

/-- Everything `ReadByte` can change (spec/40_bitreader.md R145). -/
theorem readByte_leaves (s : State) : (readByte s).Leaves (ReaderOnly s) := by
  unfold readByte
  split
  · exact .refl s
  · exact Res.leaves_bind ((fetchByte_leaves _ s).mono fun _ h => h.readerOnly) fun _ t _ ht => ht.trans rfl

theorem readU32LE_leaves (s : State) : (readU32LE s).Leaves (ReaderOnly s) := by
  unfold readU32LE
  refine Res.leaves_bind (readByte_leaves s) fun _ a _ ha => ?_
  refine Res.leaves_bind ((readByte_leaves a).mono fun _ h => ha.trans h) fun _ b _ hb => ?_
  refine Res.leaves_bind ((readByte_leaves b).mono fun _ h => hb.trans h) fun _ c _ hc => ?_
  exact Res.leaves_bind ((readByte_leaves c).mono fun _ h => hc.trans h) fun _ d _ hd => hd

/-- Everything `ReadSym` can change (spec/41_huffman.md R164). -/
theorem readSym_leaves (t : Tree) (s : State) : (readSym t s).Leaves (ReaderOnly s) := by
  unfold readSym
  split
  · exact .refl s
  · split
    · exact .refl s
    · refine Res.leaves_bind ((need_leaves 16 s).mono fun _ h => h.readerOnly) fun _ u _ hu => ?_
      split
      · exact hu.trans rfl
      · exact hu

/-- Everything a mode switch can change (spec/40_bitreader.md R141). -/
theorem toByteMode_leaves (s : State) : (toByteMode s).Leaves (ReaderOnly s) := by
  unfold toByteMode
  split
  · exact .refl s
  · refine Res.leaves_bind ((need_leaves _ s).mono fun _ h => h.readerOnly) fun _ u _ hu => ?_
    split
    · exact hu.trans rfl
    · exact hu

/-- Everything a mode switch can change (spec/40_bitreader.md R142). -/
theorem toBitMode_leaves (s : State) : (toBitMode s).Leaves (ReaderOnly s) := by
  unfold toBitMode
  split
  · exact .refl s
  · split
    · exact Res.leaves_bind ((fetchByte_leaves _ s).mono fun _ h => h.readerOnly) fun _ u _ hu => hu.trans rfl
    · exact rfl

/-! ## Fetching an element -/

theorem readFieldAt_leaves (f : Field) (s : State) : (readFieldAt f s).Leaves (ReaderOnly s) := by
  cases f with
  | bits n => exact readBits_leaves n s
  | sym t => exact readSym_leaves t s
  | byte => exact Res.leaves_bind (readByte_leaves s) fun _ _ _ h => h
  | word32 => exact readU32LE_leaves s

theorem runParser_leaves (p : Parser) (s : State) : (runParser p s).Leaves (ReaderOnly s) := by
  induction p generalizing s with
  | done i => exact .refl s
  | reject e => exact .refl s
  | read f k ih =>
    exact Res.leaves_bind (readFieldAt_leaves f s) fun v t _ ht => (ih v t).mono fun u hu => ht.trans hu

/-- Everything reading an element's fields can change: the reader, and no other state. -/
theorem fetchInstr_leaves (site : Site) (s : State) : (fetchInstr site s).Leaves (ReaderOnly s) :=
  runParser_leaves _ s

/-- Everything the search for the next element can change: the reader, and the place in the command. -/
theorem seek_leaves (s : State) : (seek s).Leaves fun t => ReaderOnly { s with ctl := t.ctl } t := by
  have bit (site : Site) (u : State) (hu : ReaderOnly { s with ctl := u.ctl } u) :
      (bitSite site u).Leaves fun t => ReaderOnly { s with ctl := t.ctl } t := by
    unfold bitSite
    split
    · exact hu
    · split
      · exact hu
      · exact hu.trans (t := u) rfl
  have same : ReaderOnly { s with ctl := s.ctl } s := rfl
  unfold seek
  cases hc : s.ctl <;> simp only
  case blockLoop =>
    unfold loopHead
    split
    · exact same
    · split
      · refine Res.leaves_bind (P := fun t => ReaderOnly { s with ctl := t.ctl } t)
          ((eofAtBoundary_leaves s).mono fun t ht => ?_) fun b t _ ht => ?_
        · have h1 := ht.readerOnly
          have h2 : t.ctl = s.ctl := by rw [ht.1]
          simpa [h2] using h1
        · split
          · exact ht
          · refine bit _ _ ?_
            unfold ReaderOnly at ht ⊢
            simp only [State.goto_ctl]
            conv_lhs => rw [ht]
            rfl
      · split <;> exact same
  case e8Header => exact bit _ _ same
  case blockHeader => exact bit _ _ same
  all_goals exact same

/-! ## What a peek sees -/

theorem bitAt_streamBit (inp : List Byte) (b : Nat) : bitAt inp b = streamBit inp b := by
  have hj : b % 16 < 16 := Nat.mod_lt _ (by decide)
  unfold bitAt streamBit
  simp only [BitVec.getLsbD]
  rw [Nat.add_comm (BitVec.toNat _), Nat.testBit_two_pow_mul_add _ (BitVec.isLt _)]
  split
  · rw [if_neg (by omega)]
    congr 1
    omega
  · rw [if_pos (by omega)]

theorem ofBits_concat (bs : List Bool) (b : Bool) : ofBits (bs ++ [b]) = 2 * ofBits bs + b.toNat := by simp [ofBits]

theorem ofBits_bitsFrom (inp : List Byte) (p n : Nat) : ofBits (bitsFrom inp p n) = streamField inp p n := by
  induction n with
  | zero => rfl
  | succ n ih =>
    have : bitsFrom inp p (n + 1) = bitsFrom inp p n ++ [bitAt inp (p + n)] := by simp [bitsFrom, List.range_succ]
    rw [this, ofBits_concat, ih, bitAt_streamBit]
    rfl

/-- The value peeked is the field of `B` at the position (spec/40_bitreader.md R140). -/
theorem State.peek_eq (s : State) (n : Nat) : s.peek n = streamField s.inp s.pos n := ofBits_bitsFrom _ _ _

theorem streamField_lt (inp : List Byte) (p n : Nat) : streamField inp p n < 2 ^ n := by
  induction n with
  | zero => exact Nat.one_pos
  | succ n ih =>
    have := Bool.toNat_lt (streamBit inp (p + n))
    simp only [streamField, Nat.pow_succ]
    omega

/-- A field of `n + m` bits is its first `n` bits above its last `m`. -/
theorem streamField_add (inp : List Byte) (p n m : Nat) :
    streamField inp p (n + m) = 2 ^ m * streamField inp p n + streamField inp (p + n) m := by
  induction m with
  | zero => simp [streamField]
  | succ m ih =>
    rw [← Nat.add_assoc]
    simp only [streamField, ih, Nat.pow_succ]
    rw [Nat.add_assoc p]
    ring

end Sys2Proof.Machine
end

