-- ==== Sys2Proof/Laws/Tables.lean ====
section
/-! SUPPORT. Building a decode table (spec/41_huffman.md R162), reading a symbol with the input at hand (R164), and
writing a run of code lengths (R168–R171). -/

namespace Sys2Proof.Machine

/-! ## Build -/

/-- All lengths 0: an empty table where one is allowed, else `IncompleteHuffmanTree`. -/
theorem buildTable_zero {lens : List Nat} (h : lens.all (· == 0) = true) (allowEmpty : Bool) :
    buildTable lens allowEmpty = if allowEmpty then .ok ⟨lens, true⟩ else .error .incompleteHuffmanTree := by
  simp [buildTable, h]

/-- Some length is not 0: the Kraft equality decides. -/
theorem buildTable_used {lens : List Nat} (h : lens.all (· == 0) = false) (allowEmpty : Bool) :
    buildTable lens allowEmpty =
      if kraftSum lens = 2 ^ 16 then .ok ⟨lens, false⟩ else .error .incompleteHuffmanTree := by
  simp [buildTable, h]

/-- Everything a successful build says of its table: its lengths, whether it is empty, and the Kraft equality. -/
theorem buildTable_eq_ok {lens : List Nat} {allowEmpty : Bool} {t : Table} (h : buildTable lens allowEmpty = .ok t) :
    t.lens = lens ∧
      (t.empty = true ∧ allowEmpty = true ∧ lens.all (· == 0) = true ∨ t.empty = false ∧ kraftSum lens = 2 ^ 16) := by
  cases hz : lens.all (· == 0)
  · rw [buildTable_used hz] at h
    split at h
    · cases h; exact ⟨rfl, .inr ⟨rfl, ‹_›⟩⟩
    · cases h
  · rw [buildTable_zero hz] at h
    split at h
    · cases h; exact ⟨rfl, .inl ⟨rfl, ‹_›, rfl⟩⟩
    · cases h

/-- A build fails with `IncompleteHuffmanTree` and no other error. -/
theorem buildTable_eq_error {lens : List Nat} {allowEmpty : Bool} {e : ErrKind}
    (h : buildTable lens allowEmpty = .error e) : e = .incompleteHuffmanTree := by
  unfold buildTable at h
  split at h
  · split at h
    · cases h
    · cases h; rfl
  · split at h
    · cases h
    · cases h; rfl

theorem rebuild_ok {t : Tree} {s : State} {tab : Table} (h : buildTable (s.lengths t) (t == .len) = .ok tab) :
    rebuild t s = .ok () (s.setTable t tab) := by
  simp [rebuild, h]

theorem rebuild_raise {t : Tree} {s : State} {e : ErrKind} (h : buildTable (s.lengths t) (t == .len) = .error e) :
    rebuild t s = .raise e s := by
  simp [rebuild, h]

/-- A rebuild replaces one table, or raises and changes nothing. -/
theorem rebuild_cases (t : Tree) (s : State) :
    (∃ tab, buildTable (s.lengths t) (t == .len) = .ok tab ∧ rebuild t s = .ok () (s.setTable t tab)) ∨
      rebuild t s = .raise .incompleteHuffmanTree s := by
  cases h : buildTable (s.lengths t) (t == .len) with
  | ok tab => exact .inl ⟨tab, rfl, rebuild_ok h⟩
  | error e =>
    have := buildTable_eq_error h
    subst this
    exact .inr (rebuild_raise h)

@[simp] theorem State.setTable_table (s : State) (t : Tree) (tab : Table) : (s.setTable t tab).table t = tab := by
  cases t <;> rfl

theorem State.setTable_other (s : State) {t u : Tree} (tab : Table) (h : u ≠ t) :
    (s.setTable t tab).table u = s.table u := by
  cases t <;> cases u <;> first | rfl | exact absurd rfl h

/-! ## Symbols -/

/-- `ReadSym` with its sixteen bits at hand and a code word at their head (spec/41_huffman.md R164). -/
theorem readSym_here {t : Tree} {s : State} {c : CodeWord} (he : (s.table t).empty = false)
    (hm : s.mode = .bitstream) (hb : s.hasBits 16)
    (hc : findCode (canonical (s.table t).lens) (s.peek 16) = some c) :
    readSym t s = .ok c.sym { s with pos := s.pos + c.len } := by
  simp only [readSym, he, Bool.false_eq_true, if_false, hm, need_here hb, Res.bind_ok, hc]

/-- An empty table is never read (spec/41_huffman.md R166). -/
theorem readSym_empty {t : Tree} {s : State} (he : (s.table t).empty = true) :
    readSym t s = .raise .emptyTableDecode s := by
  simp [readSym, he]

/-! ## Runs of lengths -/

@[simp] theorem setRun_length (l : List Len) (x n : Nat) (v : Len) : (setRun l x n v).length = l.length := by
  induction n generalizing l x with
  | zero => rfl
  | succ n ih => rw [setRun, ih, List.length_set]

/-- A run writes its own range and no other length. -/
theorem setRun_get (l : List Len) (x n : Nat) (v : Len) (i : Nat) :
    (setRun l x n v)[i]? = if x ≤ i ∧ i < x + n ∧ i < l.length then some v else l[i]? := by
  induction n generalizing l x with
  | zero => rw [if_neg (by omega)]; rfl
  | succ n ih =>
    rw [setRun, ih, List.length_set]
    by_cases h : x + 1 ≤ i ∧ i < x + 1 + n ∧ i < l.length
    · rw [if_pos h, if_pos (by omega)]
    · rw [if_neg h, List.getElem?_set]
      by_cases hx : x = i
      · subst hx
        by_cases hl : x < l.length
        · simp [hl]
        · simp [hl]
      · rw [if_neg hx, if_neg (by omega)]

end Sys2Proof.Machine
end

