-- ==== Sys2Proof/Laws/Window.lean ====
section
/-! SUPPORT. The window and the output buffer under the operations that write them (spec/20_memory.md R61, R66): a byte
put, a match copied (spec/43_symbols_matches.md R245), a payload run (R248), the frame copy
(spec/42_frame_blocks.md R204), each said once, and the canonical form, which each keeps. -/

namespace Sys2Proof.Machine

/-! ## One byte -/

theorem putByte_ok {s : State} (h : s.windowPos < s.winSize) (v : Byte) : putByte v s = .ok () (s.put v) := by
  simp [putByte, h]

theorem winRead_ok {s : State} {i : Nat} {v : Byte} (h : i < s.winSize) (hv : Memory.read s.window i = some v) :
    winRead i s = .ok v s := by
  simp [winRead, h, hv]

/-- A window read changes nothing, whatever it answers. -/
theorem winRead_leaves (i : Nat) (s : State) : (winRead i s).Leaves (· = s) := by
  unfold winRead
  split
  · split <;> exact rfl
  · trivial

/-- Where a byte is put, it lies in the window and this is the state after it. -/
theorem putByte_eq_ok {v : Byte} {s t : State} (h : putByte v s = .ok () t) :
    s.windowPos < s.winSize ∧ t = s.put v := by
  unfold putByte at h
  split at h
  · cases h; exact ⟨‹_›, rfl⟩
  · cases h

theorem putByte_ne_raise {v : Byte} {s t : State} {e : ErrKind} : putByte v s ≠ .raise e t := by
  unfold putByte
  split <;> exact nofun

/-! ## The match copy -/

/-- `t` is `s` with a window run written: only the window, its position and its count differ. -/
def WindowOnly (s t : State) : Prop :=
  t = { s with window := t.window, windowPos := t.windowPos, totalWritten := t.totalWritten }

theorem WindowOnly.refl (s : State) : WindowOnly s s := rfl

theorem WindowOnly.trans {s t u : State} (h : WindowOnly s t) (k : WindowOnly t u) : WindowOnly s u := by
  unfold WindowOnly at *
  rw [k, h]

/-- Everything a match copy can change (spec/43_symbols_matches.md R245). -/
theorem copyMatch_leaves (offset n : Nat) (s : State) : (copyMatch offset n s).Leaves (WindowOnly s) := by
  induction n generalizing s with
  | zero => exact .refl s
  | succ n ih =>
    refine Res.leaves_bind ((winRead_leaves _ s).mono fun t ht => ht ▸ .refl s) fun b t hb _ => ?_
    have ht : t = s := by
      have := winRead_leaves (s.sourceIndex offset) s
      rw [hb] at this
      exact this
    subst ht
    unfold putByte
    split
    · exact (ih _).mono fun u hu => WindowOnly.trans (t := t.put b) rfl hu
    · trivial

/-- A property of the window, its position and its count that every put byte keeps is kept by a match copy. -/
theorem copyMatch_keeps {P : State → Prop} (hP : ∀ v s, P s → s.windowPos < s.winSize → P (s.put v)) (offset n : Nat)
    {s : State} (h : P s) : (copyMatch offset n s).Leaves P := by
  induction n generalizing s with
  | zero => exact h
  | succ n ih =>
    refine Res.leaves_bind ((winRead_leaves _ s).mono fun t ht => ht ▸ h) fun b t _ ht => ?_
    unfold putByte
    split
    · exact ih (hP b t ht ‹_›)
    · trivial

/-- Where a match copy ends, the position and the count have moved on by its length and the bytes lie in the window. -/
theorem copyMatch_eq_ok {offset n : Nat} {s t : State} (h : copyMatch offset n s = .ok () t) :
    WindowOnly s t ∧ t.windowPos = s.windowPos + n ∧ t.totalWritten = s.totalWritten + n ∧
      (s.windowPos ≤ s.winSize → s.windowPos + n ≤ s.winSize) := by
  induction n generalizing s with
  | zero => cases h; exact ⟨.refl _, rfl, rfl, id⟩
  | succ n ih =>
    obtain ⟨b, u, hb, hk⟩ := Res.bind_eq_ok h
    have hu : u = s := by
      have := winRead_leaves (s.sourceIndex offset) s
      rw [hb] at this
      exact this
    subst hu
    obtain ⟨_, v, hv, hk⟩ := Res.bind_eq_ok hk
    obtain ⟨hlt, rfl⟩ := putByte_eq_ok hv
    obtain ⟨h1, h2, h3, h4⟩ := ih hk
    refine ⟨WindowOnly.trans (t := u.put b) rfl h1, ?_, ?_, fun _ => ?_⟩
    · rw [h2]; simp only [State.put_windowPos]; omega
    · rw [h3]; simp only [State.put_totalWritten]; omega
    · have : u.windowPos + 1 + n ≤ u.winSize := h4 hlt
      omega

/-- `CopyMatch` whole (spec/43_symbols_matches.md R245): with its source bytes holding values it writes `n` bytes from
`window_pos` on, byte `i` being the source byte, or the byte written `offset` places before, and no other. -/
theorem copyMatch_ok {offset n : Nat} {s : State} (h0 : 0 < offset) (hW : offset < s.winSize)
    (hn : s.windowPos + n ≤ s.winSize)
    (hr : ∀ i, i < n → i < offset →
      ∃ v, Memory.read s.window ((s.windowPos + i + s.winSize - offset) % s.winSize) = some v) :
    ∃ w, copyMatch offset n s
        = .ok () { s with window := w, windowPos := s.windowPos + n, totalWritten := s.totalWritten + n } ∧
      (∀ a, a < s.windowPos ∨ s.windowPos + n ≤ a → Memory.read w a = Memory.read s.window a) ∧
      ∀ i, i < n → Memory.read w (s.windowPos + i) =
        if offset ≤ i then Memory.read w (s.windowPos + i - offset)
        else Memory.read s.window ((s.windowPos + i + s.winSize - offset) % s.winSize) := by
  induction n generalizing s with
  | zero => exact ⟨s.window, rfl, fun _ _ => rfl, fun i hi => absurd hi (Nat.not_lt_zero i)⟩
  | succ n ih =>
    obtain ⟨v, hv⟩ := hr 0 (Nat.succ_pos n) h0
    simp only [Nat.add_zero] at hv
    have hwp : s.windowPos < s.winSize := by omega
    have hsrc : s.sourceIndex offset < s.winSize := Nat.mod_lt _ (by omega)
    have hput : (s.put v).window = Memory.write s.window s.windowPos v := rfl
    have hsize : (s.put v).winSize = s.winSize := rfl
    have hpos : (s.put v).windowPos = s.windowPos + 1 := rfl
    -- a source byte before the first one written again
    have other : ∀ i, i + 1 < offset →
        Memory.read (Memory.write s.window s.windowPos v) ((s.windowPos + 1 + i + s.winSize - offset) % s.winSize)
          = Memory.read s.window ((s.windowPos + (i + 1) + s.winSize - offset) % s.winSize) := by
      intro i hi
      have he : s.windowPos + 1 + i = s.windowPos + (i + 1) := by omega
      rw [he, Memory.read_write_other]
      intro hc
      rcases Nat.lt_or_ge (s.windowPos + (i + 1)) offset with hlt | hge
      · rw [Nat.mod_eq_of_lt (by omega)] at hc; omega
      · rw [show s.windowPos + (i + 1) + s.winSize - offset = s.windowPos + (i + 1) - offset + s.winSize by omega,
          Nat.add_mod_right, Nat.mod_eq_of_lt (by omega)] at hc
        omega
    have again : ∀ i, i + 1 = offset → (s.windowPos + 1 + i + s.winSize - offset) % s.winSize = s.windowPos := by
      intro i hi
      rw [show s.windowPos + 1 + i + s.winSize - offset = s.windowPos + s.winSize by omega, Nat.add_mod_right,
        Nat.mod_eq_of_lt hwp]
    obtain ⟨w, hw, hout, hin⟩ := ih (s := s.put v) (by omega) (by omega) (by
      intro i hi1 hi2
      rw [hput, hsize, hpos]
      rcases Nat.lt_or_ge (i + 1) offset with hlt | hge
      · rw [other i hlt]
        exact hr (i + 1) (by omega) hlt
      · rw [again i (by omega), Memory.read_write_same]
        exact ⟨v, rfl⟩)
    rw [hpos, hput] at hout hin
    have hat : Memory.read w s.windowPos = some v := by
      rw [hout _ (.inl (by omega)), Memory.read_write_same]
    refine ⟨w, ?_, ?_, ?_⟩
    · show (winRead (s.sourceIndex offset) s).bind _ = _
      rw [winRead_ok hsrc hv, Res.bind_ok, putByte_ok hwp, Res.bind_ok, hw]
      simp only [State.put, Res.ok.injEq, State.mk.injEq, true_and, and_true]
      omega
    · intro a ha
      rw [hout a (by omega), Memory.read_write_other _ _ (by omega)]
    · intro i hi
      cases i with
      | zero =>
        simp only [Nat.add_zero, if_neg (show ¬ offset ≤ 0 by omega)]
        rw [hat, hv]
      | succ i =>
        have := hin i (by omega)
        rw [show s.windowPos + (i + 1) = s.windowPos + 1 + i by omega, this, hsize]
        rcases Nat.lt_trichotomy (i + 1) offset with hlt | heq | hgt
        · rw [if_neg (by omega), if_neg (by omega), other i hlt]
          congr 2
          omega
        · rw [if_neg (by omega), if_pos (by omega), again i heq, Memory.read_write_same,
            show s.windowPos + 1 + i - offset = s.windowPos by omega, hat]
        · rw [if_pos (by omega), if_pos (by omega)]

/-! ## The payload run -/

/-- A property that reading and putting a byte keep is kept by a payload run. -/
theorem payloadBytes_keeps {P : State → Prop} (hR : ∀ s t, P s → ReaderOnly s t → P t)
    (hP : ∀ v s, P s → s.windowPos < s.winSize → P (s.put v)) (n : Nat) {s : State} (h : P s) :
    (payloadBytes n s).Leaves P := by
  induction n generalizing s with
  | zero => exact h
  | succ n ih =>
    refine Res.leaves_bind ((readByte_leaves s).mono fun t ht => hR s t h ht) fun b t _ ht => ?_
    unfold putByte
    split
    · exact ih (hP b t ht ‹_›)
    · trivial

/-- Where a payload run ends, the position and the count have moved on by its length and the bytes lie in the window. -/
theorem payloadBytes_eq_ok {n : Nat} {s t : State} (h : payloadBytes n s = .ok () t) :
    (∃ u, ReaderOnly s u ∧ WindowOnly u t) ∧ t.windowPos = s.windowPos + n ∧
      t.totalWritten = s.totalWritten + n ∧ (s.windowPos ≤ s.winSize → s.windowPos + n ≤ s.winSize) := by
  induction n generalizing s with
  | zero => cases h; exact ⟨⟨_, .refl _, .refl _⟩, rfl, rfl, id⟩
  | succ n ih =>
    obtain ⟨b, u, hb, hk⟩ := Res.bind_eq_ok h
    obtain ⟨_, v, hv, hk⟩ := Res.bind_eq_ok hk
    have hu : ReaderOnly s u := by
      have := readByte_leaves s
      rw [hb] at this
      exact this
    obtain ⟨hlt, rfl⟩ := putByte_eq_ok hv
    obtain ⟨⟨w, hw1, hw2⟩, h2, h3, h4⟩ := ih hk
    have e1 : u.windowPos = s.windowPos := by rw [hu]
    have e2 : u.totalWritten = s.totalWritten := by rw [hu]
    have e3 : u.winSize = s.winSize := by rw [hu]
    refine ⟨⟨{ w with window := s.window, windowPos := s.windowPos, totalWritten := s.totalWritten }, ?_, ?_⟩, ?_, ?_, fun _ => ?_⟩
    · unfold ReaderOnly at hu hw1 ⊢
      rw [hw1, hu]
      rfl
    · unfold WindowOnly at hw2 ⊢
      rw [hw2]
    · rw [h2]; simp only [State.put_windowPos]; omega
    · rw [h3]; simp only [State.put_totalWritten]; omega
    · have e4 : (u.put b).winSize = s.winSize := e3
      have := h4 (by rw [e4, ← e3]; exact hlt)
      simp only [State.put_windowPos] at this
      omega

/-- A payload run whose bytes are at hand (spec/43_symbols_matches.md R248): they stand in the window from `window_pos`
on, and no other byte of it changes. -/
theorem payloadBytes_here {n : Nat} {s : State} (hm : s.mode = .bytestream) (hb : s.hasBytes n)
    (hn : s.windowPos + n ≤ s.winSize) :
    ∃ w, payloadBytes n s
        = .ok () { s with pos := s.pos + n, window := w, windowPos := s.windowPos + n,
                          totalWritten := s.totalWritten + n } ∧
      (∀ a, a < s.windowPos ∨ s.windowPos + n ≤ a → Memory.read w a = Memory.read s.window a) ∧
      ∀ i, i < n → Memory.read w (s.windowPos + i) = some (s.inp.getD (s.pos + i) 0) := by
  induction n generalizing s with
  | zero => exact ⟨s.window, rfl, fun _ _ => rfl, fun i hi => absurd hi (Nat.not_lt_zero i)⟩
  | succ n ih =>
    unfold State.hasBytes at hb
    let s1 : State := { s with pos := s.pos + 1 }
    let v := s.inp.getD s.pos 0
    obtain ⟨w, hw, hout, hin⟩ := ih (s := s1.put v) hm (show s.pos + 1 + n ≤ s.inp.length by omega)
      (show s.windowPos + 1 + n ≤ s.winSize by omega)
    have hput : (s1.put v).window = Memory.write s.window s.windowPos v := rfl
    have hpos : (s1.put v).windowPos = s.windowPos + 1 := rfl
    rw [hpos, hput] at hout
    rw [hpos] at hin
    refine ⟨w, ?_, ?_, ?_⟩
    · show (readByte s).bind _ = _
      rw [readByte_here hm (show s.pos + 1 ≤ s.inp.length by omega), Res.bind_ok]
      show (putByte v s1).bind _ = _
      rw [putByte_ok (s := s1) (show s.windowPos < s.winSize by omega), Res.bind_ok, hw]
      simp only [State.put, s1, Res.ok.injEq, State.mk.injEq, true_and, and_true]
      omega
    · intro a ha
      rw [hout a (by omega), Memory.read_write_other _ _ (by omega)]
    · intro i hi
      cases i with
      | zero => rw [Nat.add_zero, Nat.add_zero, hout _ (.inl (by omega)), Memory.read_write_same]
      | succ i =>
        rw [show s.windowPos + (i + 1) = s.windowPos + 1 + i by omega, hin i (by omega)]
        show some (s.inp.getD (s.pos + 1 + i) 0) = _
        rw [show s.pos + 1 + i = s.pos + (i + 1) by omega]

/-- A payload run of one byte and more: the byte is fetched and put, and the rest follows. -/
theorem payloadBytes_succ {n : Nat} {s : State} (hm : s.mode = .bytestream) (hw : s.windowPos < s.winSize) :
    payloadBytes (n + 1) s = (fetchByte s.pos s).bind fun _ v =>
      payloadBytes n (v.moved (s.pos + 1) (Memory.write s.window s.windowPos (v.inp.getD s.pos 0)) (s.windowPos + 1)
        (s.totalWritten + 1)) := by
  have hread : readByte s = (fetchByte s.pos s).bind fun _ u => .ok (u.inp.getD u.pos 0) { u with pos := u.pos + 1 } := by
    simp [readByte, hm]
  show (readByte s).bind _ = _
  rw [hread, Res.bind_assoc]
  have hl := fetchByte_leaves s.pos s
  cases h0 : fetchByte s.pos s with
  | stop f => rfl
  | raise e v => rfl
  | ok a v =>
    rw [h0] at hl
    have hl : PullsOnly s v := hl
    have h1 : v.windowPos = s.windowPos := by rw [hl.1]
    have h2 : v.winSize = s.winSize := by rw [hl.1]
    have h3 : v.window = s.window := by rw [hl.1]
    have h4 : v.totalWritten = s.totalWritten := by rw [hl.1]
    simp only [Res.bind_ok]
    rw [putByte_ok (s := { v with pos := v.pos + 1 }) (show v.windowPos < v.winSize by omega), Res.bind_ok, hl.pos]
    unfold State.put State.moved
    rw [h1, h3, h4]

/-- A payload run (spec/43_symbols_matches.md R248), whole. The pulls it makes are those that fetch its last byte. Where
they end with a value its bytes stand in the window from `window_pos` on; where they raise an error the bytes received
before it do; where they stop, it stops. -/
theorem payloadBytes_fetch {n : Nat} {s : State} (hm : s.mode = .bytestream) (hn : s.windowPos + (n + 1) ≤ s.winSize) :
    (∀ u, fetchByte (s.pos + n) s = .ok () u → ∃ w,
      payloadBytes (n + 1) s = .ok () (u.moved (s.pos + (n + 1)) w (s.windowPos + (n + 1)) (s.totalWritten + (n + 1))) ∧
      (∀ a, a < s.windowPos ∨ s.windowPos + (n + 1) ≤ a → Memory.read w a = Memory.read s.window a) ∧
      ∀ i, i < n + 1 → Memory.read w (s.windowPos + i) = u.inp[s.pos + i]?) ∧
    (∀ e u m, fetchByte (s.pos + n) s = .raise e u → m = u.inp.length - s.pos → ∃ w,
      payloadBytes (n + 1) s = .raise e (u.moved (s.pos + m) w (s.windowPos + m) (s.totalWritten + m)) ∧
      (∀ a, a < s.windowPos ∨ s.windowPos + m ≤ a → Memory.read w a = Memory.read s.window a) ∧
      ∀ i, i < m → Memory.read w (s.windowPos + i) = u.inp[s.pos + i]?) ∧
    ∀ f, fetchByte (s.pos + n) s = .stop f → payloadBytes (n + 1) s = .stop f := by
  have byte {inp : List Byte} {i : Nat} (h : i < inp.length) : inp[i]? = some (inp.getD i 0) := by
    rw [List.getD_eq_getElem?_getD, List.getElem?_eq_getElem h]; rfl
  induction n generalizing s with
  | zero =>
    rw [payloadBytes_succ hm (by omega), Nat.add_zero]
    refine ⟨fun u hu => ?_, fun e u m hu hmm => ?_, fun f hu => ?_⟩
    · refine ⟨Memory.write s.window s.windowPos (u.inp.getD s.pos 0), ?_, fun a ha => ?_, fun i h0 => ?_⟩
      · rw [hu]; rfl
      · exact Memory.read_write_other _ _ (by omega)
      · obtain rfl : i = 0 := by omega
        rw [Nat.add_zero, Nat.add_zero, Memory.read_write_same, byte (fetchByte_ok hu)]
    · obtain ⟨hl, hi⟩ := fetchByte_raise hu
      obtain rfl : m = 0 := by omega
      refine ⟨s.window, ?_, fun a _ => rfl, fun i h0 => absurd h0 (Nat.not_lt_zero i)⟩
      rw [hu]
      show Res.raise e u = .raise e (u.moved s.pos s.window s.windowPos s.totalWritten)
      rw [State.moved_self hl]
    · rw [hu]; rfl
  | succ n ih =>
    rw [fetchByte_split (show s.pos ≤ s.pos + (n + 1) by omega) s, payloadBytes_succ hm (by omega)]
    have hl := fetchByte_leaves s.pos s
    cases h0 : fetchByte s.pos s with
    | stop f =>
      simp only [Res.bind]
      refine ⟨fun u hu => ?_, fun e u m hu _ => ?_, fun g hg => hg⟩ <;> simp at hu
    | raise e v =>
      obtain ⟨hl, hi⟩ := fetchByte_raise h0
      simp only [Res.bind]
      refine ⟨fun u hu => absurd hu (by simp), fun e' u m hu hmm => ?_, fun f hu => absurd hu (by simp)⟩
      obtain ⟨rfl, rfl⟩ := Res.raise.inj hu
      obtain rfl : m = 0 := by omega
      refine ⟨s.window, ?_, fun a _ => rfl, fun i h0 => absurd h0 (Nat.not_lt_zero i)⟩
      show Res.raise e v = .raise e (v.moved s.pos s.window s.windowPos s.totalWritten)
      rw [State.moved_self hl]
    | ok a v =>
      rw [h0] at hl
      have hl : PullsOnly s v := hl
      have hi := fetchByte_ok h0
      have h2 : v.winSize = s.winSize := by rw [hl.1]
      simp only [Res.bind_ok]
      generalize hw0 : Memory.write s.window s.windowPos (v.inp.getD s.pos 0) = w0
      have hf : fetchByte (s.pos + 1 + n) (v.moved (s.pos + 1) w0 (s.windowPos + 1) (s.totalWritten + 1))
          = (fetchByte (s.pos + (n + 1)) v).onState (State.moved (s.pos + 1) w0 (s.windowPos + 1) (s.totalWritten + 1)) := by
        rw [fetchByte_moved, show s.pos + 1 + n = s.pos + (n + 1) by omega]
      have at0 {inp : List Byte} (hp : v.inp <+: inp) : Memory.read w0 s.windowPos = inp[s.pos]? := by
        obtain ⟨l, rfl⟩ := hp
        rw [← hw0, Memory.read_write_same, List.getElem?_append_left hi, byte hi]
      have other {a : Nat} (ha : a ≠ s.windowPos) : Memory.read w0 a = Memory.read s.window a := by
        rw [← hw0]; exact Memory.read_write_other _ _ ha
      obtain ⟨ih1, ih2, ih3⟩ := ih (s := v.moved (s.pos + 1) w0 (s.windowPos + 1) (s.totalWritten + 1))
        (show v.mode = _ by rw [hl.mode, hm]) (show s.windowPos + 1 + (n + 1) ≤ v.winSize by omega)
      have hlv := fetchByte_leaves (s.pos + (n + 1)) v
      refine ⟨fun u hu => ?_, fun e u m hu hmm => ?_, fun f hu => ih3 f (hf.trans (by rw [hu]; rfl))⟩
      · rw [hu] at hf hlv
        obtain ⟨w, hw, hout, hin⟩ := ih1 _ hf
        refine ⟨w, ?_, fun a ha => ?_, fun i hi' => ?_⟩
        · rw [hw, State.moved_moved]
          congr 2 <;> show _ + 1 + (n + 1) = _ <;> omega
        · rw [hout a (show a < s.windowPos + 1 ∨ s.windowPos + 1 + (n + 1) ≤ a by omega)]
          exact other (by omega)
        · cases i with
          | zero =>
            rw [Nat.add_zero, Nat.add_zero, hout _ (.inl (Nat.lt_succ_self s.windowPos))]
            exact at0 hlv.2
          | succ i =>
            have := hin i (by omega)
            rw [show s.windowPos + (i + 1) = s.windowPos + 1 + i by omega, show s.pos + (i + 1) = s.pos + 1 + i by omega]
            exact this
      · obtain ⟨hlr, hle⟩ := fetchByte_raise hu
        rw [hu] at hf
        have hge : s.pos < u.inp.length := Nat.lt_of_lt_of_le hi hlr.2.length_le
        obtain ⟨w, hw, hout, hin⟩ := ih2 _ _ (m - 1) hf (show m - 1 = u.inp.length - (s.pos + 1) by omega)
        refine ⟨w, ?_, fun a ha => ?_, fun i hi' => ?_⟩
        · rw [hw, State.moved_moved]
          congr 2 <;> show _ + 1 + (m - 1) = _ <;> omega
        · rw [hout a (show a < s.windowPos + 1 ∨ s.windowPos + 1 + (m - 1) ≤ a by omega)]
          exact other (by omega)
        · cases i with
          | zero =>
            rw [Nat.add_zero, Nat.add_zero, hout _ (.inl (Nat.lt_succ_self s.windowPos))]
            exact at0 hlr.2
          | succ i =>
            have := hin i (by omega)
            rw [show s.windowPos + (i + 1) = s.windowPos + 1 + i by omega, show s.pos + (i + 1) = s.pos + 1 + i by omega]
            exact this

/-! ## The frame copy -/

/-- `n` window bytes read, all of them holding values (spec/42_frame_blocks.md R204). -/
theorem readWindow_ok {i n : Nat} {s : State} (hi : i + n ≤ s.winSize) {f : Nat → Byte}
    (hf : ∀ k, k < n → Memory.read s.window (i + k) = some (f k)) :
    readWindow i n s = .ok ((List.range n).map f) s := by
  induction n generalizing i f with
  | zero => rfl
  | succ n ih =>
    have h0 := hf 0 (Nat.succ_pos n)
    have hr := ih (i := i + 1) (by omega) (f := fun k => f (k + 1)) fun k hk => by
      have := hf (k + 1) (by omega)
      rwa [show i + (k + 1) = i + 1 + k by omega] at this
    show (winRead i s).bind _ = _
    rw [winRead_ok (show i < s.winSize by omega) h0, Res.bind_ok, hr, Res.bind_ok, List.range_succ_eq_map]
    simp [Function.comp_def]

theorem readWindow_leaves (i n : Nat) (s : State) : (readWindow i n s).Leaves (· = s) := by
  induction n generalizing i s with
  | zero => exact rfl
  | succ n ih =>
    refine Res.leaves_bind (winRead_leaves i s) fun b t _ ht => ?_
    subst ht
    exact Res.leaves_bind (ih (i + 1) t) fun bs u _ hu => hu

/-- `OutWrite` of a run of bytes that fits (spec/20_memory.md R66): byte `i + k` becomes byte `k` of the run and no
other changes. -/
theorem outWrite_ok {i : Nat} {bytes : List Byte} {s : State} (h : i + bytes.length ≤ Config.frameSize) :
    ∃ m, outWrite i bytes s = .ok () { s with out := m } ∧
      (∀ a, a < i ∨ i + bytes.length ≤ a → Memory.read m a = Memory.read s.out a) ∧
      (∀ k (hk : k < bytes.length), Memory.read m (i + k) = some bytes[k]) ∧
      (s.out.wf → m.wf) ∧ ((∀ c ∈ s.out, c.1 < Config.frameSize) → ∀ c ∈ m, c.1 < Config.frameSize) := by
  induction bytes generalizing i s with
  | nil => exact ⟨s.out, rfl, fun _ _ => rfl, fun k hk => absurd hk (Nat.not_lt_zero k), id, id⟩
  | cons v bytes ih =>
    simp only [List.length_cons] at h
    obtain ⟨m, hm, hout, hin, hwf, hbd⟩ := ih (i := i + 1) (s := { s with out := Memory.write s.out i v }) (by omega)
    refine ⟨m, ?_, ?_, ?_, fun hw => hwf (Memory.wf_write hw i v), fun hb => hbd (Memory.bound_write hb (by omega))⟩
    · rw [outWrite, if_pos (show i < Config.frameSize by omega), hm]
    · intro a ha
      simp only [List.length_cons] at ha
      rw [hout a (by omega), Memory.read_write_other _ _ (by omega)]
    · intro k hk
      cases k with
      | zero => rw [Nat.add_zero, hout i (.inl (by omega)), Memory.read_write_same]; rfl
      | succ k =>
        have := hin k (by simpa using hk)
        rw [show i + (k + 1) = i + 1 + k by omega, this]
        rfl

/-- Whatever happens, an output run changes the output buffer only and keeps its canonical form and bounds. -/
theorem outWrite_leaves (i : Nat) (bytes : List Byte) (s : State) :
    (outWrite i bytes s).Leaves fun t => t = { s with out := t.out } ∧ (s.out.wf → t.out.wf) ∧
      ((∀ c ∈ s.out, c.1 < Config.frameSize) → ∀ c ∈ t.out, c.1 < Config.frameSize) := by
  induction bytes generalizing i s with
  | nil => exact ⟨rfl, id, id⟩
  | cons v bytes ih =>
    unfold outWrite
    split
    · refine (ih (i + 1) _).mono fun t ht => ⟨?_, fun hw => ht.2.1 (Memory.wf_write hw i v),
        fun hb => ht.2.2 (Memory.bound_write hb ‹_›)⟩
      rw [ht.1]
    · trivial

end Sys2Proof.Machine
end

