-- ==== Sys2Proof/Laws/Exec.lean ====
section
/-! SUPPORT. Every instruction is one of twenty shapes over shared operations, each with its place in the stream: a fact
about what `exec` does is proved once a shape, not once an instruction. Then what a step is made of: the search for the
next element, its fields, its meaning. -/

namespace Sys2Proof.Machine

/-! ## Shapes -/

/-- A property of the shapes, each at its place in the stream, holds of every instruction's meaning. -/
theorem exec_shapes {P : Option Site → (State → Host.Outcome State Fault Refusal) → Prop}
    (construct : ∀ wb ri, P none (execConstruct wb ri))
    (decodeFrame : ∀ n, P none (execDecodeFrame n))
    (e8 : ∀ m, P (some .e8Header) fun s => (e8Header m s).finish)
    (unknown : ∀ len, P (some .blockHeader) fun s => (unknownBlock len s).finish)
    (verbatim : ∀ len, P (some .blockHeader) (execBlockVerbatim len))
    (aligned : ∀ len, P (some .blockHeader) (execBlockAligned len))
    (uncompressed : ∀ len, P (some .blockHeader) (execBlockUncompressed len))
    (alignlen : ∀ a, P (some .alignLen) fun s => (alignLength a s).finish)
    (prelen : ∀ p, P (some .preLen) fun s => (preLength p s).finish)
    (delta : ∀ z, P (some .lenCode) fun s => (deltaCode z s).finish)
    (zrun : ∀ n, P (some .lenCode) fun s => (checkedRun n 0 s).finish)
    (srun : ∀ k z2, P (some .lenCode) (execSrun k z2))
    (lit : ∀ b, P (some .mainSym) (execLit b))
    (start : ∀ slot hdr, P (some .mainSym) fun s => (startMatch slot hdr s).finish)
    (lsym : ∀ l, P (some .lenSym) (execLsym l))
    (alsym : ∀ a, P (some .alSym) (execAlsym a))
    (pad : P (some .uncPad) execUncPad)
    (words : ∀ w0 w1 w2, P (some .uncWords) (execUncRWords w0 w1 w2))
    (payload : P (some .payload) execUncPayload)
    (padByte : ∀ x, P (some .padByte) (execUncPadByte x)) (i : Instr) : P i.site (exec i) := by
  cases i with
  | construct wb ri => exact construct wb ri
  | decodeFrame n => exact decodeFrame n
  | e8hdrOff => exact e8 0
  | e8hdrOn m => exact e8 m
  | blockVerbatim len => exact verbatim len
  | blockAligned len => exact aligned len
  | blockUncompressed len => exact uncompressed len
  | blockType0 len | blockType4 len | blockType5 len | blockType6 len | blockType7 len => exact unknown len
  | alignlen a => exact alignlen a
  | prelen p => exact prelen p
  | zrun4 k => exact zrun (4 + k.toNat)
  | zrun20 k => exact zrun (20 + k.toNat)
  | srun k z2 => exact srun k z2
  | lit b => exact lit b
  | lsym l => exact lsym l
  | alsym a => exact alsym a
  | uncPad => exact pad
  | uncRWords w0 w1 w2 => exact words w0 w1 w2
  | uncPayload => exact payload
  | uncPadByte x => exact padByte x
  | delta0 | delta1 | delta2 | delta3 | delta4 | delta5 | delta6 | delta7 | delta8 | delta9 | delta10 | delta11
  | delta12 | delta13 | delta14 | delta15 | delta16 => exact delta _
  | _ hdr => exact start _ hdr

/-! ## Fields -/

/-- `t` is `s` after some reads without a mode switch: the position does not go back and the input only grows. -/
def ReadsOnly (s t : State) : Prop :=
  t = { s with pos := t.pos, eof := t.eof, inp := t.inp, nreal := t.nreal, replies := t.replies, refused := t.refused,
               result := t.result } ∧ s.inp <+: t.inp ∧ s.pos ≤ t.pos

theorem ReadsOnly.refl (s : State) : ReadsOnly s s := ⟨rfl, List.prefix_rfl, Nat.le_refl _⟩

theorem ReadsOnly.trans {s t u : State} (h : ReadsOnly s t) (k : ReadsOnly t u) : ReadsOnly s u := by
  refine ⟨?_, h.2.1.trans k.2.1, Nat.le_trans h.2.2 k.2.2⟩
  have h1 := h.1
  have k1 := k.1
  rw [k1, h1]

theorem PullsOnly.readsOnly {s t : State} (h : PullsOnly s t) : ReadsOnly s t := by
  refine ⟨?_, h.2, Nat.le_of_eq h.pos.symm⟩
  have h1 := h.1
  rw [h1]

theorem ReadsOnly.advance {s t : State} (h : ReadsOnly s t) (n : Nat) : ReadsOnly s { t with pos := t.pos + n } := by
  refine ⟨?_, h.2.1, Nat.le_trans h.2.2 (Nat.le_add_right _ _)⟩
  have h1 := h.1
  conv_lhs => rw [h1]

theorem readBits_reads (n : Nat) (s : State) : (readBits n s).Leaves (ReadsOnly s) := by
  unfold readBits
  split
  · exact .refl s
  · exact Res.leaves_bind ((need_leaves n s).mono fun _ h => h.readsOnly) fun _ t _ ht => ht.advance n

theorem readByte_reads (s : State) : (readByte s).Leaves (ReadsOnly s) := by
  unfold readByte
  split
  · exact .refl s
  · exact Res.leaves_bind ((fetchByte_leaves _ s).mono fun _ h => h.readsOnly) fun _ t _ ht => ht.advance 1

theorem readSym_reads (t : Tree) (s : State) : (readSym t s).Leaves (ReadsOnly s) := by
  unfold readSym
  split
  · exact .refl s
  · split
    · exact .refl s
    · refine Res.leaves_bind ((need_leaves 16 s).mono fun _ h => h.readsOnly) fun _ u _ hu => ?_
      split
      · exact hu.advance _
      · exact hu

theorem readFieldAt_reads (f : Field) (s : State) : (readFieldAt f s).Leaves (ReadsOnly s) := by
  cases f with
  | bits n => exact readBits_reads n s
  | sym t => exact readSym_reads t s
  | byte => exact Res.leaves_bind (readByte_reads s) fun _ _ _ h => h
  | word32 =>
    refine Res.leaves_bind (readByte_reads s) fun _ a _ ha => ?_
    refine Res.leaves_bind ((readByte_reads a).mono fun _ h => ha.trans h) fun _ b _ hb => ?_
    refine Res.leaves_bind ((readByte_reads b).mono fun _ h => hb.trans h) fun _ c _ hc => ?_
    exact Res.leaves_bind ((readByte_reads c).mono fun _ h => hc.trans h) fun _ d _ hd => hd

theorem runParser_reads (p : Parser) (s : State) : (runParser p s).Leaves (ReadsOnly s) := by
  induction p generalizing s with
  | done i => exact .refl s
  | reject e => exact .refl s
  | read f k ih =>
    exact Res.leaves_bind (readFieldAt_reads f s) fun v t _ ht => (ih v t).mono fun u hu => ht.trans hu

/-- Everything reading an element's fields can change, and that the reader only moves forward. -/
theorem fetchInstr_reads (site : Site) (s : State) : (fetchInstr site s).Leaves (ReadsOnly s) := runParser_reads _ s

/-- Every instruction a decoder can make has the property. -/
def makes (P : Instr → Prop) : Parser → Prop
  | .done i => P i
  | .reject _ => True
  | .read _ k => ∀ v, makes P (k v)

theorem makes_ofOption {P : Instr → Prop} {o : Option Instr} (h : ∀ i, o = some i → P i) : makes P (.ofOption o) := by
  cases o with
  | none => trivial
  | some i => exact h i rfl

theorem deltaInstr_site {z : Nat} {i : Instr} (h : deltaInstr z = some i) : i.site = some .lenCode := by
  unfold deltaInstr at h
  split at h <;> cases h <;> rfl

theorem matchInstr_site {slot : Nat} {hdr : BitVec 3} {i : Instr} (h : matchInstr slot hdr = some i) :
    i.site = some .mainSym := by
  unfold matchInstr at h
  split at h <;> cases h <;> rfl

theorem blockInstr_site (t : Nat) (len : Word24) : (blockInstr t len).site = some .blockHeader := by
  unfold blockInstr
  split <;> rfl

/-- The decoder of a place makes instructions of that place only. -/
theorem parserOf_makes (site : Site) : makes (·.site = some site) (parserOf site) := by
  cases site with
  | e8Header =>
    intro f
    show makes _ (if f = 0 then _ else _)
    split
    · rfl
    · intro hi lo; rfl
  | blockHeader => intro t hi lo; exact blockInstr_site _ _
  | lenCode =>
    intro z
    show makes _ (if z = 17 then _ else if z = 18 then _ else if z = 19 then _ else _)
    split
    · intro k; rfl
    · split
      · intro k; rfl
      · split
        · intro k z2
          show makes _ (if z2 ≤ 16 then _ else _)
          split
          · rfl
          · trivial
        · exact makes_ofOption fun i h => deltaInstr_site h
  | mainSym =>
    intro sym
    show makes _ (if sym < Config.literals then _ else _)
    split
    · rfl
    · exact makes_ofOption fun i h => matchInstr_site h
  | lenSym =>
    intro l
    show makes _ (if l < Config.lenSymbols then _ else _)
    split
    · rfl
    · trivial
  | alSym =>
    intro a
    show makes _ (if a < Config.alSymbols then _ else _)
    split
    · rfl
    · trivial
  | alignLen => intro a; rfl
  | preLen => intro a; rfl
  | uncPad => rfl
  | uncWords => intro a b c; rfl
  | payload => rfl
  | padByte => intro a; rfl

theorem runParser_makes {P : Instr → Prop} {p : Parser} (hp : makes P p) {s t : State} {i : Instr}
    (h : runParser p s = .ok i t) : P i := by
  induction p generalizing s with
  | done j => cases h; exact hp
  | reject e => cases h
  | read f k ih =>
    obtain ⟨v, u, -, hk⟩ := Res.bind_eq_ok h
    exact ih v (hp v) hk

/-- The instruction fetched at a place is one of that place. -/
theorem fetchInstr_site {site : Site} {s t : State} {i : Instr} (h : fetchInstr site s = .ok i t) :
    i.site = some site := runParser_makes (parserOf_makes site) h

/-! ## The next element -/

/-- What `EofAtBoundary` says when it has a value (spec/40_bitreader.md R148). -/
theorem eofLoop_ok {q fuel : Nat} {s t : State} {b : Bool} (hf : s.replies.length = fuel)
    (h : eofLoop q fuel s = .ok b t) : (b = true ↔ t.nreal ≤ q) ∧ (b = true → t.eof = true) := by
  induction fuel generalizing s with
  | zero =>
    unfold eofLoop at h
    split at h
    · obtain ⟨_, u, hu, hk⟩ := Res.bind_eq_ok h
      have := (pull_ok hu).2
      omega
    · rename_i hc
      cases h
      exact ⟨decide_eq_true_iff, fun hq => by
        have hq := of_decide_eq_true hq
        cases he : t.eof
        · exact absurd ⟨hq, he⟩ hc
        · rfl⟩
  | succ n ih =>
    unfold eofLoop at h
    split at h
    · obtain ⟨_, u, hu, hk⟩ := Res.bind_eq_ok h
      exact ih (by have := (pull_ok hu).2; omega) hk
    · rename_i hc
      cases h
      exact ⟨decide_eq_true_iff, fun hq => by
        have hq := of_decide_eq_true hq
        cases he : t.eof
        · exact absurd ⟨hq, he⟩ hc
        · rfl⟩

theorem boundaryByte_pulls {s t : State} (h : PullsOnly s t) : t.boundaryByte = s.boundaryByte := by
  have h1 := h.1
  rw [h1]
  rfl

/-- `EofAtBoundary` is true exactly where the input has ended before the next block boundary. -/
theorem eofAtBoundary_ok {s t : State} {b : Bool} (h : eofAtBoundary s = .ok b t) :
    PullsOnly s t ∧ (b = true ↔ t.nreal ≤ t.boundaryByte) ∧ (b = true → t.eof = true) := by
  have hp : PullsOnly s t := by
    have := eofAtBoundary_leaves s
    rw [h] at this
    exact this
  have := eofLoop_ok rfl h
  rw [boundaryByte_pulls hp]
  exact ⟨hp, this⟩

/-- With the end of input known, the test answers at once (spec/40_bitreader.md R148). -/
theorem eofAtBoundary_eof {s : State} (h : s.eof = true) :
    eofAtBoundary s = .ok (decide (s.nreal ≤ s.boundaryByte)) s := by
  unfold eofAtBoundary
  cases s.replies.length <;> simp [eofLoop, h]

/-- A block header is due: at a block boundary that is not the known end of the input, or before one whose search went
on to a pad byte (spec/42_frame_blocks.md R195, R196). -/
def State.headerDue (s : State) : Prop :=
  s.ctl = .blockLoop ∧ s.blockRemaining = 0 ∧ s.produced < Config.frameSize ∧
    ¬ (s.eof = true ∧ s.nreal ≤ s.boundaryByte) ∨ s.ctl = .blockHeader

/-- What the search answers, by the place in the command: the frame is complete, or an element comes next in the mode of
its place, a pad byte first where one is due (spec/42_frame_blocks.md R193–R203). -/
inductive Sought (s : State) : Action → State → Prop where
  | full (hc : s.ctl = .blockLoop) (hf : Config.frameSize ≤ s.produced) : Sought s .complete s
  | ended {t : State} (hc : s.ctl = .blockLoop) (hf : s.produced < Config.frameSize) (hb : s.blockRemaining = 0)
      (hp : PullsOnly s t) (he : t.eof = true) (hn : t.nreal ≤ t.boundaryByte) : Sought s .complete t
  | header (hc : s.ctl = .e8Header) (hm : s.mode = .bitstream) : Sought s (.element .e8Header) s
  | headerSwitch (hc : s.ctl = .e8Header) (hm : s.mode = .bytestream) (hq : s.pos % 2 = 0) :
      Sought s (.element .e8Header) s.enterBitMode
  | headerPad (hc : s.ctl = .e8Header) (hm : s.mode = .bytestream) (hq : s.pos % 2 = 1) :
      Sought s (.element .padByte) s
  | block {t : State} (hc : s.headerDue) (hp : PullsOnly s t) (hm : t.mode = .bitstream) : Sought s (.element .blockHeader) (t.goto .blockHeader)
  | blockSwitch {t : State} (hc : s.headerDue) (hp : PullsOnly s t) (hm : t.mode = .bytestream) (hq : t.pos % 2 = 0) :
      Sought s (.element .blockHeader) (t.goto .blockHeader).enterBitMode
  | blockPad {t : State} (hc : s.headerDue) (hp : PullsOnly s t) (hm : t.mode = .bytestream) (hq : t.pos % 2 = 1) :
      Sought s (.element .padByte) (t.goto .blockHeader)
  | payload (hc : s.ctl = .blockLoop) (hf : s.produced < Config.frameSize) (hb : s.blockRemaining ≠ 0)
      (ht : s.blockType = .uncompressed) : Sought s (.element .payload) s
  | mainSym (hc : s.ctl = .blockLoop) (hf : s.produced < Config.frameSize) (hb : s.blockRemaining ≠ 0)
      (ht : s.blockType ≠ .uncompressed) : Sought s (.element .mainSym) s
  | alignLen (hc : s.ctl = .alignLens) : Sought s (.element .alignLen) s
  | preLen (hc : s.ctl = .preLens) : Sought s (.element .preLen) s
  | lenCode (hc : s.ctl = .lenCodes) : Sought s (.element .lenCode) s
  | lenSym (hc : s.ctl = .lenSym) : Sought s (.element .lenSym) s
  | alSym (hc : s.ctl = .alSym) : Sought s (.element .alSym) s
  | uncPad (hc : s.ctl = .uncPad) : Sought s (.element .uncPad) s
  | uncWords (hc : s.ctl = .uncWords) : Sought s (.element .uncWords) s

theorem seek_ok {s t : State} {a : Action} (hi : s.ctl ≠ .idle) (h : seek s = .ok a t) : Sought s a t := by
  unfold seek at h
  cases hc : s.ctl <;> rw [hc] at h <;> simp only at h
  case idle => exact absurd hc hi
  case e8Header =>
    unfold bitSite at h
    cases hm : s.mode <;> rw [hm] at h <;> simp only at h
    · cases h; exact .header hc hm
    · split at h <;> cases h
      · exact .headerPad hc hm ‹_›
      · exact .headerSwitch hc hm (by omega)
  case blockHeader =>
    have hg : s.goto .blockHeader = s := by rw [State.goto, ← hc]
    unfold bitSite at h
    cases hm : s.mode <;> rw [hm] at h <;> simp only at h
    · cases h
      have := Sought.block (s := s) (.inr hc) (.refl s) hm
      rwa [hg] at this
    · split at h <;> cases h
      · have := Sought.blockPad (s := s) (.inr hc) (.refl s) hm ‹_›
        rwa [hg] at this
      · have := Sought.blockSwitch (s := s) (.inr hc) (.refl s) hm (by omega)
        rwa [hg] at this
  case blockLoop =>
    unfold loopHead at h
    split at h
    · cases h; exact .full hc ‹_›
    · rename_i hf
      have hf : s.produced < Config.frameSize := by omega
      split at h
      · rename_i hb
        obtain ⟨b, u, hu, hk⟩ := Res.bind_eq_ok h
        obtain ⟨hp, hb1, hb2⟩ := eofAtBoundary_ok hu
        cases b
        · simp only [Bool.false_eq_true, if_false] at hk
          unfold bitSite at hk
          have hcb : s.headerDue := .inl ⟨hc, hb, hf, fun he => by
            rw [eofAtBoundary_eof he.1, decide_eq_true he.2] at hu
            cases hu⟩
          cases hm : u.mode <;> simp only [State.goto_mode, hm] at hk
          · cases hk
            exact .block hcb hp hm
          · split at hk <;> cases hk
            · exact .blockPad hcb hp hm ‹_›
            · rename_i hq
              simp only [State.goto_pos] at hq
              exact .blockSwitch hcb hp hm (by omega)
        · cases hk
          exact .ended hc hf hb hp (hb2 rfl) (hb1.1 rfl)
      · rename_i hb
        split at h <;> cases h
        · exact .payload hc hf hb ‹_›
        · exact .mainSym hc hf hb ‹_›
  case alignLens => cases h; exact .alignLen hc
  case preLens => cases h; exact .preLen hc
  case lenCodes => cases h; exact .lenCode hc
  case lenSym => cases h; exact .lenSym hc
  case alSym => cases h; exact .alSym hc
  case uncPad => cases h; exact .uncPad hc
  case uncWords => cases h; exact .uncWords hc

/-! ## A step -/

/-- Everything a step can do (spec/42_frame_blocks.md R193): nothing between commands, a host command or the end of the decoder, an element after
its fields are read, the end of a frame, or an error raised while the next element is sought or read. -/
theorem step_cases {s t : State} (h : step s = .next t) :
    (s.ctl = .idle ∧ s.cmds = [] ∧ t = s) ∨
    (∃ c cs, s.ctl = .idle ∧ s.cmds = c :: cs ∧ c.run { s with cmds := cs } = .next t) ∨
    (∃ site u i v, s.ctl ≠ .idle ∧ Sought s (.element site) u ∧ fetchInstr site u = .ok i v ∧
      i.site = some site ∧ exec i v = .next t) ∨
    (∃ u, s.ctl ≠ .idle ∧ Sought s .complete u ∧ (completeFrame u).finish = .next t) ∨
    (∃ e u, s.ctl ≠ .idle ∧ ReaderOnly { s with ctl := u.ctl } u ∧ t = u.takeError e) := by
  have inCmd (hi : s.ctl ≠ .idle) (h : elementStep s = .next t) :
      (∃ site u i v, s.ctl ≠ .idle ∧ Sought s (.element site) u ∧ fetchInstr site u = .ok i v ∧
        i.site = some site ∧ exec i v = .next t) ∨
      (∃ u, s.ctl ≠ .idle ∧ Sought s .complete u ∧ (completeFrame u).finish = .next t) ∨
      (∃ e u, s.ctl ≠ .idle ∧ ReaderOnly { s with ctl := u.ctl } u ∧ t = u.takeError e) := by
    unfold elementStep nextInstr at h
    have hl := seek_leaves s
    cases hs : seek s with
    | stop f => rw [hs] at h; cases h
    | raise e u =>
      rw [hs] at h hl
      cases h
      exact .inr (.inr ⟨e, u, hi, hl, rfl⟩)
    | ok a u =>
      rw [hs] at h hl
      cases a with
      | complete => exact .inr (.inl ⟨u, hi, seek_ok hi hs, h⟩)
      | element site =>
        simp only [Res.bind_ok] at h
        have hr := fetchInstr_leaves site u
        cases hf : fetchInstr site u with
        | stop f => rw [hf] at h; cases h
        | raise e v =>
          rw [hf] at h hr
          cases h
          refine .inr (.inr ⟨e, v, hi, ?_, rfl⟩)
          have hr' : ReaderOnly u v := hr
          have hl' : ReaderOnly { s with ctl := u.ctl } u := hl
          have hv : v.ctl = u.ctl := by rw [hr']
          rw [hv]
          exact hl'.trans hr'
        | ok i v =>
          rw [hf] at h
          exact .inl ⟨site, u, i, v, hi, seek_ok hi hs, hf, fetchInstr_site hf, h⟩
  by_cases hi : s.ctl = .idle
  · have h : commandStep s = .next t := by simpa only [step, hi] using h
    unfold commandStep at h
    split at h
    · cases h; exact .inl ⟨hi, ‹_›, rfl⟩
    · rename_i c cs hcs
      exact .inr (.inl ⟨c, cs, hi, hcs, h⟩)
  · refine .inr (.inr (inCmd hi ?_))
    unfold step at h
    split at h
    · exact absurd ‹_› hi
    · exact h

end Sys2Proof.Machine
end

