-- ==== Sys2Proof/Laws/Match.lean ====
section
/-! SUPPORT. Matches and payload runs: everything each of their elements can do when it answers a next state without an
error (spec/43_symbols_matches.md R232–R248), and the offsets of the position slots (R249). -/

namespace Sys2Proof.Machine

/-- A finished meaning whose next state has not failed had a value. -/
theorem Res.finish_ready {r : Res Unit} {t : State} (h : r.finish = .next t) (hs : t.status = .ready) : r = .ok () t := by
  rcases Res.finish_eq_next h with h | ⟨e, u, -, rfl⟩
  · exact h
  · cases hs

/-- The checks of a match that found nothing wrong (spec/43_symbols_matches.md R244). -/
theorem matchError_none {offset length : Nat} {s : State} (h : matchError offset length s = none) :
    offset < s.winSize ∧ 0 < offset ∧ offset ≤ s.totalWritten ∧ s.windowPos + length ≤ s.winSize ∧
      length ≤ s.blockRemaining.toNat ∧ s.produced + length ≤ Config.frameSize := by
  unfold matchError at h
  repeat (split at h; · cases h)
  omega

/-- What an element of a match leaves when it raises nothing: the length symbol comes next, the aligned symbol comes
next, or the match is copied. -/
inductive Matched (s : State) : State → Prop where
  | length (p : Pending) : Matched s { s with pend := p, ctl := .lenSym }
  | aligned {u : State} (p : Pending) (hr : ReadsOnly s u) (hb : s.blockType = .aligned) :
      Matched s { u with pend := p, ctl := .alSym }
  | copied {u : State} (offset length : Nat) (a b c : Word32) (w : Memory) (hr : ReadsOnly s u)
      (hc : matchError offset length u = none)
      (hk : ∀ P : State → Prop, (∀ v x, P x → x.windowPos < x.winSize → P (x.put v)) →
        P { u with r0 := a, r1 := b, r2 := c } →
        P { u with r0 := a, r1 := b, r2 := c, window := w, windowPos := u.windowPos + length,
                   totalWritten := u.totalWritten + length }) :
      Matched s { u with
        r0 := a, r1 := b, r2 := c, window := w
        windowPos := u.windowPos + length
        totalWritten := u.totalWritten + length
        blockRemaining := u.blockRemaining - BitVec.ofNat 24 length
        produced := u.produced + length
        ctl := .blockLoop }

theorem finishMatch_ok {offset length : Nat} {s u t : State} {a b c : Word32} (hr : ReadsOnly s u)
    (h : finishMatch offset length { u with r0 := a, r1 := b, r2 := c } = .ok () t) : Matched s t := by
  unfold finishMatch at h
  split at h
  · cases h
  · rename_i hc
    obtain ⟨_, v, hv, hk⟩ := Res.bind_eq_ok h
    cases hk
    obtain ⟨hw, h1, h2, -⟩ := copyMatch_eq_ok hv
    have hv' : v = { u with r0 := a, r1 := b, r2 := c, window := v.window, windowPos := u.windowPos + length,
                            totalWritten := u.totalWritten + length } := by
      unfold WindowOnly at hw
      rw [hw, h1, h2]
    have hkeep : ∀ P : State → Prop, (∀ v x, P x → x.windowPos < x.winSize → P (x.put v)) →
        P { u with r0 := a, r1 := b, r2 := c } → P v := by
      intro P hP hu
      have := copyMatch_keeps hP offset length hu
      rw [hv] at this
      exact this
    have := Matched.copied (s := s) offset length a b c v.window hr hc fun P hP hu => hv' ▸ hkeep P hP hu
    rw [hv']
    exact this

theorem matchOffset_ok {slot length : Nat} {s t : State} (h : matchOffset slot length s = .ok () t) : Matched s t := by
  unfold matchOffset at h
  split at h
  · exact finishMatch_ok (u := s) (a := s.r0) (b := s.r1) (c := s.r2) (.refl s) h
  · exact finishMatch_ok (u := s) (a := s.r1) (b := s.r0) (c := s.r2) (.refl s) h
  · exact finishMatch_ok (u := s) (a := s.r2) (b := s.r1) (c := s.r0) (.refl s) h
  · obtain ⟨v, u, hu, hk⟩ := Res.bind_eq_ok h
    have hr : ReadsOnly s u := by
      have := readBits_reads (offsetFields s.blockType slot).1 s
      rw [hu] at this
      exact this
    split at hk
    · rename_i ha
      cases hk
      refine .aligned _ hr ?_
      unfold offsetFields at ha
      split at ha
      · rename_i hx
        have e : u.blockType = s.blockType := by rw [hr.1]
        exact e ▸ hx.1
      · cases ha
    · exact finishMatch_ok (u := u) hr hk

theorem startMatch_ok {slot : Nat} {hdr : BitVec 3} {s t : State} (h : startMatch slot hdr s = .ok () t) :
    Matched s t := by
  unfold startMatch at h
  split at h
  · cases h; exact .length _
  · exact matchOffset_ok h

theorem alsym_ok {slot extra length : Nat} {s t : State} (h : explicitMatch slot extra length s = .ok () t) :
    Matched s t := finishMatch_ok (u := s) (.refl s) h

/-- What a payload run leaves when it raises nothing (spec/43_symbols_matches.md R248). -/
theorem payload_ok {n : Nat} {s t : State} (h : payloadBytes n s = .ok () t) :
    ∃ u w, ReaderOnly s u ∧
      t = { u with window := w, windowPos := s.windowPos + n, totalWritten := s.totalWritten + n } ∧
      ∀ P : State → Prop, (∀ x y, P x → ReaderOnly x y → P y) →
        (∀ v x, P x → x.windowPos < x.winSize → P (x.put v)) → P s → P t := by
  obtain ⟨⟨u, hu, hw⟩, h1, h2, -⟩ := payloadBytes_eq_ok h
  refine ⟨u, t.window, hu, ?_, fun P hR hP hs => ?_⟩
  · unfold WindowOnly at hw
    rw [hw, h1, h2]
  · have := payloadBytes_keeps hR hP n hs
    rw [h] at this
    exact this

/-! ## Slots -/

/-- `position_base` grows by a slot's number of offsets (spec/30_encoding.md R102). -/
theorem positionBase_succ (s : Nat) : positionBase (s + 1) = positionBase s + 2 ^ extraBits s := rfl

/-- An explicit slot's offsets are at least 1 (spec/43_symbols_matches.md R249). -/
theorem positionBase_three_le {s : Nat} (h : 3 ≤ s) : 3 ≤ positionBase s := by
  induction s with
  | zero => omega
  | succ n ih =>
    rw [positionBase_succ]
    rcases Nat.lt_or_ge n 3 with hn | hn
    · obtain rfl : n = 2 := by omega
      decide
    · exact Nat.le_trans (ih hn) (Nat.le_add_right _ _)

end Sys2Proof.Machine
end

