-- ==== Sys2Proof/Laws/Keeps.lean ====
section
/-! SUPPORT. A property of states that a few elementary updates keep is kept by every step: said once, so that an
invariant that needs no more is a handful of one-line facts. -/

namespace Sys2Proof.Machine

/-- `t` differs from `s` at most in the fields that carry no table, length, memory, input or configuration. -/
def PlainOnly (s t : State) : Prop :=
  t = { s with
    mode := t.mode, pos := t.pos, replies := t.replies, status := t.status, refused := t.refused, result := t.result
    r0 := t.r0, r1 := t.r1, r2 := t.r2
    blockType := t.blockType, blockLength := t.blockLength, blockRemaining := t.blockRemaining
    e8Magic := t.e8Magic, headerRead := t.headerRead
    ctl := t.ctl, produced := t.produced, lenList := t.lenList, lenPos := t.lenPos, fieldIdx := t.fieldIdx
    pend := t.pend }

/-- The elementary updates of an element keep `P`. -/
structure Kept (P : State → Prop) : Prop where
  plain : ∀ {s t}, P s → PlainOnly s t → P t
  feed : ∀ {s} bs, P s → s.eof = false → P (s.feed bs)
  put : ∀ {s} v, P s → s.windowPos < s.winSize → P (s.put v)
  table : ∀ {s} t tab, P s → buildTable (s.lengths t) (t == .len) = .ok tab → P (s.setTable t tab)
  run : ∀ {s} x n v, P s → P (s.setListLens (setRun s.listLens x n v))
  al : ∀ {s} k a, P s → P { s with lAl := s.lAl.set k a }
  pre : ∀ {s} k p, P s → P { s with lPre := s.lPre.set k p }

variable {P : State → Prop}

/-- A result followed by an update of the state that keeps `P`. -/
theorem Res.leaves_then {r : Res Unit} {f : State → State} (hr : r.Leaves P) (hf : ∀ u, P u → P (f u)) :
    (r.bind fun _ u => .ok () (f u)).Leaves P := Res.leaves_bind hr fun _ u _ hu => hf u hu

/-! ## The reader -/

theorem Kept.pull (k : Kept P) {s : State} (h : P s) : (pull s).Leaves P := by
  unfold Machine.pull
  split
  · exact h
  · rename_i he
    have he : s.eof = false := by simpa using he
    cases s.replies with
    | nil => trivial
    | cons r rs =>
      have answer : ∀ u : State, P u → u.eof = false → (takeAnswer r.answer u).Leaves P := by
        intro u hu hue
        unfold takeAnswer
        cases r.answer with
        | error e => exact hu
        | data bytes =>
          simp only
          split
          · exact hu
          · exact k.feed bytes hu hue
      simp only [takeReply]
      split
      · exact answer _ (k.plain h rfl) he
      · exact answer _ (k.plain h rfl) he

theorem Kept.fetchLoop (k : Kept P) (i fuel : Nat) {s : State} (h : P s) : (fetchLoop i fuel s).Leaves P := by
  induction fuel generalizing s with
  | zero =>
    unfold Machine.fetchLoop
    split
    · exact h
    · exact k.pull h
  | succ n ih =>
    unfold Machine.fetchLoop
    split
    · exact h
    · exact Res.leaves_bind (k.pull h) fun _ t _ ht => ih ht

theorem Kept.need (k : Kept P) (n : Nat) {s : State} (h : P s) : (need n s).Leaves P := by
  unfold Machine.need
  split
  · exact h
  · exact k.fetchLoop _ _ h

theorem Kept.eofAtBoundary (k : Kept P) {s : State} (h : P s) : (eofAtBoundary s).Leaves P := by
  have loop : ∀ (q fuel : Nat) (s : State), P s → (eofLoop q fuel s).Leaves P := by
    intro q fuel
    induction fuel with
    | zero =>
      intro s h
      unfold eofLoop
      split
      · exact Res.leaves_bind (k.pull h) fun _ t _ ht => ht
      · exact h
    | succ n ih =>
      intro s h
      unfold eofLoop
      split
      · exact Res.leaves_bind (k.pull h) fun _ t _ ht => ih t ht
      · exact h
  exact loop _ _ s h

theorem Kept.readBits (k : Kept P) (n : Nat) {s : State} (h : P s) : (readBits n s).Leaves P := by
  unfold Machine.readBits
  split
  · exact h
  · exact Res.leaves_bind (k.need n h) fun _ t _ ht => k.plain ht rfl

theorem Kept.readByte (k : Kept P) {s : State} (h : P s) : (readByte s).Leaves P := by
  unfold Machine.readByte
  split
  · exact h
  · exact Res.leaves_bind (k.fetchLoop _ _ h) fun _ t _ ht => k.plain ht rfl

theorem Kept.readSym (k : Kept P) (tr : Tree) {s : State} (h : P s) : (readSym tr s).Leaves P := by
  unfold Machine.readSym
  split
  · exact h
  · split
    · exact h
    · refine Res.leaves_bind (k.need 16 h) fun _ t _ ht => ?_
      split
      · exact k.plain ht rfl
      · exact ht

theorem Kept.fetchInstr (k : Kept P) (site : Site) {s : State} (h : P s) : (fetchInstr site s).Leaves P := by
  have field : ∀ (f : Field) (s : State), P s → (readFieldAt f s).Leaves P := by
    intro f s h
    cases f with
    | bits n => exact k.readBits n h
    | sym t => exact k.readSym t h
    | byte => exact Res.leaves_bind (k.readByte h) fun _ _ _ ht => ht
    | word32 =>
      exact Res.leaves_bind (k.readByte h) fun _ _ _ h => Res.leaves_bind (k.readByte h) fun _ _ _ h =>
        Res.leaves_bind (k.readByte h) fun _ _ _ h => Res.leaves_bind (k.readByte h) fun _ _ _ h => h
  have parser : ∀ (p : Parser) (s : State), P s → (runParser p s).Leaves P := by
    intro p
    induction p with
    | done i => exact fun s h => h
    | reject e => exact fun s h => h
    | read f kk ih => exact fun s h => Res.leaves_bind (field f s h) fun v t _ ht => ih v t ht
  exact parser _ s h

theorem Kept.toByteMode (k : Kept P) {s : State} (h : P s) : (toByteMode s).Leaves P := by
  unfold Machine.toByteMode
  split
  · exact h
  · refine Res.leaves_bind (k.need _ h) fun _ t _ ht => ?_
    split
    · exact k.plain ht rfl
    · exact ht

theorem Kept.toBitMode (k : Kept P) {s : State} (h : P s) : (toBitMode s).Leaves P := by
  unfold Machine.toBitMode
  split
  · exact h
  · split
    · exact Res.leaves_bind (k.fetchLoop _ _ h) fun _ t _ ht => k.plain ht rfl
    · exact k.plain h rfl

theorem Kept.seek (k : Kept P) {s : State} (h : P s) : (seek s).Leaves P := by
  have bit : ∀ (site : Site) (s : State), P s → (bitSite site s).Leaves P := by
    intro site s h
    unfold bitSite
    split
    · exact h
    · split
      · exact h
      · exact k.plain h rfl
  unfold Machine.seek
  split
  case h_2 => exact bit _ _ h
  case h_4 => exact bit _ _ h
  case h_3 =>
    unfold loopHead
    split
    · exact h
    · split
      · refine Res.leaves_bind (k.eofAtBoundary h) fun b t _ ht => ?_
        split
        · exact ht
        · exact bit _ _ (k.plain ht rfl)
      · split <;> exact h
  all_goals exact h

/-! ## Meanings -/

theorem Kept.rebuild (k : Kept P) (tr : Tree) {s : State} (h : P s) : (rebuild tr s).Leaves P := by
  rcases rebuild_cases tr s with ⟨tab, hb, he⟩ | he
  · rw [he]; exact k.table tr tab h hb
  · rw [he]; exact h

theorem Kept.writeRun (k : Kept P) (n : Nat) (v : Len) {s : State} (h : P s) : (writeRun n v s).Leaves P := by
  have h1 : P { s.setListLens (setRun s.listLens s.lenPos n v) with lenPos := s.lenPos + n } :=
    k.plain (k.run s.lenPos n v h) rfl
  unfold Machine.writeRun
  simp only
  split
  · exact h1
  · unfold finishList
    split
    · exact k.plain h1 rfl
    · exact Res.leaves_bind (k.rebuild .main h1) fun _ t _ ht => k.plain ht rfl
    · exact Res.leaves_bind (k.rebuild .len h1) fun _ t _ ht => k.plain ht rfl

theorem Kept.checkedRun (k : Kept P) (n : Nat) (v : Len) {s : State} (h : P s) : (checkedRun n v s).Leaves P := by
  unfold Machine.checkedRun
  split
  · exact h
  · exact k.writeRun n v h

theorem Kept.putByte (k : Kept P) (v : Byte) {s : State} (h : P s) : (putByte v s).Leaves P := by
  unfold Machine.putByte
  split
  · exact k.put v h ‹_›
  · trivial

theorem Kept.finishMatch (k : Kept P) (offset length : Nat) {s : State} (h : P s) :
    (finishMatch offset length s).Leaves P := by
  unfold Machine.finishMatch
  split
  · exact h
  · exact Res.leaves_bind (copyMatch_keeps (fun v x hx hl => k.put v hx hl) offset length h) fun _ t _ ht =>
      k.plain ht rfl

theorem Kept.matchOffset (k : Kept P) (slot length : Nat) {s : State} (h : P s) : (matchOffset slot length s).Leaves P := by
  unfold Machine.matchOffset
  split
  · exact k.finishMatch _ _ h
  · exact k.finishMatch _ _ (k.plain h rfl)
  · exact k.finishMatch _ _ (k.plain h rfl)
  · refine Res.leaves_bind (k.readBits _ h) fun v t _ ht => ?_
    split
    · exact k.plain ht rfl
    · exact k.finishMatch _ _ (k.plain ht rfl)

theorem Kept.payloadBytes (k : Kept P) (n : Nat) {s : State} (h : P s) : (payloadBytes n s).Leaves P := by
  induction n generalizing s with
  | zero => exact h
  | succ n ih =>
    exact Res.leaves_bind (k.readByte h) fun b t _ ht => Res.leaves_bind (k.putByte b ht) fun _ u _ hu => ih hu

/-- What a result that leaves `P` is finished to has `P`. -/
theorem Kept.finish (k : Kept P) {r : Res Unit} (hr : r.Leaves P) {t : State} (h : r.finish = .next t) : P t := by
  rcases Res.finish_eq_next h with hv | ⟨e, u, hv, rfl⟩
  · rw [hv] at hr; exact hr
  · rw [hv] at hr; exact k.plain hr rfl

/-- Every element keeps `P`. -/
theorem Kept.element (k : Kept P) (i : Instr) {s t : State} (hi : i.site ≠ none) (h : P s) (hx : exec i s = .next t) :
    P t := by
  have shapes := exec_shapes (P := fun site f => ∀ s t, site ≠ none → P s → f s = .next t → P t)
    (fun _ _ _ _ h => absurd rfl h) (fun _ _ _ h => absurd rfl h)
    (fun m s t _ h hx => k.finish (show (e8Header m s).Leaves P from k.plain h rfl) hx)
    (fun len s t _ h hx => k.finish (show (unknownBlock len s).Leaves P from k.plain h rfl) hx)
    (fun len s t _ h hx => by cases hx; exact k.plain h rfl)
    (fun len s t _ h hx => by cases hx; exact k.plain h rfl)
    (fun len s t _ h hx => by cases hx; exact k.plain h rfl)
    (fun a s t _ h hx => by
      refine k.finish (r := alignLength a s) ?_ hx
      have h1 : P { s with lAl := s.lAl.set s.fieldIdx a, fieldIdx := s.fieldIdx + 1 } := k.plain (k.al _ a h) rfl
      unfold alignLength
      simp only
      split
      · exact h1
      · exact Res.leaves_bind (k.rebuild .al h1) fun _ t _ ht => k.plain ht rfl)
    (fun a s t _ h hx => by
      refine k.finish (r := preLength a s) ?_ hx
      have h1 : P { s with lPre := s.lPre.set s.fieldIdx a, fieldIdx := s.fieldIdx + 1 } := k.plain (k.pre _ a h) rfl
      unfold preLength
      simp only
      split
      · exact h1
      · exact Res.leaves_bind (k.rebuild .pre h1) fun _ t _ ht => k.plain ht rfl)
    (fun z s t _ h hx => k.finish (k.writeRun _ _ h) hx)
    (fun n s t _ h hx => k.finish (k.checkedRun _ _ h) hx)
    (fun kk z2 s t _ h hx => by
      unfold execSrun at hx
      split at hx
      · cases hx; exact k.plain h rfl
      · exact k.finish (k.checkedRun _ _ h) hx)
    (fun b s t _ h hx => k.finish (Res.leaves_then (f := fun u => (u.consume 1).goto .blockLoop) (k.putByte b h)
      fun u hu => k.plain hu rfl) hx)
    (fun slot hdr s t _ h hx => by
      refine k.finish (r := startMatch slot hdr s) ?_ hx
      unfold startMatch
      split
      · exact k.plain h rfl
      · exact k.matchOffset _ _ h)
    (fun l s t _ h hx => k.finish (k.matchOffset _ _ h) hx)
    (fun a s t _ h hx => k.finish (r := explicitMatch _ _ _ s) (k.finishMatch _ _ (k.plain h rfl)) hx)
    (fun s t _ h hx => k.finish (Res.leaves_then (f := fun u => u.goto .uncWords) (k.toByteMode h)
      fun u hu => k.plain hu rfl) hx)
    (fun w0 w1 w2 s t _ h hx => by cases hx; exact k.plain h rfl)
    (fun s t _ h hx => k.finish (Res.leaves_then (f := fun u => (u.consume s.payloadRun).goto .blockLoop)
      (k.payloadBytes _ h) fun u hu => k.plain hu rfl) hx)
    (fun x s t _ h hx => k.finish (k.toBitMode h) hx)
  exact shapes i s t hi h hx

/-! ## The end of a frame and a whole step -/

/-- `Realign` moves the position only. -/
theorem State.realign_only (s : State) : s.realign = { s with pos := s.realign.pos } := by
  unfold State.realign
  split
  · split <;> rfl
  · rfl

/-- Where a frame completes, the output buffer is written and the frame ends (spec/42_frame_blocks.md R204–R208). -/
theorem completeFrame_ok {s t : State} (h : completeFrame s = .ok () t) :
    ∃ m, t = ({ s with out := m } : State).realign.endFrame s.produced ∧ (s.out.wf → m.wf) ∧
      ((∀ c ∈ s.out, c.1 < Config.frameSize) → ∀ c ∈ m, c.1 < Config.frameSize) := by
  obtain ⟨bytes, u, hu, hk⟩ := Res.bind_eq_ok h
  have e : u = s := by
    have := readWindow_leaves s.framePos s.produced s
    rw [hu] at this
    exact this
  subst e
  obtain ⟨_, v, hv, hk⟩ := Res.bind_eq_ok hk
  cases hk
  have := outWrite_leaves 0 (u.e8Pass bytes) u
  rw [hv] at this
  obtain ⟨h1, h2, h3⟩ := this
  refine ⟨v.out, ?_, h2, h3⟩
  rw [← h1]
  congr 1
  rw [h1]

/-- Where a frame completion raises an error, nothing has been written. -/
theorem completeFrame_raise {s t : State} {e : ErrKind} (h : completeFrame s = .raise e t) : t = s := by
  rcases Res.bind_eq_raise h with h | ⟨bytes, u, hu, hk⟩
  · have := readWindow_leaves s.framePos s.produced s
    rw [h] at this
    exact this
  · exfalso
    rcases Res.bind_eq_raise hk with hk | ⟨_, v, -, hk⟩
    · have none_raises : ∀ (bytes : List Byte) (i : Nat) (s t : State), outWrite i bytes s ≠ .raise e t := by
        intro bytes
        induction bytes with
        | nil => exact fun i s t => nofun
        | cons v bytes ih =>
          intro i s t
          unfold outWrite
          split
          · exact ih _ _ _
          · exact nofun
      exact none_raises _ _ _ _ hk
    · cases hk

/-- A property kept by an element's updates, by construction and destruction, by the periodic reset and by a frame completion is kept by
every step. -/
theorem Kept.step (k : Kept P) (hcmd : ∀ {s} cs, P s → P { s with cmds := cs })
    (hcon : ∀ {s} wb ri, P s → 15 ≤ wb → wb ≤ 21 → P (s.constructed wb ri))
    (halive : ∀ {s}, P s → P { s.refuse with alive := false })
    (hgone : ∀ {s}, P s → P s.destroyed)
    (hreset : ∀ {s}, P s → P s.periodicReset)
    (hend : ∀ {s m}, P s → (s.out.wf → m.wf) →
      ((∀ c ∈ s.out, c.1 < Config.frameSize) → ∀ c ∈ m, c.1 < Config.frameSize) →
      P (({ s with out := m } : State).endFrame s.produced))
    {s t : State} (h : P s) (hs : step s = .next t) : P t := by
  by_cases hc : s.ctl = .idle
  · have hs : commandStep s = .next t := by simpa only [Machine.step, hc] using hs
    unfold commandStep at hs
    split at hs
    · cases hs; exact h
    · rename_i c cs hcs
      have hk := hcmd cs h
      cases c with
      | construct wb ri =>
        have hx : execConstruct wb ri { s with cmds := cs } = .next t := hs
        unfold execConstruct at hx
        split at hx
        · cases hx; exact k.plain hk rfl
        · split at hx
          · cases hx; exact halive hk
          · cases hx; exact hcon wb ri hk (by omega) (by omega)
      | decodeFrame n =>
        have hx : execDecodeFrame n { s with cmds := cs } = .next t := hs
        unfold execDecodeFrame at hx
        split at hx
        · refine k.finish (Res.leaves_then (P := P) (f := State.afterReset) ?_ fun u hu => k.plain hu rfl) hx
          have h0 : P { s with cmds := cs, produced := 0 } := k.plain hk rfl
          unfold resetStep
          split
          · split
            · exact h0
            · exact hreset h0
          · exact h0
        · cases hx; exact k.plain hk rfl
      | destroy =>
        cases hs
        unfold State.destroy
        split
        · exact hgone hk
        · exact k.plain hk rfl
  · have he : elementStep s = .next t := by
      unfold Machine.step at hs
      split at hs
      · exact absurd ‹_› hc
      · exact hs
    unfold elementStep nextInstr at he
    have hl := k.seek h
    cases hsk : Machine.seek s with
    | stop f => rw [hsk] at he; cases he
    | raise e u => rw [hsk] at he hl; cases he; exact k.plain hl rfl
    | ok a u =>
      rw [hsk] at he hl
      cases a with
      | complete =>
        have he : (completeFrame u).finish = .next t := he
        rcases Res.finish_eq_next he with hv | ⟨e, w, hv, rfl⟩
        · obtain ⟨m, rfl, h1, h2⟩ := completeFrame_ok hv
          rw [State.realign_only]
          exact hend (s := { u with pos := ({ u with out := m } : State).realign.pos }) (k.plain hl rfl) h1 h2
        · rw [completeFrame_raise hv]; exact k.plain hl rfl
      | element site =>
        simp only [Res.bind_ok] at he
        have hr := k.fetchInstr site hl
        cases hf : Machine.fetchInstr site u with
        | stop f => rw [hf] at he; cases he
        | raise e w => rw [hf] at he hr; cases he; exact k.plain hr rfl
        | ok j w =>
          rw [hf] at he hr
          exact k.element j (by rw [fetchInstr_site hf]; exact nofun) hr he

end Sys2Proof.Machine
end

