-- ==== Sys2Proof/Laws/PerInstr.lean ====
section
/-! SUPPORT. Facts about every instruction as syntax, one lemma per constructor. `RoundTrip`: the fields an instruction is
encoded as (spec/30_encoding.md R92–R104), handed to the decoder of its place, give the instruction back. -/

namespace Sys2Proof.Laws.RoundTrip

/-- The decoder of the instruction's place reads it back from its fields. -/
def Statement (i : Instr) : Prop :=
  ∀ site, i.site = some site → i.wellFormed = true →
    (parserOf site).runFields ((encode i).map Prod.snd) = some i

theorem join32 (m : Word32) : BitVec.ofNat 32 (2 ^ 16 * (m.toNat / 2 ^ 16) + m.toNat % 2 ^ 16) = m := by
  rw [Nat.div_add_mod, BitVec.ofNat_toNat, BitVec.setWidth_eq]

theorem join24 (m : Word24) : BitVec.ofNat 24 (2 ^ 8 * (m.toNat / 2 ^ 8) + m.toNat % 2 ^ 8) = m := by
  rw [Nat.div_add_mod, BitVec.ofNat_toNat, BitVec.setWidth_eq]

theorem ofNat_self {n : Nat} (v : BitVec n) : BitVec.ofNat n v.toNat = v := by
  rw [BitVec.ofNat_toNat, BitVec.setWidth_eq]

/-- A block header of any type code. -/
theorem block (t : Nat) (len : Word24) :
    (parserOf .blockHeader).runFields ((blockFields t len).map Prod.snd) = some (blockInstr t len) := by
  show some (blockInstr t (BitVec.ofNat 24 (2 ^ 8 * (len.toNat / 2 ^ 8) + len.toNat % 2 ^ 8))) = _
  rw [join24]

/-- A match of any slot: the decoder splits its symbol into the slot and the length header. -/
theorem mainMatch (slot : Nat) (hdr : BitVec 3) {i : Instr} (h : matchInstr slot hdr = some i) :
    (parserOf .mainSym).runFields [matchSym slot hdr] = some i := by
  have hb : hdr.toNat < 8 := hdr.isLt
  have h1 : ¬ matchSym slot hdr < Config.literals := by simp only [matchSym]; omega
  have h2 : (matchSym slot hdr - Config.literals) / 8 = slot := by simp only [matchSym]; omega
  have h3 : BitVec.ofNat 3 (matchSym slot hdr - Config.literals) = hdr := by
    apply BitVec.eq_of_toNat_eq
    simp only [BitVec.toNat_ofNat, matchSym]
    omega
  show ((if matchSym slot hdr < Config.literals then Parser.done (.lit (BitVec.ofNat 8 (matchSym slot hdr)))
    else .ofOption (matchInstr ((matchSym slot hdr - Config.literals) / 8)
      (BitVec.ofNat 3 (matchSym slot hdr - Config.literals)))).runFields []) = some i
  rw [if_neg h1, h2, h3, h]
  rfl

theorem construct (wb ri : Nat) : Statement (.construct wb ri) := fun _ h => nomatch h

theorem decodeFrame (n : Nat) : Statement (.decodeFrame n) := fun _ h => nomatch h

theorem e8hdrOff : Statement (.e8hdrOff) := by
  rintro _ ⟨⟩ -
  rfl

theorem e8hdrOn (m : Word32) : Statement (.e8hdrOn m) := by
  rintro _ ⟨⟩ -
  exact congrArg (fun v => some (Instr.e8hdrOn v)) (join32 m)

theorem blockType0 (len : Word24) : Statement (.blockType0 len) := by
  rintro _ ⟨⟩ -
  exact block 0 len

theorem blockVerbatim (len : Word24) : Statement (.blockVerbatim len) := by
  rintro _ ⟨⟩ -
  exact block 1 len

theorem blockAligned (len : Word24) : Statement (.blockAligned len) := by
  rintro _ ⟨⟩ -
  exact block 2 len

theorem blockUncompressed (len : Word24) : Statement (.blockUncompressed len) := by
  rintro _ ⟨⟩ -
  exact block 3 len

theorem blockType4 (len : Word24) : Statement (.blockType4 len) := by
  rintro _ ⟨⟩ -
  exact block 4 len

theorem blockType5 (len : Word24) : Statement (.blockType5 len) := by
  rintro _ ⟨⟩ -
  exact block 5 len

theorem blockType6 (len : Word24) : Statement (.blockType6 len) := by
  rintro _ ⟨⟩ -
  exact block 6 len

theorem blockType7 (len : Word24) : Statement (.blockType7 len) := by
  rintro _ ⟨⟩ -
  exact block 7 len

theorem alignlen (a : BitVec 3) : Statement (.alignlen a) := by
  rintro _ ⟨⟩ -
  exact congrArg (fun v => some (Instr.alignlen v)) (ofNat_self a)

theorem prelen (p : BitVec 4) : Statement (.prelen p) := by
  rintro _ ⟨⟩ -
  exact congrArg (fun v => some (Instr.prelen v)) (ofNat_self p)

theorem delta0 : Statement (.delta0) := by
  rintro _ ⟨⟩ -
  rfl

theorem delta1 : Statement (.delta1) := by
  rintro _ ⟨⟩ -
  rfl

theorem delta2 : Statement (.delta2) := by
  rintro _ ⟨⟩ -
  rfl

theorem delta3 : Statement (.delta3) := by
  rintro _ ⟨⟩ -
  rfl

theorem delta4 : Statement (.delta4) := by
  rintro _ ⟨⟩ -
  rfl

theorem delta5 : Statement (.delta5) := by
  rintro _ ⟨⟩ -
  rfl

theorem delta6 : Statement (.delta6) := by
  rintro _ ⟨⟩ -
  rfl

theorem delta7 : Statement (.delta7) := by
  rintro _ ⟨⟩ -
  rfl

theorem delta8 : Statement (.delta8) := by
  rintro _ ⟨⟩ -
  rfl

theorem delta9 : Statement (.delta9) := by
  rintro _ ⟨⟩ -
  rfl

theorem delta10 : Statement (.delta10) := by
  rintro _ ⟨⟩ -
  rfl

theorem delta11 : Statement (.delta11) := by
  rintro _ ⟨⟩ -
  rfl

theorem delta12 : Statement (.delta12) := by
  rintro _ ⟨⟩ -
  rfl

theorem delta13 : Statement (.delta13) := by
  rintro _ ⟨⟩ -
  rfl

theorem delta14 : Statement (.delta14) := by
  rintro _ ⟨⟩ -
  rfl

theorem delta15 : Statement (.delta15) := by
  rintro _ ⟨⟩ -
  rfl

theorem delta16 : Statement (.delta16) := by
  rintro _ ⟨⟩ -
  rfl

theorem zrun4 (k : BitVec 4) : Statement (.zrun4 k) := by
  rintro _ ⟨⟩ -
  exact congrArg (fun v => some (Instr.zrun4 v)) (ofNat_self k)

theorem zrun20 (k : BitVec 5) : Statement (.zrun20 k) := by
  rintro _ ⟨⟩ -
  exact congrArg (fun v => some (Instr.zrun20 v)) (ofNat_self k)

theorem srun (k : BitVec 1) (z2 : Nat) : Statement (.srun k z2) := by
  rintro _ ⟨⟩ h
  have h : z2 ≤ 16 := by simpa [Instr.wellFormed] using h
  show ((if z2 ≤ 16 then Parser.done (.srun (BitVec.ofNat 1 k.toNat) z2) else .reject .badLengthCode).runFields []) = _
  rw [if_pos h, ofNat_self]
  rfl

theorem lit (b : Byte) : Statement (.lit b) := by
  rintro _ ⟨⟩ -
  have h : b.toNat < Config.literals := b.isLt
  show ((if b.toNat < Config.literals then Parser.done (.lit (BitVec.ofNat 8 b.toNat))
    else .ofOption (matchInstr ((b.toNat - Config.literals) / 8) (BitVec.ofNat 3 (b.toNat - Config.literals)))).runFields []) = _
  rw [if_pos h, ofNat_self]
  rfl

theorem matchS0 (hdr : BitVec 3) : Statement (.matchS0 hdr) := by
  rintro _ ⟨⟩ -
  exact mainMatch 0 hdr rfl

theorem matchS1 (hdr : BitVec 3) : Statement (.matchS1 hdr) := by
  rintro _ ⟨⟩ -
  exact mainMatch 1 hdr rfl

theorem matchS2 (hdr : BitVec 3) : Statement (.matchS2 hdr) := by
  rintro _ ⟨⟩ -
  exact mainMatch 2 hdr rfl

theorem matchS3 (hdr : BitVec 3) : Statement (.matchS3 hdr) := by
  rintro _ ⟨⟩ -
  exact mainMatch 3 hdr rfl

theorem matchS4 (hdr : BitVec 3) : Statement (.matchS4 hdr) := by
  rintro _ ⟨⟩ -
  exact mainMatch 4 hdr rfl

theorem matchS5 (hdr : BitVec 3) : Statement (.matchS5 hdr) := by
  rintro _ ⟨⟩ -
  exact mainMatch 5 hdr rfl

theorem matchS6 (hdr : BitVec 3) : Statement (.matchS6 hdr) := by
  rintro _ ⟨⟩ -
  exact mainMatch 6 hdr rfl

theorem matchS7 (hdr : BitVec 3) : Statement (.matchS7 hdr) := by
  rintro _ ⟨⟩ -
  exact mainMatch 7 hdr rfl

theorem matchS8 (hdr : BitVec 3) : Statement (.matchS8 hdr) := by
  rintro _ ⟨⟩ -
  exact mainMatch 8 hdr rfl

theorem matchS9 (hdr : BitVec 3) : Statement (.matchS9 hdr) := by
  rintro _ ⟨⟩ -
  exact mainMatch 9 hdr rfl

theorem matchS10 (hdr : BitVec 3) : Statement (.matchS10 hdr) := by
  rintro _ ⟨⟩ -
  exact mainMatch 10 hdr rfl

theorem matchS11 (hdr : BitVec 3) : Statement (.matchS11 hdr) := by
  rintro _ ⟨⟩ -
  exact mainMatch 11 hdr rfl

theorem matchS12 (hdr : BitVec 3) : Statement (.matchS12 hdr) := by
  rintro _ ⟨⟩ -
  exact mainMatch 12 hdr rfl

theorem matchS13 (hdr : BitVec 3) : Statement (.matchS13 hdr) := by
  rintro _ ⟨⟩ -
  exact mainMatch 13 hdr rfl

theorem matchS14 (hdr : BitVec 3) : Statement (.matchS14 hdr) := by
  rintro _ ⟨⟩ -
  exact mainMatch 14 hdr rfl

theorem matchS15 (hdr : BitVec 3) : Statement (.matchS15 hdr) := by
  rintro _ ⟨⟩ -
  exact mainMatch 15 hdr rfl

theorem matchS16 (hdr : BitVec 3) : Statement (.matchS16 hdr) := by
  rintro _ ⟨⟩ -
  exact mainMatch 16 hdr rfl

theorem matchS17 (hdr : BitVec 3) : Statement (.matchS17 hdr) := by
  rintro _ ⟨⟩ -
  exact mainMatch 17 hdr rfl

theorem matchS18 (hdr : BitVec 3) : Statement (.matchS18 hdr) := by
  rintro _ ⟨⟩ -
  exact mainMatch 18 hdr rfl

theorem matchS19 (hdr : BitVec 3) : Statement (.matchS19 hdr) := by
  rintro _ ⟨⟩ -
  exact mainMatch 19 hdr rfl

theorem matchS20 (hdr : BitVec 3) : Statement (.matchS20 hdr) := by
  rintro _ ⟨⟩ -
  exact mainMatch 20 hdr rfl

theorem matchS21 (hdr : BitVec 3) : Statement (.matchS21 hdr) := by
  rintro _ ⟨⟩ -
  exact mainMatch 21 hdr rfl

theorem matchS22 (hdr : BitVec 3) : Statement (.matchS22 hdr) := by
  rintro _ ⟨⟩ -
  exact mainMatch 22 hdr rfl

theorem matchS23 (hdr : BitVec 3) : Statement (.matchS23 hdr) := by
  rintro _ ⟨⟩ -
  exact mainMatch 23 hdr rfl

theorem matchS24 (hdr : BitVec 3) : Statement (.matchS24 hdr) := by
  rintro _ ⟨⟩ -
  exact mainMatch 24 hdr rfl

theorem matchS25 (hdr : BitVec 3) : Statement (.matchS25 hdr) := by
  rintro _ ⟨⟩ -
  exact mainMatch 25 hdr rfl

theorem matchS26 (hdr : BitVec 3) : Statement (.matchS26 hdr) := by
  rintro _ ⟨⟩ -
  exact mainMatch 26 hdr rfl

theorem matchS27 (hdr : BitVec 3) : Statement (.matchS27 hdr) := by
  rintro _ ⟨⟩ -
  exact mainMatch 27 hdr rfl

theorem matchS28 (hdr : BitVec 3) : Statement (.matchS28 hdr) := by
  rintro _ ⟨⟩ -
  exact mainMatch 28 hdr rfl

theorem matchS29 (hdr : BitVec 3) : Statement (.matchS29 hdr) := by
  rintro _ ⟨⟩ -
  exact mainMatch 29 hdr rfl

theorem matchS30 (hdr : BitVec 3) : Statement (.matchS30 hdr) := by
  rintro _ ⟨⟩ -
  exact mainMatch 30 hdr rfl

theorem matchS31 (hdr : BitVec 3) : Statement (.matchS31 hdr) := by
  rintro _ ⟨⟩ -
  exact mainMatch 31 hdr rfl

theorem matchS32 (hdr : BitVec 3) : Statement (.matchS32 hdr) := by
  rintro _ ⟨⟩ -
  exact mainMatch 32 hdr rfl

theorem matchS33 (hdr : BitVec 3) : Statement (.matchS33 hdr) := by
  rintro _ ⟨⟩ -
  exact mainMatch 33 hdr rfl

theorem matchS34 (hdr : BitVec 3) : Statement (.matchS34 hdr) := by
  rintro _ ⟨⟩ -
  exact mainMatch 34 hdr rfl

theorem matchS35 (hdr : BitVec 3) : Statement (.matchS35 hdr) := by
  rintro _ ⟨⟩ -
  exact mainMatch 35 hdr rfl

theorem matchS36 (hdr : BitVec 3) : Statement (.matchS36 hdr) := by
  rintro _ ⟨⟩ -
  exact mainMatch 36 hdr rfl

theorem matchS37 (hdr : BitVec 3) : Statement (.matchS37 hdr) := by
  rintro _ ⟨⟩ -
  exact mainMatch 37 hdr rfl

theorem matchS38 (hdr : BitVec 3) : Statement (.matchS38 hdr) := by
  rintro _ ⟨⟩ -
  exact mainMatch 38 hdr rfl

theorem matchS39 (hdr : BitVec 3) : Statement (.matchS39 hdr) := by
  rintro _ ⟨⟩ -
  exact mainMatch 39 hdr rfl

theorem matchS40 (hdr : BitVec 3) : Statement (.matchS40 hdr) := by
  rintro _ ⟨⟩ -
  exact mainMatch 40 hdr rfl

theorem matchS41 (hdr : BitVec 3) : Statement (.matchS41 hdr) := by
  rintro _ ⟨⟩ -
  exact mainMatch 41 hdr rfl

theorem matchS42 (hdr : BitVec 3) : Statement (.matchS42 hdr) := by
  rintro _ ⟨⟩ -
  exact mainMatch 42 hdr rfl

theorem matchS43 (hdr : BitVec 3) : Statement (.matchS43 hdr) := by
  rintro _ ⟨⟩ -
  exact mainMatch 43 hdr rfl

theorem matchS44 (hdr : BitVec 3) : Statement (.matchS44 hdr) := by
  rintro _ ⟨⟩ -
  exact mainMatch 44 hdr rfl

theorem matchS45 (hdr : BitVec 3) : Statement (.matchS45 hdr) := by
  rintro _ ⟨⟩ -
  exact mainMatch 45 hdr rfl

theorem matchS46 (hdr : BitVec 3) : Statement (.matchS46 hdr) := by
  rintro _ ⟨⟩ -
  exact mainMatch 46 hdr rfl

theorem matchS47 (hdr : BitVec 3) : Statement (.matchS47 hdr) := by
  rintro _ ⟨⟩ -
  exact mainMatch 47 hdr rfl

theorem matchS48 (hdr : BitVec 3) : Statement (.matchS48 hdr) := by
  rintro _ ⟨⟩ -
  exact mainMatch 48 hdr rfl

theorem matchS49 (hdr : BitVec 3) : Statement (.matchS49 hdr) := by
  rintro _ ⟨⟩ -
  exact mainMatch 49 hdr rfl

theorem lsym (l : Nat) : Statement (.lsym l) := by
  rintro _ ⟨⟩ h
  have h : l < Config.lenSymbols := by simpa [Instr.wellFormed] using h
  show ((if l < Config.lenSymbols then Parser.done (.lsym l) else .reject .huffmanDecodeOverrun).runFields []) = _
  rw [if_pos h]
  rfl

theorem alsym (a : BitVec 3) : Statement (.alsym a) := by
  rintro _ ⟨⟩ -
  have h : a.toNat < Config.alSymbols := a.isLt
  show ((if a.toNat < Config.alSymbols then Parser.done (.alsym (BitVec.ofNat 3 a.toNat)) else .reject .huffmanDecodeOverrun).runFields []) = _
  rw [if_pos h, ofNat_self]
  rfl

theorem uncPad : Statement (.uncPad) := by
  rintro _ ⟨⟩ -
  rfl

theorem uncRWords (w0 w1 w2 : Word32) : Statement (.uncRWords w0 w1 w2) := by
  rintro _ ⟨⟩ -
  show some (Instr.uncRWords (BitVec.ofNat 32 w0.toNat) (BitVec.ofNat 32 w1.toNat) (BitVec.ofNat 32 w2.toNat)) = _
  rw [ofNat_self, ofNat_self, ofNat_self]

theorem uncPayload : Statement (.uncPayload) := by
  rintro _ ⟨⟩ -
  rfl

theorem uncPadByte (x : Byte) : Statement (.uncPadByte x) := by
  rintro _ ⟨⟩ -
  exact congrArg (fun v => some (Instr.uncPadByte v)) (ofNat_self x)

end Sys2Proof.Laws.RoundTrip
end

