-- ==== Sys2Proof/Tests/Slice0.lean ====
section
/-! SUPPORT. The model's own tests: ill-formed terms refused, words written out from the spec's encodings decoded, one step
or one operation on a small state with the value of spec/95_test_vectors.md (its vector named in each comment), and for
each obligation with hypotheses a witness that meets them. -/

namespace Sys2Proof.Tests

open Sys2Proof Sys2Proof.Machine

/-! ## Well-formed terms -/

/-- A code-19 run's inner symbol is 0..16 (R171). -/
theorem test_wf_srun : (Instr.srun 0 17).wellFormed = false ∧ (Instr.srun 0 16).wellFormed = true := by decide

/-- A length-tree symbol is 0..248 (R104). -/
theorem test_wf_lsym : (Instr.lsym 249).wellFormed = false ∧ (Instr.lsym 248).wellFormed = true := by decide

/-! ## Decoding words written out from the spec -/

/-- The pretree lengths of every stream of 95_test_vectors.md (section 1). -/
def specPretree : List Nat := [4, 4, 4, 4, 4, 4, 4, 4, 4, 4, 4, 4, 5, 5, 5, 5, 5, 5, 5, 5]

/-- One code word of `len` bits for a symbol. -/
def word (sym len code : Nat) : Codes := fun _ => [⟨sym, len, code⟩]

/-- E8 headers: K1, K2, K3. -/
theorem test_decode_e8Header :
    ∀ p ∈ [
      ([false], Instr.e8hdrOff),
      ([true, false, false, false, false, false, false, false, false, false, false, false, false, false, false, false, false, false, false, false, true, false, false, false, false, false, false, false, false, false, false, false, false], Instr.e8hdrOn 4096),
      ([true, true, true, true, true, true, true, true, true, true, true, true, true, true, true, true, true, true, true, true, true, true, true, true, true, true, true, true, true, true, false, true, true], Instr.e8hdrOn (-5))],
      decodeBits .e8Header (fun _ => []) p.1 = .instr p.2 [] := by decide

/-- Block headers: K4, K6, K7, K9 and R93, R94. -/
theorem test_decode_blockHeader :
    ∀ p ∈ [
      ([false, false, false, false, false, false, false, false, false, false, false, false, false, false, false, false, false, false, false, false, false, false, false, false, false, false, true], Instr.blockType0 1),
      ([false, false, true, false, false, false, false, false, false, false, false, true, false, false, false, false, false, false, false, false, false, false, false, false, false, false, false], Instr.blockVerbatim 32768),
      ([false, true, false, false, false, false, false, false, false, false, false, false, false, false, false, false, false, false, false, false, false, false, false, true, false, true, true], Instr.blockAligned 11),
      ([false, true, true, false, false, false, false, false, false, false, false, false, false, false, false, false, false, false, false, false, false, false, false, true, false, true, false], Instr.blockUncompressed 10),
      ([true, false, false, false, false, false, false, false, false, false, false, false, false, false, false, false, false, false, false, false, false, false, false, false, false, false, true], Instr.blockType4 1),
      ([true, false, true, false, false, false, false, false, false, false, false, false, false, false, false, false, false, false, false, false, false, false, false, false, false, false, true], Instr.blockType5 1),
      ([true, true, false, false, false, false, false, false, false, false, false, false, false, false, false, false, false, false, false, false, false, false, false, false, false, false, true], Instr.blockType6 1),
      ([true, true, true, false, false, false, false, false, false, false, false, false, false, false, false, false, false, false, false, false, false, false, false, false, false, false, true], Instr.blockType7 1)],
      decodeBits .blockHeader (fun _ => []) p.1 = .instr p.2 [] := by decide

/-- Aligned and pretree lengths (R96, R98), most significant bit first; a bit after the field is left. -/
theorem test_decode_lengths :
    decodeBits .alignLen (fun _ => []) [true, true, false, true] = .instr (.alignlen 6) [true] ∧
    decodeBits .preLen (fun _ => []) [true, false, true, true, false] = .instr (.prelen 11) [false] := by decide

/-- Length codes under the pretree code that 95_test_vectors.md section 1 writes out: symbols 0..11 are `0000`..`1011`,
12..19 are `11000`..`11111`. -/
theorem test_decode_lenCode :
    ∀ p ∈ [
      ([false, false, false, false], Instr.delta0),
      ([false, false, false, true], Instr.delta1),
      ([false, false, true, false], Instr.delta2),
      ([false, false, true, true], Instr.delta3),
      ([false, true, false, false], Instr.delta4),
      ([false, true, false, true], Instr.delta5),
      ([false, true, true, false], Instr.delta6),
      ([false, true, true, true], Instr.delta7),
      ([true, false, false, false], Instr.delta8),
      ([true, false, false, true], Instr.delta9),
      ([true, false, true, false], Instr.delta10)] ++ [
      ([true, false, true, true], Instr.delta11),
      ([true, true, false, false, false], Instr.delta12),
      ([true, true, false, false, true], Instr.delta13),
      ([true, true, false, true, false], Instr.delta14),
      ([true, true, false, true, true], Instr.delta15),
      ([true, true, true, false, false], Instr.delta16),
      ([true, true, true, false, true, false, true, false, true], Instr.zrun4 5),
      ([true, true, true, true, false, true, true, true, true, true], Instr.zrun20 31),
      ([true, true, true, true, true, false, false, false, false, true], Instr.srun 0 1),
      ([true, true, true, true, true, true, true, true, true, false, false], Instr.srun 1 16)],
      decodeBits .lenCode (fun _ => canonical specPretree) p.1 = .instr p.2 [] := by decide

/-- An inner symbol 17 is rejected as `BadLengthCode` (L14), a code word cut short as truncated or without a word. -/
theorem test_decode_rejects :
    decodeBits .lenCode (fun _ => canonical specPretree) [true, true, true, true, true, false, true, true, true, false, true]
      = .rejected (.error .badLengthCode) ∧
    decodeBits .blockHeader (fun _ => []) [true, true] = .rejected .truncated ∧
    decodeBits .lenCode (fun _ => canonical specPretree) [true, true] = .rejected (.noCodeWord .pre) := by decide

/-- Literals: P2's main tree gives `a` the word `0`, `b` the word `10` (H1); the lowest and the highest literal symbol. -/
theorem test_decode_literal :
    decodeBits .mainSym (fun _ => [⟨97, 1, 0⟩, ⟨98, 2, 2⟩, ⟨259, 2, 3⟩]) [true, false] = .instr (.lit 0x62) [] ∧
    decodeBits .mainSym (fun _ => [⟨97, 1, 0⟩, ⟨98, 2, 2⟩, ⟨259, 2, 3⟩]) [true, true] = .instr (.matchS0 3) [] ∧
    decodeBits .mainSym (word 255 2 1) [false, true] = .instr (.lit 0xFF) [] := by decide

/-- Matches: the symbol `256 + 8 * slot + hdr` of every slot (R100), under a one-bit code word. -/
theorem test_decode_match :
    ∀ p ∈ [(257, Instr.matchS0 1), (268, Instr.matchS1 4), (279, Instr.matchS2 7), (282, Instr.matchS3 2), (293, Instr.matchS4 5)] ++
      [(296, Instr.matchS5 0), (307, Instr.matchS6 3), (318, Instr.matchS7 6), (321, Instr.matchS8 1), (332, Instr.matchS9 4)] ++
      [(343, Instr.matchS10 7), (346, Instr.matchS11 2), (357, Instr.matchS12 5), (360, Instr.matchS13 0), (371, Instr.matchS14 3)] ++
      [(382, Instr.matchS15 6), (385, Instr.matchS16 1), (396, Instr.matchS17 4), (407, Instr.matchS18 7), (410, Instr.matchS19 2)] ++
      [(421, Instr.matchS20 5), (424, Instr.matchS21 0), (435, Instr.matchS22 3), (446, Instr.matchS23 6), (449, Instr.matchS24 1)] ++
      [(460, Instr.matchS25 4), (471, Instr.matchS26 7), (474, Instr.matchS27 2), (485, Instr.matchS28 5), (488, Instr.matchS29 0)] ++
      [(499, Instr.matchS30 3), (510, Instr.matchS31 6), (513, Instr.matchS32 1), (524, Instr.matchS33 4), (535, Instr.matchS34 7)] ++
      [(538, Instr.matchS35 2), (549, Instr.matchS36 5), (552, Instr.matchS37 0), (563, Instr.matchS38 3), (574, Instr.matchS39 6)] ++
      [(577, Instr.matchS40 1), (588, Instr.matchS41 4), (599, Instr.matchS42 7), (602, Instr.matchS43 2), (613, Instr.matchS44 5)] ++
      [(616, Instr.matchS45 0), (627, Instr.matchS46 3), (638, Instr.matchS47 6), (641, Instr.matchS48 1), (652, Instr.matchS49 4)],
      decodeBits .mainSym (word p.1 1 1) [true] = .instr p.2 [] := by decide

/-- A symbol past the last slot is no instruction (R106). -/
theorem test_decode_no_slot : decodeBits .mainSym (word 656 1 1) [true] = .rejected (.error .huffmanDecodeOverrun) := by
  decide

/-- Length-tree and aligned symbols: P5's length tree gives 248 the word `1` (H14), an aligned tree of eight lengths 3 gives
`a` the word `a` (H6). -/
theorem test_decode_lsym_alsym :
    decodeBits .lenSym (fun _ => [⟨118, 1, 0⟩, ⟨248, 1, 1⟩]) [true] = .instr (.lsym 248) [] ∧
    decodeBits .alSym (fun _ => canonical [3, 3, 3, 3, 3, 3, 3, 3]) [true, false, true] = .instr (.alsym 5) [] := by decide

/-- The elements of an Uncompressed block (R97): the words of X6a, `00 80 00 00` first; a pad byte of any value. -/
theorem test_decode_uncompressed :
    decode .uncWords (fun _ => []) [0x00, 0x80, 0x00, 0x00, 0x01, 0x00, 0x00, 0x00, 0x01, 0x00, 0x00, 0x00]
      = .instr (.uncRWords 32768 1 1) [] ∧
    decode .padByte (fun _ => []) [0xAA] = .instr (.uncPadByte 0xAA) [] ∧
    decode .uncPad (fun _ => []) [] = .instr .uncPad [] ∧ decode .payload (fun _ => []) [] = .instr .uncPayload [] := by decide

/-- The units of P1's first bytes `00 30 A0 00` are `0x3000`, `0x00A0`, most significant bit first (B2). -/
theorem test_unit_bits :
    unitBits [0x00, 0x30, 0xA0, 0x00] = [false, false, true, true, false, false, false, false, false, false, false, false, false, false, false, false, false, false, false, false, false, false, false, false, true, false, true, false, false, false, false, false] := by decide

/-- Opcode-table words: a length code, a match of slot 10 and a header. -/
theorem test_table_words :
    decodeTableWord 8 4 = some .delta4 ∧ decodeTableWord 16 336 = some (.matchS10 0) ∧
      decodeTableWord 32 0x5000000 = some (.blockType5 0) ∧ decodeTableWord 16 97 = some (.lit 97) ∧
      decodeTableWord 32 (3 * 2 ^ 24 + 450) = some (.blockUncompressed 450) ∧ decodeTableWord 32 448 = some (.matchS24 0) := by decide

/-! ## Canonical codes -/

/-- H4: lengths 2, 1, 3, 3 give `1 = 0`, `0 = 10`, `2 = 110`, `3 = 111`. -/
theorem test_canonical : canonical [2, 1, 3, 3] = [⟨1, 1, 0⟩, ⟨0, 2, 2⟩, ⟨2, 3, 6⟩, ⟨3, 3, 7⟩] := by decide

/-- H8, H9, H11, H12: which length sets build. -/
theorem test_build :
    (buildTable [1, 1] false = .ok ⟨[1, 1], false⟩) ∧ (buildTable [1] true = .error .incompleteHuffmanTree) ∧
    (buildTable [1, 1, 1] false = .error .incompleteHuffmanTree) ∧ (buildTable [0, 0] true = .ok ⟨[0, 0], true⟩) ∧
    (buildTable [0, 0] false = .error .incompleteHuffmanTree) := ⟨rfl, rfl, rfl, rfl, rfl⟩

/-! ## One operation or one element -/

/-- What holds of the next state; false for a stop. -/
def after (o : Host.Outcome State Fault Refusal) (p : State → Bool) : Bool :=
  match o with
  | .next t => p t
  | .fault _ => false
  | .refused _ => false

/-- What holds of a value and the state after it. -/
def gives {α : Type} (r : Res α) (p : α → State → Bool) : Bool :=
  match r with
  | .ok a t => p a t
  | .raise _ _ => false
  | .stop _ => false

/-- The reader at bit or byte `p` of some input whose end is not known. -/
def reading (m : Mode) (bytes : List Byte) (p : Nat) : State :=
  { State.reset with mode := m, inp := bytes, nreal := bytes.length, pos := p }

/-- A decoder that has produced three bytes `x y z` in a Verbatim block with `rem` bytes left. -/
def xyz (rem : Word24) : State :=
  { State.reset with
    window := [(0, 0x78), (1, 0x79), (2, 0x7A)], windowPos := 3, totalWritten := 3, produced := 3
    blockType := .verbatim, blockLength := rem + 3, blockRemaining := rem, headerRead := true, ctl := .blockLoop }

/-- The registers `5, 6, 7` (M7–M10). -/
def s567 : State := { xyz 100 with r0 := 5, r1 := 6, r2 := 7 }

/-- B1. -/
theorem test_readBits : gives (readBits 1 (reading .bitstream [0x30, 0xA0] 0)) (fun v t => v == 1 && t.pos == 1) = true ∧
    gives (readBits 3 (reading .bitstream [0x30, 0xA0] 1)) (fun v t => v == 2 && t.pos == 4) = true := by decide

/-- B3, B4: reads over unit boundaries. -/
theorem test_readBits_units :
    gives (readBits 16 (reading .bitstream [0x12, 0x34, 0x56, 0x78] 8)) (fun v t => v == 0x1278 && t.pos == 24) = true ∧
    gives (readBits 17 (reading .bitstream [0xFF, 0xFF, 0xFF, 0xFF, 0xFF, 0xFF] 10))
      (fun v t => v == 0x1FFFF && t.pos == 27) = true := by decide

/-- B17, B18: the realign. -/
theorem test_realign : ({ State.reset with pos := 864 } : State).realign.pos = 864 ∧
    ({ State.reset with pos := 1303 } : State).realign.pos = 1312 := by decide

/-- B22: one pull, the end of input, two bytes more. -/
theorem test_eof : gives (eofAtBoundary
    { reading .bytestream (List.replicate 26 0x30) 26 with replies := [⟨false, .data []⟩] })
    (fun b t => b && t.eof && t.inp.length == 28) = true := by decide

/-- F10, and R320 in range. -/
theorem test_construct :
    after (exec (.construct 22 0) State.reset) (fun t => t.refused && !t.alive) = true ∧
    after (exec (.construct 21 3) { s567 with ctl := .idle }) (fun t =>
      t.winSize == 2097152 && t.resetInterval == 3 && t.r0 == 1 && t.window == [] && t.alive) = true := by decide

/-- F9, and F5: the periodic reset at frame 1 of interval 1. -/
theorem test_decodeFrame :
    after (exec (.decodeFrame 32767) State.reset) (fun t => t.refused && t.result == some .refused && t.ctl == .idle) = true ∧
    after (exec (.decodeFrame 32768) { State.reset with resetInterval := 1, frameIndex := 1, r0 := 2, headerRead := true })
      (fun t => t.r0 == 1 && !t.headerRead && t.ctl == .e8Header && !t.refused) = true := by decide

/-- R192: `InconsistentResetState` while block bytes remain (F7). -/
theorem test_decodeFrame_inconsistent :
    after (exec (.decodeFrame 32768) { State.reset with resetInterval := 1, frameIndex := 1, blockRemaining := 2 })
      (fun t => t.status == .failed .inconsistentResetState && t.pos == 0) = true := by decide

/-- K1, K3: `e8_magic` is signed. -/
theorem test_e8hdr :
    after (exec .e8hdrOff { s567 with ctl := .e8Header }) (fun t => t.e8Magic == 0 && t.headerRead && t.ctl == .blockLoop) = true ∧
    after (exec (.e8hdrOn 0xFFFFFFFB) State.reset) (fun t => t.e8Magic.toInt == -5) = true := by decide

/-- K8, K6, K4 (with R202: a length of 0 is accepted), and the types that are none (K9). -/
theorem test_blocks :
    after (exec (.blockVerbatim 16777215) State.reset) (fun t =>
      t.blockRemaining.toNat == 16777215 && t.blockType == .verbatim && t.ctl == .preLens) = true ∧
    after (exec (.blockAligned 11) State.reset) (fun t => t.blockType == .aligned && t.ctl == .alignLens) = true ∧
    after (exec (.blockUncompressed 0) State.reset) (fun t => t.blockType == .uncompressed && t.ctl == .uncPad) = true := by
  decide

theorem test_block_types : ∀ i ∈ [Instr.blockType0 7, .blockType4 7, .blockType5 7, .blockType6 7, .blockType7 7],
    after (exec i State.reset) (fun t => t.status == .failed .unknownBlockType && t.blockRemaining == 7) = true := by decide

/-- R200, H6: the eighth length 3 builds the aligned tree. -/
theorem test_alignlen :
    after (exec (.alignlen 3) { State.reset with ctl := .alignLens, lAl := [3, 3, 3, 3, 3, 3, 3, 0], fieldIdx := 7 })
      (fun t => t.tAl == ⟨[3, 3, 3, 3, 3, 3, 3, 3], false⟩ && t.ctl == .preLens) = true ∧
    after (exec (.alignlen 2) { State.reset with ctl := .alignLens, lAl := [3, 3, 3, 3, 3, 3, 3, 0], fieldIdx := 7 })
      (fun t => t.status == .failed .incompleteHuffmanTree) = true := by decide

/-- R167: the twentieth length builds the pretree. -/
theorem test_prelen :
    after (exec (.prelen 5) { State.reset with
        ctl := .preLens, lPre := [4, 4, 4, 4, 4, 4, 4, 4, 4, 4, 4, 4, 5, 5, 5, 5, 5, 5, 5, 0], fieldIdx := 19 })
      (fun t => t.tPre == ⟨specPretree, false⟩ && t.ctl == .lenCodes) = true := by decide

/-- The length-tree list at symbol `x`, its first lengths being `l`. -/
def lens (x : Nat) (l : List Len) : State :=
  { State.reset with ctl := .lenCodes, lenList := .length, lenPos := x, lLen := l }

/-- A delta code on a first length, and the length after it. -/
def delta (i : Instr) (prev new : Len) : Bool :=
  after (exec i (lens 0 [prev, 9])) fun t => t.lLen == [new, 9] && t.lenPos == 1

/-- L1–L6 and the other deltas of R168: `(prev - z) mod 17`. -/
theorem test_deltas :
    (delta .delta0 5 5 && delta .delta1 16 15 && delta .delta2 2 0 && delta .delta3 2 16 && delta .delta4 5 1) = true ∧
    (delta .delta5 5 0 && delta .delta6 5 16 && delta .delta7 8 1 && delta .delta8 0 9 && delta .delta9 0 8) = true ∧
    (delta .delta10 16 6 && delta .delta11 1 7 && delta .delta12 12 0 && delta .delta13 0 4 && delta .delta14 0 3) = true ∧
    (delta .delta15 0 2 && delta .delta16 0 1 && delta .delta16 1 2) = true := by decide

/-- L7, L11, L12. -/
theorem test_runs :
    after (exec (.zrun4 0) (lens 1 [1, 2, 3, 4, 5, 6])) (fun t => t.lLen == [1, 0, 0, 0, 0, 6] && t.lenPos == 5) = true ∧
    after (exec (.srun 0 1) (lens 0 [3, 0, 0, 0, 7])) (fun t => t.lLen == [2, 2, 2, 2, 7] && t.lenPos == 4) = true ∧
    after (exec (.srun 1 16) (lens 0 [0, 7, 7, 7, 7])) (fun t => t.lLen == [1, 1, 1, 1, 1]) = true ∧
    after (exec (.zrun20 31) (lens 0 (List.replicate 52 3))) (fun t => t.lLen == List.replicate 51 0 ++ [3]) = true := by
  decide

/-- L13, L14. -/
theorem test_run_errors :
    after (exec (.zrun20 0) { State.reset with ctl := .lenCodes, lenPos := 255 })
      (fun t => t.status == .failed .lengthRunOverrun && t.lenPos == 255) = true ∧
    after (exec (.zrun4 0) { State.reset with ctl := .lenCodes, lenPos := 253 })
      (fun t => t.status == .failed .lengthRunOverrun) = true ∧
    after (exec (.srun 0 17) { State.reset with ctl := .lenCodes, lenPos := 255 })
      (fun t => t.status == .failed .badLengthCode) = true := by decide

/-- M1. -/
theorem test_literal : after (exec (.lit 0x61) { State.reset with ctl := .blockLoop, blockRemaining := 8 }) (fun t =>
    t.window == [(0, 0x61)] && t.windowPos == 1 && t.totalWritten == 1 && t.blockRemaining == 7 && t.produced == 1) = true := by
  decide

/-- R245's example, and M7–M10 on the registers (the offset 5 reaches before the first byte: R244 (3)). -/
theorem test_match_copy :
    after (exec (.lsym 3) { xyz 17 with r0 := 3, ctl := .lenSym, pend := ⟨0, 0, 0⟩ }) (fun t =>
      t.window == [(0, 0x78), (1, 0x79), (2, 0x7A), (3, 0x78), (4, 0x79), (5, 0x7A), (6, 0x78), (7, 0x79)] ++
        [(8, 0x7A), (9, 0x78), (10, 0x79), (11, 0x7A), (12, 0x78), (13, 0x79), (14, 0x7A)] &&
        t.blockRemaining == 5) = true ∧
    after (exec (.matchS0 1) s567) (fun t => t.status == .failed .undefinedWindowRead && t.windowPos == 3) = true := by
  decide

theorem test_match_registers :
    after (exec (.matchS1 0) s567) (fun t => t.r0 == 6 && t.r1 == 5 && t.r2 == 7) = true ∧
    after (exec (.matchS2 0) s567) (fun t => t.r0 == 7 && t.r1 == 6 && t.r2 == 5) = true ∧
    after (exec (.matchS3 0) s567) (fun t =>
      t.r0 == 1 && t.r1 == 5 && t.r2 == 6 && t.pos == 0 && Memory.read t.window 4 == some 0x7A) = true := by decide

/-- R232: a length header 7 reads the length-tree symbol first, for every kind of slot. -/
theorem test_match_long : ∀ i ∈ [Instr.matchS0 7, .matchS3 7, .matchS29 7],
    after (exec i s567) (fun t => t.ctl == .lenSym && t.r0 == 5 && t.pos == 0) = true := by decide

/-- The offset a Verbatim match leaves in `R0`: all its extra bits 1 and the window big enough for its slot. -/
def ones (i : Instr) : Nat :=
  match exec i { reading .bitstream (List.replicate 6 0xFF) 0 with windowBits := 21, blockType := .verbatim } with
  | .next t => t.r0.toNat
  | .fault _ => 0
  | .refused _ => 0

/-- The last offset of each explicit slot, as the table of R249 lists it (M11–M14 among them). -/
theorem test_offsets :
    ∀ p ∈ [(Instr.matchS3 0, 1), (Instr.matchS4 0, 3), (Instr.matchS5 0, 5), (Instr.matchS6 0, 9), (Instr.matchS7 0, 13)] ++
      [(Instr.matchS8 0, 21), (Instr.matchS9 0, 29), (Instr.matchS10 0, 45), (Instr.matchS11 0, 61), (Instr.matchS12 0, 93)] ++
      [(Instr.matchS13 0, 125), (Instr.matchS14 0, 189), (Instr.matchS15 0, 253), (Instr.matchS16 0, 381), (Instr.matchS17 0, 509)] ++
      [(Instr.matchS18 0, 765), (Instr.matchS19 0, 1021), (Instr.matchS20 0, 1533), (Instr.matchS21 0, 2045), (Instr.matchS22 0, 3069)] ++
      [(Instr.matchS23 0, 4093), (Instr.matchS24 0, 6141), (Instr.matchS25 0, 8189), (Instr.matchS26 0, 12285), (Instr.matchS27 0, 16381)] ++
      [(Instr.matchS28 0, 24573), (Instr.matchS29 0, 32765), (Instr.matchS30 0, 49149), (Instr.matchS31 0, 65533), (Instr.matchS32 0, 98301)] ++
      [(Instr.matchS33 0, 131069), (Instr.matchS34 0, 196605), (Instr.matchS35 0, 262141), (Instr.matchS36 0, 393213), (Instr.matchS37 0, 524285)] ++
      [(Instr.matchS38 0, 655357), (Instr.matchS39 0, 786429), (Instr.matchS40 0, 917501), (Instr.matchS41 0, 1048573), (Instr.matchS42 0, 1179645)] ++
      [(Instr.matchS43 0, 1310717), (Instr.matchS44 0, 1441789), (Instr.matchS45 0, 1572861), (Instr.matchS46 0, 1703933), (Instr.matchS47 0, 1835005)] ++
      [(Instr.matchS48 0, 1966077), (Instr.matchS49 0, 2097149)],
      ones p.1 = p.2 := by decide

/-- M15–M19: Aligned blocks read the low three bits from the aligned tree, and only where there are three. -/
theorem test_aligned :
    after (exec (.matchS6 0) { reading .bitstream [0xFF, 0xFF] 0 with blockType := .aligned }) (fun t => t.r0 == 9) = true ∧
    after (exec (.matchS8 1) { reading .bitstream [0xFF, 0xFF] 0 with blockType := .aligned })
      (fun t => t.ctl == .alSym && t.pos == 0 && t.pend == ⟨8, 3, 0⟩) = true ∧
    after (exec (.alsym 5) { State.reset with blockType := .aligned, pend := ⟨8, 3, 0⟩ }) (fun t => t.r0 == 19) = true ∧
    after (exec (.alsym 7) { State.reset with windowBits := 19, blockType := .aligned, pend := ⟨36, 3, 16383⟩ })
      (fun t => t.r0 == 393213) = true := by decide

/-- M20 without its byte values: the source wraps to the end of the window, and the last byte read is one just written. -/
theorem test_split :
    after ((copyMatch 3 4 { State.reset with
        window := [(0, 0x71), (32766, 0x41), (32767, 0x42)], windowPos := 1, totalWritten := 32769 }).finish)
      (fun t => t.window == [(0, 0x71), (1, 0x41), (2, 0x42), (3, 0x71), (4, 0x41), (32766, 0x41), (32767, 0x42)]) = true := by
  decide

/-- C1–C10: the checks in order; offset, length, `total_written` = `window_pos` = `produced`, `block_remaining`. -/
def check (wb offset length written : Nat) (rem : Word24) : Option ErrKind :=
  matchError offset length { State.reset with
    windowBits := wb, totalWritten := written, windowPos := written, produced := written, blockRemaining := rem }

theorem test_checks :
    (check 15 32768 2 2 2 = some .windowOverrun ∧ check 15 32768 5 2 2 = some .windowOverrun) ∧
    (check 15 0 2 2 2 = some .zeroOffset ∧ check 15 1 2 0 2 = some .undefinedWindowRead) ∧
    (check 15 4 2 4 9 = none ∧ check 15 5 2 4 9 = some .undefinedWindowRead) ∧
    (check 15 2 128 32641 129 = some .windowOverrun ∧ check 15 2 127 32641 129 = none) ∧
    (check 15 1 3 1 2 = some .blockOverrun ∧ check 16 2 128 32641 129 = some .frameOverrun) := by decide

/-- B8, B9, B13: the padding; a step at the words reads P1's. -/
theorem test_uncPad :
    after (exec .uncPad (reading .bitstream [0x00, 0x30, 0xA0, 0x00] 28))
      (fun t => t.pos == 4 && t.mode == .bytestream && t.ctl == .uncWords) = true ∧
    after (exec .uncPad (reading .bitstream [0x00, 0x00] 0)) (fun t => t.pos == 2) = true ∧
    after (exec .uncPad (reading .bitstream [0x00, 0x30, 0x21, 0x00] 28))
      (fun t => t.pos == 28 && t.status == .failed .badPadding) = true := by decide

/-- X6a's words, and R201: any value is accepted. -/
theorem test_uncRWords :
    after (step { reading .bytestream [0x00, 0x80, 0, 0, 1, 0, 0, 0, 2, 0, 0, 0xFF] 0 with ctl := .uncWords })
      (fun t => t.r0 == 32768 && t.r1 == 1 && t.r2 == 0xFF000002 && t.pos == 12 && t.ctl == .blockLoop) = true := by decide +kernel

/-- R248: the run ends with the block, or with the frame. -/
theorem test_payload :
    after (exec .uncPayload { reading .bytestream [0x30, 0x31, 0x32] 1 with blockRemaining := 2 }) (fun t =>
      t.window == [(0, 0x31), (1, 0x32)] && t.pos == 3 && t.blockRemaining == 0 && t.produced == 2) = true ∧
    after (exec .uncPayload { reading .bytestream [0x30, 0x31, 0x32] 1 with blockRemaining := 9, produced := 32767 })
      (fun t => t.window == [(0, 0x31)] && t.blockRemaining == 8 && t.produced == 32768) = true := by decide

/-- B14, B15. -/
theorem test_padByte :
    after (exec (.uncPadByte 0xAA) (reading .bytestream (List.replicate 50 0xAA) 49))
      (fun t => t.pos == 400 && t.mode == .bitstream) = true ∧
    after (exec (.uncPadByte 0) (reading .bytestream [] 26)) (fun t => t.pos == 208) = true := by decide

/-- T1, T6, T14, T15: the E8 pass at a frame's index and start. -/
def e8 (index total : Nat) (magic : Word32) (bytes : List Byte) : List Byte :=
  ({ State.reset with frameIndex := index, outTotal := total, e8Magic := magic } : State).e8Pass bytes

theorem test_e8_pass :
    e8 0 0 4096 ([0x90, 0xE8, 0x10, 0, 0, 0, 0xE8, 0xFF, 0xFF, 0xFF, 0xFF, 0xE8, 0, 0x10, 0, 0] ++ List.replicate 8 0x90)
      = [0x90, 0xE8, 0x0F, 0, 0, 0, 0xE8, 0xFF, 0x0F, 0, 0, 0xE8, 0, 0x10, 0, 0] ++ List.replicate 8 0x90 := by decide

theorem test_e8_operands :
    (e8 1 32768 4096 ([0xE8, 0x00, 0x80, 0xFF, 0xFF] ++ List.replicate 12 0x90)).take 5 = [0xE8, 0x00, 0x90, 0xFF, 0xFF] ∧
    (e8 32767 1073709056 4096 ([0xE8, 0x20, 0, 0, 0] ++ List.replicate 12 0x90)).take 5 = [0xE8, 0x20, 0x80, 0x00, 0xC0] ∧
    (e8 1 93 0xFFFFFFFB (List.replicate 7 0x90 ++ [0xE8, 0xCE, 0xFF, 0xFF, 0xFF] ++ List.replicate 6 0x90)).drop 7
      = [0xE8, 0xC9, 0xFF, 0xFF, 0xFF] ++ List.replicate 6 0x90 := by decide

/-- T9, T10, T13: the end of the scan and the frame bound. -/
theorem test_e8_bounds :
    (e8 0 0 4096 (List.replicate 9 0x90 ++ [0xE8, 0x20, 0, 0, 0] ++ List.replicate 6 0x90)).drop 9
      = [0xE8, 0x17, 0, 0, 0] ++ List.replicate 6 0x90 ∧
    (e8 0 0 4096 (List.replicate 10 0x90 ++ [0xE8, 0x20, 0, 0, 0] ++ List.replicate 5 0x90)).drop 10
      = [0xE8, 0x20, 0, 0, 0] ++ List.replicate 5 0x90 ∧
    (e8 32768 1073741824 4096 ([0xE8, 0x20, 0, 0, 0] ++ List.replicate 12 0x90)).take 2 = [0xE8, 0x20] := by decide

/-- F1, F2: a frame of one byte, and the empty frame after it. -/
theorem test_frame_end :
    after (step { xyz 0 with eof := true }) (fun t =>
      t.out == [(0, 0x78), (1, 0x79), (2, 0x7A)] && t.result == some (.ok 3) && t.framePos == 3 && t.windowPos == 3 &&
        t.frameIndex == 1 && t.outTotal == 3 && t.status == .ready && t.ctl == .idle) = true ∧
    after (step { State.reset with eof := true, ctl := .blockLoop }) (fun t =>
      t.result == some (.ok 0) && t.status == .done && t.frameIndex == 1) = true := by decide

/-- The placed word is what the next step runs. -/
theorem test_fetch_word :
    after (step (State.reset.withFetchWord 16 97)) (fun t => t.window == [(0, 97)]) = true ∧
    after (step (State.reset.withFetchWord 32 0x3000000)) (fun t => t.ctl == .uncPad && t.pos == 27) = true := by decide +kernel

/-! ## Witnesses: states and operands that meet the hypotheses of the obligations -/

theorem witness_DecodeOfEncode : (Instr.srun 1 16).wellFormed = true ∧ (Instr.srun 1 16).site = some .lenCode ∧
    ((∀ l ∈ specPretree, l ≤ 16) ∧ kraftSum specPretree ≤ 2 ^ 16) ∧
    encodeBits (fun _ => canonical specPretree) (.srun 1 16)
      = some [true, true, true, true, true, true, true, true, true, false, false] := by decide

theorem witness_CanonicalCodeValues : (∀ l ∈ [2, 1, 16, 0], l ≤ 16) ∧ (⟨2, 16, 49152⟩ : CodeWord) ∈ canonical [2, 1, 16, 0] ∧
    [2, 1, 16, 0][2]? = some 16 ∧ 0 < 16 := by decide

theorem witness_CompleteCode : (∀ l ∈ [2, 1, 3, 3], l ≤ 16) ∧ buildTable [2, 1, 3, 3] false = .ok ⟨[2, 1, 3, 3], false⟩ ∧
    buildTable [0, 0] true = .ok ⟨[0, 0], true⟩ ∧ 65535 < 2 ^ 16 ∧
    ({ State.reset with tAl := ⟨[2, 1, 3, 3], false⟩ } : State).table .al = ⟨[2, 1, 3, 3], false⟩ :=
  ⟨by decide, rfl, rfl, by decide, rfl⟩

theorem witness_BuildRule :
    (∀ l ∈ State.reset.lengths .al, l = 0) ∧
    (∃ l ∈ ({ State.reset with lAl := [1, 1, 0, 0, 0, 0, 0, 0] } : State).lengths .al, l ≠ 0) ∧
    (((({ State.reset with lAl := [1, 1, 0, 0, 0, 0, 0, 0] } : State).lengths .al).filter (· ≠ 0)).map
      fun l => (1 / 2 : Rat) ^ l).sum = 1 ∧
    (((({ State.reset with lAl := [1, 2, 0, 0, 0, 0, 0, 0] } : State).lengths .al).filter (· ≠ 0)).map
      fun l => (1 / 2 : Rat) ^ l).sum ≠ 1 := by
  refine ⟨by decide, by decide, ?_, ?_⟩ <;> simp [State.lengths] <;> norm_num

theorem witness_SlotTable : (0, 0, 0, 15) ∈ slotRows ∧ (3, 0, 3, 15) ∈ slotRows ∧ (49, 17, 1966080, 21) ∈ slotRows ∧
    (1 ≤ 2 ^ 15 - 3 ∧ 2 ^ 21 - 3 ≤ 2 ^ 21 - 3) := by decide

theorem witness_PullCases :
    ∃ s : State, s.eof = false ∧ s.replies = [⟨true, .data [1]⟩] ∧ 0 < [1].length ∧ [1].length ≤ s.inbufSize ∧
      ({ s with inbufSize := 0 } : State).inbufSize < [1].length :=
  ⟨{ State.reset with replies := [⟨true, .data [1]⟩] }, by decide⟩

theorem witness_NoPullAfterEof : ∃ s : State, s.eof = true ∧ s.inp.length ≤ 2 ∧ 1 < s.inp.length :=
  ⟨{ State.reset with eof := true, inp := [0, 0] }, by decide⟩

theorem witness_FetchPullsWhatIsMissing : ∃ s u v : State, s.inp.length ≤ 0 ∧ pull s = .ok () u ∧
    fetchByte 0 s = .ok () u ∧ pull v = .raise .prematureEOF v ∧ 0 < u.inp.length :=
  ⟨{ State.reset with replies := [⟨false, .data [7]⟩] }, _, { State.reset with eof := true }, by decide, rfl, rfl, rfl,
    by decide⟩

theorem witness_ReadBitsRule : ∃ s u v : State, s.mode = .bitstream ∧ s.hasBits 16 ∧ need 16 s = .ok () u ∧
    need 17 v = .raise .prematureEOF v ∧ readBits 16 s = .ok 0x30A0 { u with pos := 16 } :=
  ⟨reading .bitstream [0xA0, 0x30] 0, _, { reading .bitstream [0xA0, 0x30] 0 with eof := true }, by decide, .inr (by decide), rfl,
    rfl, rfl⟩

/-- A decoder in the three code words of H4. -/
def h4 (bytes : List Byte) : State := { reading .bitstream bytes 0 with tAl := ⟨[2, 1, 3, 3], false⟩ }

theorem witness_ReadSymRule :
    ((h4 [0, 0]).table .al).empty = false ∧ (h4 [0, 0]).mode = .bitstream ∧ (h4 [0, 0]).hasBits 16 ∧
    need 16 (h4 [0, 0]) = .ok () (h4 [0, 0]) ∧ buildTable [2, 1, 3, 3] false = .ok ((h4 [0, 0]).table .al) ∧
    (∀ l ∈ ((h4 [0, 0]).table .al).lens, l ≤ 16) ∧
    need 16 { h4 [0] with eof := true } = .raise .prematureEOF { h4 [0] with eof := true } ∧
    ¬ (h4 [0]).hasBits 16 ∧ (({ h4 [] with tLen := ⟨[0, 0], true⟩ } : State).table .len).empty = true :=
  ⟨rfl, rfl, .inr (by decide), rfl, rfl, by decide, rfl, fun h => h.elim (by decide) (by decide), rfl⟩

theorem witness_EofAtBoundaryRule : ∃ s u v : State, s.mode = .bytestream ∧ s.pos + s.pos % 2 = 26 ∧ s.eof = false ∧
    s.nreal ≤ 26 ∧ pull s = .ok () u ∧ eofAtBoundary s = .ok true u ∧ pull v = .raise (.callbackError 5) State.reset ∧
    v.mode = .bitstream ∧ 2 * ((v.pos + 15) / 16) = 0 ∧ v.nreal ≤ 0 ∧ v.eof = false :=
  ⟨{ reading .bytestream (List.replicate 26 0) 25 with replies := [⟨false, .data []⟩] }, _,
    { State.reset with replies := [⟨false, .error 5⟩] }, rfl, rfl, rfl, by decide, rfl, rfl, rfl, rfl, rfl, by decide, rfl⟩

theorem witness_ConstructResets : State.reset.ctl = .idle ∧ (15 ≤ 15 ∧ 15 ≤ 21) ∧ (15 ≤ 21 ∧ 21 ≤ 21) ∧ 14 < 15 ∧ 21 < 22 := by
  decide

theorem witness_ConstructFrame : State.reset.ctl = .idle ∧ (15 ≤ 21 ∧ 21 ≤ 21) ∧ 22 > 21 ∧
    ({ State.reset with ctl := .blockLoop } : State).ctl ≠ .idle ∧ ({ State.reset with alive := false } : State).alive = false := by
  decide

theorem witness_DecodeFrameStart : ∃ s : State, s.alive = true ∧ s.ctl = .idle ∧ s.status = .ready ∧ 32768 ≤ 32768 ∧
    (s.resetInterval ≠ 0 ∧ s.frameIndex % s.resetInterval = 0) ∧ s.blockRemaining = 0 ∧
    ({ s with blockRemaining := 2 } : State).blockRemaining ≠ 0 ∧
    ¬ (2 ≠ 0 ∧ ({ s with resetInterval := 2, frameIndex := 1 } : State).frameIndex % 2 = 0) :=
  ⟨{ State.reset with resetInterval := 1 }, by decide⟩

theorem witness_DecodeFrameRefused : ({ State.reset with status := .done } : State).status ≠ .ready ∧
    ({ State.reset with status := .failed .badPadding } : State).status ≠ .ready ∧ 32767 < 32768 := by decide

/-- The window of `xyz` holds a value exactly where a byte has been written. -/
theorem xyz_window (rem : Word24) : (xyz rem).WindowInv where
  inWindow := by show 3 ≤ 2 ^ 15; decide
  position := rfl
  filled a _ := by
    show (Memory.read [(0, 0x78), (1, 0x79), (2, 0x7A)] a).isSome = true ↔ a < 3
    rcases a with _ | _ | _ | a <;> simp [Memory.read]

theorem xyz_frame (rem : Word24) : ({ xyz rem with blockLength := rem } : State).FrameInv where
  position _ := rfl
  inWindow _ := by show 3 ≤ 2 ^ 15; decide
  framePos _ := by show 0 < 2 ^ 15; decide
  produced _ := by show 3 ≤ 32768; decide
  written _ := rfl
  block _ := by show rem ≤ rem; exact BitVec.le_refl _
  between _ h := nomatch h

theorem witness_FrameCompletes : ∃ s u : State, s.ConfigInv ∧ s.FrameInv ∧ s.WindowInv ∧ s.status = .ready ∧
    s.ctl = .blockLoop ∧ seek s = .ok .complete u :=
  ⟨{ { xyz 0 with blockLength := 0 } with eof := true }, _, ⟨by decide, by decide⟩,
    ⟨(xyz_frame 0).1, (xyz_frame 0).2, (xyz_frame 0).3, (xyz_frame 0).4, (xyz_frame 0).5, (xyz_frame 0).6, (xyz_frame 0).7⟩,
    ⟨(xyz_window 0).1, (xyz_window 0).2, (xyz_window 0).3⟩, rfl, rfl, rfl⟩

theorem witness_BlockLoopHead :
    ((xyz 0).ctl = .blockLoop ∧ (xyz 0).produced < 32768 ∧ (xyz 0).blockRemaining = 0) ∧
    32768 ≤ ({ xyz 0 with produced := 32768 } : State).produced ∧ (xyz 1).blockRemaining ≠ 0 ∧
    eofAtBoundary { xyz 0 with eof := true } = .ok true { xyz 0 with eof := true } ∧
    eofAtBoundary { xyz 0 with nreal := 1 } = .ok false { xyz 0 with nreal := 1 } ∧
    eofAtBoundary { xyz 0 with mode := .bytestream, pos := 3, nreal := 5 }
      = .ok false { xyz 0 with mode := .bytestream, pos := 3, nreal := 5 } ∧
    eofAtBoundary { xyz 0 with mode := .bytestream, pos := 2, nreal := 5 }
      = .ok false { xyz 0 with mode := .bytestream, pos := 2, nreal := 5 } :=
  ⟨⟨rfl, by decide, rfl⟩, by decide, by decide, rfl, rfl, rfl, rfl⟩

theorem witness_E8PassBounds : (State.reset.e8Magic = 0 ∨ 32768 ≤ State.reset.frameIndex) ∧
    (List.replicate 10 (0xE8 : Byte)).length ≤ 10 ∧ (List.replicate 11 (0x90 : Byte)).length ≤ 5 + 6 ∧
    ∀ i, i + 10 < (List.replicate 11 (0x90 : Byte)).length → (List.replicate 11 (0x90 : Byte))[i]? ≠ some 0xE8 := by
  refine ⟨.inl rfl, by decide, by decide, fun i hi => ?_⟩
  simp only [List.length_replicate] at hi
  rw [show i = 0 by omega]
  decide

/-- The two ends of the range and the values beside them. -/
theorem witness_E8Operand :
    (0 ≤ (100 : Int) ∧ (100 : Int) < 2 ^ 30 ∧ -2 ^ 31 ≤ (4096 : Int) ∧ (4096 : Int) < 2 ^ 31) ∧
    ((0xFF : Byte) ++ (0xFF : Byte) ++ (0xFF : Byte) ++ (0x9C : Byte)).toInt = -100 ∧
    ((0 : Byte) ++ (0 : Byte) ++ (0x10 : Byte) ++ (0 : Byte)).toInt = 4096 ∧
    (-(100 : Int) ≤ -100 ∧ (-100 : Int) < 4096) ∧ (-(100 : Int) ≤ 4095 ∧ (4095 : Int) < 4096) ∧
    ¬ (-(100 : Int) ≤ 4096 ∧ (4096 : Int) < 4096) ∧ ¬ (-(100 : Int) ≤ -101 ∧ (-101 : Int) < 4096) := by decide

theorem witness_E8Header : ∃ s : State, s.ctl = .e8Header ∧ s.mode = .bitstream ∧ s.hasBits 33 ∧
    streamBit s.inp s.pos = true ∧ s.hasBits 1 ∧ streamBit [0, 0] s.pos = false ∧
    ({ s with mode := .bytestream, pos := 26 } : State).pos % 2 = 0 ∧ ({ s with mode := .bytestream, pos := 25 } : State).pos % 2 = 1 :=
  ⟨{ reading .bitstream [0, 0x80, 0, 8, 0, 0] 0 with ctl := .e8Header }, rfl, rfl, .inr (by decide), by decide, .inr (by decide),
    by decide, by decide, by decide⟩

theorem witness_UnknownBlockEffect : ∃ i : Instr,
    i = .blockType0 1 ∨ i = .blockType4 1 ∨ i = .blockType5 1 ∨ i = .blockType6 1 ∨ i = .blockType7 1 := ⟨_, .inl rfl⟩

/-- A block header of type `t` and length 10 stands at bit 1 (P1's stream with its type). -/
def headerAt (hi : Byte) : State := { reading .bitstream [0x00, hi, 0xA0, 0x00] 1 with ctl := .blockHeader }

theorem witness_StepReadsBlockHeader : (headerAt 0x30).ctl = .blockHeader ∧ (headerAt 0x30).mode = .bitstream ∧
    (headerAt 0x30).hasBits 27 ∧ BitVec.ofNat 24 (streamField (headerAt 0x30).inp 4 24) = 10 ∧
    streamField (headerAt 0x10).inp 1 3 = 1 ∧ streamField (headerAt 0x20).inp 1 3 = 2 ∧
    streamField (headerAt 0x30).inp 1 3 = 3 ∧ streamField (headerAt 0x00).inp 1 3 = 0 ∧
    4 ≤ streamField (headerAt 0x40).inp 1 3 ∧ 4 ≤ streamField (headerAt 0x70).inp 1 3 :=
  ⟨rfl, rfl, .inr (by decide), by decide, by decide, by decide, by decide, by decide, by decide, by decide⟩

theorem witness_AlignedLengths : ∃ s : State, s.fieldIdx + 1 < 8 ∧ 8 ≤ ({ s with fieldIdx := 7 } : State).fieldIdx + 1 ∧
    kraftSum (((List.replicate 8 (3 : BitVec 3)).set 7 3).map BitVec.toNat) = 2 ^ 16 ∧
    kraftSum ((s.lAl.set 7 3).map BitVec.toNat) ≠ 2 ^ 16 := ⟨{ State.reset with fieldIdx := 6 }, by decide⟩

theorem witness_PretreeLengths : ∃ s : State, s.fieldIdx + 1 < 20 ∧ 20 ≤ ({ s with fieldIdx := 19 } : State).fieldIdx + 1 ∧
    kraftSum ((((specPretree.map (BitVec.ofNat 4)).set 19 5)).map BitVec.toNat) = 2 ^ 16 ∧
    kraftSum ((s.lPre.set 19 5).map BitVec.toNat) ≠ 2 ^ 16 := ⟨{ State.reset with fieldIdx := 18 }, by decide⟩

theorem witness_LengthCodeWrites : ∃ s : State, s.listLens[s.lenPos]?.map Fin.val = some 3 ∧
    lengthRun (.srun 0 1) 3 = some (4, (2 : Len).val) ∧ lengthRun (.delta16) 3 = some (1, (4 : Len).val) ∧
    lengthRun (.zrun20 31) 3 = some (51, (0 : Len).val) ∧ s.lenPos + 51 < s.listLast :=
  ⟨lens 0 [3, 0, 0, 0], by decide⟩

theorem witness_LengthListEnds :
    (∃ s : State, s.lenList = .mainLow ∧ s.listLens[s.lenPos]?.map Fin.val = some 0 ∧
      lengthRun .delta0 0 = some (1, (0 : Len).val) ∧ s.lenPos + 1 = s.listLast) ∧
    (∃ s : State, s.lenList = .mainHigh ∧ s.listLens[s.lenPos]?.map Fin.val = some 0 ∧
      lengthRun .delta16 0 = some (1, (1 : Len).val) ∧ s.lenPos + 1 = s.listLast) ∧
    (∃ s : State, s.lenList = .length ∧ s.listLens[s.lenPos]?.map Fin.val = some 0 ∧
      lengthRun .delta0 0 = some (1, (0 : Len).val) ∧ s.lenPos + 1 = s.listLast) ∧
    kraftSum (([1, 1] : List Len).map Fin.val) = 2 ^ 16 ∧ kraftSum (([1, 2] : List Len).map Fin.val) ≠ 2 ^ 16 ∧
    (∃ x ∈ ([1, 2] : List Len), x ≠ 0) ∧ ∀ x ∈ ([0, 0] : List Len), x = 0 :=
  ⟨⟨{ State.reset with lenPos := 255 }, rfl, congrArg (Option.map Fin.val) (List.getElem?_replicate_of_lt (by decide)), rfl, rfl⟩,
    ⟨{ State.reset with lenList := .mainHigh, lenPos := 495 }, rfl,
      congrArg (Option.map Fin.val) (List.getElem?_replicate_of_lt (by decide)), rfl, rfl⟩,
    ⟨{ State.reset with lenList := .length, lenPos := 248 }, rfl,
      congrArg (Option.map Fin.val) (List.getElem?_replicate_of_lt (by decide)), rfl, rfl⟩,
    by decide, by decide, by decide, by decide⟩

theorem witness_LengthCodeErrors : ∃ s : State, s.listLast < s.lenPos + (4 + (0 : BitVec 4).toNat) ∧
    s.listLast < s.lenPos + (20 + (0 : BitVec 5).toNat) ∧ s.listLast < s.lenPos + (4 + (0 : BitVec 1).toNat) ∧ 16 < 17 :=
  ⟨{ State.reset with lenPos := 253 }, by decide⟩

theorem witness_LiteralWrites : ({ State.reset with windowPos := 32767 } : State).windowPos < State.reset.winSize := by decide

theorem witness_MatchAwaitsLength : matchParts (.matchS0 7) = some (0, 7) ∧ matchParts (.matchS49 7) = some (49, 7) := by decide

theorem witness_RepeatMatchCopies : ∃ (s : State) (r : Regs), MatchForm (.matchS1 1) s 1 3 ∧ RepeatOffset s 1 3 r ∧
    s.WindowInv ∧ firstCheck s 3 3 = none ∧ MatchForm (.lsym 0) { s with pend := ⟨0, 0, 0⟩ } 0 9 ∧
    RepeatOffset { s with r0 := 3 } 0 3 ⟨3, 3, 1⟩ ∧ RepeatOffset { s with r2 := 3 } 2 3 ⟨3, 3, 1⟩ :=
  ⟨{ xyz 3 with r1 := 3 }, ⟨3, 1, 1⟩, .inl ⟨1, rfl, by decide, rfl⟩, .inr (.inl ⟨rfl, rfl, rfl⟩),
    ⟨(xyz_window 3).1, (xyz_window 3).2, (xyz_window 3).3⟩, by decide, .inr ⟨0, rfl, rfl, by decide, rfl⟩,
    .inl ⟨rfl, rfl, rfl⟩, .inr (.inr ⟨rfl, rfl, rfl⟩)⟩

theorem witness_VerbatimMatchCopies : ∃ (s : State) (r : Regs), MatchForm (.matchS4 1) s 4 3 ∧ VerbatimOffset s 4 3 1 r ∧
    s.WindowInv ∧ firstCheck s 3 3 = none ∧ MatchForm (.matchS3 0) s 3 2 ∧ VerbatimOffset s 3 1 0 ⟨1, 1, 1⟩ :=
  ⟨{ xyz 3 with inp := [0xFF, 0xFF] }, ⟨3, 1, 1⟩, .inl ⟨1, rfl, by decide, rfl⟩,
    ⟨by decide, 4, 15, by decide, by decide, rfl, .inr (by decide), by decide, by decide⟩,
    ⟨(xyz_window 3).1, (xyz_window 3).2, (xyz_window 3).3⟩, by decide, .inl ⟨0, rfl, by decide, rfl⟩,
    ⟨by decide, 3, 15, by decide, by decide, rfl, .inl rfl, by decide, by decide⟩⟩

theorem witness_AlignedMatchAwaits : ∃ s : State, MatchForm (.matchS8 1) s 8 3 ∧ (8, 3, 16, 15) ∈ slotRows ∧ 3 ≤ 3 ∧
    s.blockType = .aligned ∧ s.mode = .bitstream ∧ s.hasBits (3 - 3) ∧
    MatchForm (.matchS49 0) s 49 2 ∧ (49, 17, 1966080, 21) ∈ slotRows ∧ s.hasBits (17 - 3) :=
  ⟨{ reading .bitstream [0xFF, 0xFF] 0 with blockType := .aligned }, .inl ⟨1, rfl, by decide, rfl⟩, by decide, by decide, rfl,
    rfl, .inl rfl, .inl ⟨0, rfl, by decide, rfl⟩, by decide, .inr (by decide)⟩

/-- `xyz` again with a register for each of three copies, and fifteen bytes written. -/
theorem witness_AlignedMatchCopies : ∃ s : State, (s.pend.slot, 3, 16, 15) ∈ slotRows ∧ 3 ≤ 3 ∧
    14 = 16 - 2 + (8 * s.pend.hi + (0 : BitVec 3).toNat) ∧ s.WindowInv ∧ firstCheck s 14 s.pend.length = none :=
  ⟨{ State.reset with
      window := [(0, 0), (1, 1), (2, 2), (3, 3), (4, 4), (5, 5), (6, 6), (7, 7)] ++
        [(8, 8), (9, 9), (10, 10), (11, 11), (12, 12), (13, 13)]
      windowPos := 14, totalWritten := 14, produced := 14, blockRemaining := 2, pend := ⟨8, 2, 0⟩ },
    by decide, by decide, by decide,
    { inWindow := by show 14 ≤ 2 ^ 15; decide
      position := rfl
      filled := fun a _ => by
        show (Memory.read ([(0, 0), (1, 1), (2, 2), (3, 3), (4, 4), (5, 5), (6, 6), (7, 7)] ++
          [(8, 8), (9, 9), (10, 10), (11, 11), (12, 12), (13, 13)]) a).isSome = true ↔ a < 14
        rcases a with _ | _ | _ | _ | _ | _ | _ | _ | _ | _ | _ | _ | _ | _ | a <;>
          simp [Memory.read] },
    by decide⟩

/-- One failing check of each kind, the first two on one state (C2). -/
theorem witness_MatchCheckFails : MatchForm (.matchS0 3) { xyz 2 with r0 := 32768 } 0 5 ∧
    RepeatOffset { xyz 2 with r0 := 32768 } 0 32768 ⟨32768, 1, 1⟩ ∧
    firstCheck { xyz 2 with r0 := 32768 } 32768 5 = some .windowOverrun ∧ firstCheck (xyz 2) 0 2 = some .zeroOffset ∧
    firstCheck (xyz 2) 4 2 = some .undefinedWindowRead ∧ firstCheck (xyz 2) 3 3 = some .blockOverrun ∧
    VerbatimOffset (xyz 1) 3 1 0 ⟨1, 1, 1⟩ ∧ firstCheck (xyz 1) 1 2 = some .blockOverrun ∧
    (8, 3, 16, 15) ∈ slotRows ∧ firstCheck { xyz 2 with pend := ⟨8, 3, 0⟩ } (16 - 2 + (8 * 0 + 5)) 3 = some .undefinedWindowRead :=
  ⟨.inl ⟨3, rfl, by decide, rfl⟩, .inl ⟨rfl, by decide, rfl⟩, by decide, by decide, by decide, by decide,
    ⟨by decide, 3, 15, by decide, by decide, rfl, .inl rfl, by decide, by decide⟩, by decide, by decide, by decide⟩

/-- The bytes of a window filled once. -/
def letters : List Host.Cell := (List.range 32768).map fun a => (0 + a, 0x41)

/-- A window filled once whose next byte goes to its start. -/
def full : State :=
  { State.reset with
    window := letters, windowPos := 0, totalWritten := 32768, blockRemaining := 9 }

theorem read_filled (n k a : Nat) (v : Byte) :
    (Memory.read ((List.range n).map fun a => (k + a, v)) a).isSome = true ↔ k ≤ a ∧ a < k + n := by
  induction n generalizing k with
  | zero => simp [Memory.read]
  | succ n ih =>
    rw [List.range_succ_eq_map, List.map_cons, List.map_map]
    have he : ((List.range n).map ((fun a => ((k + a, v) : Host.Cell)) ∘ Nat.succ)) = (List.range n).map fun a => (k + 1 + a, v) := by
      apply List.map_congr_left
      intro a _
      simp only [Function.comp_apply, Prod.mk.injEq, and_true]
      omega
    rw [he]
    unfold Memory.read
    split
    · rename_i h
      simp only [Nat.add_zero] at h
      simp; omega
    · rename_i h
      simp only [Nat.add_zero] at h
      rw [ih (k + 1)]
      omega

theorem read_letters (a : Nat) : (Memory.read letters a).isSome = true ↔ a < 32768 := by
  have h := read_filled 32768 0 a 0x41
  unfold letters
  rw [h]
  simp

theorem full_window : full.WindowInv where
  inWindow := Nat.zero_le _
  position := by simp [full, State.winSize, State.reset, State.fresh, Config.resetWindowBits]
  filled a ha := by
    have h := read_letters a
    have hw : full.window = letters := by simp only [full]
    have ht : full.totalWritten = 32768 := by simp only [full]
    rw [hw, ht]
    exact h

theorem witness_SplitCopy : full.WindowInv ∧ firstCheck full 3 4 = none ∧ full.windowPos < 3 ∧ firstCheck full 3 2 = none := by
  refine ⟨full_window, ?_, by show 0 < 3; decide, ?_⟩ <;>
    simp [firstCheck, matchChecks, full, State.reset, State.fresh, State.winSize, Config.resetWindowBits]

theorem witness_PaddingRule : ∃ s u : State, s.mode = .bitstream ∧ 4 = 16 - s.pos % 16 ∧ s.hasBits 4 ∧ need 4 s = .ok () u ∧
    (∀ b, b < 32 → 28 ≤ b → streamBit u.inp b = false) ∧
    (∃ b, b < 32 ∧ 28 ≤ b ∧ streamBit [0x00, 0x30, 0x21, 0x00] b = true) ∧
    need 4 { s with inp := [0], eof := true } = .raise .prematureEOF { s with inp := [0], eof := true } ∧
    ({ s with mode := .bytestream } : State).mode = .bytestream :=
  ⟨reading .bitstream [0x00, 0x30, 0xA0, 0x00] 28, _, rfl, by decide, .inr (by decide), rfl, by decide, ⟨31, by decide⟩, rfl, rfl⟩

theorem witness_RegisterWordsLoad : ∃ s : State, s.ctl = .uncWords ∧ s.mode = .bytestream ∧ s.hasBytes 12 :=
  ⟨{ reading .bytestream (List.replicate 16 0) 4 with ctl := .uncWords }, rfl, rfl, by show 4 + 12 ≤ _; decide⟩

/-- A payload run of two bytes at the end of its frame: the bytes at hand, the second pulled, the input ended after the
first, no reply left. -/
theorem witness_PayloadCopies : ∃ s u v : State, 2 = min s.blockRemaining.toNat (32768 - s.produced) ∧ s.mode = .bytestream ∧
    s.hasBytes 2 ∧ s.windowPos + 2 ≤ s.winSize ∧
    fetchByte (1 + 2 - 1) { s with inp := [1, 2], replies := [⟨false, .data [3]⟩] } = .ok () u ∧ u.inp = [1, 2, 3] ∧
    fetchByte (1 + 2 - 1) { s with inp := [1, 2], eof := true } = .raise .prematureEOF v ∧ 1 = v.inp.length - s.pos ∧
    fetchByte (1 + 2 - 1) { s with inp := [1, 2] } = .stop .hostSilent :=
  ⟨{ reading .bytestream [1, 2, 3] 1 with blockRemaining := 7, produced := 32766, windowPos := 32766 }, _, _, by decide, rfl,
    by show 1 + 2 ≤ _; decide, by show 32766 + 2 ≤ 2 ^ 15; decide, rfl, rfl, rfl, rfl, rfl⟩

theorem witness_PadByteRule : ∃ s u : State, s.mode = .bytestream ∧ s.pos % 2 = 1 ∧ s.hasBytes 1 ∧
    fetchByte s.pos s = .ok () u ∧ ({ s with pos := 2 } : State).pos % 2 = 0 ∧
    fetchByte 1 { s with inp := [0], eof := true } = .raise .prematureEOF { s with inp := [0], eof := true } ∧
    State.reset.mode = .bitstream :=
  ⟨reading .bytestream [1, 2] 1, _, rfl, by decide, by show 1 + 1 ≤ _; decide, rfl, by decide, rfl, rfl⟩

theorem witness_StepRunsInstruction : ∃ s u : State, s.ctl ≠ .idle ∧ seek s = .ok (.element .alignLen) u ∧
    fetchInstr .alignLen u = .ok (.alignlen 5) { u with pos := 3 } ∧
    seek { u with eof := true } = .ok (.element .alignLen) { u with eof := true } ∧
    fetchInstr .alignLen { State.reset with ctl := .alignLens } = .stop .hostSilent ∧
    fetchInstr .alignLen { State.reset with ctl := .alignLens, eof := true }
      = .raise .prematureEOF { State.reset with ctl := .alignLens, eof := true } ∧
    seek { xyz 0 with eof := true } = .ok .complete { xyz 0 with eof := true } ∧
    seek (xyz 0) = .stop .hostSilent ∧
    seek { xyz 0 with replies := [⟨false, .error 1⟩] } = .raise (.callbackError 1) (xyz 0) ∧
    State.reset.ctl = .idle ∧ State.reset.alive = true ∧ ({ State.reset with alive := false } : State).alive = false :=
  ⟨{ reading .bitstream [0x00, 0xA0] 0 with ctl := .alignLens }, _, by decide, rfl, rfl, rfl, rfl, rfl, rfl, rfl, rfl, rfl, rfl, rfl⟩

/-- A decoder that is destroyed (R324): a frame asked for after it is refused, as where none was constructed. -/
theorem test_destroy : ∃ t u : State,
    step { State.reset with r0 := 9, status := .failed .badPadding, cmds := [.destroy, .decodeFrame 32768] } = .next t ∧
    t.alive = false ∧ t.r0 = 1 ∧ t.result = none ∧ step t = .next u ∧ u.result = some .refused := ⟨_, _, rfl, rfl, rfl, rfl, rfl, rfl⟩

/-- A pretree of the code words `0` for 17 and `1` for 19. -/
def runPretree : Table := ⟨[0, 0, 0, 0, 0, 0, 0, 0, 0, 0, 0, 0, 0, 0, 0, 0, 0, 1, 0, 1], false⟩

/-- A reader with two tables built, its lengths and the other tables as they are at reset. -/
def withTables (m : Mode) (bytes : List Byte) (p : Nat) : State :=
  { reading m bytes p with tPre := runPretree, tAl := ⟨List.replicate 8 3, false⟩ }

theorem withTables_lengths (m : Mode) (bytes : List Byte) (p : Nat) : (withTables m bytes p).LengthsInv := by
  exact {
    main := List.length_replicate ..
    len := List.length_replicate ..
    al := List.length_replicate ..
    pre := List.length_replicate ..
    tables := fun t => by
      cases t
      · exact .inr ⟨rfl, by show ∀ l ∈ runPretree.lens, l ≤ 16; decide, rfl⟩
      · exact .inl rfl
      · exact .inl rfl
      · exact .inr ⟨rfl, by show ∀ l ∈ List.replicate 8 3, l ≤ 16; decide, rfl⟩ }

/-- An aligned symbol with only its own bits and its peek at hand; a code-19 run whose inner symbol is 17 (R171); a
pad byte. -/
theorem witness_FetchIsDecode : ∃ s u v : State, s.LengthsInv ∧ s.mode = (Site.alSym).mode ∧ s.mode = .bitstream ∧
    s.hasBits (bitsToFetch .alSym (.instr (.alsym 5) []) 3) ∧
    decodeBits .alSym (fun t => canonical (s.table t).lens) ((List.range 3).map fun k => streamBit s.inp (s.pos + k))
      = .instr (.alsym 5) [] ∧
    v.LengthsInv ∧ v.mode = (Site.lenCode).mode ∧ v.mode = .bitstream ∧
    v.hasBits (bitsToFetch .lenCode (.rejected (.error .badLengthCode)) 3) ∧
    decodeBits .lenCode (fun t => canonical (v.table t).lens) ((List.range 3).map fun k => streamBit v.inp (v.pos + k))
      = .rejected (.error .badLengthCode) ∧
    u.LengthsInv ∧ u.mode = (Site.padByte).mode ∧ u.mode = .bytestream ∧ u.hasBytes 1 ∧
    decode .padByte (fun t => canonical (u.table t).lens) ((u.inp.drop u.pos).take 1) = .instr (.uncPadByte 7) [] :=
  ⟨withTables .bitstream [0x00, 0xA0] 0, withTables .bytestream [0, 7] 1, withTables .bitstream [0x00, 0x80, 0, 0] 0,
    withTables_lengths .., rfl, rfl, .inr (by decide), by decide, withTables_lengths .., rfl, rfl, .inr (by decide), by decide,
    withTables_lengths .., rfl, rfl, by show 1 + 1 ≤ _; decide, by decide⟩

/-- The reader raises what the decoder rejects (R171). -/
theorem test_fetch_badLengthCode : fetchInstr .lenCode (withTables .bitstream [0x00, 0x80, 0, 0] 0)
    = .raise .badLengthCode { withTables .bitstream [0x00, 0x80, 0, 0] 0 with pos := 3 } := rfl

/-- The machine at reset with a command to come, or at the E8 header of its first command. -/
def started (c : Ctl) (cmds : List HostCmd) (replies : List Reply) : State :=
  { State.reset with ctl := c, cmds := cmds, replies := replies }

theorem started_inv (c : Ctl) (hc : c = .idle ∨ c = .e8Header) (cmds : List HostCmd) (replies : List Reply) :
    (started c cmds replies).Inv where
  config := ⟨by show 15 ≤ 15 ∧ 15 ≤ 21; decide, by show 0 < 4096; decide⟩
  memory := ⟨List.Pairwise.nil, nofun, List.Pairwise.nil, nofun⟩
  reader := ⟨rfl, nofun⟩
  lengths := {
    main := List.length_replicate ..
    len := List.length_replicate ..
    al := List.length_replicate ..
    pre := List.length_replicate ..
    tables := fun t => .inl (by cases t <;> rfl) }
  frame := {
    position := fun _ => rfl
    inWindow := fun _ => Nat.zero_le _
    framePos := fun _ => by show 0 < 2 ^ 15; decide
    produced := fun _ => Nat.zero_le _
    written := fun _ => rfl
    block := fun _ => by show (0 : Word24) ≤ 0; decide
    between := fun _ _ => ⟨rfl, by show 0 < 2 ^ 15; decide⟩ }
  window := ⟨Nat.zero_le _, rfl, fun a _ => by
    show (Memory.read [] a).isSome = true ↔ a < 0
    simp [Memory.read]⟩
  control := by
    constructor <;> intro _ <;> rcases hc with rfl | rfl <;> first | (intros; rfl) | simp [started, State.reset, State.fresh]
  built := by
    constructor <;> intro _ <;> rcases hc with rfl | rfl <;> simp [started, State.reset, State.fresh, State.inElements]
  placed := ⟨fun _ => .inl rfl⟩
  status := ⟨fun h => absurd rfl h⟩

/-- A state with every invariant and a step from it: the premises of `StepKeepsMemories`, `StepKeepsTables`,
`StepKeepsFrame`, `StepKeepsWindow`, `StepKeepsControl`, `StepKeepsBuilt` and `StepKeepsPlaced`. -/
theorem witness_invariants : ∃ s t : State, s.Inv ∧ step s = .next t ∧ t.ctl = .e8Header ∧ s.ctl = .idle :=
  ⟨started .idle [.decodeFrame 32768] [], _, started_inv _ (.inl rfl) _ _, rfl, rfl, rfl⟩

/-- A step inside a command that keeps the invariants of `StepKeepsFrame` and `StepKeepsWindow`: a literal symbol's. -/
theorem witness_invariants_inside : ∃ s t : State, s.WindowInv ∧ s.FrameInv ∧ step s = .next t ∧ t.windowPos = 4 :=
  ⟨{ { xyz 2 with blockLength := 2 } with inp := [0, 0, 0, 0], tMain := ⟨[1, 1], false⟩ }, _,
    ⟨(xyz_window 2).1, (xyz_window 2).2, (xyz_window 2).3⟩,
    ⟨(xyz_frame 2).1, (xyz_frame 2).2, (xyz_frame 2).3, (xyz_frame 2).4, (xyz_frame 2).5, (xyz_frame 2).6, (xyz_frame 2).7⟩,
    rfl, rfl⟩

theorem witness_OnlySilenceStops : (State.reset.eof = false ∧ State.reset.replies = []) ∧
    (started .e8Header [] []).Inv ∧ (started .e8Header [] []).status = .ready ∧
    step (started .e8Header [] []) = .fault .hostSilent := ⟨⟨rfl, rfl⟩, started_inv _ (.inr rfl) _ _, rfl, rfl⟩

theorem witness_NoWrongModeNoOverrun : ∃ s t : State, s.Inv ∧ s.status = .ready ∧ step s = .next t ∧
    t.status = .failed (.callbackError 7) :=
  ⟨started .e8Header [] [⟨false, .error 7⟩], _, started_inv _ (.inr rfl) _ _, rfl, rfl, rfl⟩

theorem witness_ErrorsWriteNoOutput : ∃ s t u v : State, step s = .next t ∧ s.status = .ready ∧
    t.status = .failed (.callbackError 7) ∧ step u = .next v ∧ v.out ≠ u.out :=
  ⟨started .e8Header [] [⟨false, .error 7⟩], _, { xyz 0 with eof := true }, _, rfl, rfl, rfl, rfl, by decide⟩

/-- A decoder that is done: a frame asked for leaves it so, a construction out of range too, one in range and the
decoder's end do not. -/
theorem witness_OnlyConstructRevives : ∃ s t u v w : State, s.StatusInv ∧ s.status ≠ .ready ∧
    step { s with cmds := [.decodeFrame 32768] } = .next t ∧ t.status = s.status ∧
    step { s with cmds := [.construct 14 0] } = .next u ∧ u.status = s.status ∧
    step { s with cmds := [.construct 16 0] } = .next v ∧ v.status = .ready ∧ (15 ≤ 16 ∧ 16 ≤ 21) ∧
    step { s with cmds := [.destroy] } = .next w ∧ w.status = .ready ∧ w.alive = false :=
  ⟨{ State.reset with status := .done }, _, _, _, _, ⟨fun _ => rfl⟩, by decide, rfl, rfl, rfl, rfl, rfl, rfl, by decide, rfl,
    rfl, rfl⟩

/-- A pull that the host answers with an error: the decoder fails, and stands between commands. -/
theorem witness_StepKeepsStatus : ∃ s t : State, s.StatusInv ∧ s.ctl ≠ .idle ∧ step s = .next t ∧ t.status ≠ .ready ∧ t.ctl = .idle :=
  ⟨started .e8Header [] [⟨false, .error 7⟩], _, (started_inv _ (.inr rfl) _ _).status, by decide, rfl, by decide, rfl⟩

theorem witness_ReaderOnlyAdvances : ∃ s t : State, step s = .next t ∧
    ¬ (s.ctl = .idle ∧ ∃ c cs, s.cmds = c :: cs ∧ ((∃ wb ri, c = .construct wb ri) ∨ c = .destroy)) ∧ t.pos = 4 ∧ s.mode = .bitstream ∧ t.mode = .bytestream :=
  ⟨{ reading .bitstream [0x00, 0x30, 0xA0, 0x00] 28 with ctl := .uncPad }, _, rfl, fun h => absurd h.1 (by decide), rfl, rfl, rfl⟩

theorem witness_RegisterWriters : ∃ t : State, exec (.uncRWords 2 1 1) State.reset = .next t ∧
    (t.r0, t.r1, t.r2) ≠ (State.reset.r0, State.reset.r1, State.reset.r2) := ⟨_, rfl, by decide⟩

theorem witness_WindowAndTableWriters : ∃ t u v : State, exec (.lit 1) State.reset = .next t ∧ t.window ≠ State.reset.window ∧
    exec .delta16 (lens 0 [0, 0]) = .next u ∧ (u.lMain, u.lLen) ≠ ((lens 0 [0, 0]).lMain, (lens 0 [0, 0]).lLen) ∧
    exec (.alignlen 3) { State.reset with lAl := List.replicate 8 3, fieldIdx := 7 } = .next v ∧
    v.table .al ≠ State.reset.table .al ∧ v.lAl ≠ State.reset.lAl ∧
    (∃ w, exec (.prelen 9) State.reset = .next w ∧ w.lPre ≠ State.reset.lPre) ∧
    (∃ w, exec (.decodeFrame 32768) { lens 0 [3, 0] with resetInterval := 1, alive := true, ctl := .idle, status := .ready } = .next w ∧
      w.lLen ≠ (lens 0 [3, 0]).lLen) :=
  ⟨_, _, _, rfl, by decide, rfl, fun h => absurd (congrArg Prod.snd h) (by decide), rfl, by decide, by decide, ⟨_, rfl, by decide⟩,
    ⟨_, rfl, by decide⟩⟩

end Sys2Proof.Tests
end

/-! ## The bit reader (spec/40_bitreader.md): pulls, fetches, bit reads, mode switches and the end of input -/

section BitReader

namespace Sys2Proof.Machine

/-! ### Pulls and fetches -/

theorem pull_eof {s : State} (h : s.eof = true) : pull s = .raise .prematureEOF s := by
  simp [pull, h]

theorem fetchByte_of_pull_ok {i : Nat} {s u : State} (hi : s.inp.length ≤ i) (h : pull s = .ok () u) :
    fetchByte i s = fetchByte i u := by
  rw [fetchByte_step hi, h, Res.bind_ok]

theorem fetchByte_of_pull_raise {i : Nat} {s u : State} {e : ErrKind} (hi : s.inp.length ≤ i)
    (h : pull s = .raise e u) : fetchByte i s = .raise e u := by
  rw [fetchByte_step hi, h, Res.bind_raise]

/-- A fetch that has a value has only added bytes at the end of the input. -/
theorem fetchByte_ok_pullsOnly {i : Nat} {s u : State} (h : fetchByte i s = .ok () u) : PullsOnly s u := by
  simpa [h] using fetchByte_leaves i s

/-- Settles O8: `Pull` tests `eof` first, and a fetch of a missing byte begins with a pull. -/
theorem noPullAfterEof : Obligations.NoPullAfterEof := by
  unfold Obligations.NoPullAfterEof
  intro s i he
  have hp : pull s = .raise .prematureEOF s := pull_eof he
  exact ⟨hp, fun hi => fetchByte_of_pull_raise hi hp, fetchByte_here⟩

/-- Settles O9: a fetch of a missing byte is a pull and then the same fetch, and pulls only append to `IN`. -/
theorem fetchPullsWhatIsMissing : Obligations.FetchPullsWhatIsMissing := by
  unfold Obligations.FetchPullsWhatIsMissing
  intro s i
  refine ⟨fetchByte_here, fun hi => ⟨fun u => fetchByte_of_pull_ok hi, fun e u => fetchByte_of_pull_raise hi⟩,
    fun u hu => ?_⟩
  have hpulls : PullsOnly s u := fetchByte_ok_pullsOnly hu
  exact ⟨fetchByte_ok hu, hpulls.2, hpulls.pos⟩

/-! ### Bit reads -/

theorem need_zero (s : State) : need 0 s = .ok () s := need_here (.inl rfl)

theorem need_ok_pos {n : Nat} {s u : State} (h : need n s = .ok () u) : u.pos = s.pos := by
  have hpulls : PullsOnly s u := by simpa [h] using need_leaves n s
  exact hpulls.pos

theorem readBits_wrongMode {n : Nat} {s : State} (hm : s.mode = .bytestream) :
    readBits n s = .raise .wrongMode s := by
  simp [readBits, hm]

/-- In `Bitstream` mode a read is `Need(n)`, then the field of `B` at the position. -/
theorem readBits_bitstream {n : Nat} {s : State} (hm : s.mode = .bitstream) :
    readBits n s = (need n s).bind fun _ u => .ok (streamField u.inp u.pos n) { u with pos := u.pos + n } := by
  simp [readBits, hm, State.peek_eq]

theorem readBits_lt {n v : Nat} {s u : State} (h : readBits n s = .ok v u) : v < 2 ^ n := by
  cases hm : s.mode with
  | bytestream =>
    rw [readBits_wrongMode hm] at h
    cases h
  | bitstream =>
    rw [readBits_bitstream hm] at h
    obtain ⟨_, t, -, hv⟩ := Res.bind_eq_ok h
    cases hv
    exact streamField_lt t.inp t.pos n

/-- Settles O10: a read is `Need(n)`, then the field of `B` at a position that the pulls do not move. -/
theorem readBitsRule : Obligations.ReadBitsRule := by
  unfold Obligations.ReadBitsRule
  intro n s
  refine ⟨readBits_wrongMode, fun hm => ⟨?_, fun u hu => ?_, fun e u he => ?_⟩, need_here, fun v u => readBits_lt⟩
  · rw [readBits_bitstream hm, need_zero]
    rfl
  · have hpos : u.pos = s.pos := need_ok_pos hu
    refine ⟨hpos, ?_⟩
    rw [readBits_bitstream hm, hu, Res.bind_ok, hpos]
  · rw [readBits_bitstream hm, he, Res.bind_raise]

/-! ### The end of input at a block boundary -/

/-- `EofAtBoundary` pulls nothing once the end of input or a real byte at the boundary is known. -/
theorem eofAtBoundary_known {s : State} (h : s.eof = true ∨ s.boundaryByte < s.nreal) :
    eofAtBoundary s = .ok (decide (s.nreal ≤ s.boundaryByte)) s := by
  have hstop : ¬ (s.nreal ≤ s.boundaryByte ∧ s.eof = false) := by
    rintro ⟨hn, he⟩
    rcases h with h | h
    · simp [he] at h
    · omega
  unfold eofAtBoundary
  cases s.replies.length <;> simp only [eofLoop, if_neg hstop]

/-- Otherwise it is a pull, then the same search: the pull moves neither the position nor the mode, and it uses up a
reply as it does a unit of the loop's fuel. -/
theorem eofAtBoundary_step {s : State} (he : s.eof = false) (hn : s.nreal ≤ s.boundaryByte) :
    eofAtBoundary s = (pull s).bind fun _ u => eofAtBoundary u := by
  cases hp : pull s with
  | ok a u =>
    have hlen : s.replies.length = u.replies.length + 1 := (pull_ok hp).2
    have hb : u.boundaryByte = s.boundaryByte := boundaryByte_pulls (by simpa [hp] using pull_leaves s)
    simp [eofAtBoundary, hlen, eofLoop, hn, he, hp, hb]
  | raise e u =>
    unfold eofAtBoundary
    cases s.replies.length <;> simp [eofLoop, hn, he, hp]
  | stop f =>
    unfold eofAtBoundary
    cases s.replies.length <;> simp [eofLoop, hn, he, hp, Res.bind]

theorem eq_boundaryByte {s : State} {q : Nat} (hbit : s.mode = .bitstream → q = 2 * ((s.pos + 15) / 16))
    (hbyte : s.mode = .bytestream → q = s.pos + s.pos % 2) : q = s.boundaryByte := by
  unfold State.boundaryByte
  cases hm : s.mode with
  | bitstream => exact hbit hm
  | bytestream => exact hbyte hm

/-- Settles O12: the search ends where the answer is known, and is a pull and the same search where it is not. -/
theorem eofAtBoundaryRule : Obligations.EofAtBoundaryRule := by
  unfold Obligations.EofAtBoundaryRule
  intro s q hbit hbyte
  obtain rfl : q = s.boundaryByte := eq_boundaryByte hbit hbyte
  refine ⟨eofAtBoundary_known, fun he hn => ⟨fun u hu => ?_, fun e u hu => ?_⟩, fun b u hb => ?_⟩
  · rw [eofAtBoundary_step he hn, hu, Res.bind_ok]
  · rw [eofAtBoundary_step he hn, hu, Res.bind_raise]
  · obtain ⟨hpulls, hval, heof⟩ := eofAtBoundary_ok hb
    rw [boundaryByte_pulls hpulls] at hval
    exact ⟨hpulls.pos, hpulls.mode, hval, heof⟩

/-! ### Mode switches -/

theorem padBits_eq (pos : Nat) : padBits pos = 16 - pos % 16 := by
  unfold padBits
  split <;> omega

/-- A field is 0 exactly where each of its bits is. -/
theorem streamField_eq_zero_iff (inp : List Byte) (p n : Nat) :
    streamField inp p n = 0 ↔ ∀ b, p ≤ b → b < p + n → streamBit inp b = false := by
  induction n with
  | zero => exact ⟨fun _ b hp hb => by omega, fun _ => rfl⟩
  | succ n ih =>
    have hsplit : streamField inp p (n + 1) = 0 ↔ streamField inp p n = 0 ∧ streamBit inp (p + n) = false := by
      simp [streamField]
    rw [hsplit, ih]
    constructor
    · rintro ⟨hfirst, hlast⟩ b hp hb
      rcases Nat.lt_or_ge b (p + n) with hlt | hge
      · exact hfirst b hp hlt
      · rwa [show b = p + n by omega]
    · intro h
      exact ⟨fun b hp hb => h b hp (by omega), h (p + n) (by omega) (by omega)⟩

theorem exec_uncPad (s : State) :
    exec .uncPad s = ((toByteMode s).bind fun _ u => .ok () (u.goto .uncWords)).finish := rfl

theorem exec_uncPadByte (x : Byte) (s : State) : exec (.uncPadByte x) s = (toBitMode s).finish := rfl

theorem toByteMode_bytestream {s : State} (hm : s.mode = .bytestream) : toByteMode s = .ok () s := by
  simp [toByteMode, hm]

theorem toByteMode_bitstream {s : State} (hm : s.mode = .bitstream) :
    toByteMode s = (need (16 - s.pos % 16) s).bind fun _ u =>
      if streamField u.inp u.pos (16 - u.pos % 16) = 0 then
        .ok () { u with pos := u.pos + (16 - u.pos % 16) }.enterByteMode
      else .raise .badPadding u := by
  simp [toByteMode, hm, padBits_eq, State.peek_eq]

theorem toBitMode_bitstream {s : State} (hm : s.mode = .bitstream) : toBitMode s = .ok () s := by
  simp [toBitMode, hm]

theorem toBitMode_odd {s : State} (hm : s.mode = .bytestream) (ho : s.pos % 2 = 1) :
    toBitMode s = (fetchByte s.pos s).bind fun _ u => .ok () { u with pos := u.pos + 1 }.enterBitMode := by
  simp [toBitMode, hm, ho]

theorem toBitMode_even {s : State} (hm : s.mode = .bytestream) (he : s.pos % 2 = 0) :
    toBitMode s = .ok () s.enterBitMode := by
  simp [toBitMode, hm, he]

/-- Settles O39: the switch is `Need(d)`, then the test of the `d`-bit field, which is 0 exactly where its bits are. -/
theorem paddingRule : Obligations.PaddingRule := by
  unfold Obligations.PaddingRule
  rintro s d rfl
  refine ⟨fun hm => ⟨fun u hu => ?_, fun e u he => ?_⟩, fun hm => ?_, need_here, by omega⟩
  · have hpos : u.pos = s.pos := need_ok_pos hu
    have hiff := streamField_eq_zero_iff u.inp s.pos (16 - s.pos % 16)
    refine ⟨fun hzero => ?_, fun ⟨b, hp, hb, hset⟩ => ?_⟩
    · rw [exec_uncPad, toByteMode_bitstream hm, hu, Res.bind_ok, hpos, if_pos (hiff.mpr hzero)]
      rfl
    · have hne : streamField u.inp s.pos (16 - s.pos % 16) ≠ 0 := fun h0 => by
        simp [hiff.mp h0 b hp hb] at hset
      rw [exec_uncPad, toByteMode_bitstream hm, hu, Res.bind_ok, hpos, if_neg hne, Res.bind_raise, Res.finish_raise]
  · rw [exec_uncPad, toByteMode_bitstream hm, he, Res.bind_raise, Res.bind_raise, Res.finish_raise]
  · rw [exec_uncPad, toByteMode_bytestream hm]
    rfl

/-- Settles O42: the switch fetches and skips the byte at an odd position, skips nothing at an even one, and turns the
byte position into a bit position. -/
theorem padByteRule : Obligations.PadByteRule := by
  unfold Obligations.PadByteRule
  intro x s
  refine ⟨fun hm ho => ⟨fun u hu => ?_, fun e u he => ?_⟩, fun hm he => ?_, fun hm => ?_, fetchByte_here⟩
  · have hpos : u.pos = s.pos := (fetchByte_ok_pullsOnly hu).pos
    rw [exec_uncPadByte, toBitMode_odd hm ho, hu, Res.bind_ok, Res.finish_ok, hpos, State.enterBitMode, Nat.mul_comm]
  · rw [exec_uncPadByte, toBitMode_odd hm ho, he, Res.bind_raise, Res.finish_raise]
  · rw [exec_uncPadByte, toBitMode_even hm he, Res.finish_ok, State.enterBitMode, Nat.mul_comm]
  · rw [exec_uncPadByte, toBitMode_bitstream hm, Res.finish_ok]

end Sys2Proof.Machine

end BitReader

/-! ## Canonical-Huffman tables and code-length lists (spec/41_huffman.md): the build check and the errors of a run -/

section Huffman

namespace Sys2Proof.Machine

/-! ### The Kraft equality as a sum of shares -/

/-- The sum of the shares `2^-length` of the used symbols, as R162 states the Kraft equality. -/
def shareSum (lens : List Nat) : Rat := ((lens.filter (· ≠ 0)).map fun l => (1 / 2 : Rat) ^ l).sum

theorem shareSum_cons_zero (lens : List Nat) : shareSum (0 :: lens) = shareSum lens := by
  simp [shareSum]

theorem shareSum_cons_used {l : Nat} (hl : l ≠ 0) (lens : List Nat) :
    shareSum (l :: lens) = (1 / 2) ^ l + shareSum lens := by
  simp [shareSum, hl]

theorem kraftSum_cons_zero (lens : List Nat) : kraftSum (0 :: lens) = kraftSum lens := by
  simp [kraftSum]

theorem kraftSum_cons_used {l : Nat} (hl : l ≠ 0) (lens : List Nat) :
    kraftSum (l :: lens) = 2 ^ (16 - l) + kraftSum lens := by
  simp [kraftSum, hl]

/-- A length's weight in units of `2^-16` is `2^16` times its share; past 16 the exponent `16 - l` would be cut off. -/
theorem weight_eq_share {l : Nat} (hl : l ≤ 16) : (2 : Rat) ^ (16 - l) = 2 ^ 16 * (1 / 2) ^ l := by
  rw [pow_sub₀ 2 two_ne_zero hl, one_div, inv_pow]

theorem kraftSum_eq_shareSum {lens : List Nat} (hle : ∀ l ∈ lens, l ≤ 16) :
    (kraftSum lens : Rat) = 2 ^ 16 * shareSum lens := by
  induction lens with
  | nil => simp [kraftSum, shareSum]
  | cons l lens ih =>
    obtain ⟨hl, hrest⟩ := List.forall_mem_cons.mp hle
    by_cases hz : l = 0
    · rw [hz, kraftSum_cons_zero, shareSum_cons_zero, ih hrest]
    · rw [kraftSum_cons_used hz, shareSum_cons_used hz, mul_add, ← weight_eq_share hl, ← ih hrest,
        Nat.cast_add, Nat.cast_pow, Nat.cast_ofNat]

theorem kraftSum_complete_iff {lens : List Nat} (hle : ∀ l ∈ lens, l ≤ 16) :
    kraftSum lens = 2 ^ 16 ↔ shareSum lens = 1 := by
  have hscale : (kraftSum lens : Rat) = 2 ^ 16 * shareSum lens := kraftSum_eq_shareSum hle
  have hcast : kraftSum lens = 2 ^ 16 ↔ (kraftSum lens : Rat) = 2 ^ 16 := by norm_cast
  rw [hcast, hscale, mul_eq_left₀ (by norm_num)]

/-! ### Build -/

/-- The length fields are too narrow for a length above 16 (R160). -/
theorem State.lengths_le (s : State) (t : Tree) : ∀ l ∈ s.lengths t, l ≤ 16 := by
  intro l hl
  cases t <;> obtain ⟨x, -, rfl⟩ := List.mem_map.mp hl <;> omega

theorem rebuild_zero {t : Tree} {s : State} (hz : ∀ l ∈ s.lengths t, l = 0) :
    rebuild t s = if t = .len then .ok () (s.setTable t ⟨s.lengths t, true⟩) else .raise .incompleteHuffmanTree s := by
  have hbuild := buildTable_zero (by simpa using hz) (t == .len)
  by_cases ht : t = .len
  · rw [if_pos ht]
    exact rebuild_ok (by rw [hbuild, if_pos (by simpa using ht)])
  · rw [if_neg ht]
    exact rebuild_raise (by rw [hbuild, if_neg (by simpa using ht)])

theorem rebuild_complete {t : Tree} {s : State} (hused : ∃ l ∈ s.lengths t, l ≠ 0) (hk : kraftSum (s.lengths t) = 2 ^ 16) :
    rebuild t s = .ok () (s.setTable t ⟨s.lengths t, false⟩) :=
  rebuild_ok (by rw [buildTable_used (by simpa using hused), if_pos hk])

theorem rebuild_incomplete {t : Tree} {s : State} (hused : ∃ l ∈ s.lengths t, l ≠ 0)
    (hk : kraftSum (s.lengths t) ≠ 2 ^ 16) : rebuild t s = .raise .incompleteHuffmanTree s :=
  rebuild_raise (by rw [buildTable_used (by simpa using hused), if_neg hk])

/-- Settles O5: no length exceeds 16, so the Kraft sum in units of `2^-16` that `Build` tests is `2^16` times the sum of
the shares. -/
theorem buildRule : Obligations.BuildRule := by
  unfold Obligations.BuildRule
  intro t s
  have hkraft : kraftSum (s.lengths t) = 2 ^ 16 ↔ shareSum (s.lengths t) = 1 := kraftSum_complete_iff (s.lengths_le t)
  exact ⟨rebuild_zero, fun hused hsum => rebuild_complete hused (hkraft.mpr hsum),
    fun hused hsum => rebuild_incomplete hused (mt hkraft.mp hsum)⟩

/-! ### Length codes -/

theorem checkedRun_overrun {n : Nat} {s : State} (h : s.listLast < s.lenPos + n) (v : Len) :
    checkedRun n v s = .raise .lengthRunOverrun s := by
  rw [checkedRun, if_pos h]

theorem exec_zrun4 (k : BitVec 4) (s : State) : exec (.zrun4 k) s = (checkedRun (4 + k.toNat) 0 s).finish := rfl

theorem exec_zrun20 (k : BitVec 5) (s : State) : exec (.zrun20 k) s = (checkedRun (20 + k.toNat) 0 s).finish := rfl

theorem exec_srun_delta {z2 : Nat} (hz : z2 ≤ 16) (k : BitVec 1) (s : State) :
    exec (.srun k z2) s = (checkedRun (4 + k.toNat) (deltaLen s.prevLen z2) s).finish := by
  show execSrun k z2 s = _
  rw [execSrun, if_neg (by omega)]

theorem exec_srun_notDelta {z2 : Nat} (hz : 16 < z2) (k : BitVec 1) (s : State) :
    exec (.srun k z2) s = .next (s.takeError .badLengthCode) := by
  show execSrun k z2 s = _
  rw [execSrun, if_pos hz, Res.finish_raise]

/-- Settles O30: the three runs go through the one range check `checkedRun`, which code 19 reaches only with an inner
symbol that is a delta (R173). -/
theorem lengthCodeErrors : Obligations.LengthCodeErrors := by
  unfold Obligations.LengthCodeErrors
  intro s
  refine ⟨fun k hover => ?_, fun k hover => ?_, fun k z2 hz hover => ?_, fun k z2 hz => exec_srun_notDelta hz k s⟩
  · rw [exec_zrun4, checkedRun_overrun hover, Res.finish_raise]
  · rw [exec_zrun20, checkedRun_overrun hover, Res.finish_raise]
  · rw [exec_srun_delta hz, checkedRun_overrun hover, Res.finish_raise]

end Sys2Proof.Machine

end Huffman

/-! ## Frames and blocks (spec/42_frame_blocks.md): the start of a command, the block loop's head, the end of a frame -/

section FrameBlocks

namespace Sys2Proof.Machine

/-! ### The frame's bytes -/

theorem e8Bytes_length (b0 b1 b2 b3 : Byte) (cur magic : Int) : (e8Bytes b0 b1 b2 b3 cur magic).length = 4 := by
  unfold e8Bytes
  split <;> rfl

theorem e8Scan_length (magic : Int) (total lim i : Nat) (bytes : List Byte) :
    (e8Scan magic total lim i bytes).length = bytes.length := by
  induction i, bytes using e8Scan.induct (lim := lim) with
  | case1 i b b0 b1 b2 b3 rest hend => rw [e8Scan, if_pos hend]
  | case2 i b0 b1 b2 b3 rest hgo ih => simp +arith [e8Scan, hgo, e8Bytes_length, ih]
  | case3 i b b0 b1 b2 b3 rest hgo hb ih => rw [e8Scan, if_neg hgo, if_neg hb, List.length_cons, ih]; rfl
  | case4 i bytes hshort => rw [e8Scan]; exact hshort

/-- The E8 pass keeps the number of bytes (spec/44_e8_postprocess.md R271). -/
theorem State.e8Pass_length (s : State) (bytes : List Byte) : (s.e8Pass bytes).length = bytes.length := by
  unfold State.e8Pass
  split
  · rfl
  · exact e8Scan_length ..

/-- The frame's bytes in the window, as R204 copies them; a byte without a value, which a ready decoder's frame has none
of (`frame_filled`), counts as 0. -/
def State.frameBytes (s : State) : List Byte :=
  (List.range s.produced).map fun i => (Memory.read s.window (s.framePos + i)).getD 0

@[simp] theorem State.frameBytes_length (s : State) : s.frameBytes.length = s.produced := by
  simp [State.frameBytes]

/-- The bytes of the frame lie below `total_written`: the window's next place is `total_written mod W`. -/
theorem frame_written {s : State} (hf : s.FrameInv) (hw : s.WindowInv) (hr : s.status = .ready) {i : Nat}
    (hi : i < s.produced) : s.framePos + i < s.winSize ∧ s.framePos + i < s.totalWritten := by
  have hpos : s.windowPos = s.framePos + s.produced := hf.position hr
  have hin : s.windowPos ≤ s.winSize := hf.inWindow hr
  have htotal : s.totalWritten = s.outTotal + s.produced := hf.written hr
  refine ⟨by omega, ?_⟩
  rcases Nat.lt_or_ge s.totalWritten s.winSize with hlt | hge
  · have hmod : s.windowPos % s.winSize = s.totalWritten := by rw [hw.position, Nat.mod_eq_of_lt hlt]
    have hle : s.totalWritten ≤ s.windowPos := hmod ▸ Nat.mod_le ..
    rcases Nat.lt_or_eq_of_le hin with hwp | hwp
    · rw [Nat.mod_eq_of_lt hwp] at hmod
      omega
    · rw [hwp, Nat.mod_self] at hmod
      omega
  · omega

theorem frame_filled {s : State} (hf : s.FrameInv) (hw : s.WindowInv) (hr : s.status = .ready) {i : Nat}
    (hi : i < s.produced) :
    Memory.read s.window (s.framePos + i) = some ((Memory.read s.window (s.framePos + i)).getD 0) := by
  obtain ⟨hin, hwritten⟩ := frame_written hf hw hr hi
  obtain ⟨v, hv⟩ := Option.isSome_iff_exists.mp ((hw.filled _ hin).mpr hwritten)
  simp [hv]

theorem read_frame {s : State} (hf : s.FrameInv) (hw : s.WindowInv) (hr : s.status = .ready) {i : Nat}
    (hi : i < s.produced) : Memory.read s.window (s.framePos + i) = s.frameBytes[i]? := by
  rw [frame_filled hf hw hr hi]
  simp [State.frameBytes, hi]

/-! ### The end of a frame -/

theorem State.realign_pos_bitstream {s : State} (hm : s.mode = .bitstream) :
    s.realign.pos = 16 * ((s.pos + 15) / 16) := by
  simp only [State.realign, hm, apply_ite State.pos]
  split <;> omega

theorem State.realign_bytestream {s : State} (hm : s.mode = .bytestream) : s.realign = s := by
  simp only [State.realign, hm]

/-- `Realign` as one rounding up (spec/40_bitreader.md R143). -/
theorem State.realign_eq (s : State) :
    s.realign = { s with pos := if s.mode = .bitstream then 16 * ((s.pos + 15) / 16) else s.pos } := by
  cases hm : s.mode with
  | bitstream => rw [State.realign_only, State.realign_pos_bitstream hm, if_pos rfl]; simp only [hm]
  | bytestream => rw [State.realign_bytestream hm, if_neg nofun, ← hm]

/-- A ready decoder's frame completes (R204–R208): its bytes, E8 translated, go to the head of the output buffer and the
rest of the buffer stays. -/
theorem completeFrame_ready {s : State} (hf : s.FrameInv) (hw : s.WindowInv) (hr : s.status = .ready) :
    ∃ m, completeFrame s = .ok () (({ s with out := m } : State).realign.endFrame s.produced) ∧
      (∀ i, i < s.produced → Memory.read m i = (s.e8Pass s.frameBytes)[i]?) ∧
      ∀ a, s.produced ≤ a → Memory.read m a = Memory.read s.out a := by
  have hpos : s.windowPos = s.framePos + s.produced := hf.position hr
  have hread : readWindow s.framePos s.produced s = .ok s.frameBytes s :=
    readWindow_ok (hpos ▸ hf.inWindow hr) fun _ => frame_filled hf hw hr
  have hlen : (s.e8Pass s.frameBytes).length = s.produced := by rw [State.e8Pass_length, State.frameBytes_length]
  obtain ⟨m, hm, hother, hbytes, -, -⟩ := outWrite_ok (i := 0) (bytes := s.e8Pass s.frameBytes) (s := s)
    (by rw [hlen, Nat.zero_add]; exact hf.produced hr)
  refine ⟨m, ?_, fun i hi => ?_, fun a ha => hother a (.inr (by omega))⟩
  · rw [completeFrame, hread, Res.bind_ok, hm, Res.bind_ok]
  · have hi : i < (s.e8Pass s.frameBytes).length := by omega
    rw [List.getElem?_eq_getElem hi, ← hbytes i hi, Nat.zero_add]

theorem seek_complete_pullsOnly {s u : State} (hc : s.ctl ≠ .idle) (h : seek s = .ok .complete u) : PullsOnly s u := by
  cases seek_ok hc h with
  | full => exact .refl s
  | ended hc hf hb hp he hn => exact hp

theorem step_of_complete {s u : State} (hc : s.ctl ≠ .idle) (h : seek s = .ok .complete u) :
    step s = (completeFrame u).finish := by
  have hstep : step s = elementStep s := by
    unfold step
    split
    · exact absurd ‹_› hc
    · rfl
  rw [hstep, elementStep, nextInstr, h]
  rfl

/-- What pulling leaves, with the pulled parts as variables: every other part of `u` is that of `s` by definition. -/
theorem PullsOnly.exists_eq {s u : State} (h : PullsOnly s u) : ∃ eof inp nreal replies refused result,
    u = { s with eof := eof, inp := inp, nreal := nreal, replies := replies, refused := refused, result := result } :=
  ⟨_, _, _, _, _, _, h.1⟩

/-- Settles O17: the search only pulls, so the frame completed is that of `s`, whose bytes are all written. -/
theorem frameCompletes : Obligations.FrameCompletes := by
  unfold Obligations.FrameCompletes
  intro s u _ hf hw hr hc hseek
  have hidle : s.ctl ≠ .idle := by simp [hc]
  obtain ⟨eof, inp, nreal, replies, refused, result, hu⟩ := (seek_complete_pullsOnly hidle hseek).exists_eq
  have hfu : u.FrameInv := by subst hu; exact { hf with }
  have hwu : u.WindowInv := by subst hu; exact { hw with }
  have hru : u.status = .ready := by rw [hu, hr]
  obtain ⟨m, hm, hbytes, hother⟩ := completeFrame_ready hfu hwu hru
  have hpos : s.windowPos = s.framePos + s.produced := hf.position hr
  have hstep := step_of_complete hidle hseek
  rw [hm, Res.finish_ok, State.realign_eq, State.endFrame] at hstep
  subst hu
  refine ⟨_, hstep, ?_, ?_, ⟨s.frameBytes, s.frameBytes_length, fun i => read_frame hf hw hr, hbytes⟩, hother⟩
  · simp only [wrapAt, hr]
  · simp only [hpos]

/-! ### The start of a command -/

theorem exec_decodeFrame (n : Nat) (s : State) : exec (.decodeFrame n) s = execDecodeFrame n s := rfl

theorem State.accepts_iff {s : State} {n : Nat} :
    s.accepts n = true ↔ s.alive = true ∧ s.ctl = .idle ∧ s.status = .ready ∧ 32768 ≤ n := by
  simp only [State.accepts, Bool.and_eq_true, beq_iff_eq, decide_eq_true_eq, and_assoc]
  rfl

theorem State.resetDue_iff {s : State} :
    s.resetDue = true ↔ s.resetInterval ≠ 0 ∧ s.frameIndex % s.resetInterval = 0 := by
  simp [State.resetDue]

theorem execDecodeFrame_accepted {n : Nat} {s : State} (h : s.accepts n = true) :
    execDecodeFrame n s = ((resetStep { s with produced := 0 }).bind fun _ s => .ok () s.afterReset).finish := by
  rw [execDecodeFrame, if_pos h]

theorem execDecodeFrame_refused {n : Nat} {s : State} (h : ¬ s.accepts n = true) :
    execDecodeFrame n s = .next s.refuse := by
  rw [execDecodeFrame, if_neg h]

theorem resetStep_inBlock {s : State} (hdue : s.resetDue = true) (hb : s.blockRemaining ≠ 0) :
    resetStep s = .raise .inconsistentResetState s := by
  rw [resetStep, if_pos hdue, if_pos hb]

theorem resetStep_due {s : State} (hdue : s.resetDue = true) (hb : s.blockRemaining = 0) :
    resetStep s = .ok () s.periodicReset := by
  rw [resetStep, if_pos hdue, if_neg (not_not.mpr hb)]

theorem resetStep_notDue {s : State} (hdue : ¬ s.resetDue = true) : resetStep s = .ok () s := by
  rw [resetStep, if_neg hdue]

/-- Settles O15: an accepted command is step 1 on the state with `produced` 0, in its three cases. -/
theorem decodeFrameStart : Obligations.DecodeFrameStart := by
  unfold Obligations.DecodeFrameStart
  intro n s halive hidle hready hn
  have hacc : s.accepts n = true := State.accepts_iff.mpr ⟨halive, hidle, hready, hn⟩
  rw [exec_decodeFrame, execDecodeFrame_accepted hacc]
  refine ⟨fun hdue => ⟨fun hb => ?_, fun hb => ?_⟩, fun hnot => ?_⟩
  · rw [resetStep_inBlock (s := { s with produced := 0 }) (State.resetDue_iff.mpr hdue) hb, Res.bind_raise, Res.finish_raise,
      State.takeError, hidle]
  · rw [resetStep_due (s := { s with produced := 0 }) (State.resetDue_iff.mpr hdue) hb, Res.bind_ok, Res.finish_ok]
    rfl
  · rw [resetStep_notDue (s := { s with produced := 0 }) (mt State.resetDue_iff.mp hnot), Res.bind_ok, Res.finish_ok]
    rfl

/-- Settles O16: neither a status other than `Ready` nor a small buffer is accepted. -/
theorem decodeFrameRefused : Obligations.DecodeFrameRefused := by
  unfold Obligations.DecodeFrameRefused
  intro n s h
  have hacc : ¬ s.accepts n = true := fun hacc => by
    obtain ⟨-, -, hready, hn⟩ := State.accepts_iff.mp hacc
    rcases h with h | h
    · exact h hready
    · omega
  rw [exec_decodeFrame, execDecodeFrame_refused hacc, State.refuse]

/-! ### The head of the block loop -/

theorem bitSite_bitstream {s : State} (site : Site) (hm : s.mode = .bitstream) :
    bitSite site s = .ok (.element site) s := by
  simp [bitSite, hm]

theorem bitSite_even {s : State} (site : Site) (hm : s.mode = .bytestream) (he : s.pos % 2 = 0) :
    bitSite site s = .ok (.element site) s.enterBitMode := by
  simp [bitSite, hm, he]

theorem bitSite_odd {s : State} (site : Site) (hm : s.mode = .bytestream) (ho : s.pos % 2 = 1) :
    bitSite site s = .ok (.element .padByte) s := by
  simp [bitSite, hm, ho]

theorem seek_blockLoop {s : State} (hc : s.ctl = .blockLoop) : seek s = loopHead s := by
  simp [seek, hc]

theorem loopHead_full {s : State} (hf : Config.frameSize ≤ s.produced) : loopHead s = .ok .complete s := by
  rw [loopHead, if_pos hf]

/-- At a block boundary the end of input completes the frame, and otherwise a block header comes next (R195, R196). -/
theorem loopHead_boundary {s u : State} {ended : Bool} (hf : s.produced < Config.frameSize) (hb : s.blockRemaining = 0)
    (hu : eofAtBoundary s = .ok ended u) :
    loopHead s = if ended then .ok .complete u else bitSite .blockHeader (u.goto .blockHeader) := by
  rw [loopHead, if_neg (Nat.not_le.mpr hf), if_pos hb, hu, Res.bind_ok]

theorem loopHead_inBlock {s : State} (hf : s.produced < Config.frameSize) (hb : s.blockRemaining ≠ 0) :
    loopHead s = .ok (.element (if s.blockType = .uncompressed then .payload else .mainSym)) s := by
  rw [loopHead, if_neg (Nat.not_le.mpr hf), if_neg hb]
  split <;> rfl

/-- Settles O18: the loop's head in its three cases, and at a boundary the mode switch before a block header. -/
theorem blockLoopHead : Obligations.BlockLoopHead := by
  unfold Obligations.BlockLoopHead
  intro s hc
  rw [seek_blockLoop hc]
  refine ⟨loopHead_full, fun hf hb u => ⟨fun hu => loopHead_boundary hf hb hu, fun hu => ?_⟩, loopHead_inBlock⟩
  have hhead : loopHead s = bitSite .blockHeader (u.goto .blockHeader) := loopHead_boundary hf hb hu
  rw [hhead]
  exact ⟨bitSite_bitstream (s := u.goto .blockHeader) _, bitSite_even (s := u.goto .blockHeader) _,
    bitSite_odd (s := u.goto .blockHeader) _⟩

end Sys2Proof.Machine

end FrameBlocks

/-! ## Symbols and matches (spec/43_symbols_matches.md): the literal -/

section SymbolsMatches

namespace Sys2Proof.Machine

theorem exec_lit (b : Byte) (s : State) : exec (.lit b) s = execLit b s := rfl

/-- A byte put is a window run of length one. -/
theorem State.put_writesRun (s : State) (v : Byte) : WritesRun s (s.put v) 1 fun _ => some v where
  bytes i hi := by
    obtain rfl : i = 0 := by omega
    exact Memory.read_write_same _ _ _
  others a ha := Memory.read_write_other _ _ (by omega)

/-- Inside the window a literal is its byte put, one byte consumed, and back to the head of the block loop (R231). -/
theorem execLit_ok {s : State} (h : s.windowPos < s.winSize) (b : Byte) :
    execLit b s = .next (((s.put b).consume 1).goto .blockLoop) := by
  rw [execLit, putByte_ok h, Res.bind_ok, Res.finish_ok]

/-- Settles O31: the byte put moves the window's two counters, the byte consumed the block's and the frame's. -/
theorem literalWrites : Obligations.LiteralWrites := by
  unfold Obligations.LiteralWrites
  intro b s h
  have hrun : WritesRun s (s.put b) 1 fun _ => some b := s.put_writesRun b
  exact ⟨((s.put b).consume 1).goto .blockLoop, by rw [exec_lit, execLit_ok h], rfl, hrun.bytes, hrun.others⟩

end Sys2Proof.Machine

end SymbolsMatches

/-! ## E8 operands (spec/44_e8_postprocess.md): one operand, in range and outside -/

section E8Postprocess

namespace Sys2Proof.Machine

/-! ### A word and its bytes -/

/-- Four bytes joined, the first lowest, are the number `leWord` makes of them. -/
theorem toNat_append_bytes (b0 b1 b2 b3 : Byte) :
    (b3 ++ b2 ++ b1 ++ b0 : BitVec 32).toNat = leWord b0.toNat b1.toNat b2.toNat b3.toNat := by
  simp only [BitVec.toNat_append, ← Nat.shiftLeft_add_eq_or_of_lt (BitVec.isLt _)]
  simp only [Nat.shiftLeft_eq, leWord]
  omega

/-- A word is its four little-endian bytes joined. -/
theorem append_leByte (w : Word32) : leByte w 3 ++ leByte w 2 ++ leByte w 1 ++ leByte w 0 = w := by
  apply BitVec.eq_of_toNat_eq
  have hw := w.isLt
  rw [toNat_append_bytes]
  simp only [leByte, BitVec.toNat_ofNat, leWord]
  omega

/-! ### The operand and its rewriting -/

/-- The operand is the signed value of the four bytes joined (R273). -/
theorem e8Operand_eq_toInt (b0 b1 b2 b3 : Byte) : e8Operand b0 b1 b2 b3 = (b3 ++ b2 ++ b1 ++ b0 : BitVec 32).toInt := by
  rw [e8Operand, ← toNat_append_bytes, BitVec.ofNat_toNat, BitVec.setWidth_eq]

/-- In range the rewritten value fits in 32 bits: `abs - file_pos` is above `-2^30`, and `abs + e8_magic`, with
`-2^30 < abs < 0` and `abs < e8_magic`, is above `-2^31` for a negative `e8_magic` too. -/
theorem e8Rel_inRange {abs cur magic : Int} (hcur0 : 0 ≤ cur) (hcur : cur < 2 ^ 30) (hmagic : magic < 2 ^ 31)
    (h : -cur ≤ abs ∧ abs < magic) :
    ∃ w, e8Rel abs cur magic = some w ∧ w.toInt = if 0 ≤ abs then abs - cur else abs + magic := by
  refine ⟨_, by rw [e8Rel, if_pos h], BitVec.toInt_ofInt_eq_self (by decide) ?_ ?_⟩ <;> split <;> omega

theorem e8Rel_outside {abs cur magic : Int} (h : ¬ (-cur ≤ abs ∧ abs < magic)) : e8Rel abs cur magic = none := by
  rw [e8Rel, if_neg h]

theorem e8Bytes_of_some {b0 b1 b2 b3 : Byte} {cur magic : Int} {w : Word32}
    (h : e8Rel (e8Operand b0 b1 b2 b3) cur magic = some w) :
    e8Bytes b0 b1 b2 b3 cur magic = [leByte w 0, leByte w 1, leByte w 2, leByte w 3] := by
  rw [e8Bytes, h]

theorem e8Bytes_of_none {b0 b1 b2 b3 : Byte} {cur magic : Int} (h : e8Rel (e8Operand b0 b1 b2 b3) cur magic = none) :
    e8Bytes b0 b1 b2 b3 cur magic = [b0, b1, b2, b3] := by
  rw [e8Bytes, h]

end Sys2Proof.Machine

/-! ### The rule, in a namespace of its own: the model's `Machine.e8Operand` has its name. -/

namespace Sys2Proof.Laws.E8Postprocess

open Sys2Proof.Machine

/-- Settles O21: in range the bytes are those of a word with the rewritten value, and joined they are that word again. -/
theorem e8Operand : Obligations.E8Operand := by
  unfold Obligations.E8Operand
  rintro b0 b1 b2 b3 cur magic hcur0 hcur - hmagic abs rfl
  rw [← e8Operand_eq_toInt]
  refine ⟨fun h => ?_, fun h => e8Bytes_of_none (e8Rel_outside h)⟩
  obtain ⟨w, hrel, hw⟩ := e8Rel_inRange hcur0 hcur hmagic h
  exact ⟨_, _, _, _, e8Bytes_of_some hrel, by rw [append_leByte, hw]⟩

end Sys2Proof.Laws.E8Postprocess

end E8Postprocess

/-! ## The canonical code (spec/41_huffman.md R161): its code words tile the 16-bit values, each over its share -/

section CanonicalCode

namespace Sys2Proof

/-! ### Shares and the order of code words -/

/-- The 16-bit values that begin with one code word of length `l`: `2^-l` of them all. -/
def share (l : Nat) : Nat := 2 ^ (16 - l)

/-- The shares of a list of (length, symbol) pairs, added up. -/
def shares (ps : List (Nat × Nat)) : Nat := (ps.map fun p => share p.1).sum

@[simp] theorem shares_nil : shares [] = 0 := rfl

@[simp] theorem shares_cons (p : Nat × Nat) (ps : List (Nat × Nat)) : shares (p :: ps) = share p.1 + shares ps := by
  simp [shares]

theorem share_pos (l : Nat) : 0 < share l := Nat.two_pow_pos _

/-- A code word left-aligned in 16 bits: the first value of its share. -/
def CodeWord.start (c : CodeWord) : Nat := c.code * share c.len

/-- The order in which R161 gives out code words: by length, then by symbol. -/
abbrev SymLt (p q : Nat × Nat) : Prop := p.1 < q.1 ∨ p.1 = q.1 ∧ p.2 < q.2

theorem SymLt.irrefl (p : Nat × Nat) : ¬ SymLt p p := by
  simp

theorem SymLt.asymm {p q : Nat × Nat} (h : SymLt p q) : ¬ SymLt q p := by
  omega

/-- A code word begins a 16-bit value exactly where the value lies in its share. -/
theorem CodeWord.code_eq_iff (c : CodeWord) (v : Nat) :
    c.code = v >>> (16 - c.len) ↔ c.start ≤ v ∧ v < c.start + share c.len := by
  have hpos := share_pos c.len
  rw [Nat.shiftRight_eq_div_pow, CodeWord.start]
  change c.code = v / share c.len ↔ _
  rw [eq_comm, Nat.div_eq_iff hpos]
  have := Nat.mul_comm c.code (share c.len)
  rw [Nat.mul_comm c.code]
  omega

/-! ### The loop of R161 -/

theorem shift_share {code prev l : Nat} (h : prev ≤ l) (hl : l ≤ 16) :
    (code <<< (l - prev)) * share l = code * share prev := by
  rw [Nat.shiftLeft_eq, share, share, Nat.mul_assoc, ← Nat.pow_add, show l - prev + (16 - l) = 16 - prev by omega]

/-- Pairs given out in order, none shorter than `prev` or longer than 16. -/
structure Ascending (prev : Nat) (ps : List (Nat × Nat)) : Prop where
  sorted : ps.Pairwise SymLt
  bounds : ∀ p ∈ ps, prev ≤ p.1 ∧ p.1 ≤ 16

theorem Ascending.head {prev : Nat} {p : Nat × Nat} {ps : List (Nat × Nat)} (h : Ascending prev (p :: ps)) :
    prev ≤ p.1 ∧ p.1 ≤ 16 := h.bounds p List.mem_cons_self

theorem Ascending.head_lt {prev : Nat} {p : Nat × Nat} {ps : List (Nat × Nat)} (h : Ascending prev (p :: ps)) :
    ∀ q ∈ ps, SymLt p q := fun _ => List.rel_of_pairwise_cons h.sorted

theorem Ascending.tail {prev : Nat} {p : Nat × Nat} {ps : List (Nat × Nat)} (h : Ascending prev (p :: ps)) :
    Ascending p.1 ps where
  sorted := h.sorted.of_cons
  bounds q hq := ⟨by have := h.head_lt q hq; omega, (h.bounds q (.tail _ hq)).2⟩

/-- The code words stand for the pairs they are given out to, in the same order. -/
theorem assignCodes_pairs (code prev : Nat) (ps : List (Nat × Nat)) :
    (assignCodes code prev ps).map (fun c => (c.len, c.sym)) = ps := by
  induction ps generalizing code prev with
  | nil => rfl
  | cons p ps ih => simp [assignCodes, ih]

theorem mem_of_mem_assignCodes {code prev : Nat} {ps : List (Nat × Nat)} {c : CodeWord}
    (h : c ∈ assignCodes code prev ps) : (c.len, c.sym) ∈ ps := by
  rw [← assignCodes_pairs code prev ps]
  exact List.mem_map_of_mem h

theorem exists_mem_assignCodes (code prev : Nat) {ps : List (Nat × Nat)} {l sym : Nat} (h : (l, sym) ∈ ps) :
    ∃ c ∈ assignCodes code prev ps, c.len = l ∧ c.sym = sym := by
  rw [← assignCodes_pairs code prev ps] at h
  obtain ⟨c, hc, heq⟩ := List.mem_map.mp h
  exact ⟨c, hc, congrArg Prod.fst heq, congrArg Prod.snd heq⟩

/-- The next code word begins where the share of the one before it ends. -/
theorem next_start {code prev l : Nat} (h : prev ≤ l ∧ l ≤ 16) :
    ((code <<< (l - prev)) + 1) * share l = code * share prev + share l := by
  rw [Nat.add_mul, shift_share h.1 h.2, Nat.one_mul]

/-- A code word begins at the sum of the shares given out before it. -/
theorem assignCodes_start {code prev : Nat} {ps : List (Nat × Nat)} (h : Ascending prev ps) {c : CodeWord}
    (hc : c ∈ assignCodes code prev ps) :
    c.start = code * share prev + shares (ps.filter fun p => decide (SymLt p (c.len, c.sym))) := by
  induction ps generalizing code prev with
  | nil => cases hc
  | cons p ps ih =>
    obtain ⟨l, sym⟩ := p
    rcases List.mem_cons.mp hc with rfl | hc
    · have hnone : ((l, sym) :: ps).filter (fun p => decide (SymLt p (l, sym))) = [] := by
        simp only [List.filter_eq_nil_iff, decide_eq_true_eq]
        intro q hq
        rcases List.mem_cons.mp hq with rfl | hq
        · exact SymLt.irrefl _
        · exact (h.head_lt q hq).asymm
      rw [hnone]
      exact shift_share h.head.1 h.head.2
    · have hlt : SymLt (l, sym) (c.len, c.sym) := h.head_lt _ (mem_of_mem_assignCodes hc)
      rw [ih h.tail hc, next_start h.head, List.filter_cons_of_pos (by exact decide_eq_true hlt), shares_cons,
        Nat.add_assoc]

/-- Each code word's share lies within the shares given out. -/
theorem assignCodes_range {code prev : Nat} {ps : List (Nat × Nat)} (h : Ascending prev ps) {c : CodeWord}
    (hc : c ∈ assignCodes code prev ps) :
    code * share prev ≤ c.start ∧ c.start + share c.len ≤ code * share prev + shares ps := by
  induction ps generalizing code prev with
  | nil => cases hc
  | cons p ps ih =>
    rw [shares_cons]
    rcases List.mem_cons.mp hc with rfl | hc
    · have := shift_share (code := code) h.head.1 h.head.2
      simp only [CodeWord.start]
      omega
    · have hrest := ih h.tail hc
      rw [next_start h.head] at hrest
      omega

/-- The shares of the code words do not overlap. -/
theorem assignCodes_disjoint {code prev : Nat} {ps : List (Nat × Nat)} (h : Ascending prev ps) :
    (assignCodes code prev ps).Pairwise fun c d => c.start + share c.len ≤ d.start := by
  induction ps generalizing code prev with
  | nil => exact .nil
  | cons p ps ih =>
    refine .cons (fun d hd => ?_) (ih h.tail)
    have hstart := shift_share (code := code) h.head.1 h.head.2
    have hd := (assignCodes_range h.tail hd).1
    rw [next_start h.head] at hd
    simp only [CodeWord.start] at hd ⊢
    omega

/-- Every value below the shares given out lies in the share of a code word. -/
theorem assignCodes_cover {code prev : Nat} {ps : List (Nat × Nat)} (h : Ascending prev ps) {v : Nat}
    (hge : code * share prev ≤ v) (hlt : v < code * share prev + shares ps) :
    ∃ c ∈ assignCodes code prev ps, c.start ≤ v ∧ v < c.start + share c.len := by
  induction ps generalizing code prev with
  | nil => simp at hlt; omega
  | cons p ps ih =>
    rw [shares_cons] at hlt
    by_cases hin : v < code * share prev + share p.1
    · have := shift_share (code := code) h.head.1 h.head.2
      refine ⟨_, List.mem_cons_self, ?_⟩
      simp only [CodeWord.start]
      omega
    · obtain ⟨c, hc, hv⟩ := ih (code := (code <<< (p.1 - prev)) + 1) h.tail
        (by rw [next_start h.head]; omega) (by rw [next_start h.head]; omega)
      exact ⟨c, .tail _ hc, hv⟩

/-! ### The used symbols -/

theorem mem_symsOfLen {l i s : Nat} {lens : List Nat} :
    s ∈ symsOfLen l i lens ↔ ∃ j, s = i + j ∧ lens[j]? = some l := by
  induction lens generalizing i with
  | nil => simp [symsOfLen]
  | cons x xs ih =>
    have hsplit : (∃ j, s = i + j ∧ (x :: xs)[j]? = some l) ↔ s = i ∧ x = l ∨ ∃ j, s = i + 1 + j ∧ xs[j]? = some l := by
      constructor
      · rintro ⟨j, rfl, hj⟩
        cases j with
        | zero => exact .inl ⟨rfl, by simpa using hj⟩
        | succ j => exact .inr ⟨j, by omega, by simpa using hj⟩
      · rintro (⟨rfl, rfl⟩ | ⟨j, rfl, hj⟩)
        · exact ⟨0, rfl, rfl⟩
        · exact ⟨j + 1, by omega, by simpa using hj⟩
    rw [hsplit, symsOfLen]
    split
    · rw [List.mem_cons, ih]; simp [*]
    · rw [ih]; simp [*]

theorem symsOfLen_sorted (l i : Nat) (lens : List Nat) : (symsOfLen l i lens).Pairwise (· < ·) := by
  induction lens generalizing i with
  | nil => exact .nil
  | cons x xs ih =>
    rw [symsOfLen]
    split
    · refine .cons (fun s hs => ?_) (ih (i + 1))
      obtain ⟨j, rfl, -⟩ := mem_symsOfLen.mp hs
      omega
    · exact ih (i + 1)

/-- The used symbols are those of a length from 1 to 16. -/
theorem mem_usedSyms {l s : Nat} {lens : List Nat} :
    (l, s) ∈ usedSyms lens ↔ (1 ≤ l ∧ l ≤ 16) ∧ lens[s]? = some l := by
  simp only [usedSyms, List.mem_flatMap, List.mem_range, List.mem_map, Prod.mk.injEq, mem_symsOfLen]
  constructor
  · rintro ⟨k, hk, _, ⟨j, rfl, hj⟩, rfl, rfl⟩
    exact ⟨by omega, by simpa using hj⟩
  · rintro ⟨hl, hs⟩
    exact ⟨l - 1, by omega, s, ⟨s, by omega, by rwa [show l - 1 + 1 = l by omega]⟩, by omega, rfl⟩

theorem usedSyms_ascending (lens : List Nat) : Ascending 0 (usedSyms lens) where
  sorted := by
    rw [usedSyms, List.pairwise_flatMap]
    refine ⟨fun k _ => ?_, List.pairwise_lt_range.imp fun hjk p hp q hq => ?_⟩
    · exact List.pairwise_map.mpr ((symsOfLen_sorted _ _ _).imp fun hlt => .inr ⟨rfl, hlt⟩)
    · obtain ⟨_, -, rfl⟩ := List.mem_map.mp hp
      obtain ⟨_, -, rfl⟩ := List.mem_map.mp hq
      exact .inl (by simpa using hjk)
  bounds p hp := ⟨Nat.zero_le _, (mem_usedSyms.mp hp).1.2⟩

theorem mem_usedLens {l s : Nat} {lens : List Nat} :
    (l, s) ∈ lens.zipIdx.filter (fun p => decide (0 < p.1)) ↔ 0 < l ∧ lens[s]? = some l := by
  rw [List.mem_filter, List.mem_zipIdx_iff_getElem?]
  simp [and_comm]

/-- With lengths up to 16 the used symbols are the symbols whose length is not 0. -/
theorem usedSyms_perm {lens : List Nat} (hle : ∀ l ∈ lens, l ≤ 16) :
    (usedSyms lens).Perm (lens.zipIdx.filter fun p => decide (0 < p.1)) := by
  have hused : (usedSyms lens).Nodup :=
    List.Pairwise.imp (by rintro p _ h rfl; exact SymLt.irrefl p h) (usedSyms_ascending lens).sorted
  have hidx : lens.zipIdx.Nodup := List.Nodup.of_map Prod.snd (List.nodup_zipIdx_map_snd lens)
  rw [List.perm_ext_iff_of_nodup hused (hidx.filter _)]
  rintro ⟨l, s⟩
  rw [mem_usedSyms, mem_usedLens]
  constructor
  · rintro ⟨hl, hs⟩
    exact ⟨by omega, hs⟩
  · rintro ⟨hl, hs⟩
    exact ⟨⟨hl, hle l (List.mem_of_getElem? hs)⟩, hs⟩

theorem shares_perm {ps qs : List (Nat × Nat)} (h : ps.Perm qs) : shares ps = shares qs := (h.map _).sum_eq

/-- The shares of the used symbols add up to the Kraft sum. -/
theorem shares_usedSyms {lens : List Nat} (hle : ∀ l ∈ lens, l ≤ 16) : shares (usedSyms lens) = kraftSum lens := by
  have hsum : ∀ ps : List (Nat × Nat), shares (ps.filter fun p => decide (0 < p.1)) = kraftSum (ps.map Prod.fst) := by
    intro ps
    induction ps with
    | nil => rfl
    | cons p ps ih =>
      by_cases hp : p.1 = 0
      · rw [List.filter_cons_of_neg (by simp [hp]), ih, List.map_cons, hp, Machine.kraftSum_cons_zero]
      · rw [List.filter_cons_of_pos (by simpa using Nat.pos_of_ne_zero hp), shares_cons, ih, List.map_cons,
          Machine.kraftSum_cons_used hp, share]
  rw [shares_perm (usedSyms_perm hle), hsum, List.zipIdx_map_fst]

/-! ### The canonical code -/

theorem mem_canonical {lens : List Nat} {c : CodeWord} (hc : c ∈ canonical lens) :
    (1 ≤ c.len ∧ c.len ≤ 16) ∧ lens[c.sym]? = some c.len := mem_usedSyms.mp (mem_of_mem_assignCodes hc)

theorem exists_mem_canonical {lens : List Nat} {l sym : Nat} (hl : 0 < l ∧ l ≤ 16) (h : lens[sym]? = some l) :
    ∃ c ∈ canonical lens, c.len = l ∧ c.sym = sym :=
  exists_mem_assignCodes 0 0 (mem_usedSyms.mpr ⟨hl, h⟩)

/-- A code word begins at the sum of the shares of the symbols before it. -/
theorem canonical_start {lens : List Nat} (hle : ∀ l ∈ lens, l ≤ 16) {c : CodeWord} (hc : c ∈ canonical lens) :
    c.start = shares (lens.zipIdx.filter fun p => decide (0 < p.1 ∧ SymLt p (c.len, c.sym))) := by
  rw [assignCodes_start (usedSyms_ascending lens) hc, Nat.zero_mul, Nat.zero_add,
    shares_perm ((usedSyms_perm hle).filter _), List.filter_filter]
  congr 2
  funext p
  simp [Bool.and_comm]

/-- Every share lies below the Kraft sum. -/
theorem canonical_range {lens : List Nat} (hle : ∀ l ∈ lens, l ≤ 16) {c : CodeWord} (hc : c ∈ canonical lens) :
    c.start + share c.len ≤ kraftSum lens := by
  have := (assignCodes_range (usedSyms_ascending lens) hc).2
  rwa [Nat.zero_mul, Nat.zero_add, shares_usedSyms hle] at this

/-- At most one code word begins a 16-bit value. -/
theorem canonical_unique {lens : List Nat} {c d : CodeWord} (hc : c ∈ canonical lens) (hd : d ∈ canonical lens) {v : Nat}
    (hcv : c.code = v >>> (16 - c.len)) (hdv : d.code = v >>> (16 - d.len)) : c = d := by
  rw [CodeWord.code_eq_iff] at hcv hdv
  have hdis : (canonical lens).Pairwise _ := assignCodes_disjoint (usedSyms_ascending lens)
  by_contra hne
  obtain ⟨i, hi, rfl⟩ := List.getElem_of_mem hc
  obtain ⟨j, hj, rfl⟩ := List.getElem_of_mem hd
  rcases Nat.lt_trichotomy i j with hij | rfl | hij
  · have := List.pairwise_iff_getElem.mp hdis i j hi hj hij
    omega
  · exact hne rfl
  · have := List.pairwise_iff_getElem.mp hdis j i hj hi hij
    omega

/-- A complete code (Kraft sum 1) has a code word at the head of every 16-bit value. -/
theorem canonical_complete {lens : List Nat} (hle : ∀ l ∈ lens, l ≤ 16) (hk : kraftSum lens = 2 ^ 16) {v : Nat}
    (hv : v < 2 ^ 16) : ∃ c ∈ canonical lens, c.code = v >>> (16 - c.len) := by
  obtain ⟨c, hc, hin⟩ := assignCodes_cover (code := 0) (usedSyms_ascending lens) (v := v) (by omega)
    (by rwa [Nat.zero_mul, Nat.zero_add, shares_usedSyms hle, hk])
  exact ⟨c, hc, c.code_eq_iff v |>.mpr hin⟩

/-- Settles O3: `usedSyms` lists the used symbols in the order of (length, symbol), and each code word begins where the
shares before it end. -/
theorem canonicalCodeValues : Obligations.CanonicalCodeValues := by
  unfold Obligations.CanonicalCodeValues
  intro lens hle
  refine ⟨fun c hc => ?_, fun sym l hsym hl => ?_⟩
  · obtain ⟨⟨hpos, -⟩, hlen⟩ := mem_canonical hc
    exact ⟨hlen, hpos, canonical_start hle hc⟩
  · obtain ⟨c, hc, -, hcs⟩ := exists_mem_canonical ⟨hl, hle l (List.mem_of_getElem? hsym)⟩ hsym
    refine ⟨c, ⟨hc, hcs⟩, fun d ⟨hd, hds⟩ => ?_⟩
    have hlen : d.len = c.len := by
      have hdl := (mem_canonical hd).2
      have hcl := (mem_canonical hc).2
      rw [hds, ← hcs, hcl] at hdl
      exact (Option.some.inj hdl).symm
    have hstart : d.start = c.start := by rw [canonical_start hle hd, canonical_start hle hc, hlen, hds, hcs]
    have hin := (c.code_eq_iff c.start).mpr ⟨Nat.le_refl _, Nat.lt_add_of_pos_right (share_pos _)⟩
    have hin' := (d.code_eq_iff c.start).mpr (hstart ▸ ⟨Nat.le_refl _, Nat.lt_add_of_pos_right (share_pos _)⟩)
    exact canonical_unique hd hc hin' hin

end Sys2Proof

end CanonicalCode

/-! ## How the reader fails (spec/40_bitreader.md section 2): the errors of a pull, and the host's silence -/

section ReaderFailures

namespace Sys2Proof.Machine

/-- An error that a result raises satisfies `E`, a fault that stops it `F`. -/
def Res.Fails {α : Type} (r : Res α) (E : ErrKind → Prop) (F : Fault → Prop) : Prop :=
  match r with
  | .ok _ _ => True
  | .raise e _ => E e
  | .stop f => F f

@[simp] theorem Res.fails_ok {α : Type} (a : α) (s : State) (E : ErrKind → Prop) (F : Fault → Prop) :
    (Res.ok a s).Fails E F ↔ True := Iff.rfl

@[simp] theorem Res.fails_raise {α : Type} (e : ErrKind) (s : State) (E : ErrKind → Prop) (F : Fault → Prop) :
    (Res.raise e s : Res α).Fails E F ↔ E e := Iff.rfl

@[simp] theorem Res.fails_stop {α : Type} (f : Fault) (E : ErrKind → Prop) (F : Fault → Prop) :
    (Res.stop f : Res α).Fails E F ↔ F f := Iff.rfl

theorem Res.fails_bind {α β : Type} {r : Res α} {k : α → State → Res β} {E : ErrKind → Prop} {F : Fault → Prop}
    (hr : r.Fails E F) (hk : ∀ a t, r = .ok a t → (k a t).Fails E F) : (r.bind k).Fails E F := by
  cases r with
  | ok a t => exact hk a t rfl
  | raise e t => exact hr
  | stop f => exact hr

theorem Res.Fails.mono {α : Type} {r : Res α} {E E' : ErrKind → Prop} {F F' : Fault → Prop} (h : r.Fails E F)
    (hE : ∀ e, E e → E' e) (hF : ∀ f, F f → F' f) : r.Fails E' F' := by
  cases r with
  | ok a t => trivial
  | raise e t => exact hE e h
  | stop f => exact hF f h

/-- The errors a pull can raise (R134, R135, R137). -/
inductive PullError : ErrKind → Prop where
  | prematureEOF : PullError .prematureEOF
  | callbackOverflow : PullError .callbackOverflow
  | callbackError (e : HostError) : PullError (.callbackError e)

/-- The result fails as a pull can: with one of its errors, or because the host never answers. -/
abbrev Res.FailsAsPull {α : Type} (r : Res α) : Prop := r.Fails PullError (· = .hostSilent)

theorem takeAnswer_fails (a : Answer) (s : State) : (takeAnswer a s).FailsAsPull := by
  cases a with
  | error e => exact .callbackError e
  | data bytes =>
    unfold takeAnswer
    simp only
    split
    · exact .callbackOverflow
    · trivial

theorem pull_fails (s : State) : (pull s).FailsAsPull := by
  unfold pull
  split
  · exact .prematureEOF
  · split
    · exact rfl
    · exact takeAnswer_fails _ _

theorem fetchLoop_fails (i fuel : Nat) (s : State) : (fetchLoop i fuel s).FailsAsPull := by
  induction fuel generalizing s with
  | zero =>
    unfold fetchLoop
    split
    · trivial
    · exact pull_fails s
  | succ n ih =>
    unfold fetchLoop
    split
    · trivial
    · exact Res.fails_bind (pull_fails s) fun _ t _ => ih t

theorem fetchByte_fails (i : Nat) (s : State) : (fetchByte i s).FailsAsPull := fetchLoop_fails i _ s

theorem need_fails (n : Nat) (s : State) : (need n s).FailsAsPull := by
  unfold need
  split
  · trivial
  · exact fetchByte_fails _ s

theorem eofLoop_fails (q fuel : Nat) (s : State) : (eofLoop q fuel s).FailsAsPull := by
  induction fuel generalizing s with
  | zero =>
    unfold eofLoop
    split
    · exact Res.fails_bind (pull_fails s) fun _ _ _ => trivial
    · trivial
  | succ n ih =>
    unfold eofLoop
    split
    · exact Res.fails_bind (pull_fails s) fun _ t _ => ih t
    · trivial

theorem eofAtBoundary_fails (s : State) : (eofAtBoundary s).FailsAsPull := eofLoop_fails _ _ s

theorem readBits_fails {s : State} (hm : s.mode = .bitstream) (n : Nat) : (readBits n s).FailsAsPull := by
  rw [readBits_bitstream hm]
  exact Res.fails_bind (need_fails n s) fun _ _ _ => trivial

theorem readByte_fails {s : State} (hm : s.mode = .bytestream) : (readByte s).FailsAsPull := by
  simp only [readByte, hm]
  exact Res.fails_bind (fetchByte_fails s.pos s) fun _ _ _ => trivial

theorem need_pullsOnly {n : Nat} {s u : State} (h : need n s = .ok () u) : PullsOnly s u := by
  simpa [h] using need_leaves n s

/-! ### Symbol reads of a built table -/

theorem PullsOnly.table {s u : State} (h : PullsOnly s u) (t : Tree) : u.table t = s.table t := by
  rw [h.1]
  cases t <;> rfl

/-- A table built and not empty is a complete code. -/
theorem kraftSum_of_build {tab : Table} {allowEmpty : Bool} (h : buildTable tab.lens allowEmpty = .ok tab)
    (he : tab.empty = false) : kraftSum tab.lens = 2 ^ 16 := by
  obtain ⟨-, ⟨he', -⟩ | ⟨-, hk⟩⟩ := buildTable_eq_ok h
  · rw [he] at he'; cases he'
  · exact hk

theorem findCode_eq_some {codes : List CodeWord} {v : Nat} {c : CodeWord} (h : findCode codes v = some c) :
    c ∈ codes ∧ c.code = v >>> (16 - c.len) :=
  ⟨List.mem_of_find?_eq_some h, by simpa [findCode] using List.find?_some h⟩

theorem findCode_eq_none {codes : List CodeWord} {v : Nat} (h : findCode codes v = none) :
    ∀ c ∈ codes, c.code ≠ v >>> (16 - c.len) := by
  simpa [findCode] using h

/-- In a complete code every 16 bits begin with a code word. -/
theorem exists_findCode {lens : List Nat} (hle : ∀ l ∈ lens, l ≤ 16) (hk : kraftSum lens = 2 ^ 16) {v : Nat}
    (hv : v < 2 ^ 16) : ∃ c, findCode (canonical lens) v = some c := by
  cases h : findCode (canonical lens) v with
  | some c => exact ⟨c, rfl⟩
  | none =>
    obtain ⟨c, hc, hcode⟩ := canonical_complete hle hk hv
    exact absurd hcode (findCode_eq_none h c hc)

/-- A symbol read of a table that is not empty, in `Bitstream` mode: `Need(16)`, then the code word at the head. -/
theorem readSym_bitstream {t : Tree} {s : State} (he : (s.table t).empty = false) (hm : s.mode = .bitstream) :
    readSym t s = (need 16 s).bind fun _ u =>
      (findCode (canonical (s.table t).lens) (streamField u.inp u.pos 16)).elim (.raise .huffmanDecodeOverrun u)
        fun c => .ok c.sym { u with pos := u.pos + c.len } := by
  simp only [readSym, he, Bool.false_eq_true, if_false, hm, State.peek_eq]
  cases hn : need 16 s with
  | ok a u =>
    simp only [Res.bind_ok, (need_pullsOnly hn).table t]
    cases findCode (canonical (s.table t).lens) (streamField u.inp u.pos 16) <;> rfl
  | raise e u => rfl
  | stop f => rfl

/-- The head of the next 16 bits is a field of fewer bits. -/
theorem streamField_shiftRight (inp : List Byte) (p : Nat) {n : Nat} (hn : n ≤ 16) :
    streamField inp p 16 >>> (16 - n) = streamField inp p n := by
  have hsplit := streamField_add inp p n (16 - n)
  have hlow := streamField_lt inp (p + n) (16 - n)
  rw [Nat.add_sub_cancel' hn] at hsplit
  rw [hsplit, Nat.shiftRight_eq_div_pow, Nat.mul_add_div (Nat.two_pow_pos _), Nat.div_eq_of_lt hlow, Nat.add_zero]

/-- A symbol read of a complete code, its 16 bits fetched: the code word at their head, its length consumed (R164). -/
theorem readSym_complete {t : Tree} {s u : State} (he : (s.table t).empty = false) (hm : s.mode = .bitstream)
    (hle : ∀ l ∈ (s.table t).lens, l ≤ 16) (hk : kraftSum (s.table t).lens = 2 ^ 16) (hu : need 16 s = .ok () u) :
    ∃ c ∈ canonical (s.table t).lens, streamField u.inp s.pos c.len = c.code ∧
      readSym t s = .ok c.sym { u with pos := s.pos + c.len } := by
  have hpos : u.pos = s.pos := need_ok_pos hu
  obtain ⟨c, hc⟩ := exists_findCode hle hk (streamField_lt u.inp s.pos 16)
  obtain ⟨hmem, hcode⟩ := findCode_eq_some hc
  refine ⟨c, hmem, ?_, ?_⟩
  · rw [hcode, streamField_shiftRight _ _ (mem_canonical hmem).1.2]
  · rw [readSym_bitstream he hm, hu, Res.bind_ok, hpos, hc, Option.elim_some]

/-- Of a complete code, or of an empty table, no symbol read runs out of bits; every other error is a pull's or a check
made before it. -/
theorem readSym_fails {t : Tree} {s : State} (hle : ∀ l ∈ (s.table t).lens, l ≤ 16) {allowEmpty : Bool}
    (hb : buildTable (s.table t).lens allowEmpty = .ok (s.table t)) :
    (readSym t s).Fails (fun e => PullError e ∨ e = .emptyTableDecode ∨ e = .wrongMode ∧ s.mode = .bytestream)
      (· = .hostSilent) := by
  cases he : (s.table t).empty with
  | true => rw [readSym_empty he]; exact .inr (.inl rfl)
  | false =>
    cases hm : s.mode with
    | bytestream =>
      simp only [readSym, he, hm, Bool.false_eq_true, if_false]
      exact .inr (.inr ⟨rfl, trivial⟩)
    | bitstream =>
      cases hn : need 16 s with
      | ok a u =>
        obtain ⟨c, -, -, hok⟩ := readSym_complete he hm hle (kraftSum_of_build hb he) hn
        rw [hok]
        trivial
      | raise e u =>
        have hfail := need_fails 16 s
        rw [readSym_bitstream he hm]
        rw [hn] at hfail ⊢
        exact .inl hfail
      | stop f =>
        have hfail := need_fails 16 s
        rw [readSym_bitstream he hm]
        rw [hn] at hfail ⊢
        exact hfail

/-- Settles O4: the shares of a complete code tile the 16-bit values, so each value lies in exactly one. -/
theorem completeCode : Obligations.CompleteCode := by
  unfold Obligations.CompleteCode
  refine ⟨rfl, fun tab allowEmpty hle hb => ⟨fun he v hv => ?_, ?_⟩⟩
  · obtain ⟨c, hc, hcode⟩ := canonical_complete hle (kraftSum_of_build hb he) hv
    exact ⟨c, ⟨hc, hcode⟩, fun d ⟨hd, hdcode⟩ => canonical_unique hd hc hdcode hcode⟩
  · rintro s u t rfl hraise
    have hfail := readSym_fails hle hb
    rw [hraise] at hfail
    rcases hfail with hpull | hempty | ⟨hmode, -⟩
    · cases hpull
    · cases hempty
    · cases hmode

theorem fetchByte_raise_of_eof {i : Nat} {s : State} (he : s.eof = true) (hi : s.inp.length ≤ i) :
    fetchByte i s = .raise .prematureEOF s := fetchByte_of_pull_raise hi (pull_eof he)

theorem need_raise_of_eof {n : Nat} {s : State} (he : s.eof = true) (hb : ¬ s.hasBits n) :
    need n s = .raise .prematureEOF s := by
  unfold State.hasBits at hb
  rw [need, if_neg (by tauto)]
  exact fetchByte_raise_of_eof he (by omega)

/-- Settles O11: the checks come in their order, and after `Need(16)` a complete code has one word at the head. -/
theorem readSymRule : Obligations.ReadSymRule := by
  unfold Obligations.ReadSymRule
  intro t s
  refine ⟨readSym_empty, fun he hm => ?_, fun he hm => ⟨fun e u hu => ?_, fun heof hb => ?_, fun hle hb u hu => ?_⟩, need_here⟩
  · simp [readSym, he, hm]
  · rw [readSym_bitstream he hm, hu, Res.bind_raise]
  · rw [readSym_bitstream he hm, need_raise_of_eof heof hb, Res.bind_raise]
  · exact readSym_complete he hm hle (kraftSum_of_build hb he) hu

end Sys2Proof.Machine

end ReaderFailures

/-! ## Encoding and decoding (spec/30_encoding.md sections 2 to 5): the fields of an element, bit for bit -/

section Encoding

namespace Sys2Proof

/-! ### Bits and their value -/

@[simp] theorem toBits_length (n v : Nat) : (toBits n v).length = n := by
  induction n with
  | zero => rfl
  | succ n ih => rw [toBits, List.length_cons, ih]

@[simp] theorem ofBits_nil : ofBits [] = 0 := rfl

theorem ofBits_append (as bs : List Bool) : ofBits (as ++ bs) = 2 ^ bs.length * ofBits as + ofBits bs := by
  induction bs using List.reverseRecOn with
  | nil => simp
  | append_singleton bs b ih =>
    rw [← List.append_assoc, Machine.ofBits_concat, Machine.ofBits_concat, ih, List.length_append, List.length_singleton,
      Nat.pow_succ]
    ring

theorem ofBits_lt (bs : List Bool) : ofBits bs < 2 ^ bs.length := by
  induction bs using List.reverseRecOn with
  | nil => exact Nat.one_pos
  | append_singleton bs b ih =>
    have := Bool.toNat_lt b
    rw [Machine.ofBits_concat, List.length_append, List.length_singleton, Nat.pow_succ]
    omega

/-- The bits of a number are those of its low part. -/
theorem ofBits_toBits (n v : Nat) : ofBits (toBits n v) = v % 2 ^ n := by
  induction n with
  | zero => simp [toBits, Nat.mod_one]
  | succ n ih =>
    rw [toBits, ← List.singleton_append, ofBits_append, toBits_length, ih, Nat.pow_succ, Nat.mod_mul,
      Nat.testBit_eq_decide_div_mod_eq]
    rcases Nat.mod_two_eq_zero_or_one (v / 2 ^ n) with h | h <;> simp +arith [h, ofBits]

/-- Bits taken off the head of a list that begins with them. -/
theorem takeBits_append (as bs : List Bool) : takeBits as.length (as ++ bs) = some (ofBits as, bs) := by
  simp [takeBits]

theorem takeBits_toBits (n v : Nat) (rest : List Bool) : takeBits n (toBits n v ++ rest) = some (v % 2 ^ n, rest) := by
  have := takeBits_append (toBits n v) rest
  rwa [toBits_length, ofBits_toBits] at this

/-! ### Code words as bits -/

@[simp] theorem CodeWord.bits_length (c : CodeWord) : c.bits.length = c.len := toBits_length _ _

/-- A code word fits in its bits where the Kraft sum does not exceed 1. -/
theorem canonical_code_lt {lens : List Nat} (hle : ∀ l ∈ lens, l ≤ 16) (hk : kraftSum lens ≤ 2 ^ 16) {c : CodeWord}
    (hc : c ∈ canonical lens) : c.code < 2 ^ c.len := by
  have hrange := canonical_range hle hc
  have hpos := share_pos c.len
  have hsplit : 2 ^ c.len * share c.len = 2 ^ 16 := by
    rw [share, ← Nat.pow_add, Nat.add_sub_cancel' (mem_canonical hc).1.2]
  unfold CodeWord.start at hrange
  exact Nat.lt_of_mul_lt_mul_right (a := share c.len) (by omega)

/-- A code word that begins 16 bits is the head of their value. -/
theorem CodeWord.code_of_prefix {c : CodeWord} (hlt : c.code < 2 ^ c.len) {w : List Bool} (hw : w.length = 16)
    (h : c.bits <+: w) : c.code = ofBits w >>> (16 - c.len) := by
  obtain ⟨r, rfl⟩ := h
  have hr : r.length = 16 - c.len := by
    rw [List.length_append, CodeWord.bits_length] at hw
    omega
  have hlow := ofBits_lt r
  rw [ofBits_append, CodeWord.bits, ofBits_toBits, Nat.mod_eq_of_lt hlt, Nat.shiftRight_eq_div_pow, ← hr,
    Nat.mul_add_div (Nat.two_pow_pos _), Nat.div_eq_of_lt hlow, Nat.add_zero]

/-- No two code words of a canonical code begin the same bits. -/
theorem canonical_prefixFree {lens : List Nat} (hle : ∀ l ∈ lens, l ≤ 16) (hk : kraftSum lens ≤ 2 ^ 16)
    {c d : CodeWord} (hc : c ∈ canonical lens) (hd : d ∈ canonical lens) {bs : List Bool}
    (hcb : c.bits <+: bs) (hdb : d.bits <+: bs) : c = d := by
  let w := (bs ++ List.replicate 16 false).take 16
  have hw : w.length = 16 := by simp [w]
  have hpad {e : CodeWord} (he : e ∈ canonical lens) (h : e.bits <+: bs) : e.bits <+: w :=
    List.prefix_take_iff.mpr ⟨h.trans (List.prefix_append _ _), by rw [CodeWord.bits_length]; exact (mem_canonical he).1.2⟩
  exact canonical_unique hc hd (CodeWord.code_of_prefix (canonical_code_lt hle hk hc) hw (hpad hc hcb))
    (CodeWord.code_of_prefix (canonical_code_lt hle hk hd) hw (hpad hd hdb))

/-! ### One field -/

/-- The field can hold the value. -/
def Field.Fits : Field → Nat → Prop
  | .bits n, v => v < 2 ^ n
  | .sym _, _ => True
  | .byte, v => v < 2 ^ 8
  | .word32, v => v < 2 ^ 32

/-- The number of four bytes, the first highest, read as a little-endian word. -/
theorem leWord_bytes {a b c d : Nat} (ha : a < 2 ^ 8) (hb : b < 2 ^ 8) (hc : c < 2 ^ 8) (hd : d < 2 ^ 8) {w : Nat}
    (hw : w = 2 ^ 24 * a + 2 ^ 16 * b + 2 ^ 8 * c + d) :
    leWord (w / 2 ^ 24 % 2 ^ 8) (w / 2 ^ 16 % 2 ^ 8) (w / 2 ^ 8 % 2 ^ 8) (w % 2 ^ 8) = leWord a b c d := by
  have ha' : w / 2 ^ 24 % 2 ^ 8 = a := by omega
  have hb' : w / 2 ^ 16 % 2 ^ 8 = b := by omega
  have hc' : w / 2 ^ 8 % 2 ^ 8 = c := by omega
  have hd' : w % 2 ^ 8 = d := by omega
  rw [ha', hb', hc', hd']

/-- A word is the little-endian word of its own four bytes. -/
theorem leWord_self {v : Nat} (hv : v < 2 ^ 32) :
    leWord (v % 2 ^ 8) (v / 2 ^ 8 % 2 ^ 8) (v / 2 ^ 16 % 2 ^ 8) (v / 2 ^ 24 % 2 ^ 8) = v := by
  unfold leWord
  omega

theorem readField_word32 {v : Nat} (hv : v < 2 ^ 32) (codes : Codes) (rest : List Bool) :
    readField .word32 codes
      (toBits 8 v ++ toBits 8 (v / 2 ^ 8) ++ toBits 8 (v / 2 ^ 16) ++ toBits 8 (v / 2 ^ 24) ++ rest) = .ok (v, rest) := by
  have htake := takeBits_append (toBits 8 v ++ toBits 8 (v / 2 ^ 8) ++ toBits 8 (v / 2 ^ 16) ++ toBits 8 (v / 2 ^ 24)) rest
  simp only [List.length_append, toBits_length, Nat.reduceAdd] at htake
  simp only [readField, htake]
  have hbyte (x : Nat) : x % 2 ^ 8 < 2 ^ 8 := Nat.mod_lt _ (by decide)
  rw [leWord_bytes (hbyte v) (hbyte (v / 2 ^ 8)) (hbyte (v / 2 ^ 16)) (hbyte (v / 2 ^ 24)), leWord_self hv]
  simp only [ofBits_append, ofBits_toBits, toBits_length]
  ring

/-- The code word of a symbol is found again at the head of its bits. -/
theorem find_prefix_canonical {lens : List Nat} (hle : ∀ l ∈ lens, l ≤ 16) (hk : kraftSum lens ≤ 2 ^ 16) {c : CodeWord}
    (hc : c ∈ canonical lens) {bs : List Bool} (h : c.bits <+: bs) :
    (canonical lens).find? (fun d => d.bits.isPrefixOf bs) = some c := by
  cases hfind : (canonical lens).find? (fun d => d.bits.isPrefixOf bs) with
  | none => exact absurd (List.isPrefixOf_iff_prefix.mpr h) (List.find?_eq_none.mp hfind c hc)
  | some d =>
    have hd := List.mem_of_find?_eq_some hfind
    have hdb : d.bits <+: bs := List.isPrefixOf_iff_prefix.mp (by simpa using List.find?_some hfind)
    rw [canonical_prefixFree hle hk hd hc hdb h]

/-- A field that fits is read back from its bits. -/
theorem readField_fieldBits {lens : Tree → List Nat} (hlens : ∀ t, (∀ l ∈ lens t, l ≤ 16) ∧ kraftSum (lens t) ≤ 2 ^ 16)
    {f : Field} {v : Nat} (hfit : f.Fits v) {bits : List Bool}
    (h : fieldBits (fun t => canonical (lens t)) f v = some bits) (rest : List Bool) :
    readField f (fun t => canonical (lens t)) (bits ++ rest) = .ok (v, rest) := by
  cases f with
  | bits n =>
    cases h
    simp only [readField, takeBits_toBits, Nat.mod_eq_of_lt hfit]
  | byte =>
    cases h
    simp only [readField, takeBits_toBits, Nat.mod_eq_of_lt hfit]
  | word32 =>
    cases h
    exact readField_word32 hfit _ rest
  | sym t =>
    simp only [fieldBits] at h
    cases hfind : (canonical (lens t)).find? (fun c => c.sym == v) with
    | none => simp [hfind] at h
    | some c =>
      simp only [hfind, Option.some.injEq] at h
      subst h
      have hsym : c.sym = v := by simpa using List.find?_some hfind
      have hread := find_prefix_canonical (hlens t).1 (hlens t).2 (List.mem_of_find?_eq_some hfind)
        (List.prefix_append c.bits rest)
      simp only [readField, hread, hsym]
      rw [← CodeWord.bits_length c, List.drop_left]

/-! ### The fields of an element -/

/-- The decoder reads exactly these fields, and each can hold its value. -/
def Parser.Takes : Parser → List (Field × Nat) → Prop
  | .read f k, (g, v) :: fs => f = g ∧ f.Fits v ∧ (k v).Takes fs
  | .read _ _, [] => False
  | .done _, fs => fs = []
  | .reject _, fs => fs = []

theorem Parser.takes_ofOption (o : Option Instr) : (Parser.ofOption o).Takes [] := by
  cases o <;> exact rfl

theorem Parser.takes_ite {c : Prop} [Decidable c] {p q : Parser} {fs : List (Field × Nat)} (hp : p.Takes fs)
    (hq : q.Takes fs) : (if c then p else q).Takes fs := by
  split
  · exact hp
  · exact hq

/-- A decoder run over the bits of the fields it takes does what it does with their values. -/
theorem Parser.runBits_fieldsBits {lens : Tree → List Nat}
    (hlens : ∀ t, (∀ l ∈ lens t, l ≤ 16) ∧ kraftSum (lens t) ≤ 2 ^ 16) {p : Parser} {fs : List (Field × Nat)} {i : Instr}
    {bits : List Bool} (htakes : p.Takes fs) (hrun : p.runFields (fs.map Prod.snd) = some i)
    (hbits : fieldsBits (fun t => canonical (lens t)) fs = some bits) (rest : List Bool) :
    p.runBits (fun t => canonical (lens t)) (bits ++ rest) = .instr i rest := by
  induction p generalizing fs bits with
  | done j =>
    obtain rfl : fs = [] := htakes
    cases hbits
    cases hrun
    rfl
  | reject e => cases hrun
  | read f k ih =>
    cases fs with
    | nil => exact htakes.elim
    | cons gv fs =>
      obtain ⟨g, v⟩ := gv
      obtain ⟨rfl, hfit, hrest⟩ := htakes
      simp only [fieldsBits] at hbits
      cases ha : fieldBits (fun t => canonical (lens t)) f v with
      | none => simp [ha] at hbits
      | some a =>
        cases hb : fieldsBits (fun t => canonical (lens t)) fs with
        | none => simp [ha, hb] at hbits
        | some b =>
          simp only [ha, hb, Option.some.injEq] at hbits
          subst hbits
          rw [Parser.runBits, List.append_assoc, readField_fieldBits hlens hfit ha (b ++ rest)]
          exact ih v hrest hrun hb

/-! ### Every instruction -/

/-- The fields an instruction is encoded as make it again: the laws of `RoundTrip`, together. -/
theorem runFields_encode (i : Instr) : Laws.RoundTrip.Statement i := by
  cases i with
  | construct wb ri => exact Laws.RoundTrip.construct wb ri
  | decodeFrame n => exact Laws.RoundTrip.decodeFrame n
  | e8hdrOff => exact Laws.RoundTrip.e8hdrOff
  | e8hdrOn m => exact Laws.RoundTrip.e8hdrOn m
  | blockType0 len => exact Laws.RoundTrip.blockType0 len
  | blockVerbatim len => exact Laws.RoundTrip.blockVerbatim len
  | blockAligned len => exact Laws.RoundTrip.blockAligned len
  | blockUncompressed len => exact Laws.RoundTrip.blockUncompressed len
  | blockType4 len => exact Laws.RoundTrip.blockType4 len
  | blockType5 len => exact Laws.RoundTrip.blockType5 len
  | blockType6 len => exact Laws.RoundTrip.blockType6 len
  | blockType7 len => exact Laws.RoundTrip.blockType7 len
  | alignlen a => exact Laws.RoundTrip.alignlen a
  | prelen p => exact Laws.RoundTrip.prelen p
  | zrun4 k => exact Laws.RoundTrip.zrun4 k
  | zrun20 k => exact Laws.RoundTrip.zrun20 k
  | srun k z2 => exact Laws.RoundTrip.srun k z2
  | lit b => exact Laws.RoundTrip.lit b
  | lsym l => exact Laws.RoundTrip.lsym l
  | alsym a => exact Laws.RoundTrip.alsym a
  | uncPad => exact Laws.RoundTrip.uncPad
  | uncRWords w0 w1 w2 => exact Laws.RoundTrip.uncRWords w0 w1 w2
  | uncPayload => exact Laws.RoundTrip.uncPayload
  | uncPadByte x => exact Laws.RoundTrip.uncPadByte x
  | delta0 | delta1 | delta2 | delta3 | delta4 | delta5 | delta6 | delta7 | delta8 | delta9 | delta10 | delta11
  | delta12 | delta13 | delta14 | delta15 | delta16 => rintro _ ⟨⟩ -; rfl
  | _ hdr => rintro _ ⟨⟩ -; exact Laws.RoundTrip.mainMatch _ hdr rfl

theorem takes_mainSym (v : Nat) : (parserOf .mainSym).Takes [(.sym .main, v)] :=
  ⟨rfl, trivial, Parser.takes_ite rfl (Parser.takes_ofOption _)⟩

theorem takes_blockHeader {t : Nat} (ht : t < 2 ^ 3) (len : Word24) : (parserOf .blockHeader).Takes (blockFields t len) := by
  have hlen := len.isLt
  exact ⟨rfl, ht, rfl, show len.toNat / 2 ^ 8 < 2 ^ 16 by omega, rfl, Nat.mod_lt _ (by decide), rfl⟩

/-- The decoder of an instruction's place takes the fields it is encoded as. -/
theorem takes_encode {i : Instr} {site : Site} (hsite : i.site = some site) :
    (parserOf site).Takes (encode i) := by
  cases i with
  | construct wb ri => cases hsite
  | decodeFrame n => cases hsite
  | e8hdrOff => cases hsite; exact ⟨rfl, show 0 < 2 by decide, rfl⟩
  | e8hdrOn m =>
    cases hsite
    have hm := m.isLt
    exact ⟨rfl, show 1 < 2 by decide, rfl, show m.toNat / 2 ^ 16 < 2 ^ 16 by omega, rfl, Nat.mod_lt _ (by decide), rfl⟩
  | blockType0 len | blockVerbatim len | blockAligned len | blockUncompressed len | blockType4 len | blockType5 len
  | blockType6 len | blockType7 len => cases hsite; exact takes_blockHeader (by decide) len
  | alignlen a => cases hsite; exact ⟨rfl, a.isLt, rfl⟩
  | prelen p => cases hsite; exact ⟨rfl, p.isLt, rfl⟩
  | zrun4 k => cases hsite; exact ⟨rfl, trivial, rfl, k.isLt, rfl⟩
  | zrun20 k => cases hsite; exact ⟨rfl, trivial, rfl, k.isLt, rfl⟩
  | srun k z2 => cases hsite; exact ⟨rfl, trivial, rfl, k.isLt, rfl, trivial, Parser.takes_ite rfl rfl⟩
  | lit b => cases hsite; exact takes_mainSym _
  | lsym l => cases hsite; exact ⟨rfl, trivial, Parser.takes_ite rfl rfl⟩
  | alsym a => cases hsite; exact ⟨rfl, trivial, Parser.takes_ite rfl rfl⟩
  | uncPad => cases hsite; rfl
  | uncRWords w0 w1 w2 => cases hsite; exact ⟨rfl, w0.isLt, rfl, w1.isLt, rfl, w2.isLt, rfl⟩
  | uncPayload => cases hsite; rfl
  | uncPadByte x => cases hsite; exact ⟨rfl, x.isLt, rfl⟩
  | delta0 | delta1 | delta2 | delta3 | delta4 | delta5 | delta6 | delta7 | delta8 | delta9 | delta10 | delta11
  | delta12 | delta13 | delta14 | delta15 | delta16 => cases hsite; exact ⟨rfl, trivial, rfl⟩
  | _ hdr => cases hsite; exact takes_mainSym _

/-- Settles O2: field by field, by the round trip of the fields' values; a symbol's bits are found again because no code word
begins another. -/
theorem decodeOfEncode : Obligations.DecodeOfEncode := by
  unfold Obligations.DecodeOfEncode
  intro i site lens bits rest hwf hsite hlens hbits
  exact Parser.runBits_fieldsBits hlens (takes_encode hsite) (runFields_encode i site hsite hwf) hbits rest

/-- Settles O1: each word is read by its place's decoder; the words are small enough to be run. -/
theorem specWordsDecode : Obligations.SpecWordsDecode := by
  unfold Obligations.SpecWordsDecode
  decide

end Sys2Proof

end Encoding

/-! ## A step and its parts (spec/42_frame_blocks.md R193): a host command, an element, or an error on the way -/

section Steps

namespace Sys2Proof.Machine

theorem step_idle {s : State} (hc : s.ctl = .idle) : step s = commandStep s := by
  simp [step, hc]

theorem step_inCommand {s : State} (hc : s.ctl ≠ .idle) : step s = elementStep s := by
  unfold step
  split
  · exact absurd ‹_› hc
  · rfl

/-- Once the next element is found, a step is its fetch and then its meaning. -/
theorem step_of_element {s u : State} {site : Site} (hc : s.ctl ≠ .idle) (h : seek s = .ok (.element site) u) :
    step s = elementStep s ∧ nextInstr s = (fetchInstr site u).bind fun i v => .ok (some i) v :=
  ⟨step_inCommand hc, by rw [nextInstr, h]; rfl⟩

theorem step_of_fetch {s u v : State} {site : Site} {i : Instr} (hc : s.ctl ≠ .idle)
    (h : seek s = .ok (.element site) u) (hf : fetchInstr site u = .ok i v) : step s = exec i v := by
  obtain ⟨hstep, hnext⟩ := step_of_element hc h
  rw [hstep, elementStep, hnext, hf]
  rfl

theorem step_of_fetch_raise {s u v : State} {site : Site} {e : ErrKind} (hc : s.ctl ≠ .idle)
    (h : seek s = .ok (.element site) u) (hf : fetchInstr site u = .raise e v) : step s = .next (v.takeError e) := by
  obtain ⟨hstep, hnext⟩ := step_of_element hc h
  rw [hstep, elementStep, hnext, hf]
  rfl

theorem step_of_fetch_stop {s u : State} {site : Site} {f : Fault} (hc : s.ctl ≠ .idle)
    (h : seek s = .ok (.element site) u) (hf : fetchInstr site u = .stop f) : step s = .fault f := by
  obtain ⟨hstep, hnext⟩ := step_of_element hc h
  rw [hstep, elementStep, hnext, hf]
  rfl

theorem step_of_seek_raise {s u : State} {e : ErrKind} (hc : s.ctl ≠ .idle) (h : seek s = .raise e u) :
    step s = .next (u.takeError e) := by
  rw [step_inCommand hc, elementStep, nextInstr, h]
  rfl

theorem step_of_seek_stop {s : State} {f : Fault} (hc : s.ctl ≠ .idle) (h : seek s = .stop f) : step s = .fault f := by
  rw [step_inCommand hc, elementStep, nextInstr, h]
  rfl

theorem commandStep_nil {s : State} (h : s.cmds = []) : commandStep s = .next s := by
  simp [commandStep, h]

theorem commandStep_cons {s : State} {c : HostCmd} {cs : List HostCmd} (h : s.cmds = c :: cs) :
    commandStep s = c.run { s with cmds := cs } := by
  simp [commandStep, h]

theorem State.destroy_alive {s : State} (h : s.alive = true) : s.destroy = s.destroyed := by
  simp [State.destroy, h]

theorem State.destroy_none {s : State} (h : s.alive = false) : s.destroy = s.refuse := by
  simp [State.destroy, h]

/-- Settles O43: a step between commands is the next command's run, one inside a command the search, the fetch and the
meaning, whichever of them ends it. -/
theorem stepRunsInstruction : Obligations.StepRunsInstruction := by
  unfold Obligations.StepRunsInstruction
  intro s
  refine ⟨fun hc hn => ?_, fun wb ri cs hc hcs => ?_, fun n cs hc hcs => ?_, fun cs hc hcs => ⟨fun ha => ?_, fun ha => ?_⟩,
    fun hc => ⟨fun _ _ _ _ hs hf => step_of_fetch hc hs hf, fun _ _ _ _ hs hf => step_of_fetch_raise hc hs hf,
      fun _ _ _ hs hf => step_of_fetch_stop hc hs hf, fun _ hs => step_of_complete hc hs,
      fun _ _ hs => step_of_seek_raise hc hs, fun _ hs => step_of_seek_stop hc hs⟩⟩
  · rw [step_idle hc, commandStep_nil hn]
  · rw [step_idle hc, commandStep_cons hcs]; rfl
  · rw [step_idle hc, commandStep_cons hcs]; rfl
  · rw [step_idle hc, commandStep_cons hcs, HostCmd.run, State.destroy_alive (s := { s with cmds := cs }) ha]; rfl
  · rw [step_idle hc, commandStep_cons hcs, HostCmd.run, State.destroy_none (s := { s with cmds := cs }) ha]; rfl

end Sys2Proof.Machine

end Steps

/-! ## Reading an element is decoding its bits (spec/30_encoding.md, spec/40_bitreader.md, spec/41_huffman.md R164) -/

section Fetching

namespace Sys2Proof

/-- The fields of the elements read in `Bitstream` mode. -/
def Field.InBits : Field → Prop
  | .bits _ | .sym _ => True
  | .byte | .word32 => False

/-- How many of the next bits a field's read sees: the field, or a symbol's 16-bit peek (R164). -/
def Field.reach : Field → Nat
  | .bits n => n
  | .sym _ => 16
  | .byte => 8
  | .word32 => 32

/-- How many of the bits a decoder's reads of them see. -/
def Parser.reach (codes : Codes) : Parser → List Bool → Nat
  | .done _, _ => 0
  | .reject _, _ => 0
  | .read f k, bs => match readField f codes bs with
    | .ok (v, rest) => max f.reach (bs.length - rest.length + (k v).reach codes rest)
    | .error _ => 0

/-- Every field of the decoder is one of `Q`. -/
def Parser.Fields (Q : Field → Prop) : Parser → Prop
  | .done _ => True
  | .reject _ => True
  | .read f k => Q f ∧ ∀ v, (k v).Fields Q

end Sys2Proof

namespace Sys2Proof.Machine

/-! ### Bits at hand -/

theorem State.hasBits_mono {s : State} {k m : Nat} (h : s.hasBits m) (hk : k ≤ m) : s.hasBits k := by
  unfold State.hasBits at h ⊢
  omega

theorem State.hasBits_advance {s : State} {a b : Nat} (h : s.hasBits (a + b)) :
    ({ s with pos := s.pos + a } : State).hasBits b := by
  unfold State.hasBits at h ⊢
  simp only
  omega

theorem readBits_here_field {n : Nat} {s : State} (hm : s.mode = .bitstream) (h : s.hasBits n) :
    readBits n s = .ok (streamField s.inp s.pos n) { s with pos := s.pos + n } := by
  rw [readBits_here hm h, State.peek_eq]

/-- A field read after `a` bits, all of them at hand. -/
theorem readBits_advanced {a b : Nat} {s : State} (hm : s.mode = .bitstream) (h : s.hasBits (a + b)) :
    readBits b { s with pos := s.pos + a } =
      .ok (streamField s.inp (s.pos + a) b) { s with pos := s.pos + (a + b) } := by
  rw [readBits_here_field (s := { s with pos := s.pos + a }) hm (State.hasBits_advance h), ← Nat.add_assoc]

/-! ### The bits at the position, as a list -/

theorem bitsFrom_eq (inp : List Byte) (p n : Nat) :
    bitsFrom inp p n = (List.range n).map fun k => streamBit inp (p + k) := by
  simp [bitsFrom, bitAt_streamBit]

@[simp] theorem bitsFrom_length (inp : List Byte) (p n : Nat) : (bitsFrom inp p n).length = n := by
  simp [bitsFrom]

theorem bitsFrom_add (inp : List Byte) (p m n : Nat) :
    bitsFrom inp p (m + n) = bitsFrom inp p m ++ bitsFrom inp (p + m) n := by
  simp [bitsFrom, List.range_add, Nat.add_assoc]

/-- The first of the bits at the position, and those after them. -/
theorem bitsFrom_split (inp : List Byte) (p : Nat) {m n : Nat} (h : m ≤ n) :
    bitsFrom inp p n = bitsFrom inp p m ++ bitsFrom inp (p + m) (n - m) := by
  rw [← bitsFrom_add, Nat.add_sub_cancel' h]

theorem takeBits_bitsFrom {inp : List Byte} {p m n : Nat} {r : Nat × List Bool}
    (h : takeBits m (bitsFrom inp p n) = some r) :
    m ≤ n ∧ r = (streamField inp p m, bitsFrom inp (p + m) (n - m)) := by
  unfold takeBits at h
  split at h
  · rename_i hm
    rw [bitsFrom_length] at hm
    cases h
    refine ⟨hm, ?_⟩
    rw [bitsFrom_split inp p hm, List.take_left' (bitsFrom_length ..), List.drop_left' (bitsFrom_length ..), ofBits_bitsFrom]
  · cases h

/-! ### One field -/

/-- A table read of a legal set that finds a code word is a complete code. -/
theorem Table.Legal.complete {tab : Table} {n : Nat} {allowEmpty : Bool} (h : tab.Legal n allowEmpty) {c : CodeWord}
    (hc : c ∈ canonical tab.lens) :
    tab.empty = false ∧ kraftSum tab.lens = 2 ^ 16 ∧ tab.lens.length = n ∧ ∀ l ∈ tab.lens, l ≤ 16 := by
  obtain ⟨⟨hpos, -⟩, hlen⟩ := mem_canonical hc
  rcases h with rfl | ⟨hn, hle, hb⟩
  · cases hc
  · obtain ⟨-, ⟨-, -, hz⟩ | ⟨he, hk⟩⟩ := buildTable_eq_ok hb
    · have := List.all_eq_true.mp hz _ (List.mem_of_getElem? hlen)
      simp only [beq_iff_eq] at this
      omega
    · exact ⟨he, hk, hn, hle⟩

/-- A code word found at the head of the bits at the position is the one that a symbol read finds there. -/
theorem readSym_of_prefix {s : State} {t : Tree} (hl : s.LengthsInv) (hm : s.mode = .bitstream) (hb : s.hasBits 16)
    {c : CodeWord} (hc : c ∈ canonical (s.table t).lens) {n : Nat} (hp : c.bits <+: bitsFrom s.inp s.pos n) :
    readSym t s = .ok c.sym { s with pos := s.pos + c.len } := by
  obtain ⟨he, hk, -, hle⟩ := (hl.tables t).complete hc
  obtain ⟨d, hd, hcode, hread⟩ := readSym_complete he hm hle hk (need_here hb)
  have hlen : c.len ≤ n := by simpa using hp.length_le
  have hlt := canonical_code_lt hle (Nat.le_of_eq hk) hc
  have hfield : c.code = streamField s.inp s.pos c.len := by
    rw [bitsFrom_split s.inp s.pos hlen] at hp
    have heq := List.IsPrefix.eq_of_length (List.prefix_of_prefix_length_le hp (List.prefix_append _ _) (by simp)) (by simp)
    rw [← ofBits_bitsFrom, ← heq, CodeWord.bits, ofBits_toBits, Nat.mod_eq_of_lt hlt]
  rw [hread, canonical_unique hc hd (v := streamField s.inp s.pos 16)
    (by rw [streamField_shiftRight _ _ (mem_canonical hc).1.2, hfield])
    (by rw [streamField_shiftRight _ _ (mem_canonical hd).1.2, hcode])]

/-- A field read off the bits at the position is the field the reader reads there. -/
theorem readFieldAt_of_bits {s : State} (hl : s.LengthsInv) (hm : s.mode = .bitstream) {f : Field} (hf : f.InBits)
    {n v : Nat} {rest : List Bool}
    (h : readField f (fun t => canonical (s.table t).lens) (bitsFrom s.inp s.pos n) = .ok (v, rest)) :
    ∃ m, m ≤ n ∧ f.reach ≤ m + 15 ∧ rest = bitsFrom s.inp (s.pos + m) (n - m) ∧
      (s.hasBits f.reach → readFieldAt f s = .ok v { s with pos := s.pos + m }) := by
  cases f with
  | bits m =>
    simp only [readField] at h
    cases htake : takeBits m (bitsFrom s.inp s.pos n) with
    | none => rw [htake] at h; cases h
    | some r =>
      rw [htake] at h
      obtain ⟨hmn, rfl⟩ := takeBits_bitsFrom htake
      cases h
      exact ⟨m, hmn, Nat.le_add_right .., rfl, readBits_here_field hm⟩
  | sym t =>
    simp only [readField] at h
    cases hfind : (canonical (s.table t).lens).find? (fun c => c.bits.isPrefixOf (bitsFrom s.inp s.pos n)) with
    | none => rw [hfind] at h; cases h
    | some c =>
      rw [hfind] at h
      cases h
      have hc := List.mem_of_find?_eq_some hfind
      have hp : c.bits <+: bitsFrom s.inp s.pos n := List.isPrefixOf_iff_prefix.mp (by simpa using List.find?_some hfind)
      have hlen : c.len ≤ n := by simpa using hp.length_le
      have hpos := (mem_canonical hc).1.1
      refine ⟨c.len, hlen, show 16 ≤ c.len + 15 by omega, ?_, fun hb => readSym_of_prefix hl hm hb hc hp⟩
      rw [bitsFrom_split s.inp s.pos hlen, List.drop_left' (bitsFrom_length ..)]
  | byte => exact hf.elim
  | word32 => exact hf.elim

/-! ### A whole element -/

/-- What the reader makes of a decoded element: its instruction, or its error, some bits further. -/
def FetchAgrees (s : State) (n : Nat) (d : Decoded) (r : Res Instr) : Prop :=
  (∀ i rest, d = .instr i rest → rest.length ≤ n ∧ r = .ok i { s with pos := s.pos + (n - rest.length) }) ∧
    ∀ e, d = .rejected (.error e) → ∃ k, k ≤ n ∧ r = .raise e { s with pos := s.pos + k }

/-- A decoder run over the reader does what it does over the bits at the position, as far as they are at hand. -/
theorem runParser_of_runBits {codes : Codes} {p : Parser} (hp : p.Fields Field.InBits) {s : State} (hl : s.LengthsInv)
    (hcodes : codes = fun t => canonical (s.table t).lens) (hm : s.mode = .bitstream) (n : Nat)
    (hb : s.hasBits (p.reach codes (bitsFrom s.inp s.pos n))) :
    FetchAgrees s n (p.runBits codes (bitsFrom s.inp s.pos n)) (runParser p s) := by
  induction p generalizing s n with
  | done i =>
    refine ⟨fun j rest h => ?_, fun e h => nomatch h⟩
    cases h
    rw [bitsFrom_length, Nat.sub_self]
    exact ⟨Nat.le_refl n, rfl⟩
  | reject e =>
    refine ⟨fun j rest h => (nomatch h), fun e' h => ?_⟩
    cases h
    exact ⟨0, Nat.zero_le n, rfl⟩
  | read f k ih =>
    cases hread : readField f codes (bitsFrom s.inp s.pos n) with
    | error r =>
      have hrun : (Parser.read f k).runBits codes (bitsFrom s.inp s.pos n) = .rejected r := by
        simp only [Parser.runBits, hread]
      have hr : ∀ e, r ≠ .error e := by
        rintro e rfl
        cases f <;> simp only [readField] at hread <;> split at hread <;> cases hread
      rw [hrun]
      exact ⟨fun _ _ h => (nomatch h), fun e h => absurd (Decoded.rejected.inj h) (hr e)⟩
    | ok vr =>
      obtain ⟨v, rest⟩ := vr
      have hrun : (Parser.read f k).runBits codes (bitsFrom s.inp s.pos n) = (k v).runBits codes rest := by
        simp only [Parser.runBits, hread]
      have hreach : (Parser.read f k).reach codes (bitsFrom s.inp s.pos n) =
          max f.reach (n - rest.length + (k v).reach codes rest) := by
        simp only [Parser.reach, hread, bitsFrom_length]
      rw [hcodes] at hread
      obtain ⟨m, hmn, -, rfl, hat⟩ := readFieldAt_of_bits hl hm hp.1 hread
      have hrest : s.hasBits (m + (k v).reach codes (bitsFrom s.inp (s.pos + m) (n - m))) := by
        rw [hreach, bitsFrom_length, Nat.sub_sub_self hmn] at hb
        exact State.hasBits_mono hb (Nat.le_max_right ..)
      rw [hreach] at hb
      have hfetch : runParser (.read f k) s = runParser (k v) { s with pos := s.pos + m } := by
        rw [runParser, hat (State.hasBits_mono hb (Nat.le_max_left ..)), Res.bind_ok]
      have hnext := ih v (hp.2 v) (s := { s with pos := s.pos + m }) { hl with } hcodes hm (n - m)
        (State.hasBits_advance hrest)
      rw [hrun, hfetch]
      obtain ⟨hinstr, herr⟩ := hnext
      refine ⟨fun i rest h => ?_, fun e h => ?_⟩
      · obtain ⟨hle, hok⟩ := hinstr i rest h
        refine ⟨by omega, ?_⟩
        rw [hok, Nat.add_assoc, show m + (n - m - rest.length) = n - rest.length by omega]
      · obtain ⟨j, hj, hraise⟩ := herr e h
        exact ⟨m + j, by omega, by rw [hraise, Nat.add_assoc]⟩

/-! ### How far a place's decoder sees -/

/-- A field read leaves the bits after it, and a symbol has at least one bit. -/
theorem readField_rest {codes : Codes} (hcodes : ∀ t, ∀ c ∈ codes t, 1 ≤ c.len) {f : Field} (hf : f.InBits) {bs : List Bool}
    {v : Nat} {rest : List Bool} (h : readField f codes bs = .ok (v, rest)) :
    ∃ m, m ≤ bs.length ∧ rest.length = bs.length - m ∧ f.reach ≤ m + 15 ∧ (∀ k, f = .bits k → m = k) ∧ (∀ t, f = .sym t → 1 ≤ m) := by
  cases f with
  | bits m =>
    simp only [readField, takeBits] at h
    split at h
    · rename_i r hr
      split at hr
      · cases hr
        cases h
        exact ⟨m, ‹_›, List.length_drop, Nat.le_add_right .., fun k hk => Field.bits.inj hk, nofun⟩
      · cases hr
    · cases h
  | sym t =>
    simp only [readField] at h
    split at h
    · rename_i c hc
      cases h
      have hlen := hcodes t c (List.mem_of_find?_eq_some hc)
      have hp : c.bits <+: bs := List.isPrefixOf_iff_prefix.mp (by simpa using List.find?_some hc)
      exact ⟨c.len, by simpa using hp.length_le, List.length_drop, show 16 ≤ c.len + 15 by omega, nofun, fun _ _ => hlen⟩
    · cases h
  | byte => exact hf.elim
  | word32 => exact hf.elim

theorem Parser.reach_of_error {codes : Codes} {f : Field} {k : Nat → Parser} {bs : List Bool} {r : Reject}
    (h : readField f codes bs = .error r) : (Parser.read f k).reach codes bs = 0 := by
  simp only [Parser.reach, h]

theorem Parser.reach_of_ok {codes : Codes} {f : Field} {k : Nat → Parser} {bs rest : List Bool} {v : Nat}
    (h : readField f codes bs = .ok (v, rest)) :
    (Parser.read f k).reach codes bs = max f.reach (bs.length - rest.length + (k v).reach codes rest) := by
  simp only [Parser.reach, h]

/-- A symbol read at the last of the bits peeks fifteen past them, and no read sees further. -/
theorem Parser.reach_le {codes : Codes} (hcodes : ∀ t, ∀ c ∈ codes t, 1 ≤ c.len) {p : Parser} (hp : p.Fields Field.InBits)
    (bs : List Bool) : p.reach codes bs ≤ bs.length + 15 := by
  induction p generalizing bs with
  | done i => exact Nat.zero_le _
  | reject e => exact Nat.zero_le _
  | read f k ih =>
    cases h : readField f codes bs with
    | error r => rw [Parser.reach_of_error h]; exact Nat.zero_le _
    | ok vr =>
      obtain ⟨v, rest⟩ := vr
      obtain ⟨m, hm, hrest, hf, -⟩ := readField_rest hcodes hp.1 h
      have := ih v (hp.2 v) rest
      rw [Parser.reach_of_ok h]
      omega

/-- Fields of verbatim bits alone see nothing past them. -/
theorem Parser.reach_bits {codes : Codes} (hcodes : ∀ t, ∀ c ∈ codes t, 1 ≤ c.len) {p : Parser}
    (hp : p.Fields fun f => ∃ n, f = .bits n) (bs : List Bool) : p.reach codes bs ≤ bs.length := by
  induction p generalizing bs with
  | done i => exact Nat.zero_le _
  | reject e => exact Nat.zero_le _
  | read f k ih =>
    cases h : readField f codes bs with
    | error r => rw [Parser.reach_of_error h]; exact Nat.zero_le _
    | ok vr =>
      obtain ⟨v, rest⟩ := vr
      obtain ⟨n, rfl⟩ := hp.1
      obtain ⟨m, hm, hrest, -, hbits, -⟩ := readField_rest hcodes (f := .bits n) trivial h
      have := hbits n rfl
      have := ih v (hp.2 v) rest
      rw [Parser.reach_of_ok h, Field.reach]
      omega

/-- One symbol and then verbatim bits: the symbol's peek, or the bits. -/
theorem Parser.reach_sym {codes : Codes} (hcodes : ∀ t, ∀ c ∈ codes t, 1 ≤ c.len) {t : Tree} {k : Nat → Parser}
    {bs rest : List Bool} {v : Nat} (h : readField (.sym t) codes bs = .ok (v, rest))
    (hk : (k v).Fields fun f => ∃ n, f = .bits n) :
    (Parser.read (.sym t) k).reach codes bs ≤ max bs.length 16 ∧ 1 ≤ bs.length := by
  obtain ⟨m, hm, hrest, -, -, hpos⟩ := readField_rest hcodes (f := .sym t) trivial h
  have := hpos t rfl
  have := Parser.reach_bits hcodes hk rest
  rw [Parser.reach_of_ok h, Field.reach]
  omega

theorem Parser.fields_ite {Q : Field → Prop} {c : Prop} [Decidable c] {p q : Parser} (hp : p.Fields Q) (hq : q.Fields Q) :
    (if c then p else q).Fields Q := by
  split
  · exact hp
  · exact hq

theorem Parser.fields_read {Q : Field → Prop} {f : Field} {k : Nat → Parser} (hf : Q f) (hk : ∀ v, (k v).Fields Q) :
    (Parser.read f k).Fields Q := ⟨hf, hk⟩

theorem Parser.fields_ofOption (Q : Field → Prop) (o : Option Instr) : (Parser.ofOption o).Fields Q := by
  cases o <;> trivial

/-- Every field of an element read in `Bitstream` mode is verbatim bits or a symbol (R92–R104). -/
theorem parserOf_inBits {site : Site} (h : site.mode = .bitstream) : (parserOf site).Fields Field.InBits := by
  cases site with
  | e8Header => exact ⟨trivial, fun _ => Parser.fields_ite trivial ⟨trivial, fun _ => ⟨trivial, fun _ => trivial⟩⟩⟩
  | blockHeader => exact ⟨trivial, fun _ => ⟨trivial, fun _ => ⟨trivial, fun _ => trivial⟩⟩⟩
  | alignLen => exact ⟨trivial, fun _ => trivial⟩
  | preLen => exact ⟨trivial, fun _ => trivial⟩
  | lenCode =>
    exact ⟨trivial, fun _ => Parser.fields_ite ⟨trivial, fun _ => trivial⟩ (Parser.fields_ite ⟨trivial, fun _ => trivial⟩
      (Parser.fields_ite ⟨trivial, fun _ => ⟨trivial, fun _ => Parser.fields_ite trivial trivial⟩⟩
        (Parser.fields_ofOption _ _)))⟩
  | mainSym => exact ⟨trivial, fun _ => Parser.fields_ite trivial (Parser.fields_ofOption _ _)⟩
  | lenSym => exact ⟨trivial, fun _ => Parser.fields_ite trivial trivial⟩
  | alSym => exact ⟨trivial, fun _ => Parser.fields_ite trivial trivial⟩
  | uncPad => trivial
  | uncWords | payload | padByte => cases h

/-- What follows the symbol 19 of a length code: the run's length, and its inner symbol (R99). -/
def parseSrun : Parser :=
  .read (.bits 1) fun k => .read (.sym .pre) fun z2 =>
    if z2 ≤ 16 then .done (.srun (BitVec.ofNat 1 k) z2) else .reject .badLengthCode

/-- A length code is a symbol and verbatim bits, but for code 19. -/
theorem parserOf_lenCode : ∃ k : Nat → Parser, parserOf .lenCode = .read (.sym .pre) k ∧ k 19 = parseSrun ∧
    ∀ z, z ≠ 19 → (k z).Fields fun f => ∃ n, f = .bits n := by
  refine ⟨_, rfl, rfl, fun z hz => ?_⟩
  refine Parser.fields_ite (Parser.fields_read ⟨4, rfl⟩ fun _ => trivial)
    (Parser.fields_ite (Parser.fields_read ⟨5, rfl⟩ fun _ => trivial) ?_)
  rw [if_neg hz]
  exact Parser.fields_ofOption _ _

/-- A code-19 run, complete or not, or refused: the bound leaves room for its second symbol's peek. -/
theorem bitsToFetch_srun (codes : Codes) (bs : List Bool) (n : Nat) :
    bitsToFetch .lenCode (parseSrun.runBits codes bs) n = n + 15 := by
  simp only [parseSrun, Parser.runBits]
  split
  · split
    · split <;> rfl
    · rfl
  · rfl

theorem le_bitsToFetch_lenCode (d : Decoded) {n : Nat} (hn : 1 ≤ n) : max n 16 ≤ bitsToFetch .lenCode d n := by
  simp only [bitsToFetch]
  split <;> omega

/-- `bitsToFetch` is enough for every read of the place's decoder. -/
theorem reach_le_bitsToFetch {codes : Codes} (hcodes : ∀ t, ∀ c ∈ codes t, 1 ≤ c.len) {site : Site}
    (hsite : site.mode = .bitstream) (bs : List Bool) :
    (parserOf site).reach codes bs ≤ bitsToFetch site (decodeBits site codes bs) bs.length := by
  have oneSym {t : Tree} {k : Nat → Parser} (hk : ∀ v, (k v).Fields fun f => ∃ n, f = .bits n) :
      (Parser.read (.sym t) k).reach codes bs ≤ max bs.length 16 := by
    cases h : readField (.sym t) codes bs with
    | error r => rw [Parser.reach_of_error h]; exact Nat.zero_le _
    | ok vr => exact (Parser.reach_sym hcodes h (hk vr.1)).1
  have bits {p : Parser} (hp : p.Fields fun f => ∃ n, f = .bits n) : p.reach codes bs ≤ bs.length :=
    Parser.reach_bits hcodes hp bs
  cases site with
  | e8Header =>
    exact bits (Parser.fields_read ⟨_, rfl⟩ fun _ => Parser.fields_ite trivial
      (Parser.fields_read ⟨_, rfl⟩ fun _ => Parser.fields_read ⟨_, rfl⟩ fun _ => trivial))
  | blockHeader =>
    exact bits (Parser.fields_read ⟨_, rfl⟩ fun _ => Parser.fields_read ⟨_, rfl⟩ fun _ => Parser.fields_read ⟨_, rfl⟩ fun _ => trivial)
  | alignLen => exact bits (Parser.fields_read ⟨_, rfl⟩ fun _ => trivial)
  | preLen => exact bits (Parser.fields_read ⟨_, rfl⟩ fun _ => trivial)
  | mainSym => exact oneSym fun v => Parser.fields_ite trivial (Parser.fields_ofOption _ _)
  | lenSym => exact oneSym fun v => Parser.fields_ite trivial trivial
  | alSym => exact oneSym fun v => Parser.fields_ite trivial trivial
  | uncPad => exact Nat.zero_le _
  | uncWords | payload | padByte => cases hsite
  | lenCode =>
    obtain ⟨k, hk, hsrun, hbits⟩ := parserOf_lenCode
    rw [hk]
    cases h : readField (.sym .pre) codes bs with
    | error r => rw [Parser.reach_of_error h]; exact Nat.zero_le _
    | ok vr =>
      obtain ⟨z, rest⟩ := vr
      by_cases hz : z = 19
      · have hrun : decodeBits .lenCode codes bs = parseSrun.runBits codes rest := by
          rw [decodeBits, hk, Parser.runBits, h, hz, ← hsrun]
        rw [hrun, bitsToFetch_srun]
        exact Parser.reach_le hcodes (hk ▸ parserOf_inBits hsite) bs
      · obtain ⟨hle, hpos⟩ := Parser.reach_sym hcodes h (hbits z hz)
        exact Nat.le_trans hle (le_bitsToFetch_lenCode _ hpos)

/-! ### Bytes at hand -/

theorem byteBits_cons (b : Byte) (bs : List Byte) : byteBits (b :: bs) = toBits 8 b.toNat ++ byteBits bs := rfl

theorem byteBits_length (bs : List Byte) : (byteBits bs).length = 8 * bs.length := by
  induction bs with
  | nil => rfl
  | cons b bs ih => rw [byteBits_cons, List.length_append, toBits_length, ih, List.length_cons]; omega

theorem readField_byte (codes : Codes) (b : Byte) (bs : List Byte) :
    readField .byte codes (byteBits (b :: bs)) = .ok (b.toNat, byteBits bs) := by
  have hb := b.isLt
  simp only [readField, byteBits_cons, takeBits_toBits, Nat.mod_eq_of_lt hb]

theorem readField_bytes_word (codes : Codes) (b0 b1 b2 b3 : Byte) (bs : List Byte) :
    readField .word32 codes (byteBits (b0 :: b1 :: b2 :: b3 :: bs)) =
      .ok (leWord b0.toNat b1.toNat b2.toNat b3.toNat, byteBits bs) := by
  have hmod (b : Byte) : b.toNat % 2 ^ 8 = b.toNat := Nat.mod_eq_of_lt b.isLt
  have htake := takeBits_append (toBits 8 b0.toNat ++ toBits 8 b1.toNat ++ toBits 8 b2.toNat ++ toBits 8 b3.toNat) (byteBits bs)
  simp only [List.length_append, toBits_length, Nat.reduceAdd, List.append_assoc] at htake
  simp only [readField, byteBits_cons, htake]
  rw [leWord_bytes b0.isLt b1.isLt b2.isLt b3.isLt]
  simp only [ofBits_append, ofBits_toBits, toBits_length, List.length_append, hmod]
  ring

theorem readField_word_short (codes : Codes) {bs : List Byte} (h : bs.length < 4) :
    readField .word32 codes (byteBits bs) = .error .truncated := by
  have htake : takeBits 32 (byteBits bs) = none := by
    rw [takeBits, if_neg (by rw [byteBits_length]; omega)]
  simp only [readField, htake]

/-- The bytes at hand at a position, the first of them split off. -/
theorem take_drop_cons {inp : List Byte} {p n : Nat} (h : p + (n + 1) ≤ inp.length) :
    (inp.drop p).take (n + 1) = inp.getD p 0 :: (inp.drop (p + 1)).take n := by
  have hp : p < inp.length := by omega
  rw [List.drop_eq_getElem_cons hp, List.take_succ_cons, List.getD_eq_getElem _ _ hp]

theorem streamWord_toNat (inp : List Byte) (p : Nat) :
    (streamWord inp p).toNat = leWord (inp.getD p 0).toNat (inp.getD (p + 1) 0).toNat (inp.getD (p + 2) 0).toNat
      (inp.getD (p + 3) 0).toNat := toNat_append_bytes _ _ _ _

/-- A word read off the bytes at a position is the word that stands there. -/
theorem readField_word_at {codes : Codes} {inp : List Byte} {p n v : Nat} {rest : List Bool} (hp : p + n ≤ inp.length)
    (h : readField .word32 codes (byteBits ((inp.drop p).take n)) = .ok (v, rest)) :
    4 ≤ n ∧ v = (streamWord inp p).toNat ∧ rest = byteBits ((inp.drop (p + 4)).take (n - 4)) := by
  rcases Nat.lt_or_ge n 4 with hn | hn
  · rw [readField_word_short codes (by rw [List.length_take]; omega)] at h
    cases h
  · obtain ⟨m, rfl⟩ := Nat.exists_eq_add_of_le' hn
    rw [take_drop_cons (n := m + 3) hp, take_drop_cons (n := m + 2) (by omega), take_drop_cons (n := m + 1) (by omega),
      take_drop_cons (n := m) (by omega), readField_bytes_word] at h
    cases h
    exact ⟨hn, (streamWord_toNat inp p).symm, rfl⟩

theorem Parser.runBits_read_instr {codes : Codes} {f : Field} {k : Nat → Parser} {bs rest : List Bool} {i : Instr}
    (h : (Parser.read f k).runBits codes bs = .instr i rest) :
    ∃ v r, readField f codes bs = .ok (v, r) ∧ (k v).runBits codes r = .instr i rest := by
  rw [Parser.runBits] at h
  cases hr : readField f codes bs with
  | error e => rw [hr] at h; cases h
  | ok vr => rw [hr] at h; exact ⟨vr.1, vr.2, rfl, h⟩

/-- A word whose four bytes are at hand (R146). -/
theorem readU32LE_here {s : State} (hm : s.mode = .bytestream) (hb : s.hasBytes 4) :
    readU32LE s = .ok (streamWord s.inp s.pos).toNat { s with pos := s.pos + 4 } := by
  unfold State.hasBytes at hb
  have hread (k : Nat) (hk : k < 4) : readByte { s with pos := s.pos + k } =
      .ok (s.inp.getD (s.pos + k) 0) { s with pos := s.pos + (k + 1) } :=
    readByte_here (s := { s with pos := s.pos + k }) hm (show s.pos + k + 1 ≤ s.inp.length by omega)
  have h0 : readByte s = .ok (s.inp.getD s.pos 0) { s with pos := s.pos + 1 } := hread 0 (by decide)
  rw [readU32LE, h0, Res.bind_ok, hread 1 (by decide), Res.bind_ok, hread 2 (by decide), Res.bind_ok,
    hread 3 (by decide), Res.bind_ok, streamWord_toNat]

/-- The three words of an Uncompressed header, their twelve bytes at hand. -/
theorem fetchInstr_uncWords {s : State} (hm : s.mode = .bytestream) (hb : s.hasBytes 12) :
    fetchInstr .uncWords s = .ok (.uncRWords (streamWord s.inp s.pos) (streamWord s.inp (s.pos + 4))
      (streamWord s.inp (s.pos + 8))) { s with pos := s.pos + 12 } := by
  unfold State.hasBytes at hb
  have hread (k : Nat) (hk : k ≤ 8) : readU32LE { s with pos := s.pos + k } =
      .ok (streamWord s.inp (s.pos + k)).toNat { s with pos := s.pos + (k + 4) } :=
    readU32LE_here (s := { s with pos := s.pos + k }) hm (show s.pos + k + 4 ≤ s.inp.length by omega)
  have h0 : readU32LE s = .ok (streamWord s.inp s.pos).toNat { s with pos := s.pos + 4 } := hread 0 (by decide)
  simp only [fetchInstr, parserOf, runParser, readFieldAt]
  rw [h0, Res.bind_ok, hread 4 (by decide), Res.bind_ok, hread 8 (by decide), Res.bind_ok]
  simp only [Laws.RoundTrip.ofNat_self]

/-- An element read in `Bytestream` mode: what the plain decoder makes of the bytes at hand is fetched (R97). -/
theorem fetchInstr_of_bytes {s : State} {site : Site} (hsite : site.mode = .bytestream) (hm : s.mode = .bytestream)
    {n : Nat} (hb : s.hasBytes n) {codes : Codes} {i : Instr} {rest : List Bool}
    (h : decodeBits site codes (byteBits ((s.inp.drop s.pos).take n)) = .instr i rest) :
    fetchInstr site s = .ok i { s with pos := s.pos + (n - rest.length / 8) } := by
  have hlen : ((s.inp.drop s.pos).take n).length = n := by
    unfold State.hasBytes at hb
    rw [List.length_take, List.length_drop]
    omega
  have hwhole (bs : List Byte) : (byteBits bs).length / 8 = bs.length := by
    rw [byteBits_length]
    exact Nat.mul_div_cancel_left _ (by decide)
  cases site with
  | payload =>
    cases h
    rw [hwhole, hlen, Nat.sub_self]
    rfl
  | padByte =>
    cases n with
    | zero => cases h
    | succ n =>
      have hb1 : s.hasBytes 1 := by unfold State.hasBytes at hb ⊢; omega
      rw [take_drop_cons hb] at h hlen
      simp only [decodeBits, parserOf, Parser.runBits, readField_byte, Decoded.instr.injEq] at h
      obtain ⟨rfl, rfl⟩ := h
      rw [hwhole, show n + 1 - ((s.inp.drop (s.pos + 1)).take n).length = 1 by simpa using congrArg (n + 1 + 1 - ·) hlen]
      simp only [fetchInstr, parserOf, runParser, readFieldAt]
      rw [readByte_here hm hb1]
      rfl
  | uncWords =>
    unfold State.hasBytes at hb
    obtain ⟨w0, r0, h0, h⟩ := Parser.runBits_read_instr h
    obtain ⟨hn0, rfl, rfl⟩ := readField_word_at hb h0
    obtain ⟨w1, r1, h1, h⟩ := Parser.runBits_read_instr h
    obtain ⟨hn1, rfl, rfl⟩ := readField_word_at (by omega) h1
    obtain ⟨w2, r2, h2, h⟩ := Parser.runBits_read_instr h
    obtain ⟨hn2, rfl, rfl⟩ := readField_word_at (by omega) h2
    cases h
    have hrest : ((s.inp.drop (s.pos + 4 + 4 + 4)).take (n - 4 - 4 - 4)).length = n - 12 := by
      rw [List.length_take, List.length_drop]
      omega
    rw [fetchInstr_uncWords hm (show s.pos + 12 ≤ s.inp.length by omega), hwhole, hrest, Nat.sub_sub_self (by omega)]
    simp only [Laws.RoundTrip.ofNat_self, Nat.add_assoc, Nat.reduceAdd]
  | e8Header | blockHeader | alignLen | preLen | lenCode | mainSym | lenSym | alSym | uncPad => cases hsite

/-- Settles O44: in `Bitstream` mode the decoder runs alike over the reader and over the bits, whose code words a complete
table finds again in its peek; in `Bytestream` mode each place is read byte by byte. -/
theorem fetchIsDecode : Obligations.FetchIsDecode := by
  unfold Obligations.FetchIsDecode
  intro s site n hl hsite
  refine ⟨fun hm d hd hb => ?_, fun hm hb i rest h => ?_⟩
  · rw [← bitsFrom_eq] at hd
    have hcodes : ∀ t, ∀ c ∈ canonical (s.table t).lens, 1 ≤ c.len := fun t c hc => (mem_canonical hc).1.1
    have hreach := reach_le_bitsToFetch (codes := fun t => canonical (s.table t).lens) hcodes (hsite ▸ hm)
      (bitsFrom s.inp s.pos n)
    rw [← hd, bitsFrom_length] at hreach
    obtain ⟨hinstr, herr⟩ := runParser_of_runBits (parserOf_inBits (hsite ▸ hm)) hl rfl hm n (State.hasBits_mono hb hreach)
    exact ⟨fun i rest h => (hinstr i rest (hd.symm.trans h)).2, fun e h => herr e (hd.symm.trans h)⟩
  · refine fetchInstr_of_bytes (hsite ▸ hm) hm hb (codes := fun t => canonical (s.table t).lens) ?_
    rw [decode, ← hsite, hm] at h
    exact h

/-! ### Steps at a block header and at the register words -/

theorem fetchInstr_blockHeader {s : State} (hm : s.mode = .bitstream) (hb : s.hasBits 27) :
    fetchInstr .blockHeader s = .ok (blockInstr (streamField s.inp s.pos 3)
      (BitVec.ofNat 24 (streamField s.inp (s.pos + 3) 24))) { s with pos := s.pos + 27 } := by
  have h0 : readBits 3 s = .ok (streamField s.inp s.pos 3) { s with pos := s.pos + 3 } :=
    readBits_here_field hm (State.hasBits_mono hb (by decide))
  simp only [fetchInstr, parserOf, parseBlockHeader, runParser, readFieldAt]
  rw [h0, Res.bind_ok, readBits_advanced hm (State.hasBits_mono hb (by decide)), Res.bind_ok, readBits_advanced hm hb,
    Res.bind_ok, streamField_add s.inp (s.pos + 3) 16 8, Nat.add_assoc]

theorem seek_blockHeader {s : State} (hc : s.ctl = .blockHeader) (hm : s.mode = .bitstream) :
    seek s = .ok (.element .blockHeader) s := by
  simp only [seek, hc]
  exact bitSite_bitstream _ hm

/-- A header of no block type raises `UnknownBlockType` (R198). -/
theorem exec_blockInstr_unknown {type : Nat} (h : type = 0 ∨ 4 ≤ type) (len : Word24) (s : State) :
    exec (blockInstr type len) s = .next ((s.setBlock len).takeError .unknownBlockType) := by
  match type, h with
  | 0, _ | 4, _ | 5, _ | 6, _ => rfl
  | _ + 7, _ => rfl
  | 1, h | 2, h | 3, h => omega

/-- Settles O25: the three type bits and the 24 length bits, read as 16 and 8, make the header of that type. -/
theorem stepReadsBlockHeader : Obligations.StepReadsBlockHeader := by
  unfold Obligations.StepReadsBlockHeader
  rintro s hc hm hb type len rfl rfl
  have hstep := step_of_fetch (by simp [hc]) (seek_blockHeader hc hm) (fetchInstr_blockHeader hm hb)
  refine ⟨fun h => ?_, fun h => ?_, fun h => ?_, fun h => ?_⟩
  · rw [hstep, h]; rfl
  · rw [hstep, h]; rfl
  · rw [hstep, h]; rfl
  · exact ⟨_, hstep.trans (exec_blockInstr_unknown h _ _), rfl, rfl⟩

/-- Settles O40: the twelve bytes are three words, and the meaning loads them. -/
theorem registerWordsLoad : Obligations.RegisterWordsLoad := by
  unfold Obligations.RegisterWordsLoad
  intro s
  refine ⟨fun w0 w1 w2 => rfl, fun hc hm hb => ?_⟩
  have hseek : seek s = .ok (.element .uncWords) s := by simp [seek, hc]
  rw [step_of_fetch (by simp [hc]) hseek (fetchInstr_uncWords hm hb)]
  rfl

end Sys2Proof.Machine

end Fetching

/-! ## Pulls, construction and headers (spec/40_bitreader.md R134, spec/70_reset_and_hazards.md, spec/42_frame_blocks.md) -/

section Headers

namespace Sys2Proof.Machine

/-! ### Pulls and construction -/

theorem pull_of_reply {s : State} (he : s.eof = false) {r : Reply} {rs : List Reply} (h : s.replies = r :: rs) :
    pull s = takeReply r { s with replies := rs } := by
  simp [pull, he, h]

/-- Settles O7: a pull takes the next reply, whose `DecodeFrame`, if it made one, is refused before its answer counts. -/
theorem pullCases : Obligations.PullCases := by
  unfold Obligations.PullCases
  refine fun s => ⟨pull_eof, fun he reentrant a rs u hr hu => ?_⟩
  have hpull : pull s = takeAnswer a u := by
    rw [pull_of_reply he hr, takeReply, hu]
    rfl
  have hsize : u.inbufSize = s.inbufSize := by rw [hu]; cases reentrant <;> rfl
  have hinp : u.inp = s.inp := by rw [hu]; cases reentrant <;> rfl
  have hreal : u.nreal = s.nreal := by rw [hu]; cases reentrant <;> rfl
  rw [hpull, ← hsize, ← hinp, ← hreal]
  refine ⟨?_, ?_, ?_, ?_⟩
  · rintro e rfl; rfl
  · rintro bytes rfl hlen
    simp only [takeAnswer, if_pos hlen]
  · rintro rfl
    rfl
  · rintro bytes rfl hpos hlen
    obtain ⟨b, bs, rfl⟩ := List.exists_cons_of_length_pos hpos
    simp only [takeAnswer, if_neg (Nat.not_lt.mpr hlen)]
    rfl

theorem execConstruct_ok {wb ri : Nat} {s : State} (hc : s.ctl = .idle) (h15 : 15 ≤ wb) (h21 : wb ≤ 21) :
    execConstruct wb ri s = .next (s.constructed wb ri) := by
  rw [execConstruct, if_neg (not_not.mpr hc), if_neg (by omega)]

theorem execConstruct_outOfRange {wb ri : Nat} {s : State} (hc : s.ctl = .idle) (h : wb < 15 ∨ 21 < wb) :
    execConstruct wb ri s = .next { s.refuse with alive := false } := by
  rw [execConstruct, if_neg (not_not.mpr hc), if_pos h]

theorem execConstruct_inCommand {wb ri : Nat} {s : State} (hc : s.ctl ≠ .idle) :
    execConstruct wb ri s = .next s.refuse := by
  rw [execConstruct, if_pos hc]

/-- Settles O13: in range the new state is `State.constructed`, every field of which but the host's is fresh. -/
theorem constructResets : Obligations.ConstructResets := by
  unfold Obligations.ConstructResets
  refine fun wb ri s hc => ⟨fun h15 h21 => ⟨_, execConstruct_ok hc h15 h21, ?_⟩, fun h => ⟨_, execConstruct_outOfRange hc h, ?_⟩⟩
  · simp only [Memory.read_nil, State.constructed, State.fresh, nmain, Config.literals, Config.lenSymbols, implies_true,
      and_self]
  · exact ⟨rfl, rfl, rfl⟩

/-- Settles O14: the three cases of `Construct`, and a `DecodeFrame` that is not accepted. -/
theorem constructFrame : Obligations.ConstructFrame := by
  unfold Obligations.ConstructFrame
  refine fun wb ri s => ⟨fun hc h15 h21 => ⟨_, execConstruct_ok hc h15 h21, rfl, rfl, rfl, rfl, rfl, rfl⟩,
    fun hc h => execConstruct_outOfRange hc h, fun hc => execConstruct_inCommand hc, fun n h => ?_⟩
  have hacc : ¬ s.accepts n = true := fun hacc => by
    obtain ⟨halive, hidle, -, -⟩ := State.accepts_iff.mp hacc
    rcases h with h | h
    · exact h hidle
    · rw [halive] at h; cases h
  exact execDecodeFrame_refused hacc

/-! ### Block headers -/

/-- Settles O23: each header's meaning is one update of the state. -/
theorem blockHeaderEffect : Obligations.BlockHeaderEffect := by
  unfold Obligations.BlockHeaderEffect
  exact fun len s => ⟨rfl, rfl, rfl⟩

/-- Settles O24: the five types share one meaning, `unknownBlock`. -/
theorem unknownBlockEffect : Obligations.UnknownBlockEffect := by
  unfold Obligations.UnknownBlockEffect
  rintro len s i (rfl | rfl | rfl | rfl | rfl) <;> rfl

/-! ### The E8 header -/

theorem seek_e8Header {s : State} (hc : s.ctl = .e8Header) : seek s = bitSite .e8Header s := by
  simp only [seek, hc]

/-- A field of one bit is that bit. -/
theorem streamField_one (inp : List Byte) (p : Nat) : streamField inp p 1 = (streamBit inp p).toNat := by
  simp [streamField]

theorem fetchInstr_e8hdrOff {s : State} (hm : s.mode = .bitstream) (hb : s.hasBits 1) (hbit : streamBit s.inp s.pos = false) :
    fetchInstr .e8Header s = .ok .e8hdrOff { s with pos := s.pos + 1 } := by
  simp only [fetchInstr, parserOf, parseE8Header, runParser, readFieldAt]
  rw [readBits_here_field hm hb, Res.bind_ok, streamField_one, hbit]
  rfl

theorem fetchInstr_e8hdrOn {s : State} (hm : s.mode = .bitstream) (hb : s.hasBits 33) (hbit : streamBit s.inp s.pos = true) :
    fetchInstr .e8Header s = .ok (.e8hdrOn (BitVec.ofNat 32 (2 ^ 16 * streamField s.inp (s.pos + 1) 16 +
      streamField s.inp (s.pos + 17) 16))) { s with pos := s.pos + 33 } := by
  simp only [fetchInstr, parserOf, parseE8Header, runParser, readFieldAt]
  rw [readBits_here_field hm (State.hasBits_mono hb (by decide)), Res.bind_ok, streamField_one, hbit]
  simp only [Bool.toNat_true, Nat.one_ne_zero, if_false, runParser, readFieldAt]
  rw [readBits_advanced hm (State.hasBits_mono hb (by decide)), Res.bind_ok, readBits_advanced hm hb, Res.bind_ok]

end Sys2Proof.Machine

/-! ### The header's rule, in a namespace of its own: the model's `Machine.e8Header` has its name. -/

namespace Sys2Proof.Laws.Headers

open Sys2Proof.Machine

/-- Settles O22: the header's one or three fields are read and make the instruction, whose meaning is one update. -/
theorem e8Header : Obligations.E8Header := by
  unfold Obligations.E8Header
  refine fun s => ⟨rfl, fun magic => rfl, fun hc hm => ?_, fun hc => ?_⟩
  · have hidle : s.ctl ≠ .idle := by simp [hc]
    have hseek : seek s = .ok (.element .e8Header) s := (seek_e8Header hc).trans (bitSite_bitstream _ hm)
    refine ⟨fun hb hbit => ?_, fun hb hbit => ?_⟩
    · rw [step_of_fetch hidle hseek (fetchInstr_e8hdrOff hm hb hbit)]
      rfl
    · rw [step_of_fetch hidle hseek (fetchInstr_e8hdrOn hm hb hbit)]
      rfl
  · rw [seek_e8Header hc]
    exact ⟨bitSite_bitstream _, bitSite_even _, bitSite_odd _⟩

end Sys2Proof.Laws.Headers

end Headers

/-! ## Code lengths (spec/41_huffman.md section 4, spec/42_frame_blocks.md R199, R200) -/

section CodeLengths

namespace Sys2Proof.Machine

/-! ### Building a tree from its lengths -/

theorem exists_used_of_kraftSum {lens : List Nat} (h : kraftSum lens = 2 ^ 16) : ∃ l ∈ lens, l ≠ 0 := by
  by_contra hz
  have hzero : ∀ l ∈ lens, l = 0 := by simpa using hz
  have : kraftSum lens = 0 := by
    unfold kraftSum
    refine List.sum_eq_zero fun x hx => ?_
    obtain ⟨l, hl, rfl⟩ := List.mem_map.mp hx
    rw [if_pos (hzero l hl)]
  omega

theorem rebuild_of_kraftSum {t : Tree} {s : State} (h : kraftSum (s.lengths t) = 2 ^ 16) :
    rebuild t s = .ok () (s.setTable t ⟨s.lengths t, false⟩) :=
  rebuild_complete (exists_used_of_kraftSum h) h

/-- A tree that may not be empty is refused whenever the Kraft equality fails, all lengths 0 or not. -/
theorem rebuild_of_kraftSum_ne {t : Tree} {s : State} (ht : t ≠ .len) (h : kraftSum (s.lengths t) ≠ 2 ^ 16) :
    rebuild t s = .raise .incompleteHuffmanTree s := by
  by_cases hz : ∀ l ∈ s.lengths t, l = 0
  · rw [rebuild_zero hz, if_neg ht]
  · exact rebuild_incomplete (by simpa using hz) h

/-! ### Aligned and pretree lengths -/

/-- The state with one aligned length stored. -/
def State.storeAl (s : State) (a : BitVec 3) : State := { s with lAl := s.lAl.set s.fieldIdx a, fieldIdx := s.fieldIdx + 1 }

/-- The state with one pretree length stored. -/
def State.storePre (s : State) (p : BitVec 4) : State := { s with lPre := s.lPre.set s.fieldIdx p, fieldIdx := s.fieldIdx + 1 }

theorem alignLength_store {s : State} (h : s.fieldIdx + 1 < Config.alSymbols) (a : BitVec 3) :
    alignLength a s = .ok () (s.storeAl a) := by
  rw [alignLength]
  exact if_pos h

theorem alignLength_last {s : State} (h : Config.alSymbols ≤ s.fieldIdx + 1) (a : BitVec 3) :
    alignLength a s = (rebuild .al (s.storeAl a)).bind fun _ u => .ok () (u.beginList .mainLow) := by
  rw [alignLength]
  exact if_neg (Nat.not_lt.mpr h)

theorem preLength_store {s : State} (h : s.fieldIdx + 1 < Config.preSymbols) (p : BitVec 4) :
    preLength p s = .ok () (s.storePre p) := by
  rw [preLength]
  exact if_pos h

theorem preLength_last {s : State} (h : Config.preSymbols ≤ s.fieldIdx + 1) (p : BitVec 4) :
    preLength p s = (rebuild .pre (s.storePre p)).bind fun _ u => .ok () (u.goto .lenCodes) := by
  rw [preLength]
  exact if_neg (Nat.not_lt.mpr h)

theorem exec_alignlen (a : BitVec 3) (s : State) : exec (.alignlen a) s = (alignLength a s).finish := rfl

theorem exec_prelen (p : BitVec 4) (s : State) : exec (.prelen p) s = (preLength p s).finish := rfl

/-- Settles O26: the length is stored, and after the eighth the Kraft equality decides. -/
theorem alignedLengths : Obligations.AlignedLengths := by
  unfold Obligations.AlignedLengths
  refine fun a s => ⟨fun h => ?_, ?_⟩
  · rw [exec_alignlen, alignLength_store h]
    rfl
  · rintro h l rfl
    refine ⟨fun hk => ?_, fun hk => ?_⟩
    · rw [exec_alignlen, alignLength_last h, rebuild_of_kraftSum (t := .al) (s := s.storeAl a) hk]
      rfl
    · rw [exec_alignlen, alignLength_last h, rebuild_of_kraftSum_ne (t := .al) (s := s.storeAl a) nofun hk]
      rfl

/-- Settles O27: the length is stored, and after the twentieth the Kraft equality decides. -/
theorem pretreeLengths : Obligations.PretreeLengths := by
  unfold Obligations.PretreeLengths
  refine fun p s => ⟨fun h => ?_, ?_⟩
  · rw [exec_prelen, preLength_store h]
    rfl
  · rintro h l rfl
    refine ⟨fun hk => ?_, fun hk => ?_⟩
    · rw [exec_prelen, preLength_last h, rebuild_of_kraftSum (t := .pre) (s := s.storePre p) hk]
      rfl
    · rw [exec_prelen, preLength_last h, rebuild_of_kraftSum_ne (t := .pre) (s := s.storePre p) nofun hk]
      rfl

/-! ### Length codes -/

/-- The state with a run of lengths written and the place in the list after it. -/
def State.withRun (s : State) (n : Nat) (v : Len) : State :=
  { s.setListLens (setRun s.listLens s.lenPos n v) with lenPos := s.lenPos + n }

@[simp] theorem State.withRun_lenList (s : State) (n : Nat) (v : Len) : (s.withRun n v).lenList = s.lenList := by
  unfold State.withRun State.setListLens
  cases s.lenList <;> rfl

@[simp] theorem State.withRun_lenPos (s : State) (n : Nat) (v : Len) : (s.withRun n v).lenPos = s.lenPos + n := rfl

@[simp] theorem State.withRun_listLast (s : State) (n : Nat) (v : Len) : (s.withRun n v).listLast = s.listLast := by
  unfold State.withRun State.setListLens State.listLast
  cases s.lenList <;> rfl

theorem writeRun_inside {n : Nat} {v : Len} {s : State} (h : s.lenPos + n < s.listLast) :
    writeRun n v s = .ok () (s.withRun n v) := by
  have hlast : (s.withRun n v).lenPos < (s.withRun n v).listLast := by simpa using h
  rw [writeRun]
  exact if_pos hlast

theorem writeRun_end {n : Nat} {v : Len} {s : State} (h : s.listLast ≤ s.lenPos + n) :
    writeRun n v s = finishList (s.withRun n v) := by
  have hlast : ¬ (s.withRun n v).lenPos < (s.withRun n v).listLast := by simpa using h
  rw [writeRun]
  exact if_neg hlast

theorem checkedRun_inRange {n : Nat} {v : Len} {s : State} (h : s.lenPos + n ≤ s.listLast) :
    checkedRun n v s = writeRun n v s := by
  rw [checkedRun, if_neg (Nat.not_lt.mpr h)]

/-- The delta code in numbers (R168). -/
theorem deltaLen_eq {prev : Nat} {p v : Len} {z : Nat} (hp : p.val = prev) (hz : z ≤ 16) (hv : v.val = (prev + (17 - z)) % 17) :
    deltaLen p z = v := by
  apply Fin.ext
  rw [deltaLen, Fin.sub_def, hv, hp.symm]
  have hzv : (Fin.ofNat 17 z).val = z := Nat.mod_eq_of_lt (by omega)
  simp only [hzv]
  congr 1
  omega

theorem prevLen_eq {s : State} {prev : Nat} (h : s.listLens[s.lenPos]?.map Fin.val = some prev) : s.prevLen.val = prev := by
  obtain ⟨p, hp, rfl⟩ := Option.map_eq_some_iff.mp h
  rw [State.prevLen, List.getD_eq_getElem?_getD, hp]
  rfl

/-- A length code whose run stays in its list writes that run (`lengthRun`): a delta, a zero run or a repeated delta. -/
theorem exec_lengthRun {i : Instr} {s : State} {prev n : Nat} {v : Len}
    (hprev : s.listLens[s.lenPos]?.map Fin.val = some prev) (hrun : lengthRun i prev = some (n, v.val))
    (hin : s.lenPos + n ≤ s.listLast) : exec i s = (writeRun n v s).finish := by
  have hp := prevLen_eq hprev
  have delta {z : Nat} (hz : z ≤ 16) (hrun : some (1, (prev + (17 - z)) % 17) = some (n, v.val)) :
      (deltaCode z s).finish = (writeRun n v s).finish := by
    simp only [Option.some.injEq, Prod.mk.injEq] at hrun
    obtain ⟨rfl, hv⟩ := hrun
    rw [deltaCode, deltaLen_eq hp hz hv.symm]
  have zeros {m : Nat} (hrun : some (m, 0) = some (n, v.val)) : (checkedRun m 0 s).finish = (writeRun n v s).finish := by
    simp only [Option.some.injEq, Prod.mk.injEq] at hrun
    obtain ⟨rfl, hv⟩ := hrun
    rw [checkedRun_inRange hin, show (0 : Len) = v from Fin.ext hv]
  cases i with
  | delta0 | delta1 | delta2 | delta3 | delta4 | delta5 | delta6 | delta7 | delta8 | delta9 | delta10 | delta11
  | delta12 | delta13 | delta14 | delta15 | delta16 => exact delta (by decide) hrun
  | zrun4 k => exact zeros hrun
  | zrun20 k => exact zeros hrun
  | srun k z2 =>
    simp only [lengthRun] at hrun
    split at hrun
    · rename_i hz
      simp only [Option.some.injEq, Prod.mk.injEq] at hrun
      obtain ⟨rfl, hv⟩ := hrun
      rw [exec_srun_delta hz, checkedRun_inRange hin, deltaLen_eq hp hz (v := v)
        (by rw [← hv]; congr 1; omega)]
    · cases hrun
  | _ => cases hrun

/-- The lengths after a run, as the statements list them. -/
theorem setRun_entries (s : State) (n : Nat) (v : Len) (j : Nat) :
    (setRun s.listLens s.lenPos n v)[j]? = if s.lenPos ≤ j ∧ j < s.lenPos + n ∧
      j < (setRun s.listLens s.lenPos n v).length then some v else s.listLens[j]? := by
  rw [setRun_get, setRun_length]

/-- Settles O28: inside its list a length code is its run and no more. -/
theorem lengthCodeWrites : Obligations.LengthCodeWrites := by
  unfold Obligations.LengthCodeWrites
  intro i s prev n v hprev hrun hin
  refine ⟨setRun s.listLens s.lenPos n v, ?_, setRun_length .., setRun_entries s n v⟩
  rw [exec_lengthRun hprev hrun (Nat.le_of_lt hin), writeRun_inside hin, Res.finish_ok]
  rfl

/-! ### The end of a list -/

theorem finishList_mainLow {s : State} (h : s.lenList = .mainLow) : finishList s = .ok () (s.beginList .mainHigh) := by
  simp only [finishList, h]

theorem finishList_mainHigh {s : State} (h : s.lenList = .mainHigh) :
    finishList s = (rebuild .main s).bind fun _ u => .ok () (u.beginList .length) := by
  simp only [finishList, h]

theorem finishList_length {s : State} (h : s.lenList = .length) :
    finishList s = (rebuild .len s).bind fun _ u => .ok () (u.goto .blockLoop) := by
  simp only [finishList, h]

theorem State.withRun_main {s : State} (h : s.lenList ≠ .length) (n : Nat) (v : Len) :
    s.withRun n v = { s with lMain := setRun s.listLens s.lenPos n v, lenPos := s.lenPos + n } := by
  unfold State.withRun State.setListLens
  cases hl : s.lenList with
  | length => exact absurd hl h
  | mainLow => rfl
  | mainHigh => rfl

theorem State.withRun_length {s : State} (h : s.lenList = .length) (n : Nat) (v : Len) :
    s.withRun n v = { s with lLen := setRun s.listLens s.lenPos n v, lenPos := s.lenPos + n } := by
  unfold State.withRun State.setListLens
  simp only [h]

/-- Settles O29: the run is written, then the list it ends says what follows. -/
theorem lengthListEnds : Obligations.LengthListEnds := by
  unfold Obligations.LengthListEnds
  intro i s prev n v hprev hrun hend
  have hexec : exec i s = (finishList (s.withRun n v)).finish := by
    rw [exec_lengthRun hprev hrun (Nat.le_of_eq hend), writeRun_end (Nat.le_of_eq hend.symm)]
  have hlist : (s.withRun n v).lenList = s.lenList := s.withRun_lenList n v
  refine ⟨setRun s.listLens s.lenPos n v, setRun_length .., setRun_entries s n v, fun hl => ?_, fun hl hk => ?_,
    fun hl hz => ?_, fun hl hk => ?_, ?_⟩
  · rw [hexec, finishList_mainLow (hlist.trans hl), State.withRun_main (by simp [hl])]
    rfl
  · have hrun := s.withRun_main (by simp [hl]) n v
    rw [hexec, finishList_mainHigh (hlist.trans hl), rebuild_of_kraftSum (t := .main) (by rw [hrun]; exact hk), hrun]
    rfl
  · rw [hexec, finishList_length (hlist.trans hl), State.withRun_length hl, rebuild_zero (t := .len), if_pos rfl]
    · rfl
    · intro l hmem
      obtain ⟨x, hx, rfl⟩ := List.mem_map.mp hmem
      rw [hz x hx]
      rfl
  · have hrun := s.withRun_length hl n v
    rw [hexec, finishList_length (hlist.trans hl), rebuild_of_kraftSum (t := .len) (by rw [hrun]; exact hk), hrun]
    rfl
  · rintro (⟨hl, hk⟩ | ⟨hl, ⟨x, hx, hx0⟩, hk⟩)
    · rw [hexec, finishList_mainHigh (hlist.trans hl), rebuild_of_kraftSum_ne (t := .main) nofun]
      · rfl
      · rw [State.withRun_main (by simp [hl])]
        exact hk
    · rw [hexec, finishList_length (hlist.trans hl), rebuild_incomplete (t := .len)]
      · rfl
      · rw [State.withRun_length hl]
        exact ⟨x.val, List.mem_map_of_mem hx, fun h => hx0 (Fin.ext h)⟩
      · rw [State.withRun_length hl]
        exact hk

end Sys2Proof.Machine

end CodeLengths

/-! ## Position slots, matches and payloads (spec/43_symbols_matches.md, spec/30_encoding.md R100–R105) -/

section Matches

namespace Sys2Proof.Machine

/-! ### Position slots -/

/-- Each row of the spec's table has the model's values. -/
theorem slotRows_values : ∀ row ∈ slotRows, extraBits row.1 = row.2.1 ∧ positionBase row.1 = row.2.2.1 ∧
    ∀ b ∈ List.range 22, 15 ≤ b → (row.1 < nps b ↔ row.2.2.2 ≤ b) := by
  decide

theorem slotRows_extraBits {slot bits base wb : Nat} (h : (slot, bits, base, wb) ∈ slotRows) : extraBits slot = bits :=
  (slotRows_values _ h).1

theorem slotRows_positionBase {slot bits base wb : Nat} (h : (slot, bits, base, wb) ∈ slotRows) : positionBase slot = base :=
  (slotRows_values _ h).2.1

theorem slotRows_nps {slot bits base wb b : Nat} (h : (slot, bits, base, wb) ∈ slotRows) (h15 : 15 ≤ b) (h21 : b ≤ 21) :
    slot < nps b ↔ wb ≤ b :=
  (slotRows_values _ h).2.2 b (List.mem_range.mpr (by omega)) h15

theorem explicitOffset_row {slot bits base wb : Nat} (h : (slot, bits, base, wb) ∈ slotRows) (x : Nat) :
    explicitOffset slot x = base - 2 + x := by
  rw [explicitOffset, slotRows_positionBase h]

/-- The slots of every window size end at `W`. -/
theorem positionBase_nps {wb : Nat} (h15 : 15 ≤ wb) (h21 : wb ≤ 21) : positionBase (nps wb) = 2 ^ wb := by
  have hall : ∀ b ∈ List.range 22, 15 ≤ b → positionBase (nps b) = 2 ^ b := by decide
  exact hall wb (List.mem_range.mpr (by omega)) h15

theorem positionBase_strictMono : StrictMono positionBase :=
  strictMono_nat_of_lt_succ fun s => by
    rw [positionBase_succ]
    exact Nat.lt_add_of_pos_right (Nat.two_pow_pos _)

/-- Below the base of slot `n` every value lies in one of the slots before it. -/
theorem exists_slot {n y : Nat} (h3 : 3 ≤ y) (hy : y < positionBase n) :
    ∃ slot x, 3 ≤ slot ∧ slot < n ∧ x < 2 ^ extraBits slot ∧ positionBase slot + x = y := by
  induction n with
  | zero => exact absurd hy (Nat.not_lt_zero y)
  | succ n ih =>
    rcases Nat.lt_or_ge y (positionBase n) with hlt | hge
    · obtain ⟨slot, x, h1, h2, h3, h4⟩ := ih hlt
      exact ⟨slot, x, h1, Nat.lt_succ_of_lt h2, h3, h4⟩
    · rw [positionBase_succ] at hy
      have hn : 3 ≤ n := by
        by_contra hn
        have hbase : positionBase (n + 1) ≤ positionBase 3 := positionBase_strictMono.monotone (by omega)
        have h33 : positionBase 3 = 3 := rfl
        rw [positionBase_succ] at hbase
        omega
      exact ⟨n, y - positionBase n, hn, Nat.lt_succ_self n, by omega, by omega⟩

/-- A slot's values lie below the base of every later slot. -/
theorem slot_le_of_value {slot slot' x x' : Nat} (hx : x < 2 ^ extraBits slot)
    (h : positionBase slot + x = positionBase slot' + x') : slot' ≤ slot := by
  by_contra hlt
  have hmono : positionBase (slot + 1) ≤ positionBase slot' := positionBase_strictMono.monotone (by omega)
  rw [positionBase_succ] at hmono
  omega

/-- Settles O6: the rows are computed; the slots partition the offsets because `position_base` grows by their sizes. -/
theorem slotTable : Obligations.SlotTable := by
  unfold Obligations.SlotTable
  refine ⟨fun slot e base wb h => ⟨slotRows_extraBits h, slotRows_positionBase h, fun _ => explicitOffset_row h,
    fun b => slotRows_nps h⟩, fun wb h15 h21 => ⟨positionBase_nps h15 h21, fun offset h1 hW => ?_⟩⟩
  have hexplicit {slot x : Nat} (h : 3 ≤ slot) : explicitOffset slot x = offset ↔ positionBase slot + x = offset + 2 := by
    have := positionBase_three_le h
    unfold explicitOffset
    omega
  obtain ⟨slot, x, h3, hn, hx, hv⟩ := exists_slot (n := nps wb) (y := offset + 2) (by omega)
    (by rw [positionBase_nps h15 h21]; omega)
  refine ⟨(slot, x), ⟨h3, hn, hx, (hexplicit h3).mpr hv⟩, ?_⟩
  rintro ⟨slot', x'⟩ ⟨h3', -, hx', hv'⟩
  have heq : positionBase slot + x = positionBase slot' + x' := hv.trans ((hexplicit h3').mp hv').symm
  obtain rfl : slot' = slot := Nat.le_antisymm (slot_le_of_value hx heq) (slot_le_of_value hx' heq.symm)
  obtain rfl : x' = x := by omega
  rfl

/-! ### The meaning of a match symbol -/

/-- The fifty match instructions are one meaning over their slot and length header. -/
theorem exec_match {i : Instr} {slot : Nat} {hdr : BitVec 3} (h : matchParts i = some (slot, hdr)) (s : State) :
    exec i s = (startMatch slot hdr s).finish := by
  cases i <;> cases h <;> rfl

theorem startMatch_long (slot : Nat) (s : State) : startMatch slot 7 s = .ok () { s with pend := ⟨slot, 0, 0⟩, ctl := .lenSym } :=
  if_pos rfl

theorem startMatch_short {hdr : BitVec 3} (h : hdr ≠ 7) (slot : Nat) (s : State) :
    startMatch slot hdr s = matchOffset slot (shortLength hdr) s :=
  if_neg h

/-- Settles O32: a match with length header 7 only notes its slot. -/
theorem matchAwaitsLength : Obligations.MatchAwaitsLength := by
  unfold Obligations.MatchAwaitsLength
  intro i s slot h
  rw [exec_match h, startMatch_long, Res.finish_ok]

/-- Where a match's slot and length are known, its offset comes next. -/
theorem exec_matchForm {i : Instr} {s : State} {slot length : Nat} (h : MatchForm i s slot length) :
    exec i s = (matchOffset slot length s).finish := by
  rcases h with ⟨hdr, hi, hne, rfl⟩ | ⟨l, rfl, rfl, -, rfl⟩
  · rw [exec_match hi, startMatch_short hne]
    rfl
  · rfl

/-- An explicit slot whose verbatim bits are at hand reads them, and then waits for the aligned symbol or is done. -/
theorem matchOffset_explicit {slot : Nat} (h3 : 3 ≤ slot) (length : Nat) {s : State} {m : Nat} {al : Bool}
    (hf : offsetFields s.blockType slot = (m, al)) (hm : s.mode = .bitstream) (hb : s.hasBits m) :
    matchOffset slot length s =
      if al then .ok () { s with pos := s.pos + m, pend := ⟨slot, length, streamField s.inp s.pos m⟩, ctl := .alSym }
      else explicitMatch slot (streamField s.inp s.pos m) length { s with pos := s.pos + m } := by
  unfold matchOffset
  split
  · omega
  · omega
  · omega
  · rw [hf, readBits_here_field hm hb, Res.bind_ok, hf]

theorem offsetFields_aligned {bt : BlockType} {slot : Nat} (hbt : bt = .aligned) (h : 3 ≤ extraBits slot) :
    offsetFields bt slot = (extraBits slot - 3, true) :=
  if_pos ⟨hbt, h⟩

theorem offsetFields_verbatim {bt : BlockType} {slot : Nat} (h : ¬ (bt = .aligned ∧ 3 ≤ extraBits slot)) :
    offsetFields bt slot = (extraBits slot, false) :=
  if_neg h

/-! ### The registers and the offset -/

/-- Slots 0, 1 and 2 take their offset from a register (R235–R237). -/
theorem matchOffset_repeat {s : State} {slot offset : Nat} {r : Regs} (h : RepeatOffset s slot offset r) (length : Nat) :
    matchOffset slot length s = finishMatch offset length (s.withRegs 0 r) := by
  rcases h with ⟨rfl, rfl, rfl⟩ | ⟨rfl, rfl, rfl⟩ | ⟨rfl, rfl, rfl⟩ <;> rfl

/-- An explicit slot whose extra bits are verbatim reads them and shifts its offset in (R238–R240, R243). -/
theorem matchOffset_verbatim {s : State} {slot offset bits : Nat} {r : Regs} (h : VerbatimOffset s slot offset bits r)
    (length : Nat) : matchOffset slot length s = finishMatch offset length (s.withRegs bits r) := by
  obtain ⟨h3, base, wb, hrow, hver, hm, hb, rfl, rfl⟩ := h
  have hbits : extraBits slot = bits := slotRows_extraBits hrow
  have hfields : offsetFields s.blockType slot = (bits, false) := by rw [offsetFields_verbatim (by rwa [hbits]), hbits]
  rw [matchOffset_explicit h3 length hfields hm hb, if_neg Bool.false_ne_true, explicitMatch, explicitOffset_row hrow]
  rfl

/-- The aligned symbol completes the extra value and the offset is shifted in (R241–R243). -/
theorem exec_alsym {s : State} {offset bits base wb : Nat} {a : BitVec 3} (hrow : (s.pend.slot, bits, base, wb) ∈ slotRows)
    (hoffset : offset = base - 2 + (8 * s.pend.hi + a.toNat)) :
    exec (.alsym a) s = (finishMatch offset s.pend.length (s.withRegs 0 ⟨BitVec.ofNat 32 offset, s.r0, s.r1⟩)).finish := by
  have hextra : explicitOffset s.pend.slot (alignedExtra s.pend.hi a) = offset := by
    rw [explicitOffset_row hrow, hoffset, alignedExtra, Nat.shiftLeft_eq, Nat.mul_comm s.pend.hi]
  show (explicitMatch s.pend.slot (alignedExtra s.pend.hi a) s.pend.length s).finish = _
  rw [explicitMatch, hextra]
  rfl

/-- Settles O35: of the slot's extra bits all but the last three are read, and the match waits. -/
theorem alignedMatchAwaits : Obligations.AlignedMatchAwaits := by
  unfold Obligations.AlignedMatchAwaits
  intro i s slot length bits base wb hform hrow h3 hbt hm hb
  have hbits : extraBits slot = bits := slotRows_extraBits hrow
  have hslot : 3 ≤ slot := by
    by_contra hlt
    rw [extraBits, if_pos (by omega)] at hbits
    omega
  have hfields : offsetFields s.blockType slot = (bits - 3, true) := by rw [offsetFields_aligned hbt (by omega), hbits]
  rw [exec_matchForm hform, matchOffset_explicit hslot length hfields hm hb, if_pos rfl, Res.finish_ok]

/-! ### Checks and copy -/

/-- The first check of a list is its head's error where the head holds, else the first of the rest. -/
theorem first_cons (b : Bool) (e : ErrKind) (cs : List (Bool × ErrKind)) :
    (((b, e) :: cs).find? Prod.fst).map Prod.snd = if b = true then some e else (cs.find? Prod.fst).map Prod.snd := by
  cases b <;> rfl

/-- The checks of the model are the spec's list (R244). -/
theorem matchError_eq_firstCheck (offset length : Nat) (s : State) : matchError offset length s = firstCheck s offset length := by
  simp only [firstCheck, matchChecks, first_cons, decide_eq_true_eq]
  rfl

/-- The source bytes of a match that passes its checks hold values: the window is filled up to `total_written`. -/
theorem source_filled {s : State} {offset length : Nat} (hw : s.WindowInv) (hc : matchError offset length s = none)
    {i : Nat} (hi : i < offset) :
    ∃ v, Memory.read s.window ((s.windowPos + i + s.winSize - offset) % s.winSize) = some v := by
  obtain ⟨hoff, hpos, hwritten, -, -, -⟩ := matchError_none hc
  have hlt : (s.windowPos + i + s.winSize - offset) % s.winSize < s.winSize := Nat.mod_lt _ (by omega)
  refine Option.isSome_iff_exists.mp ((hw.filled _ hlt).mpr ?_)
  rcases Nat.lt_or_ge s.totalWritten s.winSize with hsmall | hlarge
  · have hmod := hw.position
    rw [Nat.mod_eq_of_lt hsmall] at hmod
    have hwp : s.windowPos = s.totalWritten := by
      rcases Nat.lt_or_eq_of_le hw.inWindow with hlt | heq
      · rwa [Nat.mod_eq_of_lt hlt] at hmod
      · rw [heq, Nat.mod_self] at hmod
        omega
    rw [show s.windowPos + i + s.winSize - offset = s.windowPos + i - offset + s.winSize by omega, Nat.add_mod_right,
      Nat.mod_eq_of_lt (by omega)]
    omega
  · omega

/-- The copy of a match that passes its checks (R245). -/
theorem copyMatch_checked {s : State} {offset length : Nat} (hw : s.WindowInv) (hc : matchError offset length s = none) :
    ∃ w, copyMatch offset length s = .ok ()
        { s with window := w, windowPos := s.windowPos + length, totalWritten := s.totalWritten + length } ∧
      (∀ a, a < s.windowPos ∨ s.windowPos + length ≤ a → Memory.read w a = Memory.read s.window a) ∧
      ∀ i, i < length → Memory.read w (s.windowPos + i) =
        if offset ≤ i then Memory.read w (s.windowPos + i - offset)
        else Memory.read s.window ((s.windowPos + i + s.winSize - offset) % s.winSize) := by
  obtain ⟨hoff, hpos, -, hfits, -, -⟩ := matchError_none hc
  exact copyMatch_ok hpos hoff hfits fun i _ hi => source_filled hw hc hi

theorem finishMatch_copies {s : State} {offset length bits : Nat} (r : Regs) (hw : s.WindowInv)
    (hc : firstCheck s offset length = none) :
    ∃ t, finishMatch offset length (s.withRegs bits r) = .ok () t ∧ MatchDone s t bits r length ∧
      MatchCopied s t offset length := by
  have hcheck : matchError offset length (s.withRegs bits r) = none := (matchError_eq_firstCheck ..).trans hc
  obtain ⟨w, hcopy, hout, hin⟩ := copyMatch_checked (s := s.withRegs bits r) { hw with } hcheck
  refine ⟨State.goto (State.consume { s.withRegs bits r with
    window := w, windowPos := s.windowPos + length, totalWritten := s.totalWritten + length } length) .blockLoop,
    ?_, rfl, ⟨hin, hout⟩⟩
  rw [finishMatch, hcheck]
  simp only
  rw [hcopy, Res.bind_ok]
  rfl

theorem finishMatch_fails {s : State} {offset length bits : Nat} {r : Regs} {e : ErrKind}
    (hc : firstCheck s offset length = some e) :
    finishMatch offset length (s.withRegs bits r) = .raise e (s.withRegs bits r) := by
  have hcheck : matchError offset length (s.withRegs bits r) = some e := (matchError_eq_firstCheck ..).trans hc
  rw [finishMatch, hcheck]

/-- Settles O33: the offset is a register's, then checks and copy. -/
theorem repeatMatchCopies : Obligations.RepeatMatchCopies := by
  unfold Obligations.RepeatMatchCopies
  intro i s slot length offset r hform hrep hw hc
  obtain ⟨t, ht, hdone, hcopied⟩ := finishMatch_copies (bits := 0) r hw hc
  exact ⟨t, by rw [exec_matchForm hform, matchOffset_repeat hrep, ht, Res.finish_ok], hdone, hcopied⟩

/-- Settles O34: the offset is read, then checks and copy. -/
theorem verbatimMatchCopies : Obligations.VerbatimMatchCopies := by
  unfold Obligations.VerbatimMatchCopies
  intro i s slot length offset bits r hform hver hw hc
  obtain ⟨t, ht, hdone, hcopied⟩ := finishMatch_copies (bits := bits) r hw hc
  exact ⟨t, by rw [exec_matchForm hform, matchOffset_verbatim hver, ht, Res.finish_ok], hdone, hcopied⟩

/-- Settles O36: the offset is completed by the aligned symbol, then checks and copy. -/
theorem alignedMatchCopies : Obligations.AlignedMatchCopies := by
  unfold Obligations.AlignedMatchCopies
  intro a s offset bits base wb hrow _ hoffset hw hc
  obtain ⟨t, ht, hdone, hcopied⟩ := finishMatch_copies (bits := 0) ⟨BitVec.ofNat 32 offset, s.r0, s.r1⟩ hw hc
  exact ⟨t, by rw [exec_alsym hrow hoffset, ht, Res.finish_ok], hdone, hcopied⟩

/-- Settles O37: the checks follow the register update and come before the copy, whatever the offset's form. -/
theorem matchCheckFails : Obligations.MatchCheckFails := by
  unfold Obligations.MatchCheckFails
  refine fun s offset e => ⟨fun i slot length bits r hform hoff hc => ?_, fun a bits base wb hrow _ hoffset hc => ?_⟩
  · have hmatch : matchOffset slot length s = finishMatch offset length (s.withRegs bits r) := by
      rcases hoff with ⟨rfl, hrep⟩ | hver
      · exact matchOffset_repeat hrep length
      · exact matchOffset_verbatim hver length
    rw [exec_matchForm hform, hmatch, finishMatch_fails hc, Res.finish_raise]
  · rw [exec_alsym hrow hoffset, finishMatch_fails hc, Res.finish_raise]

/-- Settles O38: the source index of byte `i` is past the end of the window's tail exactly from byte
`offset - window_pos` on. -/
theorem splitCopy : Obligations.SplitCopy := by
  unfold Obligations.SplitCopy
  intro s offset length hw hc hlt
  have hcheck : matchError offset length s = none := (matchError_eq_firstCheck ..).trans hc
  obtain ⟨hoff, -, -, hfits, -, -⟩ := matchError_none hcheck
  obtain ⟨w, hcopy, hout, hin⟩ := copyMatch_checked hw hcheck
  refine ⟨_, hcopy, fun i hi => (hin i hi).trans ?_⟩
  by_cases htail : i < offset - s.windowPos
  · rw [if_neg (by omega), if_pos htail, Nat.mod_eq_of_lt (by omega)]
    congr 1
    omega
  · rw [if_neg htail]
    have hindex : s.windowPos + i - offset = i - (offset - s.windowPos) := by omega
    by_cases hown : offset ≤ i
    · rw [if_pos hown, hindex]
    · rw [if_neg hown, show s.windowPos + i + s.winSize - offset = s.windowPos + i - offset + s.winSize by omega,
        Nat.add_mod_right, Nat.mod_eq_of_lt (by omega), hindex]
      exact (hout _ (.inl (by omega))).symm

/-! ### The payload run -/

theorem exec_uncPayload (s : State) : exec .uncPayload s =
    ((payloadBytes s.payloadRun s).bind fun _ t => .ok () ((t.consume s.payloadRun).goto .blockLoop)).finish := rfl

/-- Settles O41: the run's pulls are those that fetch its last byte, whatever they end in. -/
theorem payloadCopies : Obligations.PayloadCopies := by
  unfold Obligations.PayloadCopies
  intro s n hn hm hfits
  have hrun : s.payloadRun = n := hn.symm
  rw [exec_uncPayload, hrun]
  cases n with
  | zero =>
    refine ⟨fun u hu => ?_, fun e u m h0 => absurd h0 (Nat.lt_irrefl 0), fun f h0 => absurd h0 (Nat.lt_irrefl 0)⟩
    obtain rfl : u = s := by
      rcases hu with ⟨-, h⟩ | ⟨h0, -⟩
      · exact h
      · exact absurd h0 (Nat.lt_irrefl 0)
    exact ⟨_, rfl, rfl, ⟨fun i hi => absurd hi (Nat.not_lt_zero i), fun _ _ => rfl⟩⟩
  | succ n =>
    obtain ⟨hok, hraise, hstop⟩ := payloadBytes_fetch hm hfits
    refine ⟨fun u hu => ?_, fun e u m _ hu hmm => ?_, fun f _ hu => ?_⟩
    · have hfetch : fetchByte (s.pos + n) s = .ok () u := by
        rcases hu with ⟨hb, rfl⟩ | ⟨-, hu⟩
        · have hb : u.hasBytes (n + 1) := hb.resolve_left (Nat.succ_ne_zero n)
          unfold State.hasBytes at hb
          exact fetchByte_here (by omega)
        · exact hu
      obtain ⟨w, hw, hout, hin⟩ := hok u hfetch
      have hpulls : PullsOnly s u := fetchByte_ok_pullsOnly hfetch
      refine ⟨_, by rw [hw, Res.bind_ok, Res.finish_ok], ?_, ⟨hin, hout⟩⟩
      rw [hpulls.1]
      rfl
    · obtain ⟨w, hw, hout, hin⟩ := hraise e u m hu hmm
      exact ⟨_, by rw [hw, Res.bind_raise, Res.finish_raise], rfl, ⟨hin, hout⟩⟩
    · rw [hstop f hu]
      rfl

end Sys2Proof.Machine

end Matches

/-! ## The E8 pass (spec/44_e8_postprocess.md): the scan is the spec's loop, and stays in its range -/

section E8Pass

namespace Sys2Proof.Machine

/-! ### The scan, case by case -/

theorem e8Scan_end {magic : Int} {total lim i : Nat} (h : lim ≤ i) (bytes : List Byte) :
    e8Scan magic total lim i bytes = bytes := by
  unfold e8Scan
  split
  · rw [if_pos h]
  · rfl

theorem e8Scan_other {magic : Int} {total lim i : Nat} {b : Byte} (hi : ¬ lim ≤ i) (hb : b ≠ 0xE8)
    (b0 b1 b2 b3 : Byte) (rest : List Byte) : e8Scan magic total lim i (b :: b0 :: b1 :: b2 :: b3 :: rest) =
      b :: e8Scan magic total lim (i + 1) (b0 :: b1 :: b2 :: b3 :: rest) := by
  rw [e8Scan, if_neg hi, if_neg hb]

theorem e8Scan_call {magic : Int} {total lim i : Nat} (hi : ¬ lim ≤ i) (b0 b1 b2 b3 : Byte) (rest : List Byte) :
    e8Scan magic total lim i (0xE8 :: b0 :: b1 :: b2 :: b3 :: rest) =
      0xE8 :: (e8Bytes b0 b1 b2 b3 (total + i : Nat) magic ++ e8Scan magic total lim (i + 5) rest) := by
  rw [e8Scan, if_neg hi, if_pos rfl]

theorem State.e8Pass_off {s : State} (h : s.e8Magic = 0 ∨ 32768 ≤ s.frameIndex) (bytes : List Byte) :
    s.e8Pass bytes = bytes := if_pos h

theorem State.e8Pass_on {s : State} (h : ¬ (s.e8Magic = 0 ∨ 32768 ≤ s.frameIndex)) (bytes : List Byte) :
    s.e8Pass bytes = e8Scan s.e8Magic.toInt s.outTotal (bytes.length - 10) 0 bytes := if_neg h

/-! ### The bytes of a word at their place -/

theorem extractLsb'_eq_leByte (w : Word32) (k : Nat) : w.extractLsb' (8 * k) 8 = leByte w k := by
  apply BitVec.eq_of_toNat_eq
  rw [BitVec.extractLsb'_toNat, leByte, BitVec.toNat_ofNat, Nat.shiftRight_eq_div_pow]

theorem set_append_at (as bs : List Byte) (k : Nat) (v : Byte) : (as ++ bs).set (as.length + k) v = as ++ bs.set k v := by
  rw [List.set_append_right _ _ (Nat.le_add_right ..), Nat.add_sub_cancel_left]

theorem getD_append_at (as bs : List Byte) (k : Nat) : (as ++ bs).getD (as.length + k) 0 = bs.getD k 0 := by
  rw [List.getD_append_right _ _ _ _ (Nat.le_add_right ..), Nat.add_sub_cancel_left]

/-- The word written over the four bytes after an `0xE8` (R276). -/
theorem setWord_append (before : List Byte) (b b0 b1 b2 b3 : Byte) (rest : List Byte) (w : Word32) :
    setWord (before ++ b :: b0 :: b1 :: b2 :: b3 :: rest) before.length w =
      before ++ b :: ([leByte w 0, leByte w 1, leByte w 2, leByte w 3] ++ rest) := by
  unfold setWord
  rw [show w.extractLsb' 0 8 = leByte w 0 from extractLsb'_eq_leByte w 0,
    show w.extractLsb' 8 8 = leByte w 1 from extractLsb'_eq_leByte w 1,
    show w.extractLsb' 16 8 = leByte w 2 from extractLsb'_eq_leByte w 2,
    show w.extractLsb' 24 8 = leByte w 3 from extractLsb'_eq_leByte w 3]
  rw [set_append_at, set_append_at, set_append_at, set_append_at]
  rfl

/-- The operand after an `0xE8` is the word of its four bytes (R273). -/
theorem streamWord_append (before : List Byte) (b b0 b1 b2 b3 : Byte) (rest : List Byte) :
    (streamWord (before ++ b :: b0 :: b1 :: b2 :: b3 :: rest) (before.length + 1)).toInt = e8Operand b0 b1 b2 b3 := by
  rw [e8Operand_eq_toInt]
  unfold streamWord
  simp only [Nat.add_assoc, getD_append_at]
  rfl

/-! ### The loop of the pseudocode -/

theorem e8Loop_end {magic : Int} {total i : Nat} {out : List Byte} (h : out.length ≤ i + 10) (fuel : Nat) :
    e8Loop magic total fuel i out = out := by
  cases fuel with
  | zero => rfl
  | succ fuel => rw [e8Loop, if_neg (by omega)]

theorem e8Loop_other {magic : Int} {total i : Nat} {out : List Byte} (h : i + 10 < out.length) (hb : out.getD i 0 ≠ 0xE8)
    (fuel : Nat) : e8Loop magic total (fuel + 1) i out = e8Loop magic total fuel (i + 1) out := by
  rw [e8Loop, if_pos (by omega), if_pos hb]

/-- A turn of the loop at an `0xE8` rewrites the four bytes after it as the scan does. -/
theorem e8Loop_call {magic : Int} {total : Nat} {before : List Byte} {b0 b1 b2 b3 : Byte} {rest : List Byte}
    (h : 10 < rest.length + 5) (fuel : Nat) :
    e8Loop magic total (fuel + 1) before.length (before ++ 0xE8 :: b0 :: b1 :: b2 :: b3 :: rest) =
      e8Loop magic total fuel (before.length + 5)
        (before ++ 0xE8 :: (e8Bytes b0 b1 b2 b3 (total + before.length : Nat) magic ++ rest)) := by
  have hb : (before ++ 0xE8 :: b0 :: b1 :: b2 :: b3 :: rest).getD before.length 0 = 0xE8 := getD_append_at before _ 0
  rw [e8Loop, if_pos (by simp; omega), if_neg (not_not.mpr hb)]
  simp only [streamWord_append, setWord_append, e8Bytes, e8Rel]
  split <;> rfl

/-- The loop, from where the bytes before are done, is the scan of the rest. -/
theorem e8Loop_eq_scan (magic : Int) (total lim : Nat) (before bytes : List Byte)
    (hlim : lim = before.length + bytes.length - 10) {fuel : Nat} (hfuel : bytes.length ≤ fuel) :
    e8Loop magic total fuel before.length (before ++ bytes) = before ++ e8Scan magic total lim before.length bytes := by
  generalize hi : before.length = i
  induction i, bytes using e8Scan.induct (lim := lim) generalizing before fuel with
  | case1 i b b0 b1 b2 b3 rest hend =>
    rw [e8Scan_end hend, e8Loop_end (by simp only [List.length_append, List.length_cons] at hlim ⊢; omega)]
  | case2 i b0 b1 b2 b3 rest hgo ih =>
    subst hi
    simp only [List.length_cons] at hlim hfuel
    obtain ⟨fuel, rfl⟩ : ∃ k, fuel = k + 1 := ⟨fuel - 1, by omega⟩
    have hlen := e8Bytes_length b0 b1 b2 b3 (total + before.length : Nat) magic
    have hnext := ih (before ++ 0xE8 :: e8Bytes b0 b1 b2 b3 (total + before.length : Nat) magic)
      (by simp only [List.length_append, List.length_cons, hlen]; omega) (fuel := fuel) (by omega)
      (by simp only [List.length_append, List.length_cons, hlen])
    rw [e8Loop_call (by omega), e8Scan_call hgo]
    simpa using hnext
  | case3 i b b0 b1 b2 b3 rest hgo hb ih =>
    subst hi
    simp only [List.length_cons] at hlim hfuel
    obtain ⟨fuel, rfl⟩ : ∃ k, fuel = k + 1 := ⟨fuel - 1, by omega⟩
    have hat : (before ++ b :: b0 :: b1 :: b2 :: b3 :: rest).getD before.length 0 = b := getD_append_at before _ 0
    have hnext := ih (before ++ [b]) (by simp; omega) (fuel := fuel) (by simp; omega) (by simp)
    rw [e8Loop_other (by simp; omega) (by rwa [hat]), e8Scan_other hgo hb]
    simpa using hnext
  | case4 bytes i hshort =>
    have hlen : bytes.length < 5 := by
      match bytes, hshort with
      | [], _ | [_], _ | [_, _], _ | [_, _, _], _ | [_, _, _, _], _ => simp
      | b :: b0 :: b1 :: b2 :: b3 :: rest, h => exact absurd rfl (h b b0 b1 b2 b3 rest)
    rw [e8Scan_end (by omega), e8Loop_end (by simp; omega)]

/-- Settles O19: the scan ends where the loop does, ten bytes before the end, and each turn of the two is the same. -/
theorem e8PassIsSpecLoop : Obligations.E8PassIsSpecLoop := by
  unfold Obligations.E8PassIsSpecLoop
  intro s bytes
  split
  · rw [State.e8Pass_off ‹_›]
  · rw [State.e8Pass_on ‹_›]
    exact (e8Loop_eq_scan _ _ _ [] bytes (by simp) (Nat.le_refl _)).symm

/-! ### The range of the scan -/

/-- The scan writes nothing from four bytes past its limit on. -/
theorem e8Scan_tail (magic : Int) (total lim i : Nat) (bytes : List Byte) {j : Nat} (hj : lim + 4 ≤ i + j) :
    (e8Scan magic total lim i bytes)[j]? = bytes[j]? := by
  induction i, bytes using e8Scan.induct (lim := lim) generalizing j with
  | case1 i b b0 b1 b2 b3 rest hend => rw [e8Scan_end hend]
  | case2 i b0 b1 b2 b3 rest hgo ih =>
    obtain ⟨k, rfl⟩ : ∃ k, j = k + 4 + 1 := ⟨j - 5, by omega⟩
    have hlen := e8Bytes_length b0 b1 b2 b3 (total + i : Nat) magic
    rw [e8Scan_call hgo, List.getElem?_cons_succ, List.getElem?_append_right (by omega), hlen, Nat.add_sub_cancel,
      ih (by omega)]
    rfl
  | case3 i b b0 b1 b2 b3 rest hgo hb ih =>
    obtain ⟨k, rfl⟩ : ∃ k, j = k + 1 := ⟨j - 1, by omega⟩
    rw [e8Scan_other hgo hb, List.getElem?_cons_succ, ih (by omega)]
    rfl
  | case4 bytes i hshort => rw [e8Scan]; exact hshort

/-- The scan writes after an `0xE8` only, so never the first byte. -/
theorem e8Scan_head (magic : Int) (total lim i : Nat) (bytes : List Byte) :
    (e8Scan magic total lim i bytes)[0]? = bytes[0]? := by
  unfold e8Scan
  split
  · split
    · rfl
    · split <;> rfl
  · rfl

/-- Without an `0xE8` before its limit the scan changes nothing. -/
theorem e8Scan_none (magic : Int) (total lim i : Nat) (bytes : List Byte)
    (h : ∀ j, i + j < lim → bytes[j]? ≠ some 0xE8) : e8Scan magic total lim i bytes = bytes := by
  induction i, bytes using e8Scan.induct (lim := lim) with
  | case1 i b b0 b1 b2 b3 rest hend => rw [e8Scan_end hend]
  | case2 i b0 b1 b2 b3 rest hgo ih => exact absurd rfl (h 0 (by omega))
  | case3 i b b0 b1 b2 b3 rest hgo hb ih =>
    rw [e8Scan_other hgo hb, ih fun j hj => h (j + 1) (by omega)]
  | case4 bytes i hshort => rw [e8Scan]; exact hshort

/-- Settles O20: the pass is the identity where it is off, and elsewhere a scan whose limit is ten bytes before the end. -/
theorem e8PassBounds : Obligations.E8PassBounds := by
  unfold Obligations.E8PassBounds
  refine fun s bytes => ⟨fun h => State.e8Pass_off h bytes, s.e8Pass_length bytes, ?_⟩
  by_cases hoff : s.e8Magic = 0 ∨ 32768 ≤ s.frameIndex
  · rw [State.e8Pass_off hoff]
    exact ⟨rfl, fun _ _ => rfl, fun _ => rfl, fun _ => rfl⟩
  · rw [State.e8Pass_on hoff]
    refine ⟨e8Scan_head .., fun i hi => ?_, fun h => e8Scan_end (by omega) bytes, fun h => e8Scan_none _ _ _ _ _ fun j hj => h j (by omega)⟩
    rcases Nat.lt_or_ge 10 bytes.length with hlong | hshort
    · exact e8Scan_tail _ _ _ _ _ (by omega)
    · rw [e8Scan_end (by omega)]

end Sys2Proof.Machine

end E8Pass

/-! ## Invariants that the elementary updates keep (spec/10_state.md): memories, input, lengths, window -/

section KeptInvariants

namespace Sys2Proof.Machine

/-! ### Configuration, memories and the input -/

theorem kept_configInv : Kept State.ConfigInv where
  plain h hp := by rw [hp]; exact { h with }
  feed bs h _ := by cases bs <;> exact { h with }
  put _ h _ := { h with }
  table t _ h _ := by cases t <;> exact { h with }
  run _ _ _ h := by unfold State.setListLens; split <;> exact { h with }
  al _ _ h := { h with }
  pre _ _ h := { h with }

theorem step_configInv {s t : State} (h : s.ConfigInv) (hs : step s = .next t) : t.ConfigInv :=
  kept_configInv.step (fun _ h => { h with }) (fun _ _ h h15 h21 => ⟨⟨h15, h21⟩, h.inbufSize⟩) (fun h => { h with })
    (fun h => ⟨⟨Nat.le_refl 15, by show 15 ≤ 21; decide⟩, h.inbufSize⟩) (fun h => { h with }) (fun h _ _ => { h with }) h hs

theorem kept_memoryInv : Kept State.MemoryInv where
  plain h hp := by rw [hp]; exact { h with }
  feed bs h _ := by cases bs <;> exact { h with }
  put v h hw := { h with windowWf := Memory.wf_write h.windowWf _ v, windowRange := Memory.bound_write h.windowRange hw }
  table t _ h _ := by cases t <;> exact { h with }
  run _ _ _ h := by unfold State.setListLens; split <;> exact { h with }
  al _ _ h := { h with }
  pre _ _ h := { h with }

theorem State.constructed_memoryInv {s : State} (h : s.MemoryInv) (wb ri : Nat) : (s.constructed wb ri).MemoryInv where
  windowWf := List.Pairwise.nil
  windowRange := nofun
  outWf := h.outWf
  outRange := h.outRange

theorem step_memoryInv {s t : State} (h : s.MemoryInv) (hs : step s = .next t) : t.MemoryInv :=
  kept_memoryInv.step (fun _ h => { h with }) (fun wb ri h _ _ => State.constructed_memoryInv h wb ri) (fun h => { h with })
    (fun h => { State.constructed_memoryInv h Config.resetWindowBits Config.resetInterval with }) (fun h => { h with })
    (fun h hwf hrange => { h with outWf := hwf h.outWf, outRange := hrange h.outRange }) h hs

theorem State.feed_readerInv {s : State} (h : s.ReaderInv) (he : s.eof = false) (bs : List Byte) : (s.feed bs).ReaderInv := by
  have hlen : s.inp.length = s.nreal := by rw [h.length, he]; rfl
  cases bs with
  | nil => exact ⟨by simp [State.feed, hlen], fun _ => by simp [State.feed, ← hlen]⟩
  | cons b bs => exact ⟨by simp [State.feed, hlen, he], by simp [State.feed, he]⟩

theorem kept_readerInv : Kept State.ReaderInv where
  plain h hp := by rw [hp]; exact { h with }
  feed bs h he := State.feed_readerInv h he bs
  put _ h _ := { h with }
  table t _ h _ := by cases t <;> exact { h with }
  run _ _ _ h := by unfold State.setListLens; split <;> exact { h with }
  al _ _ h := { h with }
  pre _ _ h := { h with }

theorem State.constructed_readerInv (s : State) (wb ri : Nat) : (s.constructed wb ri).ReaderInv := ⟨rfl, nofun⟩

theorem step_readerInv {s t : State} (h : s.ReaderInv) (hs : step s = .next t) : t.ReaderInv :=
  kept_readerInv.step (fun _ h => { h with }) (fun wb ri _ _ _ => State.constructed_readerInv _ wb ri) (fun h => { h with })
    (fun _ => ⟨rfl, nofun⟩) (fun h => { h with }) (fun h _ _ => { h with }) h hs

/-- Settles O46: the three invariants are kept by every elementary update. -/
theorem stepKeepsMemories : Obligations.StepKeepsMemories := by
  unfold Obligations.StepKeepsMemories
  exact fun s t hs => ⟨(step_configInv · hs), (step_memoryInv · hs), (step_readerInv · hs)⟩

/-! ### Lengths and tables -/

theorem State.lengths_length {s : State} (h : s.LengthsInv) (t : Tree) : (s.lengths t).length = s.symbols t := by
  cases t with
  | pre => exact (List.length_map ..).trans h.pre
  | main => exact (List.length_map ..).trans h.main
  | len => exact (List.length_map ..).trans h.len
  | al => exact (List.length_map ..).trans h.al

/-- The table that `Build` makes of a tree's lengths is legal. -/
theorem State.legal_of_build {s : State} (h : s.LengthsInv) {t : Tree} {tab : Table}
    (hb : buildTable (s.lengths t) (t == .len) = .ok tab) : tab.Legal (s.symbols t) (t == .len) := by
  obtain ⟨hlens, -⟩ := buildTable_eq_ok hb
  exact .inr ⟨hlens ▸ State.lengths_length h t, hlens ▸ s.lengths_le t, hlens ▸ hb⟩

theorem State.setTable_lengthsInv {s : State} (h : s.LengthsInv) {t : Tree} {tab : Table}
    (htab : tab.Legal (s.symbols t) (t == .len)) : (s.setTable t tab).LengthsInv := by
  have hsym : ∀ u, (s.setTable t tab).symbols u = s.symbols u := by
    intro u
    cases t <;> cases u <;> rfl
  have htables : ∀ u, ((s.setTable t tab).table u).Legal ((s.setTable t tab).symbols u) (u == .len) := by
    intro u
    rw [hsym]
    by_cases hu : u = t
    · rw [hu, State.setTable_table]; exact htab
    · rw [State.setTable_other s tab hu]; exact h.tables u
  cases t <;> exact { h with tables := htables }

/-- The tables stay legal where neither they nor the window size change. -/
theorem State.LengthsInv.tables_of_eq {s t : State} (h : s.LengthsInv) (hw : t.windowBits = s.windowBits) (hpre : t.tPre = s.tPre)
    (hmain : t.tMain = s.tMain) (hlen : t.tLen = s.tLen) (hal : t.tAl = s.tAl) (tr : Tree) :
    (t.table tr).Legal (t.symbols tr) (tr == .len) := by
  have hsym : t.symbols tr = s.symbols tr := by cases tr <;> simp only [State.symbols, State.nmain, hw]
  have htab : t.table tr = s.table tr := by cases tr <;> simp only [State.table, hpre, hmain, hlen, hal]
  rw [hsym, htab]
  exact h.tables tr

theorem kept_lengthsInv : Kept State.LengthsInv where
  plain {s t} h hp := by
    rw [hp]
    exact { h with tables := h.tables_of_eq rfl rfl rfl rfl rfl }
  feed bs h _ := by cases bs <;> exact { h with tables := h.tables_of_eq rfl rfl rfl rfl rfl }
  put _ h _ := { h with tables := h.tables_of_eq rfl rfl rfl rfl rfl }
  table t _ h hb := State.setTable_lengthsInv h (State.legal_of_build h hb)
  run x n v h := by
    unfold State.setListLens State.listLens
    split
    · exact { h with main := (setRun_length ..).trans h.main, tables := h.tables_of_eq rfl rfl rfl rfl rfl }
    · exact { h with main := (setRun_length ..).trans h.main, tables := h.tables_of_eq rfl rfl rfl rfl rfl }
    · exact { h with len := (setRun_length ..).trans h.len, tables := h.tables_of_eq rfl rfl rfl rfl rfl }
  al _ _ h := { h with al := List.length_set.trans h.al, tables := h.tables_of_eq rfl rfl rfl rfl rfl }
  pre _ _ h := { h with pre := List.length_set.trans h.pre, tables := h.tables_of_eq rfl rfl rfl rfl rfl }

/-- A decoder just constructed has every length 0 and no table built. -/
theorem State.fresh_lengthsInv (wb ri : Nat) : (State.fresh wb ri).LengthsInv where
  main := List.length_replicate ..
  len := List.length_replicate ..
  al := List.length_replicate ..
  pre := List.length_replicate ..
  tables t := .inl (by cases t <;> rfl)

theorem State.constructed_lengthsInv (s : State) (wb ri : Nat) : (s.constructed wb ri).LengthsInv :=
  have h := State.fresh_lengthsInv wb ri
  { h with tables := h.tables_of_eq rfl rfl rfl rfl rfl }

theorem State.destroyed_lengthsInv (s : State) : s.destroyed.LengthsInv :=
  have h := s.constructed_lengthsInv Config.resetWindowBits Config.resetInterval
  { h with tables := h.tables_of_eq rfl rfl rfl rfl rfl }

theorem State.periodicReset_lengthsInv {s : State} (h : s.LengthsInv) : s.periodicReset.LengthsInv :=
  { h with
    main := List.length_replicate ..
    len := List.length_replicate ..
    tables := h.tables_of_eq rfl rfl rfl rfl rfl }

theorem step_lengthsInv {s t : State} (h : s.LengthsInv) (hs : step s = .next t) : t.LengthsInv :=
  kept_lengthsInv.step (fun _ h => { h with tables := h.tables_of_eq rfl rfl rfl rfl rfl })
    (fun wb ri _ _ _ => State.constructed_lengthsInv _ wb ri)
    (fun h => { h with tables := h.tables_of_eq rfl rfl rfl rfl rfl }) (fun _ => State.destroyed_lengthsInv _)
    State.periodicReset_lengthsInv (fun h _ _ => { h with tables := h.tables_of_eq rfl rfl rfl rfl rfl }) h hs

/-- Settles O47: a table is only ever replaced by what `Build` makes of its tree's lengths. -/
theorem stepKeepsTables : Obligations.StepKeepsTables := by
  unfold Obligations.StepKeepsTables
  exact fun s t h hs => step_lengthsInv h hs

/-! ### The window -/

/-- A byte put at `window_pos` fills the next place (R28, R29). -/
theorem State.put_windowInv {s : State} (h : s.WindowInv) (hw : s.windowPos < s.winSize) (v : Byte) : (s.put v).WindowInv where
  inWindow := hw
  position := by
    show (s.windowPos + 1) % s.winSize = (s.totalWritten + 1) % s.winSize
    rw [Nat.add_mod, h.position, ← Nat.add_mod]
  filled a ha := by
    have hnext : s.windowPos = s.totalWritten % s.winSize := by rw [← h.position, Nat.mod_eq_of_lt hw]
    show (Memory.read (Memory.write s.window s.windowPos v) a).isSome = true ↔ a < s.totalWritten + 1
    by_cases haw : a = s.windowPos
    · have : s.windowPos ≤ s.totalWritten := hnext ▸ Nat.mod_le _ _
      simp only [haw, Memory.read_write_same, Option.isSome_some, true_iff]
      omega
    · have hne : a ≠ s.totalWritten := fun hat => haw (by rw [hnext, ← hat]; exact (Nat.mod_eq_of_lt ha).symm)
      rw [Memory.read_write_other _ _ haw, h.filled a ha]
      omega

theorem kept_windowInv : Kept State.WindowInv where
  plain h hp := by rw [hp]; exact { h with }
  feed bs h _ := by cases bs <;> exact { h with }
  put v h hw := State.put_windowInv h hw v
  table t _ h _ := by cases t <;> exact { h with }
  run _ _ _ h := by unfold State.setListLens; split <;> exact { h with }
  al _ _ h := { h with }
  pre _ _ h := { h with }

theorem State.fresh_windowInv (wb ri : Nat) : (State.fresh wb ri).WindowInv :=
  ⟨Nat.zero_le _, rfl, fun a _ => by simp [State.fresh]⟩

theorem wrapAt_mod (w i : Nat) : wrapAt w i % w = i % w := by
  unfold wrapAt
  split
  · rename_i h; rw [h, Nat.mod_self, Nat.zero_mod]
  · rfl

theorem wrapAt_le {w i : Nat} (h : i ≤ w) : wrapAt w i ≤ w := by
  unfold wrapAt
  split
  · exact Nat.zero_le w
  · exact h

theorem State.endFrame_windowInv {s : State} (h : s.WindowInv) (m : Memory) :
    (({ s with out := m } : State).endFrame s.produced).WindowInv where
  inWindow := wrapAt_le h.inWindow
  position := (wrapAt_mod _ _).trans h.position
  filled := h.filled

/-- Settles O49: a put keeps the relation, and the wrap at the end of a frame keeps the position modulo `W`. -/
theorem stepKeepsWindow : Obligations.StepKeepsWindow := by
  unfold Obligations.StepKeepsWindow
  exact fun s t h hs => kept_windowInv.step (fun _ h => { h with })
    (fun wb ri _ _ _ => { State.fresh_windowInv wb ri with }) (fun h => { h with })
    (fun _ => { State.fresh_windowInv Config.resetWindowBits Config.resetInterval with }) (fun h => { h with })
    (fun h _ _ => State.endFrame_windowInv h _) h hs

end Sys2Proof.Machine

end KeptInvariants

/-! ## What a step can do, said once (spec/42_frame_blocks.md R193, spec/60_exceptions.md R310): an element by its place, with
the state it leaves and the errors it raises; a host command; a step by where it ends -/

section StepCases

namespace Sys2Proof.Machine

theorem Res.Leaves.of_ok {α : Type} {r : Res α} {P : State → Prop} (hl : r.Leaves P) {a : α} {t : State} (h : r = .ok a t) :
    P t := by
  rw [h] at hl
  exact hl

theorem Res.Leaves.of_raise {α : Type} {r : Res α} {P : State → Prop} (hl : r.Leaves P) {e : ErrKind} {t : State}
    (h : r = .raise e t) : P t := by
  rw [h] at hl
  exact hl

/-! ### Reads and puts -/

/-- `t` is `s` after some reads without a mode switch, with bytes put into the window between them. -/
def ReadsAndPuts (s t : State) : Prop :=
  t = { s with pos := t.pos, eof := t.eof, inp := t.inp, nreal := t.nreal, replies := t.replies, refused := t.refused,
               result := t.result, window := t.window, windowPos := t.windowPos, totalWritten := t.totalWritten } ∧
    s.inp <+: t.inp ∧ s.pos ≤ t.pos

theorem ReadsAndPuts.trans {s t u : State} (h : ReadsAndPuts s t) (k : ReadsAndPuts t u) : ReadsAndPuts s u := by
  obtain ⟨h, hinp, hpos⟩ := h
  obtain ⟨k, kinp, kpos⟩ := k
  refine ⟨?_, hinp.trans kinp, Nat.le_trans hpos kpos⟩
  rw [k, h]

theorem ReadsOnly.readsAndPuts {s t : State} (h : ReadsOnly s t) : ReadsAndPuts s t := by
  obtain ⟨h, hinp, hpos⟩ := h
  refine ⟨?_, hinp, hpos⟩
  rw [h]

theorem WindowOnly.readsAndPuts {s t : State} (h : WindowOnly s t) : ReadsAndPuts s t := by
  unfold WindowOnly at h
  refine ⟨?_, ?_, ?_⟩ <;> rw [h]

/-- What reading leaves, with the read parts as variables. -/
theorem ReadsOnly.exists_eq {s t : State} (h : ReadsOnly s t) : ∃ pos eof inp nreal replies refused result,
    t = { s with pos := pos, eof := eof, inp := inp, nreal := nreal, replies := replies, refused := refused, result := result } ∧
      s.inp <+: inp ∧ s.pos ≤ pos :=
  ⟨_, _, _, _, _, _, _, h⟩

theorem ReadsAndPuts.exists_eq {s t : State} (h : ReadsAndPuts s t) :
    ∃ pos eof inp nreal replies refused result window windowPos totalWritten,
      t = { s with pos := pos, eof := eof, inp := inp, nreal := nreal, replies := replies, refused := refused, result := result,
                   window := window, windowPos := windowPos, totalWritten := totalWritten } ∧ s.inp <+: inp ∧ s.pos ≤ pos :=
  ⟨_, _, _, _, _, _, _, _, _, _, h⟩

theorem payloadBytes_leaves (n : Nat) (s : State) : (payloadBytes n s).Leaves (ReadsAndPuts s) := by
  induction n generalizing s with
  | zero => exact (ReadsOnly.refl s).readsAndPuts
  | succ n ih =>
    refine Res.leaves_bind ((readByte_reads s).mono fun _ h => h.readsAndPuts) fun b t _ ht => ?_
    unfold putByte
    split
    · exact (ih _).mono fun u hu => (ht.trans (WindowOnly.readsAndPuts (t := t.put b) rfl)).trans hu
    · trivial

/-- The mode switch to bytes, from `Bitstream` mode: some bits are skipped, up to a unit boundary (R141). -/
theorem toByteMode_switch {s t : State} (hm : s.mode = .bitstream) (h : toByteMode s = .ok () t) :
    ∃ u, ReadsOnly s u ∧ u.pos % 16 = 0 ∧ t = u.enterByteMode := by
  simp only [toByteMode, hm] at h
  obtain ⟨_, u, hu, hk⟩ := Res.bind_eq_ok h
  split at hk
  · cases hk
    refine ⟨_, (need_pullsOnly hu).readsOnly.advance _, ?_, rfl⟩
    show (u.pos + padBits u.pos) % 16 = 0
    rw [padBits_eq]
    omega
  · cases hk

/-- The mode switch to bits, from `Bytestream` mode: at most a byte is skipped (R142). -/
theorem toBitMode_switch {s t : State} (hm : s.mode = .bytestream) (h : toBitMode s = .ok () t) :
    ∃ u, ReadsOnly s u ∧ t = u.enterBitMode := by
  simp only [toBitMode, hm] at h
  split at h
  · obtain ⟨_, u, hu, hk⟩ := Res.bind_eq_ok h
    cases hk
    exact ⟨_, (fetchByte_ok_pullsOnly hu).readsOnly.advance 1, rfl⟩
  · cases h
    exact ⟨s, .refl s, rfl⟩

/-! ### The value of an element's meaning -/

/-- What an element at a place leaves where it raises nothing. -/
inductive Meant (s : State) : Site → State → Prop where
  | e8Header (m : Word32) : Meant s .e8Header ((s.setHeader m).goto .blockLoop)
  | verbatim (len : Word24) : Meant s .blockHeader ({ s.setBlock len with blockType := .verbatim }.beginList .mainLow)
  | aligned (len : Word24) :
      Meant s .blockHeader { s.setBlock len with blockType := .aligned, fieldIdx := 0, ctl := .alignLens }
  | uncompressed (len : Word24) : Meant s .blockHeader ({ s.setBlock len with blockType := .uncompressed }.goto .uncPad)
  | alignLen (a : BitVec 3) : Meant s .alignLen (s.storeAl a)
  | alignTree (a : BitVec 3) (tab : Table) (hb : tab ≠ .notBuilt) :
      Meant s .alignLen (((s.storeAl a).setTable .al tab).beginList .mainLow)
  | preLen (p : BitVec 4) : Meant s .preLen (s.storePre p)
  | preTree (p : BitVec 4) (tab : Table) (hb : tab ≠ .notBuilt) :
      Meant s .preLen (((s.storePre p).setTable .pre tab).goto .lenCodes)
  | run (m l : List Len) (n : Nat) : Meant s .lenCode { s with lMain := m, lLen := l, lenPos := n }
  | mainLow (m l : List Len) (n : Nat) (hl : s.lenList = .mainLow) :
      Meant s .lenCode ({ s with lMain := m, lLen := l, lenPos := n }.beginList .mainHigh)
  | mainTree (m l : List Len) (n : Nat) (tab : Table) (hl : s.lenList = .mainHigh) (hb : tab ≠ .notBuilt) :
      Meant s .lenCode ({ s with lMain := m, lLen := l, lenPos := n, tMain := tab }.beginList .length)
  | lenTree (m l : List Len) (n : Nat) (tab : Table) (hl : s.lenList = .length) (hb : tab ≠ .notBuilt) :
      Meant s .lenCode ({ s with lMain := m, lLen := l, lenPos := n, tLen := tab }.goto .blockLoop)
  | lit (b : Byte) (hw : s.windowPos < s.winSize) : Meant s .mainSym (((s.put b).consume 1).goto .blockLoop)
  | mainSym {t : State} (h : Matched s t) : Meant s .mainSym t
  | lenSym {t : State} (h : Matched s t) : Meant s .lenSym t
  | alSym {t : State} (h : Matched s t) : Meant s .alSym t
  | pad {u : State} (hm : s.mode = .bitstream) (hr : ReadsOnly s u) (hp : u.pos % 16 = 0) :
      Meant s .uncPad (u.enterByteMode.goto .uncWords)
  | noPad (hm : s.mode = .bytestream) : Meant s .uncPad (s.goto .uncWords)
  | words (w0 w1 w2 : Word32) : Meant s .uncWords ((s.loadR w0 w1 w2).goto .blockLoop)
  | payload {u : State} (hr : ReadsAndPuts s u) (hp : u.windowPos = s.windowPos + s.payloadRun)
      (ht : u.totalWritten = s.totalWritten + s.payloadRun)
      (hw : s.windowPos ≤ s.winSize → s.windowPos + s.payloadRun ≤ s.winSize) :
      Meant s .payload ((u.consume s.payloadRun).goto .blockLoop)
  | padByte {u : State} (hm : s.mode = .bytestream) (hr : ReadsOnly s u) : Meant s .padByte u.enterBitMode
  | noPadByte (hm : s.mode = .bitstream) : Meant s .padByte s

/-! ### The errors of an element's meaning -/

/-- The errors of a match and of its reads: its checks, its offset bits, and a window byte that holds no value. -/
inductive MatchErr (s : State) : ErrKind → Prop where
  | windowOverrun : MatchErr s .windowOverrun
  | zeroOffset : MatchErr s .zeroOffset
  | undefinedWindowRead : MatchErr s .undefinedWindowRead
  | blockOverrun : MatchErr s .blockOverrun
  | frameOverrun : MatchErr s .frameOverrun
  | pull {e : ErrKind} (h : PullError e) : MatchErr s e
  | mode (h : s.mode = .bytestream) : MatchErr s .wrongMode

/-- Which error an element at a place raises, and the state at that point. -/
inductive Raised (s : State) : Site → ErrKind → State → Prop where
  | unknownBlock (len : Word24) : Raised s .blockHeader .unknownBlockType (s.setBlock len)
  | alignTree (a : BitVec 3) : Raised s .alignLen .incompleteHuffmanTree (s.storeAl a)
  | preTree (p : BitVec 4) : Raised s .preLen .incompleteHuffmanTree (s.storePre p)
  | badCode : Raised s .lenCode .badLengthCode s
  | overrun : Raised s .lenCode .lengthRunOverrun s
  | tree (m l : List Len) (n : Nat) : Raised s .lenCode .incompleteHuffmanTree { s with lMain := m, lLen := l, lenPos := n }
  | ofMatch {site : Site} {e : ErrKind} {u : State} (hsite : site = .mainSym ∨ site = .lenSym ∨ site = .alSym) (a b c : Word32)
      (he : MatchErr s e) (hr : ReadsAndPuts s u) : Raised s site e { u with r0 := a, r1 := b, r2 := c }
  | pad {e : ErrKind} {u : State} (he : PullError e ∨ e = .badPadding) (hr : ReadsOnly s u) : Raised s .uncPad e u
  | payload {e : ErrKind} {u : State} (he : PullError e ∨ e = .wrongMode ∧ s.mode = .bitstream) (hr : ReadsAndPuts s u) :
      Raised s .payload e u
  | padByte {e : ErrKind} {u : State} (he : PullError e) (hr : ReadsOnly s u) : Raised s .padByte e u

/-- What an element at a place comes to: its value, or an error entered. -/
def Met (s : State) (site : Site) (t : State) : Prop := Meant s site t ∨ ∃ e u, Raised s site e u ∧ t = u.takeError e

/-! ### Trees and lengths -/

theorem ne_notBuilt_of_build {lens : List Nat} {allowEmpty : Bool} {tab : Table} (h : buildTable lens allowEmpty = .ok tab) :
    tab ≠ .notBuilt := by
  rintro rfl
  obtain ⟨rfl, ⟨he, -⟩ | ⟨-, hk⟩⟩ := buildTable_eq_ok h
  · cases he
  · exact absurd hk (by decide)

theorem rebuild_then {tr : Tree} {s t : State} {f : State → State}
    (h : ((rebuild tr s).bind fun _ u => .ok () (f u)).finish = .next t) :
    (∃ tab, tab ≠ .notBuilt ∧ t = f (s.setTable tr tab)) ∨ t = s.takeError .incompleteHuffmanTree := by
  rcases rebuild_cases tr s with ⟨tab, hb, hr⟩ | hr
  · rw [hr] at h; cases h; exact .inl ⟨tab, ne_notBuilt_of_build hb, rfl⟩
  · rw [hr] at h; cases h; exact .inr rfl

theorem alignLength_met {a : BitVec 3} {s t : State} (h : (alignLength a s).finish = .next t) : Met s .alignLen t := by
  rcases Nat.lt_or_ge (s.fieldIdx + 1) Config.alSymbols with hlt | hge
  · rw [alignLength_store hlt] at h
    cases h
    exact .inl (.alignLen a)
  · rw [alignLength_last hge] at h
    rcases rebuild_then h with ⟨tab, hb, rfl⟩ | rfl
    · exact .inl (.alignTree a tab hb)
    · exact .inr ⟨_, _, .alignTree a, rfl⟩

theorem preLength_met {p : BitVec 4} {s t : State} (h : (preLength p s).finish = .next t) : Met s .preLen t := by
  rcases Nat.lt_or_ge (s.fieldIdx + 1) Config.preSymbols with hlt | hge
  · rw [preLength_store hlt] at h
    cases h
    exact .inl (.preLen p)
  · rw [preLength_last hge] at h
    rcases rebuild_then h with ⟨tab, hb, rfl⟩ | rfl
    · exact .inl (.preTree p tab hb)
    · exact .inr ⟨_, _, .preTree p, rfl⟩

/-- A run writes one of the two length arrays and the place in the list. -/
theorem State.withRun_eq (s : State) (n : Nat) (v : Len) :
    ∃ m l, s.withRun n v = { s with lMain := m, lLen := l, lenPos := s.lenPos + n } := by
  by_cases hl : s.lenList = .length
  · exact ⟨_, _, State.withRun_length hl n v⟩
  · exact ⟨_, _, State.withRun_main hl n v⟩

theorem writeRun_met {n : Nat} {v : Len} {s t : State} (h : (writeRun n v s).finish = .next t) : Met s .lenCode t := by
  obtain ⟨m, l, hrun⟩ := s.withRun_eq n v
  rcases Nat.lt_or_ge (s.lenPos + n) s.listLast with hlt | hge
  · rw [writeRun_inside hlt, hrun] at h
    cases h
    exact .inl (.run m l _)
  · have hlist := s.withRun_lenList n v
    rw [writeRun_end hge] at h
    cases hl : s.lenList with
    | mainLow =>
      rw [finishList_mainLow (hlist.trans hl), hrun] at h
      cases h
      exact .inl (.mainLow m l _ hl)
    | mainHigh =>
      rw [finishList_mainHigh (hlist.trans hl), hrun] at h
      rcases rebuild_then h with ⟨tab, hb, rfl⟩ | rfl
      · exact .inl (.mainTree m l _ tab hl hb)
      · exact .inr ⟨_, _, .tree m l _, rfl⟩
    | length =>
      rw [finishList_length (hlist.trans hl), hrun] at h
      rcases rebuild_then h with ⟨tab, hb, rfl⟩ | rfl
      · exact .inl (.lenTree m l _ tab hl hb)
      · exact .inr ⟨_, _, .tree m l _, rfl⟩

theorem checkedRun_met {n : Nat} {v : Len} {s t : State} (h : (checkedRun n v s).finish = .next t) : Met s .lenCode t := by
  unfold checkedRun at h
  split at h
  · cases h; exact .inr ⟨_, _, .overrun, rfl⟩
  · exact writeRun_met h

theorem execSrun_met {k : BitVec 1} {z2 : Nat} {s t : State} (h : execSrun k z2 s = .next t) : Met s .lenCode t := by
  unfold execSrun at h
  split at h
  · cases h; exact .inr ⟨_, _, .badCode, rfl⟩
  · exact checkedRun_met h

/-! ### Literals and matches -/

theorem execLit_met {b : Byte} {s t : State} (h : execLit b s = .next t) : Met s .mainSym t := by
  rcases Res.finish_eq_next h with h | ⟨e, u, h, -⟩
  · obtain ⟨_, u, hu, hk⟩ := Res.bind_eq_ok h
    obtain ⟨hw, rfl⟩ := putByte_eq_ok hu
    cases hk
    exact .inl (.lit b hw)
  · rcases Res.bind_eq_raise h with h | ⟨_, v, -, hk⟩
    · exact absurd h putByte_ne_raise
    · cases hk

theorem copyMatch_fails (offset n : Nat) (s : State) :
    (copyMatch offset n s).Fails (· = .undefinedWindowRead) (· = .windowIndex) := by
  induction n generalizing s with
  | zero => trivial
  | succ n ih =>
    refine Res.fails_bind ?_ fun b t _ => Res.fails_bind ?_ fun _ u _ => ih u
    · unfold winRead
      split
      · split
        · trivial
        · exact rfl
      · exact rfl
    · unfold putByte
      split
      · trivial
      · exact rfl

theorem matchError_matchErr {offset length : Nat} {s : State} {e : ErrKind} (h : matchError offset length s = some e) (x : State) :
    MatchErr x e := by
  unfold matchError at h
  split at h
  · cases h; exact .windowOverrun
  split at h
  · cases h; exact .zeroOffset
  split at h
  · cases h; exact .undefinedWindowRead
  split at h
  · cases h; exact .windowOverrun
  split at h
  · cases h; exact .blockOverrun
  split at h
  · cases h; exact .frameOverrun
  · cases h

theorem finishMatch_raise {offset length : Nat} {s u : State} {e : ErrKind} (h : finishMatch offset length s = .raise e u)
    (x : State) : MatchErr x e ∧ WindowOnly s u := by
  unfold finishMatch at h
  split at h
  · rename_i he
    cases h
    exact ⟨matchError_matchErr he x, .refl s⟩
  · rcases Res.bind_eq_raise h with h | ⟨_, v, -, hk⟩
    · have hfail := copyMatch_fails offset length s
      have hleaves := copyMatch_leaves offset length s
      rw [h] at hfail hleaves
      obtain rfl : e = .undefinedWindowRead := hfail
      exact ⟨.undefinedWindowRead, hleaves⟩
    · cases hk

/-- A match that fails after some reads and a register update: its registers apart, the state has been read and put to. -/
theorem finishMatch_raised {offset length : Nat} {s v u : State} {a b c : Word32} {e : ErrKind} {site : Site}
    (hsite : site = .mainSym ∨ site = .lenSym ∨ site = .alSym) (hr : ReadsOnly s v)
    (h : finishMatch offset length { v with r0 := a, r1 := b, r2 := c } = .raise e u) : Raised s site e u := by
  obtain ⟨he, hw⟩ := finishMatch_raise h s
  have hput : WindowOnly v { v with window := u.window, windowPos := u.windowPos, totalWritten := u.totalWritten } := rfl
  have := Raised.ofMatch hsite a b c he (hr.readsAndPuts.trans hput.readsAndPuts)
  unfold WindowOnly at hw
  rw [hw]
  exact this

theorem readBits_matchErr {n : Nat} {s u : State} {e : ErrKind} (h : readBits n s = .raise e u) : MatchErr s e := by
  cases hm : s.mode with
  | bitstream =>
    have hfail := readBits_fails hm n
    rw [h] at hfail
    exact .pull hfail
  | bytestream =>
    rw [readBits_wrongMode hm] at h
    cases h
    exact .mode hm

theorem matchOffset_raised {slot length : Nat} {s u : State} {e : ErrKind} {site : Site}
    (hsite : site = .mainSym ∨ site = .lenSym ∨ site = .alSym) (h : matchOffset slot length s = .raise e u) : Raised s site e u := by
  unfold matchOffset at h
  split at h
  · exact finishMatch_raised (v := s) (a := s.r0) (b := s.r1) (c := s.r2) hsite (.refl s) h
  · exact finishMatch_raised (v := s) (a := s.r1) (b := s.r0) (c := s.r2) hsite (.refl s) h
  · exact finishMatch_raised (v := s) (a := s.r2) (b := s.r1) (c := s.r0) hsite (.refl s) h
  · have hreads := readBits_reads (offsetFields s.blockType slot).1 s
    rcases Res.bind_eq_raise h with h | ⟨x, v, hv, hk⟩
    · rw [h] at hreads
      exact .ofMatch hsite u.r0 u.r1 u.r2 (readBits_matchErr h) (ReadsOnly.readsAndPuts hreads)
    · rw [hv] at hreads
      split at hk
      · cases hk
      · exact finishMatch_raised (v := v) hsite hreads hk

theorem startMatch_met {slot : Nat} {hdr : BitVec 3} {s t : State} (h : (startMatch slot hdr s).finish = .next t) :
    Met s .mainSym t := by
  rcases Res.finish_eq_next h with hr | ⟨e, u, hr, rfl⟩
  · exact .inl (.mainSym (startMatch_ok hr))
  · unfold startMatch at hr
    split at hr
    · cases hr
    · exact .inr ⟨e, u, matchOffset_raised (.inl rfl) hr, rfl⟩

theorem execLsym_met {l : Nat} {s t : State} (h : execLsym l s = .next t) : Met s .lenSym t := by
  rcases Res.finish_eq_next h with hr | ⟨e, u, hr, rfl⟩
  · exact .inl (.lenSym (matchOffset_ok hr))
  · exact .inr ⟨e, u, matchOffset_raised (.inr (.inl rfl)) hr, rfl⟩

theorem execAlsym_met {a : BitVec 3} {s t : State} (h : execAlsym a s = .next t) : Met s .alSym t := by
  rcases Res.finish_eq_next h with hr | ⟨e, u, hr, rfl⟩
  · exact .inl (.alSym (alsym_ok hr))
  · exact .inr ⟨e, u, finishMatch_raised (v := s) (.inr (.inr rfl)) (.refl s) hr, rfl⟩

/-! ### Uncompressed blocks -/

/-- The mode switch to bytes fails in a pull for the padding, or at padding that is not zero. -/
theorem toByteMode_raise {s u : State} {e : ErrKind} (h : toByteMode s = .raise e u) :
    (PullError e ∨ e = .badPadding) ∧ ReadsOnly s u := by
  unfold toByteMode at h
  split at h
  · cases h
  · have hfail := need_fails (padBits s.pos) s
    have hleaves := need_leaves (padBits s.pos) s
    rcases Res.bind_eq_raise h with h | ⟨_, v, hv, hk⟩
    · rw [h] at hfail hleaves
      exact ⟨.inl hfail, PullsOnly.readsOnly hleaves⟩
    · split at hk <;> cases hk
      exact ⟨.inr rfl, (need_pullsOnly hv).readsOnly⟩

theorem execUncPad_met {s t : State} (h : execUncPad s = .next t) : Met s .uncPad t := by
  rcases Res.finish_eq_next h with hr | ⟨e, u, hr, rfl⟩
  · obtain ⟨_, u, hu, hk⟩ := Res.bind_eq_ok hr
    cases hk
    cases hm : s.mode with
    | bitstream =>
      obtain ⟨v, hv, hp, rfl⟩ := toByteMode_switch hm hu
      exact .inl (.pad hm hv hp)
    | bytestream =>
      rw [toByteMode_bytestream hm] at hu
      cases hu
      exact .inl (.noPad hm)
  · rcases Res.bind_eq_raise hr with hr | ⟨_, v, -, hk⟩
    · obtain ⟨he, hread⟩ := toByteMode_raise hr
      exact .inr ⟨e, u, .pad he hread, rfl⟩
    · cases hk

theorem readByte_fails_mode (s : State) :
    (readByte s).Fails (fun e => PullError e ∨ e = .wrongMode ∧ s.mode = .bitstream) (· = .hostSilent) := by
  cases hm : s.mode with
  | bitstream => simp only [readByte, hm]; exact .inr ⟨rfl, trivial⟩
  | bytestream => exact (readByte_fails hm).mono (fun _ => .inl) fun _ => id

theorem payloadBytes_fails (n : Nat) (s : State) : (payloadBytes n s).Fails
    (fun e => PullError e ∨ e = .wrongMode ∧ s.mode = .bitstream) fun f => f = .hostSilent ∨ f = .windowIndex := by
  induction n generalizing s with
  | zero => trivial
  | succ n ih =>
    refine Res.fails_bind ((readByte_fails_mode s).mono (fun _ => id) fun _ => .inl) fun b t ht => ?_
    have hmode : t.mode = s.mode := by
      have hreads := readByte_reads s
      rw [ht] at hreads
      rw [hreads.1]
    unfold putByte
    split
    · exact hmode ▸ ih (t.put b)
    · exact .inr rfl

theorem execUncPayload_met {s t : State} (h : execUncPayload s = .next t) : Met s .payload t := by
  have hleaves := payloadBytes_leaves s.payloadRun s
  rcases Res.finish_eq_next h with hr | ⟨e, u, hr, rfl⟩
  · obtain ⟨_, u, hu, hk⟩ := Res.bind_eq_ok hr
    cases hk
    obtain ⟨-, hpos, htotal, hin⟩ := payloadBytes_eq_ok hu
    rw [hu] at hleaves
    exact .inl (.payload hleaves hpos htotal hin)
  · rcases Res.bind_eq_raise hr with hr | ⟨_, v, -, hk⟩
    · have hfail := payloadBytes_fails s.payloadRun s
      rw [hr] at hfail hleaves
      exact .inr ⟨e, u, .payload hfail hleaves, rfl⟩
    · cases hk

/-- The mode switch to bits fails in a pull for the pad byte. -/
theorem toBitMode_raise {s u : State} {e : ErrKind} (hm : s.mode = .bytestream) (h : toBitMode s = .raise e u) :
    PullError e ∧ ReadsOnly s u := by
  simp only [toBitMode, hm] at h
  split at h
  · have hfail := fetchByte_fails s.pos s
    have hleaves := fetchByte_leaves s.pos s
    rcases Res.bind_eq_raise h with h | ⟨_, v, -, hk⟩
    · rw [h] at hfail hleaves
      exact ⟨hfail, PullsOnly.readsOnly hleaves⟩
    · cases hk
  · cases h

theorem execUncPadByte_met {x : Byte} {s t : State} (h : execUncPadByte x s = .next t) : Met s .padByte t := by
  cases hm : s.mode with
  | bitstream =>
    rw [execUncPadByte, toBitMode_bitstream hm] at h
    cases h
    exact .inl (.noPadByte hm)
  | bytestream =>
    rcases Res.finish_eq_next h with hr | ⟨e, u, hr, rfl⟩
    · obtain ⟨u, hu, rfl⟩ := toBitMode_switch hm hr
      exact .inl (.padByte hm hu)
    · obtain ⟨he, hread⟩ := toBitMode_raise hm hr
      exact .inr ⟨e, u, .padByte he hread, rfl⟩

/-- Every element, by its place: what it leaves, or the error it raises and enters. -/
theorem exec_met {i : Instr} {site : Site} {s t : State} (hi : i.site = some site) (h : exec i s = .next t) : Met s site t := by
  have shapes := exec_shapes (P := fun site f => ∀ s t, ∀ x, site = some x → f s = .next t → Met s x t)
    (fun _ _ _ _ _ h => nomatch h) (fun _ _ _ _ h => nomatch h)
    (fun m s t x hx h => by cases hx; cases h; exact .inl (.e8Header m))
    (fun len s t x hx h => by cases hx; cases h; exact .inr ⟨_, _, .unknownBlock len, rfl⟩)
    (fun len s t x hx h => by cases hx; cases h; exact .inl (.verbatim len))
    (fun len s t x hx h => by cases hx; cases h; exact .inl (.aligned len))
    (fun len s t x hx h => by cases hx; cases h; exact .inl (.uncompressed len))
    (fun a s t x hx h => by cases hx; exact alignLength_met h)
    (fun p s t x hx h => by cases hx; exact preLength_met h)
    (fun z s t x hx h => by cases hx; exact writeRun_met h)
    (fun n s t x hx h => by cases hx; exact checkedRun_met h)
    (fun k z2 s t x hx h => by cases hx; exact execSrun_met h)
    (fun b s t x hx h => by cases hx; exact execLit_met h)
    (fun slot hdr s t x hx h => by cases hx; exact startMatch_met h)
    (fun l s t x hx h => by cases hx; exact execLsym_met h)
    (fun a s t x hx h => by cases hx; exact execAlsym_met h)
    (fun s t x hx h => by cases hx; exact execUncPad_met h)
    (fun w0 w1 w2 s t x hx h => by cases hx; cases h; exact .inl (.words w0 w1 w2))
    (fun s t x hx h => by cases hx; exact execUncPayload_met h)
    (fun b s t x hx h => by cases hx; exact execUncPadByte_met h)
  exact shapes i s t site hi h

/-! ### Host commands -/

/-- What a `DecodeFrame` comes to (R190–R193, R326, R327). -/
inductive Asked (s : State) : State → Prop where
  | refused : Asked s s.refuse
  | started (hr : s.status = .ready) : Asked s ({ s with produced := 0 } : State).afterReset
  | startedReset (hr : s.status = .ready) (hdue : s.resetInterval ≠ 0 ∧ s.frameIndex % s.resetInterval = 0)
      (hb : s.blockRemaining = 0) : Asked s ({ s with produced := 0 } : State).periodicReset.afterReset
  | inBlock (hr : s.status = .ready) : Asked s (({ s with produced := 0 } : State).takeError .inconsistentResetState)

/-- What a step between commands comes to. -/
inductive Commanded (s : State) : State → Prop where
  | nothing : Commanded s s
  | constructed (wb ri : Nat) (cs : List HostCmd) (hc : s.cmds = .construct wb ri :: cs) (h15 : 15 ≤ wb) (h21 : wb ≤ 21) :
      Commanded s (({ s with cmds := cs } : State).constructed wb ri)
  | outOfRange (cs : List HostCmd) : Commanded s { ({ s with cmds := cs } : State).refuse with alive := false }
  | destroyed (cs : List HostCmd) (hc : s.cmds = .destroy :: cs) (ha : s.alive = true) :
      Commanded s ({ s with cmds := cs } : State).destroyed
  | refused (cs : List HostCmd) : Commanded s ({ s with cmds := cs } : State).refuse
  | asked {t : State} (cs : List HostCmd) (h : Asked { s with cmds := cs } t) : Commanded s t

theorem execDecodeFrame_asked {n : Nat} {s t : State} (h : execDecodeFrame n s = .next t) : Asked s t := by
  by_cases hacc : s.accepts n = true
  · rw [execDecodeFrame_accepted hacc] at h
    obtain ⟨-, -, hready, -⟩ := State.accepts_iff.mp hacc
    by_cases hdue : ({ s with produced := 0 } : State).resetDue = true
    · by_cases hb : s.blockRemaining = 0
      · rw [resetStep_due hdue hb] at h
        cases h
        exact .startedReset hready (State.resetDue_iff.mp hdue) hb
      · rw [resetStep_inBlock hdue hb] at h
        cases h
        exact .inBlock hready
    · rw [resetStep_notDue hdue] at h
      cases h
      exact .started hready
  · rw [execDecodeFrame_refused hacc] at h
    cases h
    exact .refused

theorem step_commanded {s t : State} (hc : s.ctl = .idle) (h : step s = .next t) : Commanded s t := by
  rw [step_idle hc] at h
  cases hcmds : s.cmds with
  | nil =>
    rw [commandStep_nil hcmds] at h
    cases h
    exact .nothing
  | cons c cs =>
    rw [commandStep_cons hcmds] at h
    cases c with
    | construct wb ri =>
      by_cases hin : 15 ≤ wb ∧ wb ≤ 21
      · have : execConstruct wb ri { s with cmds := cs } = .next t := h
        rw [execConstruct_ok (s := { s with cmds := cs }) hc hin.1 hin.2] at this
        cases this
        exact .constructed wb ri cs hcmds hin.1 hin.2
      · have : execConstruct wb ri { s with cmds := cs } = .next t := h
        rw [execConstruct_outOfRange (s := { s with cmds := cs }) hc (by omega)] at this
        cases this
        exact .outOfRange cs
    | decodeFrame n => exact .asked cs (execDecodeFrame_asked h)
    | destroy =>
      cases h
      by_cases ha : s.alive = true
      · rw [State.destroy_alive (s := { s with cmds := cs }) ha]
        exact .destroyed cs hcmds ha
      · rw [State.destroy_none (s := { s with cmds := cs }) (by simpa using ha)]
        exact .refused cs

/-! ### A step inside a command -/

/-- What a step inside a command comes to: an element's meaning, the end of a frame, or an error of the search or of the
element's fields, entered. -/
inductive Ran (s t : State) : Prop where
  | element {site : Site} {u v : State} {i : Instr} (hs : seek s = .ok (.element site) u) (hf : fetchInstr site u = .ok i v)
      (hi : i.site = some site) (ht : exec i v = .next t)
  | complete {u : State} (hs : seek s = .ok .complete u) (ht : (completeFrame u).finish = .next t)
  | sought {u : State} {e : ErrKind} (hs : seek s = .raise e u) (ht : t = u.takeError e)
  | fetched {site : Site} {u v : State} {e : ErrKind} (hs : seek s = .ok (.element site) u) (hf : fetchInstr site u = .raise e v)
      (ht : t = v.takeError e)

theorem step_ran {s t : State} (hc : s.ctl ≠ .idle) (h : step s = .next t) : Ran s t := by
  cases hs : seek s with
  | stop f => rw [step_of_seek_stop hc hs] at h; cases h
  | raise e u => rw [step_of_seek_raise hc hs] at h; cases h; exact .sought hs rfl
  | ok a u =>
    cases a with
    | complete => exact .complete hs (step_of_complete hc hs ▸ h)
    | element site =>
      cases hf : fetchInstr site u with
      | stop f => rw [step_of_fetch_stop hc hs hf] at h; cases h
      | raise e v => rw [step_of_fetch_raise hc hs hf] at h; cases h; exact .fetched hs hf rfl
      | ok i v => exact .element hs hf (fetchInstr_site hf) (step_of_fetch hc hs hf ▸ h)

/-- The search fails only as a pull does, for the test of the input's end. -/
theorem seek_raise {s u : State} {e : ErrKind} (h : seek s = .raise e u) : PullError e ∧ PullsOnly s u := by
  have bit {site : Site} {s u : State} {e : ErrKind} : bitSite site s ≠ .raise e u := by
    unfold bitSite
    split
    · exact nofun
    · split <;> exact nofun
  unfold seek at h
  split at h
  case h_2 => exact absurd h bit
  case h_4 => exact absurd h bit
  case h_3 =>
    unfold loopHead at h
    split at h
    · cases h
    · split at h
      · have hfail := eofAtBoundary_fails s
        have hleaves := eofAtBoundary_leaves s
        rcases Res.bind_eq_raise h with h | ⟨b, v, -, hk⟩
        · rw [h] at hfail hleaves
          exact ⟨hfail, hleaves⟩
        · split at hk
          · cases hk
          · exact absurd hk bit
      · split at h <;> cases h
  all_goals cases h

/-- Where a frame completes, the search has only pulled; the frame ends, or an error is entered with nothing written. -/
theorem complete_cases {s u t : State} (hc : s.ctl ≠ .idle) (hs : seek s = .ok .complete u)
    (ht : (completeFrame u).finish = .next t) : PullsOnly s u ∧
      ((∃ m, t = ({ u with out := m } : State).realign.endFrame u.produced) ∨ ∃ e, t = u.takeError e) := by
  refine ⟨seek_complete_pullsOnly hc hs, ?_⟩
  rcases Res.finish_eq_next ht with h | ⟨e, w, h, rfl⟩
  · obtain ⟨m, hm, -⟩ := completeFrame_ok h
    exact .inl ⟨m, hm⟩
  · exact .inr ⟨e, by rw [completeFrame_raise h]⟩

/-- A property that the elementary updates keep, kept by what a step inside a command comes to. -/
theorem Kept.ran {P : State → Prop} (k : Kept P) (hend : ∀ {u m}, P u → P (({ u with out := m } : State).endFrame u.produced))
    {s t : State} (h : P s) (hr : Ran s t) : P t := by
  cases hr with
  | element hs hf hi ht =>
    have hu := (k.seek h).of_ok hs
    have hv := (k.fetchInstr _ hu).of_ok hf
    exact k.element _ (by rw [hi]; exact nofun) hv ht
  | complete hs ht =>
    rename_i u
    have hu := (k.seek h).of_ok hs
    rcases Res.finish_eq_next ht with hv | ⟨e, w, hv, rfl⟩
    · obtain ⟨m, rfl, -, -⟩ := completeFrame_ok hv
      rw [State.realign_only]
      exact hend (u := { u with pos := ({ u with out := m } : State).realign.pos }) (k.plain hu rfl)
    · rw [completeFrame_raise hv]
      exact k.plain hu rfl
  | sought hs ht =>
    have hu := (k.seek h).of_raise hs
    rw [ht]
    exact k.plain hu rfl
  | fetched hs hf ht =>
    have hu := (k.seek h).of_ok hs
    have hv := (k.fetchInstr _ hu).of_raise hf
    rw [ht]
    exact k.plain hv rfl

end Sys2Proof.Machine

end StepCases

/-! ## Rules over every step (spec/60_exceptions.md section 3, spec/40_bitreader.md section 7, spec/10_state.md) -/

section WholeMachine

namespace Sys2Proof.Machine

/-! ### The status, the output buffer, and what an error leaves -/

theorem Meant.status {s t : State} {site : Site} (h : Meant s site t) : t.status = s.status := by
  cases h with
  | mainSym h | lenSym h | alSym h =>
    cases h with
    | length => rfl
    | aligned p hr hb => rw [hr.1]
    | copied offset length a b c w hr => rw [hr.1]
  | pad hm hr hp => exact (congrArg State.status hr.1 :)
  | payload hr => exact (congrArg State.status hr.1 :)
  | padByte hm hr => exact (congrArg State.status hr.1 :)
  | _ => rfl

/-- What a step inside a command that fails no decoder and ends no frame leaves: the status and the output buffer. An error is
entered with the buffer as it was, and the end of a frame counts it. -/
inductive Ended (s : State) : State → Prop where
  | inside {t : State} (hstatus : t.status = s.status) (hout : t.out = s.out) : Ended s t
  | failed (u : State) (e : ErrKind) (hout : u.out = s.out) : Ended s (u.takeError e)
  | frame (u : State) (m : Memory) (hp : PullsOnly s u) : Ended s (({ u with out := m } : State).realign.endFrame u.produced)

theorem kept_out (m : Memory) : Kept (fun u => u.out = m) where
  plain h hp := by rw [hp]; exact h
  feed bs h _ := by cases bs <;> exact h
  put _ h _ := h
  table t _ h _ := by cases t <;> exact h
  run _ _ _ h := by unfold State.setListLens; split <;> exact h
  al _ _ h := h
  pre _ _ h := h

theorem Ran.ended {s t : State} (hc : s.ctl ≠ .idle) (h : Ran s t) : Ended s t := by
  have kept := kept_out s.out
  have sought := kept.seek (s := s) rfl
  cases h with
  | element hs hf hi ht =>
    rename_i site u v i
    have hu : u.status = s.status := by rw [(seek_leaves s).of_ok hs]
    have hv : v.status = u.status := by rw [((fetchInstr_reads site u).of_ok hf).1]
    have fetched := (kept.fetchInstr site (sought.of_ok hs)).of_ok hf
    have hout := kept.element i (by rw [hi]; exact nofun) fetched ht
    rcases exec_met hi ht with h | ⟨e, w, -, rfl⟩
    · exact .inside (h.status.trans (hv.trans hu)) hout
    · exact .failed w e hout
  | complete hs ht =>
    obtain ⟨hp, ⟨m, rfl⟩ | ⟨e, rfl⟩⟩ := complete_cases hc hs ht
    · exact .frame _ m hp
    · exact .failed _ e (by rw [hp.1])
  | sought hs ht =>
    rw [ht]
    exact .failed _ _ (sought.of_raise hs)
  | fetched hs hf ht =>
    rw [ht]
    exact .failed _ _ ((kept.fetchInstr _ (sought.of_ok hs)).of_raise hf)

theorem State.realign_frameIndex (s : State) : s.realign.frameIndex = s.frameIndex := by rw [s.realign_only]

theorem State.realign_status (s : State) : s.realign.status = s.status := by rw [s.realign_only]

/-- The end of a frame never fails a decoder that had not failed. -/
theorem State.endFrame_status_ready {s : State} (h : s.status = .ready) (n : Nat) (e : ErrKind) :
    (s.endFrame n).status ≠ .failed e := by
  unfold State.endFrame
  simp only [h]
  split <;> exact nofun

/-- A `DecodeFrame` writes no output byte, and fails the decoder only as an error entered. -/
theorem Asked.out {s t : State} (h : Asked s t) : t.out = s.out := by cases h <;> rfl

theorem Commanded.out {s t : State} (h : Commanded s t) : t.out = s.out := by
  cases h with
  | asked cs h => exact h.out
  | _ => rfl

theorem Commanded.failed {s t : State} {e : ErrKind} (h : Commanded s t) (hr : s.status = .ready)
    (ht : t.status = .failed e) : t.result = some (.err e) ∧ t.ctl = .idle := by
  cases h with
  | nothing | outOfRange | refused => exact nomatch hr.symm.trans ht
  | constructed | destroyed => cases ht
  | asked cs h =>
    cases h with
    | refused | started | startedReset => exact nomatch hr.symm.trans ht
    | inBlock => cases ht; exact ⟨rfl, rfl⟩

/-- Settles O55: an error is entered with the buffer as it was, and only the end of a frame writes it. -/
theorem errorsWriteNoOutput : Obligations.ErrorsWriteNoOutput := by
  unfold Obligations.ErrorsWriteNoOutput
  refine ⟨fun s t e hs hr ht => ?_, fun s t hs hout => ?_⟩
  · by_cases hc : s.ctl = .idle
    · have hcmd := step_commanded hc hs
      obtain ⟨hresult, hctl⟩ := hcmd.failed hr ht
      exact ⟨hresult, hctl, hcmd.out⟩
    · cases (step_ran hc hs).ended hc with
      | inside hstatus => rw [hstatus, hr] at ht; cases ht
      | failed u e' hout => cases ht; exact ⟨rfl, rfl, hout⟩
      | frame u m hp =>
        refine absurd ht (State.endFrame_status_ready ?_ _ e)
        rw [State.realign_status, hp.1]
        exact hr
  · by_cases hc : s.ctl = .idle
    · exact absurd (step_commanded hc hs).out hout
    · cases (step_ran hc hs).ended hc with
      | inside _ hkeep => exact absurd hkeep hout
      | failed u e hkeep => exact absurd hkeep hout
      | frame u m hp =>
        refine ⟨u.produced, rfl, ?_⟩
        show ({ u with out := m } : State).realign.frameIndex + 1 = s.frameIndex + 1
        rw [State.realign_frameIndex, hp.1]

/-! ### A decoder that has ended or failed -/

/-- Settles O60: an error and the end of a frame leave the decoder between commands; nothing else fails or ends one. -/
theorem stepKeepsStatus : Obligations.StepKeepsStatus := by
  unfold Obligations.StepKeepsStatus
  refine fun s t hinv hs => ⟨fun hstatus => ?_⟩
  by_cases hc : s.ctl = .idle
  · cases step_commanded hc hs with
    | constructed | destroyed => rfl
    | nothing | outOfRange | refused => exact hc
    | asked cs h =>
      cases h with
      | refused => exact hc
      | started hr | startedReset hr => exact absurd hr hstatus
      | inBlock => rfl
  · cases (step_ran hc hs).ended hc with
    | inside hkeep => exact absurd (hinv.stopped (hkeep ▸ hstatus)) hc
    | failed | frame => rfl

/-- Settles O56: a decoder that is not ready runs no command, and only a construction or a destruction writes its status. -/
theorem onlyConstructRevives : Obligations.OnlyConstructRevives := by
  unfold Obligations.OnlyConstructRevives
  intro s t hinv hstatus hs
  have hc := hinv.stopped hstatus
  cases step_commanded hc hs with
  | nothing | outOfRange | refused => exact .inl rfl
  | constructed wb ri cs hcmds h15 h21 => exact .inr ⟨hc, .inl ⟨wb, ri, cs, hcmds, h15, h21⟩⟩
  | destroyed cs hcmds ha => exact .inr ⟨hc, .inr ⟨ha, ⟨cs, hcmds⟩, rfl⟩⟩
  | asked cs h =>
    cases h with
    | refused => exact .inl rfl
    | started hr | startedReset hr | inBlock hr => exact absurd hr hstatus

/-! ### The reader's position -/

theorem State.bitPos_le {s t : State} (hm : t.mode = s.mode) (hp : s.pos ≤ t.pos) : s.bitPos ≤ t.bitPos := by
  unfold State.bitPos
  rw [hm]
  split <;> omega

theorem ReadsAndPuts.bitPos_le {s t : State} (h : ReadsAndPuts s t) : s.bitPos ≤ t.bitPos :=
  State.bitPos_le (by rw [h.1]) h.2.2

theorem ReadsOnly.bitPos_le {s t : State} (h : ReadsOnly s t) : s.bitPos ≤ t.bitPos := h.readsAndPuts.bitPos_le

theorem State.bitPos_bitstream {s : State} (h : s.mode = .bitstream) : s.bitPos = s.pos := by simp only [State.bitPos, h]

theorem State.bitPos_bytestream {s : State} (h : s.mode = .bytestream) : s.bitPos = 8 * s.pos := by simp only [State.bitPos, h]

/-- A mode switch at the end of a byte keeps the position. -/
theorem State.enterBitMode_bitPos {s : State} (h : s.mode = .bytestream) : s.enterBitMode.bitPos = s.bitPos := by
  rw [State.bitPos_bytestream h, State.bitPos_bitstream (s := s.enterBitMode) rfl]
  exact Nat.mul_comm _ _

theorem State.enterByteMode_bitPos {s : State} (h : s.mode = .bitstream) (hp : s.pos % 16 = 0) :
    s.enterByteMode.bitPos = s.bitPos := by
  rw [State.bitPos_bitstream h, State.bitPos_bytestream (s := s.enterByteMode) rfl, State.enterByteMode_pos]
  omega

theorem State.realign_bitPos_le (s : State) : s.bitPos ≤ s.realign.bitPos := by
  refine State.bitPos_le (by rw [s.realign_only]) ?_
  rw [State.realign_eq]
  show s.pos ≤ if s.mode = .bitstream then 16 * ((s.pos + 15) / 16) else s.pos
  split <;> omega

theorem Sought.bitPos_le {s t : State} {a : Action} (h : Sought s a t) : s.bitPos ≤ t.bitPos := by
  cases h with
  | ended hc hf hb hp => exact hp.readsOnly.bitPos_le
  | headerSwitch hc hm => exact Nat.le_of_eq (State.enterBitMode_bitPos hm).symm
  | block hc hp hm => exact hp.readsOnly.bitPos_le
  | blockSwitch hc hp hm => exact Nat.le_trans hp.readsOnly.bitPos_le (Nat.le_of_eq (State.enterBitMode_bitPos hm).symm)
  | blockPad hc hp hm => exact hp.readsOnly.bitPos_le
  | _ => exact Nat.le_refl _

theorem Meant.bitPos_le {s t : State} {site : Site} (h : Meant s site t) : s.bitPos ≤ t.bitPos := by
  cases h with
  | mainSym h | lenSym h | alSym h =>
    cases h with
    | length => exact Nat.le_refl _
    | aligned p hr hb => exact hr.bitPos_le
    | copied offset length a b c w hr => exact hr.bitPos_le
  | pad hm hr hp =>
    exact Nat.le_trans hr.bitPos_le (Nat.le_of_eq (State.enterByteMode_bitPos ((congrArg State.mode hr.1).trans hm) hp).symm)
  | payload hr => exact hr.bitPos_le
  | padByte hm hr =>
    exact Nat.le_trans hr.bitPos_le (Nat.le_of_eq (State.enterBitMode_bitPos ((congrArg State.mode hr.1).trans hm)).symm)
  | _ => exact Nat.le_refl _

theorem Raised.bitPos_le {s t : State} {site : Site} {e : ErrKind} (h : Raised s site e t) : s.bitPos ≤ t.bitPos := by
  cases h with
  | ofMatch hsite a b c he hr => exact hr.bitPos_le
  | pad he hr => exact hr.bitPos_le
  | payload he hr => exact hr.bitPos_le
  | padByte he hr => exact hr.bitPos_le
  | _ => exact Nat.le_refl _

theorem Met.bitPos_le {s t : State} {site : Site} (h : Met s site t) : s.bitPos ≤ t.bitPos := by
  rcases h with h | ⟨e, u, h, rfl⟩
  · exact h.bitPos_le
  · exact h.bitPos_le

theorem Ran.bitPos_le {s t : State} (hc : s.ctl ≠ .idle) (h : Ran s t) : s.bitPos ≤ t.bitPos := by
  cases h with
  | element hs hf hi ht =>
    exact Nat.le_trans (seek_ok hc hs).bitPos_le
      (Nat.le_trans ((fetchInstr_reads _ _).of_ok hf).bitPos_le (exec_met hi ht).bitPos_le)
  | complete hs ht =>
    rename_i u
    obtain ⟨hp, ⟨m, rfl⟩ | ⟨e, rfl⟩⟩ := complete_cases hc hs ht
    · exact Nat.le_trans hp.readsOnly.bitPos_le (State.realign_bitPos_le { u with out := m })
    · exact hp.readsOnly.bitPos_le
  | sought hs ht =>
    rw [ht]
    exact (seek_raise hs).2.readsOnly.bitPos_le
  | fetched hs hf ht =>
    rw [ht]
    exact Nat.le_trans (seek_ok hc hs).bitPos_le ((fetchInstr_reads _ _).of_raise hf).bitPos_le

/-! ### What the reader has received -/

/-- `t` has received no less than `s`, knows the end of input if `s` does, and has the same configuration. -/
structure ReceivesOnly (s t : State) : Prop where
  inp : s.inp <+: t.inp
  nreal : s.nreal ≤ t.nreal
  eof : s.eof = true → t.eof = true ∧ t.nreal = s.nreal
  windowBits : t.windowBits = s.windowBits
  resetInterval : t.resetInterval = s.resetInterval
  inbufSize : t.inbufSize = s.inbufSize

theorem ReceivesOnly.refl (s : State) : ReceivesOnly s s := ⟨List.prefix_rfl, Nat.le_refl _, fun h => ⟨h, rfl⟩, rfl, rfl, rfl⟩

theorem ReceivesOnly.feed {s t : State} (h : ReceivesOnly s t) (he : t.eof = false) (bs : List Byte) : ReceivesOnly s (t.feed bs) := by
  have hs : s.eof = true → False := fun hs => by
    have := (h.eof hs).1
    rw [he] at this
    cases this
  cases bs with
  | nil => exact { h with inp := h.inp.trans (List.prefix_append ..), eof := fun h => (hs h).elim }
  | cons b bs =>
    exact { h with
      inp := h.inp.trans (List.prefix_append ..)
      nreal := Nat.le_trans h.nreal (Nat.le_add_right ..)
      eof := fun h => (hs h).elim }

theorem kept_receivesOnly (s : State) : Kept (ReceivesOnly s) where
  plain h hp := by rw [hp]; exact { h with }
  feed bs h he := h.feed he bs
  put _ h _ := { h with }
  table t _ h _ := by cases t <;> exact { h with }
  run _ _ _ h := by unfold State.setListLens; split <;> exact { h with }
  al _ _ h := { h with }
  pre _ _ h := { h with }

theorem Ran.receivesOnly {s t : State} (h : Ran s t) : ReceivesOnly s t :=
  (kept_receivesOnly s).ran (fun h => { h with }) (.refl s) h

/-- Between commands the reader and the configuration are written only by a construction or the decoder's end. -/
theorem Commanded.reader {s t : State} (h : Commanded s t)
    (hnot : ¬ ∃ c cs, s.cmds = c :: cs ∧ ((∃ wb ri, c = .construct wb ri) ∨ c = .destroy)) :
    s.bitPos ≤ t.bitPos ∧ ReceivesOnly s t := by
  have same : ReceivesOnly s s := .refl s
  cases h with
  | nothing => exact ⟨Nat.le_refl _, same⟩
  | outOfRange | refused => exact ⟨Nat.le_refl _, { same with }⟩
  | constructed wb ri cs hcmds => exact absurd ⟨_, cs, hcmds, .inl ⟨wb, ri, rfl⟩⟩ hnot
  | destroyed cs hcmds => exact absurd ⟨_, cs, hcmds, .inr rfl⟩ hnot
  | asked cs h => cases h <;> exact ⟨Nat.le_refl _, { same with }⟩

/-- Settles O57: reads and mode switches only move on, and a pull only adds. -/
theorem readerOnlyAdvances : Obligations.ReaderOnlyAdvances := by
  unfold Obligations.ReaderOnlyAdvances
  intro s t hs hnot
  have hboth : s.bitPos ≤ t.bitPos ∧ ReceivesOnly s t := by
    by_cases hc : s.ctl = .idle
    · exact (step_commanded hc hs).reader fun h => hnot ⟨hc, h⟩
    · exact ⟨(step_ran hc hs).bitPos_le hc, (step_ran hc hs).receivesOnly⟩
  obtain ⟨hpos, hrec⟩ := hboth
  exact ⟨hpos, hrec.inp, hrec.nreal, fun he => (hrec.eof he).1, hrec.windowBits, hrec.resetInterval, hrec.inbufSize⟩

end Sys2Proof.Machine

end WholeMachine

/-! ## Which instructions write the registers, the window, the lengths and the tables (spec/10_state.md sections 5 to 11) -/

section Writers

namespace Sys2Proof.Machine

/-! ### The instructions of a place -/

theorem instr_mainSym {i : Instr} (h : i.site = some .mainSym) : (∃ b, i = .lit b) ∨ ∃ p, matchParts i = some p := by
  cases i with
  | lit b => exact .inl ⟨b, rfl⟩
  | construct | decodeFrame | e8hdrOff | e8hdrOn | blockType0 | blockVerbatim | blockAligned | blockUncompressed | blockType4
  | blockType5 | blockType6 | blockType7 | alignlen | prelen | delta0 | delta1 | delta2 | delta3 | delta4 | delta5 | delta6
  | delta7 | delta8 | delta9 | delta10 | delta11 | delta12 | delta13 | delta14 | delta15 | delta16 | zrun4 | zrun20 | srun
  | lsym | alsym | uncPad | uncRWords | uncPayload | uncPadByte => cases h
  | _ hdr => exact .inr ⟨_, rfl⟩

theorem instr_lenCode {i : Instr} (h : i.site = some .lenCode) :
    (∃ k z2, i = .srun k z2 ∧ 16 < z2) ∨ ∃ prev p, lengthRun i prev = some p := by
  cases i with
  | delta0 | delta1 | delta2 | delta3 | delta4 | delta5 | delta6 | delta7 | delta8 | delta9 | delta10 | delta11 | delta12
  | delta13 | delta14 | delta15 | delta16 | zrun4 | zrun20 => exact .inr ⟨0, _, rfl⟩
  | srun k z2 =>
    rcases Nat.lt_or_ge 16 z2 with hz | hz
    · exact .inl ⟨k, z2, rfl, hz⟩
    · exact .inr ⟨0, _, if_pos hz⟩
  | _ => cases h

theorem instr_lenSym {i : Instr} (h : i.site = some .lenSym) : ∃ l, i = .lsym l := by
  cases i with
  | lsym l => exact ⟨l, rfl⟩
  | _ => cases h

theorem instr_alSym {i : Instr} (h : i.site = some .alSym) : ∃ a, i = .alsym a := by
  cases i with
  | alsym a => exact ⟨a, rfl⟩
  | _ => cases h

theorem instr_uncWords {i : Instr} (h : i.site = some .uncWords) : ∃ w0 w1 w2, i = .uncRWords w0 w1 w2 := by
  cases i with
  | uncRWords w0 w1 w2 => exact ⟨w0, w1, w2, rfl⟩
  | _ => cases h

theorem instr_alignLen {i : Instr} (h : i.site = some .alignLen) : ∃ a, i = .alignlen a := by
  cases i with
  | alignlen a => exact ⟨a, rfl⟩
  | _ => cases h

theorem instr_preLen {i : Instr} (h : i.site = some .preLen) : ∃ p, i = .prelen p := by
  cases i with
  | prelen p => exact ⟨p, rfl⟩
  | _ => cases h

theorem instr_payload {i : Instr} (h : i.site = some .payload) : i = .uncPayload := by
  cases i with
  | uncPayload => rfl
  | _ => cases h

theorem instr_command {i : Instr} (h : i.site = none) : (∃ wb ri, i = .construct wb ri) ∨ ∃ n, i = .decodeFrame n := by
  cases i with
  | construct wb ri => exact .inl ⟨wb, ri, rfl⟩
  | decodeFrame n => exact .inr ⟨n, rfl⟩
  | _ => cases h

/-! ### The fields an element of a place writes -/

/-- The places that write the window: a literal, a match or a payload run. -/
def PutsBytes (site : Site) : Prop := site = .mainSym ∨ site = .lenSym ∨ site = .alSym ∨ site = .payload

/-- The places that write the repeat-offset registers: a match or the words of an Uncompressed header. -/
def LoadsRegs (site : Site) : Prop := site = .mainSym ∨ site = .lenSym ∨ site = .alSym ∨ site = .uncWords

/-- The places that write a length or a table. -/
def WritesTrees (site : Site) : Prop := site = .alignLen ∨ site = .preLen ∨ site = .lenCode

theorem Met.window {s t : State} {site : Site} (h : Met s site t) (hn : ¬ PutsBytes site) : t.window = s.window := by
  rcases h with h | ⟨e, u, h, rfl⟩
  · cases h with
    | lit | mainSym | lenSym | alSym | payload => exact absurd (by simp [PutsBytes]) hn
    | pad hm hr | padByte hm hr => exact (congrArg State.window hr.1 :)
    | _ => rfl
  · cases h with
    | ofMatch hsite => exact absurd (by rcases hsite with rfl | rfl | rfl <;> simp [PutsBytes]) hn
    | payload => exact absurd (by simp [PutsBytes]) hn
    | pad he hr | padByte he hr => exact (congrArg State.window hr.1 :)
    | _ => rfl

/-- The three registers of a state. -/
def State.regs (s : State) : Word32 × Word32 × Word32 := (s.r0, s.r1, s.r2)

theorem Met.regs {s t : State} {site : Site} (h : Met s site t) (hn : ¬ LoadsRegs site) : t.regs = s.regs := by
  rcases h with h | ⟨e, u, h, rfl⟩
  · cases h with
    | lit | mainSym | lenSym | alSym | words => exact absurd (by simp [LoadsRegs]) hn
    | pad hm hr | padByte hm hr => exact (congrArg State.regs hr.1 :)
    | payload hr => exact (congrArg State.regs hr.1 :)
    | _ => rfl
  · cases h with
    | ofMatch hsite => exact absurd (by rcases hsite with rfl | rfl | rfl <;> simp [LoadsRegs]) hn
    | payload he hr | pad he hr | padByte he hr => exact (congrArg State.regs hr.1 :)
    | _ => rfl

/-- The lengths and the tables of a state. -/
def State.trees (s : State) : (List Len × List Len) × List (BitVec 3) × List (BitVec 4) × (Tree → Table) :=
  ((s.lMain, s.lLen), s.lAl, s.lPre, s.table)

theorem ReadsAndPuts.trees {s t : State} (h : ReadsAndPuts s t) : t.trees = s.trees := (congrArg State.trees h.1 :)

theorem ReadsOnly.trees {s t : State} (h : ReadsOnly s t) : t.trees = s.trees := h.readsAndPuts.trees

theorem Matched.trees {s t : State} (h : Matched s t) : t.trees = s.trees := by
  cases h with
  | length => rfl
  | aligned p hr hb => exact hr.trees
  | copied offset length a b c w hr => exact hr.trees

theorem Met.trees {s t : State} {site : Site} (h : Met s site t) (hn : ¬ WritesTrees site) : t.trees = s.trees := by
  rcases h with h | ⟨e, u, h, rfl⟩
  · cases h with
    | alignLen | alignTree | preLen | preTree | run | mainLow | mainTree | lenTree => exact absurd (by simp [WritesTrees]) hn
    | mainSym h | lenSym h | alSym h => exact h.trees
    | pad hm hr | padByte hm hr => exact hr.trees
    | payload hr => exact hr.trees
    | _ => rfl
  · cases h with
    | alignTree | preTree | badCode | overrun | tree => exact absurd (by simp [WritesTrees]) hn
    | ofMatch hsite a b c he hr => exact hr.trees
    | payload he hr => exact hr.trees
    | pad he hr | padByte he hr => exact hr.trees
    | unknownBlock => rfl

theorem Met.alignLen_lengths {s t : State} (h : Met s .alignLen t) :
    (t.lMain, t.lLen) = (s.lMain, s.lLen) ∧ t.lPre = s.lPre := by
  rcases h with h | ⟨e, u, h, rfl⟩
  · cases h <;> exact ⟨rfl, rfl⟩
  · cases h with
    | alignTree => exact ⟨rfl, rfl⟩
    | ofMatch hsite => exact absurd hsite (by decide)

theorem Met.preLen_lengths {s t : State} (h : Met s .preLen t) :
    (t.lMain, t.lLen) = (s.lMain, s.lLen) ∧ t.lAl = s.lAl := by
  rcases h with h | ⟨e, u, h, rfl⟩
  · cases h <;> exact ⟨rfl, rfl⟩
  · cases h with
    | preTree => exact ⟨rfl, rfl⟩
    | ofMatch hsite => exact absurd hsite (by decide)

theorem Met.lenCode_lengths {s t : State} (h : Met s .lenCode t) : t.lAl = s.lAl ∧ t.lPre = s.lPre := by
  rcases h with h | ⟨e, u, h, rfl⟩
  · cases h <;> exact ⟨rfl, rfl⟩
  · cases h with
    | badCode | overrun | tree => exact ⟨rfl, rfl⟩
    | ofMatch hsite => exact absurd hsite (by decide)

theorem Met.lists {s t : State} {site : Site} (h : Met s site t) (hn : site ≠ .lenCode) :
    (t.lMain, t.lLen) = (s.lMain, s.lLen) := by
  by_cases hw : WritesTrees site
  · rcases hw with rfl | rfl | rfl
    · exact h.alignLen_lengths.1
    · exact h.preLen_lengths.1
    · exact absurd rfl hn
  · exact congrArg Prod.fst (h.trees hw)

theorem Met.al {s t : State} {site : Site} (h : Met s site t) (hn : site ≠ .alignLen) : t.lAl = s.lAl := by
  by_cases hw : WritesTrees site
  · rcases hw with rfl | rfl | rfl
    · exact absurd rfl hn
    · exact h.preLen_lengths.2
    · exact h.lenCode_lengths.1
  · exact congrArg (fun x => x.2.1) (h.trees hw)

theorem Met.pre {s t : State} {site : Site} (h : Met s site t) (hn : site ≠ .preLen) : t.lPre = s.lPre := by
  by_cases hw : WritesTrees site
  · rcases hw with rfl | rfl | rfl
    · exact h.alignLen_lengths.2
    · exact absurd rfl hn
    · exact h.lenCode_lengths.2
  · exact congrArg (fun x => x.2.2.1) (h.trees hw)

theorem Met.tables {s t : State} {site : Site} (h : Met s site t) (hn : ¬ WritesTrees site) (tr : Tree) : t.table tr = s.table tr :=
  congrArg (fun x => x.2.2.2 tr) (h.trees hn)

/-! ### The registers -/

theorem finishMatch_regs (offset length : Nat) (s : State) : (finishMatch offset length s).Leaves (fun u => u.regs = s.regs) := by
  unfold finishMatch
  split
  · rfl
  · exact Res.leaves_bind ((copyMatch_leaves offset length s).mono fun u hu => (congrArg State.regs hu :)) fun _ u _ hu => hu

theorem Res.finish_leaves {r : Res Unit} {P : State → Prop} (hl : r.Leaves P) (herr : ∀ u e, P u → P (u.takeError e)) {t : State}
    (h : r.finish = .next t) : P t := by
  rcases Res.finish_eq_next h with hr | ⟨e, u, hr, rfl⟩
  · exact hl.of_ok hr
  · exact herr u e (hl.of_raise hr)

theorem exec_lit_regs {b : Byte} {s t : State} (h : exec (.lit b) s = .next t) : t.regs = s.regs := by
  refine Res.finish_leaves (P := fun u => u.regs = s.regs) (Res.leaves_then (f := fun u => (u.consume 1).goto .blockLoop) ?_
    fun _ hu => hu) (fun _ _ hu => hu) h
  unfold putByte
  split
  · rfl
  · trivial

/-- A match of slot 0 writes no register (R235). -/
theorem startMatch_zero_regs {hdr : BitVec 3} {s t : State} (h : (startMatch 0 hdr s).finish = .next t) : t.regs = s.regs := by
  refine Res.finish_leaves (P := fun u => u.regs = s.regs) ?_ (fun _ _ hu => hu) h
  unfold startMatch
  split
  · rfl
  · exact finishMatch_regs _ _ s

theorem exec_lsym_zero_regs {l : Nat} {s t : State} (hslot : s.pend.slot = 0) (h : exec (.lsym l) s = .next t) :
    t.regs = s.regs := by
  refine Res.finish_leaves (r := matchOffset s.pend.slot (longLength l) s) (P := fun u => u.regs = s.regs) ?_ (fun _ _ hu => hu) h
  rw [hslot]
  exact finishMatch_regs _ _ s

/-- Settles O58: of the places that write the registers, a literal and a match of slot 0 do not. -/
theorem registerWriters : Obligations.RegisterWriters := by
  unfold Obligations.RegisterWriters
  intro i s t hx hne
  have hne : t.regs ≠ s.regs := hne
  cases hi : i.site with
  | none =>
    rcases instr_command hi with ⟨wb, ri, rfl⟩ | ⟨n, rfl⟩
    · exact .inr (.inr (.inr (.inr (.inr ⟨wb, ri, rfl⟩))))
    · cases execDecodeFrame_asked hx with
      | refused | started | inBlock => exact absurd rfl hne
      | startedReset hr hdue => exact .inr (.inr (.inr (.inr (.inl ⟨n, rfl, hdue⟩))))
  | some site =>
    have hsite : LoadsRegs site := by_contra fun hn => hne ((exec_met hi hx).regs hn)
    rcases hsite with rfl | rfl | rfl | rfl
    · rcases instr_mainSym hi with ⟨b, rfl⟩ | ⟨⟨slot, hdr⟩, hp⟩
      · exact absurd (exec_lit_regs hx) hne
      · refine .inl ⟨slot, hdr, hp, ?_⟩
        rintro rfl
        rw [exec_match hp] at hx
        exact hne (startMatch_zero_regs hx)
    · obtain ⟨l, rfl⟩ := instr_lenSym hi
      exact .inr (.inl ⟨l, rfl, fun hslot => hne (exec_lsym_zero_regs hslot hx)⟩)
    · exact .inr (.inr (.inl (instr_alSym hi)))
    · exact .inr (.inr (.inr (.inl (instr_uncWords hi))))

/-! ### The window, the lengths and the tables -/

theorem exec_srun_notDelta_trees {k : BitVec 1} {z2 : Nat} (hz : 16 < z2) {s t : State} (h : exec (.srun k z2) s = .next t) :
    t.trees = s.trees := by
  rw [exec_srun_notDelta hz] at h
  cases h
  rfl

/-- What writes a length list or, at its place, a table: a length code that has a run. -/
theorem lengthRun_of_trees {i : Instr} {s t : State} (hi : i.site = some .lenCode) (hx : exec i s = .next t) (hne : t.trees ≠ s.trees) :
    ∃ prev p, lengthRun i prev = some p := by
  rcases instr_lenCode hi with ⟨k, z2, rfl, hz⟩ | h
  · exact absurd (exec_srun_notDelta_trees hz hx) hne
  · exact h

/-- Settles O59: each kind of memory has its places in the stream, and each place its instructions. -/
theorem windowAndTableWriters : Obligations.WindowAndTableWriters := by
  unfold Obligations.WindowAndTableWriters
  intro i s t hx
  cases hi : i.site with
  | none =>
    rcases instr_command hi with ⟨wb, ri, rfl⟩ | ⟨n, rfl⟩
    · exact ⟨fun _ => .inr (.inr (.inr (.inr (.inr ⟨wb, ri, rfl⟩)))), fun _ => .inr (.inr ⟨wb, ri, rfl⟩), fun _ => .inr ⟨wb, ri, rfl⟩,
        fun _ => .inr ⟨wb, ri, rfl⟩, fun _ _ => .inr (.inr (.inr ⟨wb, ri, rfl⟩))⟩
    · cases execDecodeFrame_asked hx with
      | refused | started | inBlock => exact ⟨absurd rfl, absurd rfl, absurd rfl, absurd rfl, fun tr => absurd (by cases tr <;> rfl)⟩
      | startedReset hr hdue =>
        exact ⟨absurd rfl, fun _ => .inr (.inl ⟨n, rfl, hdue⟩), absurd rfl, absurd rfl, fun tr => absurd (by cases tr <;> rfl)⟩
  | some site =>
    have hmet := exec_met hi hx
    refine ⟨fun hne => ?_, fun hne => ?_, fun hne => ?_, fun hne => ?_, fun tr hne => ?_⟩
    · have hsite : PutsBytes site := by_contra fun hn => hne (hmet.window hn)
      rcases hsite with rfl | rfl | rfl | rfl
      · exact (instr_mainSym hi).elim .inl fun h => .inr (.inl h)
      · exact .inr (.inr (.inl (instr_lenSym hi)))
      · exact .inr (.inr (.inr (.inl (instr_alSym hi))))
      · exact .inr (.inr (.inr (.inr (.inl (instr_payload hi)))))
    · obtain rfl : site = .lenCode := by_contra fun hn => hne (hmet.lists hn)
      exact .inl (lengthRun_of_trees hi hx fun h => hne (congrArg Prod.fst h))
    · obtain rfl : site = .alignLen := by_contra fun hn => hne (hmet.al hn)
      exact .inl (instr_alignLen hi)
    · obtain rfl : site = .preLen := by_contra fun hn => hne (hmet.pre hn)
      exact .inl (instr_preLen hi)
    · have hsite : WritesTrees site := by_contra fun hn => hne (hmet.tables hn tr)
      rcases hsite with rfl | rfl | rfl
      · exact .inl (instr_alignLen hi)
      · exact .inr (.inl (instr_preLen hi))
      · exact .inr (.inr (.inl (lengthRun_of_trees hi hx fun h => hne (congrArg (fun x => x.2.2.2 tr) h))))

end Sys2Proof.Machine

end Writers

/-! ## Invariants of the place in the command (spec/10_state.md R46, spec/42_frame_blocks.md): counters, control, tables, frames -/

section PlaceInvariants

namespace Sys2Proof.Machine

/-! ### A step that leaves the decoder ready -/

/-- What a step inside a command does that leaves the decoder ready: it runs an element, or ends a frame that is not empty. -/
inductive Advanced (s t : State) : Prop where
  | element {site : Site} {u v : State} (hr : s.status = .ready) (hs : Sought s (.element site) u) (hf : ReadsOnly u v)
      (hm : Meant v site t)
  | frame {u : State} (m : Memory) (hr : s.status = .ready) (hs : Sought s .complete u) (hp : PullsOnly s u) (hn : u.produced ≠ 0)
      (ht : t = ({ u with out := m } : State).realign.endFrame u.produced)

theorem Ran.advanced {s t : State} (hc : s.ctl ≠ .idle) (h : Ran s t) (ht : t.status = .ready) : Advanced s t := by
  cases h with
  | element hs hf hi hx =>
    have hread := (fetchInstr_reads _ _).of_ok hf
    rcases exec_met hi hx with h | ⟨e, w, -, rfl⟩
    · refine .element ?_ (seek_ok hc hs) hread h
      rw [← ht, h.status, hread.1, (seek_leaves s).of_ok hs]
    · cases ht
  | complete hs hx =>
    obtain ⟨hp, ⟨m, rfl⟩ | ⟨e, rfl⟩⟩ := complete_cases hc hs hx
    · rename_i u
      have hstatus : (if u.produced = 0 then Status.done else u.status) = .ready := by
        rw [← ht]
        simp only [State.endFrame, State.realign_status]
      split at hstatus
      · cases hstatus
      · exact .frame m (by rw [← hstatus, hp.1]) (seek_ok hc hs) hp ‹_› rfl
    · cases ht
  | sought hs hx => rw [hx] at ht; cases ht
  | fetched hs hf hx => rw [hx] at ht; cases ht

/-! ### The counters -/

theorem State.FrameInv.of_ready {s : State} (h : s.status = .ready → s.FrameInv) : s.FrameInv where
  position hr := (h hr).position hr
  inWindow hr := (h hr).inWindow hr
  framePos hr := (h hr).framePos hr
  produced hr := (h hr).produced hr
  written hr := (h hr).written hr
  block hr := (h hr).block hr
  between hr := (h hr).between hr

theorem ReadsOnly.frameInv {s t : State} (h : ReadsOnly s t) (hf : s.FrameInv) : t.FrameInv := by
  obtain ⟨pos, eof, inp, nreal, replies, refused, result, rfl, -, -⟩ := h.exists_eq
  exact { hf with }

/-- A place in a command other than the idle one asks nothing of `between`. -/
theorem State.FrameInv.goto {s : State} (hf : s.FrameInv) {c : Ctl} (hc : c ≠ .idle) : (s.goto c).FrameInv :=
  { hf with between := fun _ h => absurd h hc }

theorem Sought.frameInv {s u : State} {site : Site} (h : Sought s (.element site) u) (hf : s.FrameInv) : u.FrameInv := by
  cases h with
  | block hc hp | blockPad hc hp => exact (hp.readsOnly.frameInv hf).goto nofun
  | blockSwitch hc hp => exact { (hp.readsOnly.frameInv hf).goto (c := .blockHeader) nofun with }
  | headerSwitch => exact { hf with }
  | _ => exact hf

/-- A block's remaining bytes stay within its length. -/
theorem remaining_le {rem len : Word24} (h : rem ≤ len) {n : Nat} (hn : n ≤ rem.toNat) : rem - BitVec.ofNat 24 n ≤ len := by
  have hrem := rem.isLt
  rw [BitVec.le_def] at h ⊢
  rw [BitVec.toNat_sub, BitVec.toNat_ofNat]
  omega

/-- `n` bytes put into the window and counted keep the relations. -/
theorem State.FrameInv.bytes {v t : State} (hf : v.FrameInv) {n : Nat} (hstatus : t.status = v.status)
    (hconf : t.winSize = v.winSize ∧ t.framePos = v.framePos ∧ t.outTotal = v.outTotal ∧ t.blockLength = v.blockLength)
    (hpos : t.windowPos = v.windowPos + n) (htotal : t.totalWritten = v.totalWritten + n) (hprod : t.produced = v.produced + n)
    (hrem : t.blockRemaining = v.blockRemaining - BitVec.ofNat 24 n) (hctl : t.ctl = .blockLoop)
    (hin : v.status = .ready → v.windowPos + n ≤ v.winSize ∧ n ≤ v.blockRemaining.toNat ∧ v.produced + n ≤ Config.frameSize) :
    t.FrameInv := by
  obtain ⟨hwin, hframe, hout, hlen⟩ := hconf
  refine .of_ready fun hr => ?_
  have hr : v.status = .ready := hstatus ▸ hr
  obtain ⟨hW, hB, hP⟩ := hin hr
  have h1 := hf.position hr
  have h2 := hf.written hr
  exact {
    position := fun _ => by rw [hpos, hframe, hprod]; omega
    inWindow := fun _ => by rw [hpos, hwin]; exact hW
    framePos := fun _ => by rw [hframe, hwin]; exact hf.framePos hr
    produced := fun _ => by rw [hprod]; exact hP
    written := fun _ => by rw [htotal, hout, hprod]; omega
    block := fun _ => by rw [hrem, hlen]; exact remaining_le (hf.block hr) hB
    between := fun _ h => by rw [hctl] at h; cases h }

theorem Matched.frameInv {v t : State} (h : Matched v t) (hf : v.FrameInv) : t.FrameInv := by
  cases h with
  | length p => exact { hf with between := fun _ h => nomatch h }
  | aligned p hr hb => exact { hr.frameInv hf with between := fun _ h => nomatch h }
  | copied offset length a b c w hr hc =>
    obtain ⟨-, -, -, hW, hB, hP⟩ := matchError_none hc
    exact (hr.frameInv hf).bytes rfl ⟨rfl, rfl, rfl, rfl⟩ rfl rfl rfl rfl rfl fun _ => ⟨hW, hB, hP⟩

theorem Meant.frameInv {v t : State} {site : Site} (h : Meant v site t) (hf : v.FrameInv)
    (hin : site = .mainSym ∨ site = .payload → v.produced < Config.frameSize ∧ v.blockRemaining ≠ 0) : t.FrameInv := by
  cases h with
  | e8Header m => exact { hf with between := fun _ h => nomatch h }
  | verbatim len | aligned len | uncompressed len =>
    exact { hf with block := fun _ => BitVec.le_refl len, between := fun _ h => nomatch h }
  | alignLen a => exact { hf with }
  | preLen p => exact { hf with }
  | run m l n => exact { hf with }
  | alignTree | preTree | mainLow | mainTree | lenTree | noPad | words => exact { hf with between := fun _ h => nomatch h }
  | lit b hw =>
    obtain ⟨hP, hB⟩ := hin (.inl rfl)
    have hB : v.blockRemaining.toNat ≠ 0 := fun h => hB (BitVec.eq_of_toNat_eq h)
    exact hf.bytes (n := 1) rfl ⟨rfl, rfl, rfl, rfl⟩ rfl rfl rfl rfl rfl fun _ => ⟨hw, by omega, hP⟩
  | mainSym h | lenSym h | alSym h => exact h.frameInv hf
  | pad hm hr hp => exact { hr.frameInv hf with between := fun _ h => nomatch h }
  | payload hr hp ht hw =>
    obtain ⟨hP, -⟩ := hin (.inr rfl)
    obtain ⟨pos, eof, inp, nreal, replies, refused, result, window, windowPos, totalWritten, rfl, -, -⟩ := hr.exists_eq
    refine hf.bytes rfl ⟨rfl, rfl, rfl, rfl⟩ hp ht rfl rfl rfl fun hready => ⟨hw (hf.inWindow hready), Nat.min_le_left .., ?_⟩
    have := Nat.min_le_right v.blockRemaining.toNat (Config.frameSize - v.produced)
    unfold State.payloadRun
    omega
  | padByte hm hr => exact { hr.frameInv hf with }
  | noPadByte hm => exact hf

theorem wrapAt_lt {w i : Nat} (hw : 0 < w) (h : i ≤ w) : wrapAt w i < w := by
  unfold wrapAt
  split <;> omega

/-- The end of a frame keeps the relations: both positions wrap together, and the next frame is empty. -/
theorem State.endFrame_frameInv {s : State} (hf : s.FrameInv) (hr : s.status = .ready) (p : Nat) (m : Memory) :
    (({ s with pos := p, out := m } : State).endFrame s.produced).FrameInv := by
  have hpos := hf.position hr
  have hW : 0 < s.winSize := Nat.two_pow_pos _
  exact {
    position := fun _ => by
      show wrapAt s.winSize s.windowPos = wrapAt s.winSize (s.framePos + s.produced) + 0
      rw [hpos, Nat.add_zero]
    inWindow := fun _ => wrapAt_le (hf.inWindow hr)
    framePos := fun _ => wrapAt_lt hW (hpos ▸ hf.inWindow hr)
    produced := fun _ => Nat.zero_le _
    written := fun _ => hf.written hr
    block := fun _ => hf.block hr
    between := fun _ _ => ⟨rfl, wrapAt_lt hW (hf.inWindow hr)⟩ }

theorem State.endFrame_realign (u : State) (m : Memory) (n : Nat) :
    ({ u with out := m } : State).realign.endFrame n = ({ u with pos := u.realign.pos, out := m } : State).endFrame n := by
  rw [State.realign_only]
  have hpos : ({ u with out := m } : State).realign.pos = u.realign.pos := by simp only [State.realign_eq]
  rw [hpos]

theorem State.fresh_frameInv (wb ri : Nat) : (State.fresh wb ri).FrameInv where
  position _ := rfl
  inWindow _ := Nat.zero_le _
  framePos _ := Nat.two_pow_pos _
  produced _ := Nat.zero_le _
  written _ := rfl
  block _ := BitVec.le_refl _
  between _ _ := ⟨rfl, Nat.two_pow_pos _⟩

/-- The start of a frame: no byte of it is produced, as none was between the commands. -/
theorem State.FrameInv.start {s : State} (hf : s.FrameInv) (hr : s.status = .ready) (hc : s.ctl = .idle) (cs : List HostCmd) :
    ({ s with cmds := cs, produced := 0 } : State).FrameInv := by
  obtain ⟨hp, hw⟩ := hf.between hr hc
  exact { hf with
    position := fun _ => by rw [hf.position hr, hp]
    produced := fun _ => Nat.zero_le _
    written := fun _ => by rw [hf.written hr, hp]
    between := fun _ _ => ⟨rfl, hw⟩ }

theorem Commanded.frameInv {s t : State} (hc : s.ctl = .idle) (h : Commanded s t) (hf : s.FrameInv) : t.FrameInv := by
  cases h with
  | nothing => exact hf
  | constructed wb ri => exact { State.fresh_frameInv wb ri with }
  | destroyed => exact { State.fresh_frameInv Config.resetWindowBits Config.resetInterval with }
  | outOfRange | refused => exact { hf with }
  | asked cs h =>
    cases h with
    | refused => exact { hf with }
    | started hr => exact { hf.start hr hc cs with between := fun _ _ => (hf.start hr hc cs).between hr hc }
    | startedReset hr => exact { hf.start hr hc cs with between := fun _ _ => (hf.start hr hc cs).between hr hc }
    | inBlock => exact .of_ready nofun

theorem Sought.counts {s u : State} {site : Site} (h : Sought s (.element site) u) (hsite : site = .mainSym ∨ site = .payload) :
    u.produced < Config.frameSize ∧ u.blockRemaining ≠ 0 := by
  cases h with
  | payload hc hf hb | mainSym hc hf hb => exact ⟨hf, hb⟩
  | _ => exact absurd hsite (by decide)

/-- Settles O48: an element puts as many bytes as it counts, and the end of a frame wraps both positions. -/
theorem stepKeepsFrame : Obligations.StepKeepsFrame := by
  unfold Obligations.StepKeepsFrame
  intro s t hf hs
  by_cases hc : s.ctl = .idle
  · exact (step_commanded hc hs).frameInv hc hf
  refine .of_ready fun ht => ?_
  cases (step_ran hc hs).advanced hc ht with
  | element hr hsought hread hm =>
    refine hm.frameInv (hread.frameInv (hsought.frameInv hf)) fun hsite => ?_
    rw [hread.1]
    exact hsought.counts hsite
  | frame m hr hsought hp hn ht =>
    rw [ht, State.endFrame_realign]
    exact State.endFrame_frameInv (hp.readsOnly.frameInv hf) (by rw [hp.1]; exact hr) _ m

end Sys2Proof.Machine

end PlaceInvariants

/-! ## The place in the command (spec/10_state.md R46): the header mark, the mode and the block, and the tables read there -/

section ControlInvariants

namespace Sys2Proof.Machine

/-! ### The control invariant, place by place -/

theorem State.ControlInv.of_ready {s : State} (h : s.status = .ready → s.ControlInv) : s.ControlInv where
  aligned hr := (h hr).aligned hr
  header hr := (h hr).header hr
  inHeader hr := (h hr).inHeader hr
  noHeader hr := (h hr).noHeader hr
  inBlock hr := (h hr).inBlock hr
  inTrees hr := (h hr).inTrees hr
  inMatch hr := (h hr).inMatch hr
  atAligned hr := (h hr).atAligned hr
  atPad hr := (h hr).atPad hr
  atWords hr := (h hr).atWords hr

/-- The mode is that of the block's type. -/
def State.modeFits (s : State) : Prop := s.blockType ≠ .noBlock ∧ (s.mode = .bytestream ↔ s.blockType = .uncompressed)

/-- The decoder stands in a block of symbols. -/
def State.inSymbols (s : State) : Prop := s.mode = .bitstream ∧ (s.blockType = .verbatim ∨ s.blockType = .aligned)

theorem State.inSymbols.modeFits {s : State} (h : s.inSymbols) : s.modeFits := by
  obtain ⟨hm, ht | ht⟩ := h <;> simp [State.modeFits, hm, ht]

theorem controlInv_blockLoop {s : State} (hc : s.ctl = .blockLoop) (hh : s.headerRead = true)
    (hb : s.blockRemaining ≠ 0 → s.modeFits) : s.ControlInv := by
  constructor <;> simp [hc, hh]
  exact fun _ h => hb h

theorem controlInv_e8Header {s : State} (hc : s.ctl = .e8Header) (hb : s.blockRemaining = 0) : s.ControlInv := by
  constructor <;> simp [hc, hb]

theorem controlInv_blockHeader {s : State} (hc : s.ctl = .blockHeader) (hh : s.headerRead = true) (hb : s.blockRemaining = 0) :
    s.ControlInv := by
  constructor <;> simp [hc, hh, hb]

theorem controlInv_trees {s : State} (hc : s.ctl = .alignLens ∨ s.ctl = .preLens ∨ s.ctl = .lenCodes) (hh : s.headerRead = true)
    (hs : s.inSymbols) : s.ControlInv := by
  rcases hc with hc | hc | hc <;> constructor <;> simp [hc, hh] <;> exact fun _ => hs

theorem controlInv_match {s : State} (hc : s.ctl = .lenSym ∨ s.ctl = .alSym ∧ s.blockType = .aligned) (hh : s.headerRead = true)
    (hs : s.inSymbols) : s.ControlInv := by
  rcases hc with hc | ⟨hc, ht⟩
  · constructor <;> simp [hc, hh]
    exact fun _ => hs
  · constructor <;> simp [hc, hh, ht]
    exact fun _ => hs.1

theorem controlInv_uncPad {s : State} (hc : s.ctl = .uncPad) (hh : s.headerRead = true) (hm : s.mode = .bitstream)
    (ht : s.blockType = .uncompressed) : s.ControlInv := by
  constructor <;> simp [hc, hh, hm, ht]

theorem controlInv_uncWords {s : State} (hc : s.ctl = .uncWords) (hh : s.headerRead = true) (hm : s.mode = .bytestream)
    (ht : s.blockType = .uncompressed) : s.ControlInv := by
  constructor <;> simp [hc, hh, hm, ht]

/-! ### What holds where an element is read -/

/-- What the control invariant says of the state an element's fields are read in, by the element's place. -/
def State.holdsAt (s : State) : Site → Prop
  | .e8Header => s.mode = .bitstream ∧ s.blockRemaining = 0
  | .blockHeader => s.mode = .bitstream ∧ s.headerRead = true
  | .alignLen => s.ctl = .alignLens ∧ s.headerRead = true ∧ s.inSymbols
  | .preLen => s.ctl = .preLens ∧ s.headerRead = true ∧ s.inSymbols
  | .lenCode => s.ctl = .lenCodes ∧ s.headerRead = true ∧ s.inSymbols
  | .mainSym => (s.ctl = .blockLoop ∧ s.blockRemaining ≠ 0) ∧ s.headerRead = true ∧ s.inSymbols
  | .lenSym => s.ctl = .lenSym ∧ s.headerRead = true ∧ s.inSymbols
  | .alSym => s.ctl = .alSym ∧ s.headerRead = true ∧ s.inSymbols
  | .uncPad => s.headerRead = true ∧ s.mode = .bitstream ∧ s.blockType = .uncompressed
  | .uncWords => s.headerRead = true ∧ s.mode = .bytestream ∧ s.blockType = .uncompressed
  | .payload => s.headerRead = true ∧ s.mode = .bytestream ∧ s.blockType = .uncompressed
  | .padByte => s.mode = .bytestream ∧ s.blockRemaining = 0 ∧
      (s.ctl = .e8Header ∨ s.ctl = .blockHeader ∧ s.headerRead = true)

theorem State.ControlInv.headerDue {s : State} (h : s.ControlInv) (hr : s.status = .ready) (hd : s.headerDue) :
    s.headerRead = true ∧ s.blockRemaining = 0 := by
  rcases hd with ⟨hc, hb, -⟩ | hc
  · exact ⟨h.inHeader hr (by simp [hc]) (by simp [hc]), hb⟩
  · exact ⟨h.inHeader hr (by simp [hc]) (by simp [hc]), h.noHeader hr (.inr (.inr hc))⟩

theorem Sought.holdsAt {s u : State} {site : Site} (h : Sought s (.element site) u) (hinv : s.ControlInv) (hr : s.status = .ready) :
    u.holdsAt site := by
  have header (hi : s.ctl ≠ .idle) (he : s.ctl ≠ .e8Header) : s.headerRead = true := hinv.inHeader hr hi he
  cases h with
  | header hc hm => exact ⟨hm, hinv.noHeader hr (.inr (.inl hc))⟩
  | headerSwitch hc hm hq => exact ⟨rfl, hinv.noHeader hr (.inr (.inl hc))⟩
  | headerPad hc hm hq => exact ⟨hm, hinv.noHeader hr (.inr (.inl hc)), .inl hc⟩
  | block hc hp hm => exact ⟨hm, by rw [hp.1]; exact (hinv.headerDue hr hc).1⟩
  | blockSwitch hc hp hm hq => exact ⟨rfl, by rw [hp.1]; exact (hinv.headerDue hr hc).1⟩
  | blockPad hc hp hm hq =>
    obtain ⟨hh, hb⟩ := hinv.headerDue hr hc
    exact ⟨hm, by rw [hp.1]; exact hb, .inr ⟨rfl, by rw [hp.1]; exact hh⟩⟩
  | payload hc hf hb ht =>
    obtain ⟨-, hmode⟩ := hinv.inBlock hr hb (.inr hc)
    exact ⟨header (by simp [hc]) (by simp [hc]), hmode.mpr ht, ht⟩
  | mainSym hc hf hb ht =>
    obtain ⟨hblock, hmode⟩ := hinv.inBlock hr hb (.inr hc)
    refine ⟨⟨hc, hb⟩, header (by simp [hc]) (by simp [hc]), ?_⟩
    unfold State.inSymbols
    cases hbt : s.blockType with
    | noBlock => exact absurd hbt hblock
    | uncompressed => exact absurd hbt ht
    | verbatim | aligned =>
      cases hm : s.mode with
      | bitstream => simp
      | bytestream => rw [hmode.mp hm] at hbt; cases hbt
  | alignLen hc => exact ⟨hc, header (by simp [hc]) (by simp [hc]), hinv.inTrees hr (.inl hc)⟩
  | preLen hc => exact ⟨hc, header (by simp [hc]) (by simp [hc]), hinv.inTrees hr (.inr (.inl hc))⟩
  | lenCode hc => exact ⟨hc, header (by simp [hc]) (by simp [hc]), hinv.inTrees hr (.inr (.inr hc))⟩
  | lenSym hc => exact ⟨hc, header (by simp [hc]) (by simp [hc]), hinv.inMatch hr (.inl hc)⟩
  | alSym hc => exact ⟨hc, header (by simp [hc]) (by simp [hc]), hinv.inMatch hr (.inr hc)⟩
  | uncPad hc => exact ⟨header (by simp [hc]) (by simp [hc]), hinv.atPad hr hc⟩
  | uncWords hc => exact ⟨header (by simp [hc]) (by simp [hc]), hinv.atWords hr hc⟩

theorem ReadsOnly.holdsAt {s t : State} (h : ReadsOnly s t) {site : Site} (hs : s.holdsAt site) : t.holdsAt site := by
  obtain ⟨pos, eof, inp, nreal, replies, refused, result, rfl, -, -⟩ := h.exists_eq
  cases site <;> exact hs

/-! ### What an element leaves of it -/

theorem Matched.controlInv {v t : State} (h : Matched v t) (hh : v.headerRead = true) (hs : v.inSymbols) : t.ControlInv := by
  cases h with
  | length p => exact controlInv_match (.inl rfl) hh hs
  | aligned p hr hb =>
    obtain ⟨pos, eof, inp, nreal, replies, refused, result, rfl, -, -⟩ := hr.exists_eq
    exact controlInv_match (.inr ⟨rfl, hb⟩) hh hs
  | copied offset length a b c w hr =>
    obtain ⟨pos, eof, inp, nreal, replies, refused, result, rfl, -, -⟩ := hr.exists_eq
    exact controlInv_blockLoop rfl hh fun _ => hs.modeFits

theorem Meant.controlInv {v t : State} {site : Site} (h : Meant v site t) (hs : v.holdsAt site) : t.ControlInv := by
  cases h with
  | e8Header m => exact controlInv_blockLoop rfl rfl fun hb => absurd hs.2 hb
  | verbatim len => exact controlInv_trees (.inr (.inl rfl)) hs.2 ⟨hs.1, .inl rfl⟩
  | aligned len => exact controlInv_trees (.inl rfl) hs.2 ⟨hs.1, .inr rfl⟩
  | uncompressed len => exact controlInv_uncPad rfl hs.2 hs.1 rfl
  | alignLen a =>
    obtain ⟨hc, hh, hsym⟩ := hs
    exact controlInv_trees (.inl hc) hh hsym
  | preLen p =>
    obtain ⟨hc, hh, hsym⟩ := hs
    exact controlInv_trees (.inr (.inl hc)) hh hsym
  | run m l n =>
    obtain ⟨hc, hh, hsym⟩ := hs
    exact controlInv_trees (.inr (.inr hc)) hh hsym
  | alignTree | mainLow | mainTree =>
    obtain ⟨hc, hh, hsym⟩ := hs
    exact controlInv_trees (.inr (.inl rfl)) hh hsym
  | preTree =>
    obtain ⟨hc, hh, hsym⟩ := hs
    exact controlInv_trees (.inr (.inr rfl)) hh hsym
  | lenTree =>
    obtain ⟨hc, hh, hsym⟩ := hs
    exact controlInv_blockLoop rfl hh fun _ => hsym.modeFits
  | lit b hw =>
    obtain ⟨-, hh, hsym⟩ := hs
    exact controlInv_blockLoop rfl hh fun _ => hsym.modeFits
  | mainSym h | lenSym h | alSym h =>
    obtain ⟨-, hh, hsym⟩ := hs
    exact h.controlInv hh hsym
  | pad hm hr hp =>
    obtain ⟨hh, -, ht⟩ := hr.holdsAt (site := .uncPad) hs
    exact controlInv_uncWords rfl hh rfl ht
  | noPad hm =>
    obtain ⟨hh, -, ht⟩ := hs
    exact controlInv_uncWords rfl hh hm ht
  | words =>
    obtain ⟨hh, hm, ht⟩ := hs
    exact controlInv_blockLoop rfl hh fun _ => by simp [State.modeFits, State.loadR, State.goto, hm, ht]
  | payload hr =>
    obtain ⟨hh, hm, ht⟩ := hs
    obtain ⟨pos, eof, inp, nreal, replies, refused, result, window, windowPos, totalWritten, rfl, -, -⟩ := hr.exists_eq
    exact controlInv_blockLoop rfl hh fun _ => by simp [State.modeFits, State.consume, State.goto, hm, ht]
  | padByte hm hr =>
    obtain ⟨-, hb, hc | ⟨hc, hh⟩⟩ := hr.holdsAt (site := .padByte) hs
    · exact controlInv_e8Header hc hb
    · exact controlInv_blockHeader hc hh hb
  | noPadByte hm =>
    obtain ⟨-, hb, hc | ⟨hc, hh⟩⟩ := hs
    · exact controlInv_e8Header hc hb
    · exact controlInv_blockHeader hc hh hb

/-- A frame completes at the head of the block loop only. -/
theorem Sought.complete_ctl {s u : State} (h : Sought s .complete u) : s.ctl = .blockLoop := by
  cases h with
  | full hc | ended hc => exact hc

/-- The end of a frame, the reader realigned (R206): what holds at the block loop's head holds between commands. -/
theorem State.endFrame_controlInv {s : State} (h : s.ControlInv) (hr : s.status = .ready) (hc : s.ctl = .blockLoop) (m : Memory)
    (n : Nat) : (({ s with pos := s.realign.pos, out := m } : State).endFrame n).ControlInv := by
  have hh : s.headerRead = true := h.inHeader hr (by simp [hc]) (by simp [hc])
  constructor <;> simp [State.endFrame, hh]
  · intro _ hm
    rw [State.realign_pos_bitstream hm]
    omega
  · exact fun _ hb => h.inBlock hr hb (.inr hc)

theorem State.fresh_controlInv (wb ri : Nat) : (State.fresh wb ri).ControlInv := by
  constructor <;> simp [State.fresh]

/-- The start of a frame goes to the E8 header, where none has been read, or to the block loop. -/
theorem State.afterReset_controlInv {s : State} (hb : s.headerRead = false → s.blockRemaining = 0)
    (hblock : s.headerRead = true → s.blockRemaining ≠ 0 → s.modeFits) : s.afterReset.ControlInv := by
  unfold State.afterReset
  cases hh : s.headerRead with
  | false => exact controlInv_e8Header rfl (hb hh)
  | true => exact controlInv_blockLoop rfl hh (hblock hh)

theorem Commanded.controlInv {s t : State} (hc : s.ctl = .idle) (h : Commanded s t) (hinv : s.ControlInv) : t.ControlInv := by
  cases h with
  | nothing => exact hinv
  | constructed wb ri => exact { State.fresh_controlInv wb ri with }
  | destroyed => exact { State.fresh_controlInv Config.resetWindowBits Config.resetInterval with }
  | outOfRange | refused => exact { hinv with }
  | asked cs h =>
    cases h with
    | refused => exact { hinv with }
    | started hr =>
      exact State.afterReset_controlInv (fun hh => hinv.noHeader hr (.inl hh)) fun _ hb => hinv.inBlock hr hb (.inl hc)
    | startedReset hr hdue hb => exact State.afterReset_controlInv (fun _ => hb) nofun
    | inBlock => exact .of_ready nofun

/-- Settles O50: what holds at an element's place, and where the element's meaning then goes. -/
theorem stepKeepsControl : Obligations.StepKeepsControl := by
  unfold Obligations.StepKeepsControl
  intro s t hinv hs
  by_cases hc : s.ctl = .idle
  · exact (step_commanded hc hs).controlInv hc hinv
  refine .of_ready fun ht => ?_
  cases (step_ran hc hs).advanced hc ht with
  | element hr hsought hread hm => exact hm.controlInv (hread.holdsAt (hsought.holdsAt hinv hr))
  | frame m hr hsought hp hn ht =>
    rw [ht, State.endFrame_realign]
    obtain ⟨eof, inp, nreal, replies, refused, result, rfl⟩ := hp.exists_eq
    have hu : ({ s with eof := eof, inp := inp, nreal := nreal, replies := replies, refused := refused, result := result } :
      State).ControlInv := { hinv with }
    exact State.endFrame_controlInv hu hr hsought.complete_ctl m _

/-! ### The tables read at a place -/

theorem State.BuiltInv.of_ready {s : State} (h : s.status = .ready → s.BuiltInv) : s.BuiltInv where
  pre hr := (h hr).pre hr
  mainRead hr := (h hr).mainRead hr
  elements hr := (h hr).elements hr
  aligned hr := (h hr).aligned hr

/-- Where no table is read, nothing is asked. -/
theorem builtInv_elsewhere {s : State}
    (hc : s.ctl = .e8Header ∨ s.ctl = .blockHeader ∨ s.ctl = .alignLens ∨ s.ctl = .uncPad ∨ s.ctl = .uncWords) : s.BuiltInv := by
  rcases hc with hc | hc | hc | hc | hc <;> constructor <;> simp [hc, State.inElements]

theorem builtInv_trees {s : State} (hc : s.ctl = .preLens ∨ s.ctl = .lenCodes) (hpre : s.ctl = .lenCodes → s.tPre ≠ .notBuilt)
    (hmain : s.lenList = .length → s.tMain ≠ .notBuilt) (hal : s.blockType = .aligned → s.tAl ≠ .notBuilt) : s.BuiltInv where
  pre _ := hpre
  mainRead _ _ := hmain
  elements _ h := by rcases hc with hc | hc <;> simp [State.inElements, hc] at h
  aligned _ h _ := hal h

/-- The tables that the elements of a block of symbols are read with. -/
def State.symbolTables (s : State) : Prop :=
  s.tMain ≠ .notBuilt ∧ s.tLen ≠ .notBuilt ∧ (s.blockType = .aligned → s.tAl ≠ .notBuilt)

theorem builtInv_elements {s : State} (hc : s.ctl = .idle ∨ s.ctl = .blockLoop ∨ s.ctl = .lenSym ∨ s.ctl = .alSym)
    (h : s.inElements → s.symbolTables) : s.BuiltInv where
  pre _ h := by rcases hc with hc | hc | hc | hc <;> simp [hc] at h
  mainRead _ h := by rcases hc with hc | hc | hc | hc <;> simp [hc] at h
  elements _ he := ⟨(h he).1, (h he).2.1⟩
  aligned _ ha he := by
    rcases he with he | he | he
    · exact (h he).2.2 ha
    · rcases hc with hc | hc | hc | hc <;> simp [hc] at he
    · rcases hc with hc | hc | hc | hc <;> simp [hc] at he

theorem State.BuiltInv.symbolTables {s : State} (h : s.BuiltInv) (hr : s.status = .ready) (he : s.inElements) : s.symbolTables := by
  obtain ⟨hmain, hlen⟩ := h.elements hr he
  exact ⟨hmain, hlen, fun ha => h.aligned hr ha (.inl he)⟩

theorem ReadsOnly.builtInv {s t : State} (h : ReadsOnly s t) (hb : s.BuiltInv) : t.BuiltInv := by
  obtain ⟨pos, eof, inp, nreal, replies, refused, result, rfl, -, -⟩ := h.exists_eq
  exact { hb with }

theorem Sought.builtInv {s u : State} {site : Site} (h : Sought s (.element site) u) (hb : s.BuiltInv) : u.BuiltInv := by
  cases h with
  | block | blockSwitch | blockPad => exact builtInv_elsewhere (.inr (.inl rfl))
  | headerSwitch hc => exact builtInv_elsewhere (.inl hc)
  | _ => exact hb

theorem Sought.status {s u : State} {a : Action} (h : Sought s a u) : u.status = s.status := by
  cases h with
  | ended hc hf hb hp | block hc hp | blockSwitch hc hp | blockPad hc hp => exact (congrArg State.status hp.1 :)
  | _ => rfl

theorem State.inSymbols.type_ne {s : State} (h : s.inSymbols) : s.blockType ≠ .uncompressed := by
  rintro ht
  obtain ⟨-, h | h⟩ := h <;> rw [ht] at h <;> cases h

theorem Matched.builtInv {v t : State} (h : Matched v t) (hs : v.symbolTables) : t.BuiltInv := by
  cases h with
  | length p => exact builtInv_elements (.inr (.inr (.inl rfl))) fun _ => hs
  | aligned p hr =>
    obtain ⟨pos, eof, inp, nreal, replies, refused, result, rfl, -, -⟩ := hr.exists_eq
    exact builtInv_elements (.inr (.inr (.inr rfl))) fun _ => hs
  | copied offset length a b c w hr =>
    obtain ⟨pos, eof, inp, nreal, replies, refused, result, rfl, -, -⟩ := hr.exists_eq
    exact builtInv_elements (.inr (.inl rfl)) fun _ => hs

/-- At the block loop's head, elements of symbols follow only where bytes of such a block remain. -/
theorem not_inElements {s : State} (hc : s.ctl = .blockLoop) (h : s.blockRemaining = 0 ∨ s.blockType = .uncompressed) :
    ¬ s.inElements := by
  rcases h with h | h <;> simp [State.inElements, hc, h]

theorem Meant.builtInv {v t : State} {site : Site} (h : Meant v site t) (hr : v.status = .ready) (hs : v.holdsAt site)
    (hb : v.BuiltInv) : t.BuiltInv := by
  cases h with
  | e8Header m => exact builtInv_elements (.inr (.inl rfl)) fun he => absurd he (not_inElements rfl (.inl hs.2))
  | verbatim len => exact builtInv_trees (.inl rfl) nofun nofun nofun
  | aligned | uncompressed | noPad => exact builtInv_elsewhere (by simp [State.goto])
  | pad hm hr hp => exact builtInv_elsewhere (by simp [State.goto])
  | alignLen a => exact builtInv_elsewhere (.inr (.inr (.inl hs.1)))
  | alignTree a tab htab => exact builtInv_trees (.inl rfl) nofun nofun fun _ => htab
  | preLen p =>
    have hc : v.ctl = .preLens := hs.1
    exact builtInv_trees (.inl hc) (fun h => hb.pre hr h) (hb.mainRead hr (.inl hc))
      fun ha => hb.aligned hr ha (.inr (.inl hc))
  | preTree p tab htab =>
    have hc : v.ctl = .preLens := hs.1
    exact builtInv_trees (.inr rfl) (fun _ => htab) (hb.mainRead hr (.inl hc)) fun ha => hb.aligned hr ha (.inr (.inl hc))
  | run m l n =>
    have hc : v.ctl = .lenCodes := hs.1
    exact builtInv_trees (.inr hc) (fun h => hb.pre hr h) (hb.mainRead hr (.inr hc))
      fun ha => hb.aligned hr ha (.inr (.inr hc))
  | mainLow m l n =>
    have hc : v.ctl = .lenCodes := hs.1
    exact builtInv_trees (.inl rfl) nofun nofun fun ha => hb.aligned hr ha (.inr (.inr hc))
  | mainTree m l n tab hl htab =>
    have hc : v.ctl = .lenCodes := hs.1
    exact builtInv_trees (.inl rfl) nofun (fun _ => htab) fun ha => hb.aligned hr ha (.inr (.inr hc))
  | lenTree m l n tab hl htab =>
    have hc : v.ctl = .lenCodes := hs.1
    exact builtInv_elements (.inr (.inl rfl))
      fun _ => ⟨hb.mainRead hr (.inr hc) hl, htab, fun ha => hb.aligned hr ha (.inr (.inr hc))⟩
  | lit b hw =>
    obtain ⟨⟨hc, hrem⟩, -, hsym⟩ := hs
    exact builtInv_elements (.inr (.inl rfl))
      fun _ => hb.symbolTables hr (.inr (.inr ⟨.inr hc, hrem, hsym.type_ne⟩))
  | mainSym h =>
    obtain ⟨⟨hc, hrem⟩, -, hsym⟩ := hs
    exact h.builtInv (hb.symbolTables hr (.inr (.inr ⟨.inr hc, hrem, hsym.type_ne⟩)))
  | lenSym h => exact h.builtInv (hb.symbolTables hr (.inl hs.1))
  | alSym h => exact h.builtInv (hb.symbolTables hr (.inr (.inl hs.1)))
  | words => exact builtInv_elements (.inr (.inl rfl)) fun he => absurd he (not_inElements rfl (.inr hs.2.2))
  | payload hr =>
    obtain ⟨-, -, ht⟩ := hs
    obtain ⟨pos, eof, inp, nreal, replies, refused, result, window, windowPos, totalWritten, rfl, -, -⟩ := hr.exists_eq
    exact builtInv_elements (.inr (.inl rfl)) fun he => absurd he (not_inElements rfl (.inr ht))
  | padByte hm hr =>
    obtain ⟨-, -, hc | ⟨hc, -⟩⟩ := hr.holdsAt (site := .padByte) hs
    · exact builtInv_elsewhere (.inl hc)
    · exact builtInv_elsewhere (.inr (.inl hc))
  | noPadByte => exact hb

theorem State.fresh_builtInv (wb ri : Nat) : (State.fresh wb ri).BuiltInv := by
  constructor <;> simp [State.fresh, State.inElements]

theorem State.afterReset_builtInv {s : State} (h : s.headerRead = true → s.blockRemaining ≠ 0 → s.blockType ≠ .uncompressed →
    s.symbolTables) : s.afterReset.BuiltInv := by
  unfold State.afterReset
  cases hh : s.headerRead with
  | false => exact builtInv_elsewhere (.inl rfl)
  | true =>
    refine builtInv_elements (.inr (.inl rfl)) fun he => ?_
    obtain ⟨hb, ht⟩ : s.blockRemaining ≠ 0 ∧ s.blockType ≠ .uncompressed := by simpa [State.inElements, State.goto] using he
    exact h hh hb ht

theorem Commanded.builtInv {s t : State} (hc : s.ctl = .idle) (h : Commanded s t) (hb : s.BuiltInv) : t.BuiltInv := by
  cases h with
  | nothing => exact hb
  | constructed wb ri => exact { State.fresh_builtInv wb ri with }
  | destroyed => exact { State.fresh_builtInv Config.resetWindowBits Config.resetInterval with }
  | outOfRange | refused => exact { hb with }
  | asked cs h =>
    cases h with
    | refused => exact { hb with }
    | started hr =>
      exact State.afterReset_builtInv fun _ hrem ht => hb.symbolTables hr (.inr (.inr ⟨.inl hc, hrem, ht⟩))
    | startedReset => exact State.afterReset_builtInv nofun
    | inBlock => exact .of_ready nofun

/-- The end of a frame inside a block of symbols keeps its tables for the next frame. -/
theorem State.endFrame_builtInv {s : State} (h : s.BuiltInv) (hr : s.status = .ready) (hc : s.ctl = .blockLoop) (m : Memory)
    (n : Nat) : (({ s with pos := s.realign.pos, out := m } : State).endFrame n).BuiltInv := by
  refine builtInv_elements (.inl rfl) fun he => h.symbolTables hr (.inr (.inr ?_))
  obtain ⟨hb, ht⟩ : s.blockRemaining ≠ 0 ∧ s.blockType ≠ .uncompressed := by simpa [State.inElements, State.endFrame] using he
  exact ⟨.inr hc, hb, ht⟩

/-- Settles O51: a table is built where the list before its first reader ends, and stays built. -/
theorem stepKeepsBuilt : Obligations.StepKeepsBuilt := by
  unfold Obligations.StepKeepsBuilt
  intro s t hctl hb hs
  by_cases hc : s.ctl = .idle
  · exact (step_commanded hc hs).builtInv hc hb
  refine .of_ready fun ht => ?_
  cases (step_ran hc hs).advanced hc ht with
  | element hr hsought hread hm =>
    refine hm.builtInv ?_ (hread.holdsAt (hsought.holdsAt hctl hr)) (hread.builtInv (hsought.builtInv hb))
    rw [hread.1]
    exact hsought.status.trans hr
  | frame m hr hsought hp hn ht =>
    rw [ht, State.endFrame_realign]
    exact State.endFrame_builtInv (hp.readsOnly.builtInv hb) (hsought.status.trans hr)
      ((congrArg State.ctl hp.1).trans hsought.complete_ctl) m _

end Sys2Proof.Machine

end ControlInvariants

/-! ## Frames begin at multiples of 32768 (spec/42_frame_blocks.md R209, spec/43_symbols_matches.md R230) -/

section Placed

namespace Sys2Proof.Machine

/-! ### The end of the input -/

/-- The next block boundary is the first unit boundary at or after the reader's position, in either mode (R148). -/
theorem State.boundaryByte_eq (s : State) : s.boundaryByte = 2 * ((s.bitPos + 15) / 16) := by
  cases hm : s.mode with
  | bitstream =>
    rw [State.bitPos_bitstream hm]
    simp only [State.boundaryByte, hm]
  | bytestream =>
    rw [State.bitPos_bytestream hm]
    simp only [State.boundaryByte, hm]
    omega

/-- Where the input has ended at a boundary, it stays ended as the reader moves on. -/
theorem State.ended.mono {s t : State} (h : s.ended) (hpos : s.bitPos ≤ t.bitPos) (hrec : ReceivesOnly s t) : t.ended := by
  obtain ⟨heof, hn⟩ := h
  obtain ⟨heof', hn'⟩ := hrec.eof heof
  refine ⟨heof', ?_⟩
  rw [hn']
  rw [State.boundaryByte_eq] at hn ⊢
  omega

/-! ### What an element leaves of the frame -/

theorem Meant.framePos {s t : State} {site : Site} (h : Meant s site t) : t.framePos = s.framePos := by
  cases h with
  | mainSym h | lenSym h | alSym h =>
    cases h with
    | length => rfl
    | aligned p hr hb => exact (congrArg State.framePos hr.1 :)
    | copied offset length a b c w hr => exact (congrArg State.framePos hr.1 :)
  | pad hm hr hp => exact (congrArg State.framePos hr.1 :)
  | payload hr => exact (congrArg State.framePos hr.1 :)
  | padByte hm hr => exact (congrArg State.framePos hr.1 :)
  | _ => rfl

theorem Sought.framePos {s u : State} {a : Action} (h : Sought s a u) : u.framePos = s.framePos := by
  cases h with
  | ended hc hf hb hp | block hc hp | blockSwitch hc hp | blockPad hc hp => exact (congrArg State.framePos hp.1 :)
  | _ => rfl

/-- The input has ended, the frame is empty, and no element but those of the E8 header follows. -/
def State.drained (s : State) : Prop :=
  s.ended ∧ s.produced = 0 ∧ s.blockRemaining = 0 ∧ (s.ctl = .idle ∨ s.ctl = .e8Header ∨ s.ctl = .blockLoop)

/-- With the input ended, only the E8 header or a pad byte before it is sought. -/
theorem Sought.drained {s u : State} {site : Site} (h : Sought s (.element site) u) (hd : s.drained) :
    (site = .e8Header ∨ site = .padByte) ∧ u.produced = 0 ∧ u.blockRemaining = 0 ∧ u.ctl = .e8Header := by
  obtain ⟨hend, hp, hb, hc⟩ := hd
  have no (c : Ctl) (h : s.ctl = c) (hne : c ≠ .idle ∧ c ≠ .e8Header ∧ c ≠ .blockLoop) : False := by
    rw [h] at hc
    obtain ⟨h1, h2, h3⟩ := hne
    exact hc.elim h1 (·.elim h2 h3)
  have due (h : s.headerDue) : False := h.elim (fun h => h.2.2.2 hend) fun h => no _ h (by decide)
  cases h with
  | header hc | headerSwitch hc => exact ⟨.inl rfl, hp, hb, hc⟩
  | headerPad hc => exact ⟨.inr rfl, hp, hb, hc⟩
  | block hd | blockSwitch hd | blockPad hd => exact (due hd).elim
  | payload hc hf hb' | mainSym hc hf hb' => exact absurd hb hb'
  | alignLen hc | preLen hc | lenCode hc | lenSym hc | alSym hc | uncPad hc | uncWords hc => exact (no _ hc (by decide)).elim

theorem Meant.drained {v t : State} {site : Site} (h : Meant v site t) (hsite : site = .e8Header ∨ site = .padByte)
    (hp : v.produced = 0) (hb : v.blockRemaining = 0) (hc : v.ctl = .e8Header) :
    t.produced = 0 ∧ t.blockRemaining = 0 ∧ (t.ctl = .idle ∨ t.ctl = .e8Header ∨ t.ctl = .blockLoop) := by
  cases h with
  | e8Header m => exact ⟨hp, hb, .inr (.inr rfl)⟩
  | padByte hm hr =>
    obtain ⟨pos, eof, inp, nreal, replies, refused, result, rfl, -, -⟩ := hr.exists_eq
    exact ⟨hp, hb, .inr (.inl hc)⟩
  | noPadByte => exact ⟨hp, hb, .inr (.inl hc)⟩
  | _ => exact absurd hsite (by decide)

/-! ### The end of a frame, and the commands -/

/-- The frame after a full one begins at a multiple of 32768, wrapped to 0 or not. -/
theorem wrapAt_full {w p : Nat} (h : p % Config.frameSize = 0) : wrapAt w (p + Config.frameSize) % Config.frameSize = 0 := by
  unfold wrapAt
  split
  · rfl
  · rw [Nat.add_mod_right, h]

theorem State.PlacedInv.of_ready {s : State} (h : s.status = .ready → s.PlacedInv) : s.PlacedInv := ⟨fun hr => (h hr).placed hr⟩

theorem Commanded.placedInv {s t : State} (h : Commanded s t) (hinv : s.PlacedInv) : t.PlacedInv := by
  cases h with
  | nothing => exact hinv
  | constructed | destroyed => exact ⟨fun _ => .inl rfl⟩
  | outOfRange | refused => exact ⟨fun hr => hinv.placed hr⟩
  | asked cs h =>
    cases h with
    | refused => exact ⟨fun hr => hinv.placed hr⟩
    | started hr =>
      refine ⟨fun _ => (hinv.placed hr).imp id fun ⟨hend, _, hb, _⟩ => ⟨hend, rfl, hb, ?_⟩⟩
      show _ ∨ (if s.headerRead then Ctl.blockLoop else .e8Header) = .e8Header ∨
        (if s.headerRead then Ctl.blockLoop else .e8Header) = .blockLoop
      cases s.headerRead <;> simp
    | startedReset hr =>
      exact ⟨fun _ => (hinv.placed hr).imp id fun ⟨hend, _, hb, _⟩ => ⟨hend, rfl, hb, .inr (.inl rfl)⟩⟩
    | inBlock => exact .of_ready nofun

/-- The end of a full frame that began at a multiple of 32768, or of a short one before the ended input. -/
theorem Sought.endFrame_placed {s u : State} (h : Sought s .complete u) (hp : PullsOnly s u) (hmax : s.produced ≤ Config.frameSize)
    (hplace : s.framePos % Config.frameSize = 0) (m : Memory) {t : State}
    (ht : t = ({ u with out := m } : State).realign.endFrame u.produced) : t.framePos % Config.frameSize = 0 ∨ t.drained := by
  have hpos : u.bitPos ≤ t.bitPos := by
    rw [ht]
    exact State.realign_bitPos_le { u with out := m }
  rw [State.endFrame_realign] at ht
  subst ht
  cases h with
  | full hc hfull =>
    refine .inl ?_
    show wrapAt s.winSize (s.framePos + s.produced) % Config.frameSize = 0
    rw [Nat.le_antisymm hmax hfull]
    exact wrapAt_full hplace
  | ended hc hf hb hp' he hn =>
    exact .inr ⟨State.ended.mono (s := u) ⟨he, hn⟩ hpos { ReceivesOnly.refl u with }, rfl, (congrArg State.blockRemaining hp.1).trans hb,
      .inl rfl⟩

/-- Settles O52: a frame that is not the last is full, and after a short one the input has ended. -/
theorem stepKeepsPlaced : Obligations.StepKeepsPlaced := by
  unfold Obligations.StepKeepsPlaced
  intro s t _ hframe _ hinv hs
  by_cases hc : s.ctl = .idle
  · exact (step_commanded hc hs).placedInv hinv
  have hran := step_ran hc hs
  refine ⟨fun ht => ?_⟩
  cases hran.advanced hc ht with
  | element hr hsought hread hm =>
    have hpos : t.framePos = s.framePos := by rw [hm.framePos, hread.1, hsought.framePos]
    rw [hpos]
    refine (hinv.placed hr).imp id fun hd => ?_
    obtain ⟨hsite, hp, hb, hcu⟩ := hsought.drained hd
    exact ⟨hd.1.mono (hran.bitPos_le hc) hran.receivesOnly,
      hm.drained hsite (by rw [hread.1]; exact hp) (by rw [hread.1]; exact hb) (by rw [hread.1]; exact hcu)⟩
  | frame m hr hsought hp hn heq =>
    refine hsought.endFrame_placed hp (hframe.produced hr) ?_ m heq
    refine (hinv.placed hr).resolve_right fun ⟨_, hempty, _⟩ => hn ?_
    rw [hp.1]
    exact hempty

end Sys2Proof.Machine

end Placed

/-! ## How a step can fail or stop (spec/60_exceptions.md section 1, spec/93_implementation_defined.md U13), and the machine after
reset -/

section Safety

namespace Sys2Proof.Machine

/-! ### The machine after reset -/

theorem State.fresh_memoryInv (wb ri : Nat) : (State.fresh wb ri).MemoryInv :=
  ⟨List.Pairwise.nil, nofun, List.Pairwise.nil, nofun⟩

/-- Settles O45: every counter is 0, every memory empty, every length 0 and no table built. -/
theorem resetMeetsInv : Obligations.ResetMeetsInv where
  config := ⟨⟨Nat.le_refl 15, by show 15 ≤ 21; decide⟩, by show 0 < 4096; decide⟩
  memory := State.fresh_memoryInv ..
  reader := ⟨rfl, nofun⟩
  lengths := State.fresh_lengthsInv ..
  frame := State.fresh_frameInv ..
  window := State.fresh_windowInv ..
  control := State.fresh_controlInv ..
  built := State.fresh_builtInv ..
  placed := ⟨fun _ => .inl rfl⟩
  status := ⟨fun h => absurd rfl h⟩

/-! ### Reading the fields of an element -/

/-- A field can be read: the mode is the field's, and the table of a symbol is built. -/
def State.canRead (s : State) : Field → Prop
  | .bits _ => s.mode = .bitstream
  | .sym t => s.mode = .bitstream ∧ s.table t ≠ .notBuilt
  | .byte | .word32 => s.mode = .bytestream

/-- The values a field can have: a symbol of a tree is one of its symbols, of the main tree one of the largest window's. -/
def InRange : Field → Nat → Prop
  | .sym .pre, v => v < 20
  | .sym .main, v => v < 656
  | .sym .len, v => v < 249
  | .sym .al, v => v < 8
  | _, _ => True

/-- With values in range the decoder reads fields of `Q` only, and rejects nothing but a bad inner length code. -/
def Safe (Q : Field → Prop) : Parser → Prop
  | .done _ => True
  | .reject e => e = .badLengthCode
  | .read f k => Q f ∧ ∀ v, InRange f v → Safe Q (k v)

/-- The errors of reading an element's fields. -/
def FetchError (e : ErrKind) : Prop := PullError e ∨ e = .emptyTableDecode ∨ e = .badLengthCode

theorem ReadsOnly.table {s t : State} (h : ReadsOnly s t) (tr : Tree) : t.table tr = s.table tr := by
  rw [h.1]
  cases tr <;> rfl

theorem ReadsOnly.mode {s t : State} (h : ReadsOnly s t) : t.mode = s.mode := by rw [h.1]

theorem ReadsOnly.canRead {s t : State} (h : ReadsOnly s t) : t.canRead = s.canRead := by
  funext f
  cases f <;> simp only [State.canRead, h.mode, h.table]

/-- What is asked of the tables so that their symbols are in range. -/
structure State.TablesInv (s : State) : Prop where
  config : s.ConfigInv
  lengths : s.LengthsInv

theorem ReadsOnly.tablesInv {s t : State} (h : ReadsOnly s t) (hs : s.TablesInv) : t.TablesInv := by
  obtain ⟨hc, hl⟩ := hs
  obtain ⟨pos, eof, inp, nreal, replies, refused, result, rfl, -, -⟩ := h.exists_eq
  exact ⟨{ hc with }, { hl with tables := hl.tables_of_eq rfl rfl rfl rfl rfl }⟩

/-- A built table is one that `Build` makes. -/
theorem State.LengthsInv.built {s : State} (h : s.LengthsInv) {t : Tree} (hb : s.table t ≠ .notBuilt) :
    (s.table t).lens.length = s.symbols t ∧ (∀ l ∈ (s.table t).lens, l ≤ 16) ∧
      buildTable (s.table t).lens (t == .len) = .ok (s.table t) := (h.tables t).resolve_left hb

theorem readU32LE_fails {s : State} (hm : s.mode = .bytestream) : (readU32LE s).FailsAsPull := by
  have next {u v : State} {b : Byte} (hu : u.mode = .bytestream) (h : readByte u = .ok b v) : v.mode = .bytestream :=
    ((readByte_reads u).of_ok h).mode.trans hu
  exact Res.fails_bind (readByte_fails hm) fun _ a ha => Res.fails_bind (readByte_fails (next hm ha)) fun _ b hb =>
    Res.fails_bind (readByte_fails (next (next hm ha) hb)) fun _ c hc =>
      Res.fails_bind (readByte_fails (next (next (next hm ha) hb) hc)) fun _ _ _ => trivial

/-- A field that can be read fails as a pull does, or because its tree is empty. -/
theorem readFieldAt_fails {f : Field} {s : State} (hl : s.LengthsInv) (hf : s.canRead f) :
    (readFieldAt f s).Fails FetchError (· = .hostSilent) := by
  cases f with
  | bits n => exact (readBits_fails hf n).mono (fun _ => .inl) fun _ => id
  | sym t =>
    obtain ⟨hm, hb⟩ := hf
    obtain ⟨-, hle, hbuild⟩ := hl.built hb
    refine (readSym_fails hle hbuild).mono ?_ fun _ => id
    rintro e (he | rfl | ⟨-, hbytes⟩)
    · exact .inl he
    · exact .inr (.inl rfl)
    · rw [hm] at hbytes; cases hbytes
  | byte => exact Res.fails_bind ((readByte_fails hf).mono (fun _ => .inl) fun _ => id) fun _ _ _ => trivial
  | word32 => exact (readU32LE_fails hf).mono (fun _ => .inl) fun _ => id

/-- A symbol read is a symbol of the table's code. -/
theorem readSym_lt {t : Tree} {s u : State} {v : Nat} (h : readSym t s = .ok v u) : v < (s.table t).lens.length := by
  unfold readSym at h
  split at h
  · cases h
  · split at h
    · cases h
    · obtain ⟨_, w, hw, hk⟩ := Res.bind_eq_ok h
      rw [(need_pullsOnly hw).table t] at hk
      split at hk
      · rename_i c hc
        cases hk
        obtain ⟨hmem, -⟩ := findCode_eq_some hc
        exact (List.getElem?_eq_some_iff.mp (mem_canonical hmem).2).1
      · cases hk

theorem nmain_le {wb : Nat} (h15 : 15 ≤ wb) (h21 : wb ≤ 21) : nmain wb ≤ 656 := by
  unfold nmain
  interval_cases wb <;> decide

theorem readFieldAt_inRange {f : Field} {s u : State} {v : Nat} (hs : s.TablesInv) (hf : s.canRead f)
    (h : readFieldAt f s = .ok v u) : InRange f v := by
  cases f with
  | bits | byte | word32 => trivial
  | sym t =>
    obtain ⟨hlen, -⟩ := hs.lengths.built hf.2
    have hlt := readSym_lt h
    rw [hlen] at hlt
    cases t with
    | pre | len | al => exact hlt
    | main => exact Nat.lt_of_lt_of_le hlt (nmain_le hs.config.windowBits.1 hs.config.windowBits.2)

theorem runParser_fails {p : Parser} {s : State} (hs : s.TablesInv) (hp : Safe s.canRead p) :
    (runParser p s).Fails FetchError (· = .hostSilent) := by
  induction p generalizing s with
  | done i => trivial
  | reject e => exact .inr (.inr hp)
  | read f k ih =>
    obtain ⟨hf, hk⟩ := hp
    refine Res.fails_bind (readFieldAt_fails hs.lengths hf) fun v u hu => ?_
    have hread := (readFieldAt_reads f s).of_ok hu
    exact ih v (hread.tablesInv hs) (hread.canRead ▸ hk v (readFieldAt_inRange hs hf hu))

/-! ### The decoders of the places -/

/-- The fields of an element at a place. -/
def FieldAt : Site → Field → Prop
  | .e8Header, f | .blockHeader, f | .alignLen, f | .preLen, f => ∃ n, f = .bits n
  | .lenCode, f => (∃ n, f = .bits n) ∨ f = .sym .pre
  | .mainSym, f => f = .sym .main
  | .lenSym, f => f = .sym .len
  | .alSym, f => f = .sym .al
  | .uncWords, f => f = .word32
  | .padByte, f => f = .byte
  | .uncPad, _ | .payload, _ => False

theorem safe_ite {Q : Field → Prop} {c : Prop} [Decidable c] {p q : Parser} (hp : c → Safe Q p) (hq : ¬ c → Safe Q q) :
    Safe Q (if c then p else q) := by
  split
  · exact hp ‹_›
  · exact hq ‹_›

theorem deltaInstr_isSome {z : Nat} (h : z ≤ 16) : ∃ i, deltaInstr z = some i := by
  interval_cases z <;> exact ⟨_, rfl⟩

theorem matchInstr_isSome {slot : Nat} (h : slot < 50) (hdr : BitVec 3) : ∃ i, matchInstr slot hdr = some i := by
  interval_cases slot <;> exact ⟨_, rfl⟩

theorem safe_ofOption {Q : Field → Prop} {o : Option Instr} (h : ∃ i, o = some i) : Safe Q (.ofOption o) := by
  obtain ⟨i, rfl⟩ := h
  trivial

/-- A length code: an inner symbol that is no delta is rejected by its own error, and every other symbol is a code's. -/
theorem parseLenCode_safe : Safe (FieldAt .lenCode) parseLenCode := by
  have bits (n : Nat) : FieldAt .lenCode (.bits n) := .inl ⟨n, rfl⟩
  refine ⟨.inr rfl, fun z (hz : z < 20) => ?_⟩
  refine safe_ite (fun _ => ⟨bits 4, fun _ _ => trivial⟩) fun h17 => ?_
  refine safe_ite (fun _ => ⟨bits 5, fun _ _ => trivial⟩) fun h18 => ?_
  refine safe_ite (fun _ => ⟨bits 1, fun _ _ => ⟨.inr rfl, fun _ _ => safe_ite (fun _ => trivial) fun _ => rfl⟩⟩) fun h19 => ?_
  exact safe_ofOption (deltaInstr_isSome (by omega))

theorem parserOf_safe (site : Site) : Safe (FieldAt site) (parserOf site) := by
  cases site with
  | e8Header => exact ⟨⟨1, rfl⟩, fun _ _ => safe_ite (fun _ => trivial) fun _ => ⟨⟨16, rfl⟩, fun _ _ => ⟨⟨16, rfl⟩, fun _ _ => trivial⟩⟩⟩
  | blockHeader => exact ⟨⟨3, rfl⟩, fun _ _ => ⟨⟨16, rfl⟩, fun _ _ => ⟨⟨8, rfl⟩, fun _ _ => trivial⟩⟩⟩
  | alignLen => exact ⟨⟨3, rfl⟩, fun _ _ => trivial⟩
  | preLen => exact ⟨⟨4, rfl⟩, fun _ _ => trivial⟩
  | lenCode => exact parseLenCode_safe
  | mainSym =>
    refine ⟨rfl, fun sym (hsym : sym < 656) => safe_ite (fun _ => trivial) fun _ => ?_⟩
    have hslot : (sym - Config.literals) / 8 < 50 := by
      show (sym - 256) / 8 < 50
      omega
    exact safe_ofOption (matchInstr_isSome hslot _)
  | lenSym => exact ⟨rfl, fun l hl => safe_ite (fun _ => trivial) fun h => absurd hl h⟩
  | alSym => exact ⟨rfl, fun a ha => safe_ite (fun _ => trivial) fun h => absurd ha h⟩
  | uncPad | payload => trivial
  | uncWords => exact ⟨rfl, fun _ _ => ⟨rfl, fun _ _ => ⟨rfl, fun _ _ => trivial⟩⟩⟩
  | padByte => exact ⟨rfl, fun _ _ => trivial⟩

theorem Safe.mono {Q R : Field → Prop} {p : Parser} (h : Safe Q p) (hQR : ∀ f, Q f → R f) : Safe R p := by
  induction p with
  | done i => trivial
  | reject e => exact h
  | read f k ih => exact ⟨hQR f h.1, fun v hv => ih v (h.2 v hv)⟩

/-! ### What the invariants say where an element is read -/

/-- Where an element is sought, its fields can be read: the mode is theirs, and their tree is built. -/
theorem Sought.canRead {s u : State} {site : Site} (h : Sought s (.element site) u) (hctl : s.ControlInv) (hb : s.BuiltInv)
    (hr : s.status = .ready) {f : Field} (hf : FieldAt site f) : u.canRead f := by
  have hat := h.holdsAt hctl hr
  cases h with
  | header | headerSwitch | block | blockSwitch => obtain ⟨n, rfl⟩ := hf; exact hat.1
  | alignLen | preLen =>
    obtain ⟨n, rfl⟩ := hf
    obtain ⟨-, -, hsym⟩ := hat
    exact hsym.1
  | lenCode hc =>
    obtain ⟨-, -, hm, -⟩ := hat
    rcases hf with ⟨n, rfl⟩ | rfl
    · exact hm
    · exact ⟨hm, hb.pre hr hc⟩
  | mainSym hc _ hrem ht =>
    obtain rfl := hf
    obtain ⟨-, -, hm, -⟩ := hat
    exact ⟨hm, (hb.symbolTables hr (.inr (.inr ⟨.inr hc, hrem, ht⟩))).1⟩
  | lenSym hc =>
    obtain rfl := hf
    obtain ⟨-, -, hm, -⟩ := hat
    exact ⟨hm, (hb.symbolTables hr (.inl hc)).2.1⟩
  | alSym hc =>
    obtain rfl := hf
    obtain ⟨-, -, hm, -⟩ := hat
    exact ⟨hm, (hb.symbolTables hr (.inr (.inl hc))).2.2 (hctl.atAligned hr hc)⟩
  | uncPad | payload => exact hf.elim
  | uncWords =>
    obtain rfl := hf
    obtain ⟨-, hm, -⟩ := hat
    exact hm
  | headerPad | blockPad => obtain rfl := hf; exact hat.1

/-- From a state that meets the invariants an element's fields fail as a pull does, in an empty tree, or at a bad length code. -/
theorem Sought.fetch_fails {s u : State} {site : Site} (h : Sought s (.element site) u) (hinv : s.Inv) (hr : s.status = .ready)
    (hu : u.TablesInv) : (fetchInstr site u).Fails FetchError (· = .hostSilent) :=
  runParser_fails hu ((parserOf_safe site).mono fun _ hf => h.canRead hinv.control hinv.built hr hf)

/-- What the invariants say of the state an element's meaning runs in. -/
structure State.Ready (site : Site) (v : State) : Prop where
  holds : v.holdsAt site
  window : v.WindowInv
  frame : v.FrameInv
  counts : site = .mainSym ∨ site = .payload → v.produced < Config.frameSize ∧ v.blockRemaining ≠ 0

theorem State.Inv.tablesInv {s u : State} {a : Action} (h : s.Inv) (hs : seek s = .ok a u) : u.TablesInv :=
  ⟨(kept_configInv.seek h.config).of_ok hs, (kept_lengthsInv.seek h.lengths).of_ok hs⟩

theorem State.Inv.ready {s u v : State} {site : Site} {i : Instr} (h : s.Inv) (hr : s.status = .ready) (hc : s.ctl ≠ .idle)
    (hs : seek s = .ok (.element site) u) (hf : fetchInstr site u = .ok i v) : State.Ready site v := by
  have hsought := seek_ok hc hs
  have hread := (fetchInstr_reads site u).of_ok hf
  exact {
    holds := hread.holdsAt (hsought.holdsAt h.control hr)
    window := (kept_windowInv.fetchInstr site ((kept_windowInv.seek h.window).of_ok hs)).of_ok hf
    frame := hread.frameInv (hsought.frameInv h.frame)
    counts := fun hsite => by rw [hread.1]; exact hsought.counts hsite }

/-- Where a frame completes, it does so without an error or a fault. -/
theorem State.Inv.completes {s u : State} (h : s.Inv) (hr : s.status = .ready) (hc : s.ctl ≠ .idle)
    (hs : seek s = .ok .complete u) :
    ∃ m, completeFrame u = .ok () (({ u with out := m } : State).realign.endFrame u.produced) := by
  have hp := seek_complete_pullsOnly hc hs
  obtain ⟨m, hm, -⟩ := completeFrame_ready (hp.readsOnly.frameInv h.frame) ((kept_windowInv.seek h.window).of_ok hs)
    (by rw [hp.1]; exact hr)
  exact ⟨m, hm⟩

/-! ### The errors that no stream raises -/

/-- Neither a read in the wrong mode nor a symbol that runs out of bits. -/
def Expected (e : ErrKind) : Prop := e ≠ .wrongMode ∧ e ≠ .huffmanDecodeOverrun

theorem PullError.expected {e : ErrKind} (h : PullError e) : Expected e := by
  cases h <;> exact ⟨nofun, nofun⟩

theorem FetchError.expected {e : ErrKind} (h : FetchError e) : Expected e := by
  rcases h with h | rfl | rfl
  · exact h.expected
  · exact ⟨nofun, nofun⟩
  · exact ⟨nofun, nofun⟩

theorem MatchErr.expected {v : State} {e : ErrKind} (h : MatchErr v e) (hm : v.mode = .bitstream) : Expected e := by
  cases h with
  | pull h => exact h.expected
  | mode h => rw [hm] at h; cases h
  | _ => exact ⟨nofun, nofun⟩

theorem Raised.expected {v u : State} {site : Site} {e : ErrKind} (h : Raised v site e u) (hat : v.holdsAt site) : Expected e := by
  cases h with
  | ofMatch hsite a b c he hr =>
    refine he.expected ?_
    rcases hsite with rfl | rfl | rfl
    all_goals
      obtain ⟨-, -, hm, -⟩ := hat
      exact hm
  | pad he hr =>
    rcases he with he | rfl
    · exact he.expected
    · exact ⟨nofun, nofun⟩
  | payload he hr =>
    rcases he with he | ⟨rfl, hm⟩
    · exact he.expected
    · obtain ⟨-, hbytes, -⟩ := hat
      rw [hm] at hbytes
      cases hbytes
  | padByte he hr => exact he.expected
  | _ => exact ⟨nofun, nofun⟩

theorem Commanded.expected {s t : State} {e : ErrKind} (h : Commanded s t) (hr : s.status = .ready) (ht : t.status = .failed e) :
    Expected e := by
  cases h with
  | nothing | outOfRange | refused => exact nomatch hr.symm.trans ht
  | constructed | destroyed => cases ht
  | asked cs h =>
    cases h with
    | refused | started | startedReset => exact nomatch hr.symm.trans ht
    | inBlock => cases ht; exact ⟨nofun, nofun⟩

/-- Settles O54: the control invariant gives each read its mode, and a built table a code word for any bits. -/
theorem noWrongModeNoOverrun : Obligations.NoWrongModeNoOverrun := by
  unfold Obligations.NoWrongModeNoOverrun
  intro s t e hinv hr hs ht
  by_cases hc : s.ctl = .idle
  · exact (step_commanded hc hs).expected hr ht
  cases step_ran hc hs with
  | element hseek hf hi hx =>
    rename_i site u v i
    rcases exec_met hi hx with h | ⟨e', w, h, rfl⟩
    · have hv : v.status = s.status := by
        rw [((fetchInstr_reads site u).of_ok hf).1]
        exact (seek_ok hc hseek).status
      rw [h.status, hv, hr] at ht
      cases ht
    · cases ht
      exact h.expected (hinv.ready hr hc hseek hf).holds
  | complete hseek hx =>
    rename_i u
    obtain ⟨m, hm⟩ := hinv.completes hr hc hseek
    rw [hm] at hx
    cases hx
    refine absurd ht (State.endFrame_status_ready ?_ _ e)
    rw [State.realign_status]
    exact (seek_ok hc hseek).status.trans hr
  | sought hseek heq =>
    rw [heq] at ht
    cases ht
    exact (seek_raise hseek).1.expected
  | fetched hseek hf heq =>
    rw [heq] at ht
    cases ht
    have hfail := (seek_ok hc hseek).fetch_fails hinv hr (hinv.tablesInv hseek)
    rw [hf] at hfail
    exact FetchError.expected hfail

/-! ### Nothing is refused -/

theorem Res.finish_ne_refused (r : Res Unit) (x : Refusal) : r.finish ≠ .refused x := by
  cases r <;> exact nofun

theorem execDecodeFrame_ne_refused (n : Nat) (s : State) (x : Refusal) : execDecodeFrame n s ≠ .refused x := by
  unfold execDecodeFrame
  split
  · exact Res.finish_ne_refused _ x
  · exact nofun

theorem execConstruct_ne_refused (wb ri : Nat) (s : State) (x : Refusal) : execConstruct wb ri s ≠ .refused x := by
  unfold execConstruct
  split
  · exact nofun
  · split <;> exact nofun

theorem execSrun_ne_refused (k : BitVec 1) (z2 : Nat) (s : State) (x : Refusal) : execSrun k z2 s ≠ .refused x := by
  unfold execSrun
  split <;> exact Res.finish_ne_refused _ x

theorem exec_ne_refused (i : Instr) (s : State) (x : Refusal) : exec i s ≠ .refused x :=
  exec_shapes (P := fun _ f => ∀ s x, f s ≠ .refused x) execConstruct_ne_refused execDecodeFrame_ne_refused
    (fun _ _ => Res.finish_ne_refused _) (fun _ _ => Res.finish_ne_refused _) (fun _ _ _ => nofun) (fun _ _ _ => nofun)
    (fun _ _ _ => nofun) (fun _ _ => Res.finish_ne_refused _) (fun _ _ => Res.finish_ne_refused _)
    (fun _ _ => Res.finish_ne_refused _) (fun _ _ => Res.finish_ne_refused _) execSrun_ne_refused
    (fun _ _ => Res.finish_ne_refused _) (fun _ _ _ => Res.finish_ne_refused _) (fun _ _ => Res.finish_ne_refused _)
    (fun _ _ => Res.finish_ne_refused _) (fun _ => Res.finish_ne_refused _) (fun _ _ _ _ _ => nofun)
    (fun _ => Res.finish_ne_refused _) (fun _ _ => Res.finish_ne_refused _) i s x

theorem step_ne_refused (s : State) (x : Refusal) : step s ≠ .refused x := by
  by_cases hc : s.ctl = .idle
  · rw [step_idle hc]
    cases hcmds : s.cmds with
    | nil => rw [commandStep_nil hcmds]; exact nofun
    | cons c cs =>
      rw [commandStep_cons hcmds]
      cases c with
      | construct wb ri => exact exec_ne_refused (.construct wb ri) _ x
      | decodeFrame n => exact exec_ne_refused (.decodeFrame n) _ x
      | destroy => exact nofun
  · cases hs : seek s with
    | stop f => rw [step_of_seek_stop hc hs]; exact nofun
    | raise e u => rw [step_of_seek_raise hc hs]; exact nofun
    | ok a u =>
      cases a with
      | complete => rw [step_of_complete hc hs]; exact Res.finish_ne_refused _ x
      | element site =>
        cases hf : fetchInstr site u with
        | stop f => rw [step_of_fetch_stop hc hs hf]; exact nofun
        | raise e v => rw [step_of_fetch_raise hc hs hf]; exact nofun
        | ok i v => rw [step_of_fetch hc hs hf]; exact exec_ne_refused i v x

/-! ### Only silence stops -/

/-- The result stops only as a pull does; which errors it raises is left open. -/
abbrev Res.StopsAsPull {α : Type} (r : Res α) : Prop := r.Fails (fun _ => True) (· = .hostSilent)

theorem Res.FailsAsPull.stops {α : Type} {r : Res α} (h : r.FailsAsPull) : r.StopsAsPull := h.mono (fun _ _ => trivial) fun _ => id

theorem Res.finish_fault {r : Res Unit} {f : Fault} (hr : r.StopsAsPull) (h : r.finish = .fault f) : f = .hostSilent := by
  cases r with
  | ok a s => cases h
  | raise e s => cases h
  | stop g => cases h; exact hr

/-- A result followed by an update of the state. -/
theorem Res.StopsAsPull.andThen {r : Res Unit} (h : r.StopsAsPull) (k : State → State) :
    (r.bind fun _ u => .ok () (k u)).StopsAsPull := Res.fails_bind h fun _ _ _ => trivial

theorem seek_stops (s : State) : (seek s).StopsAsPull := by
  have bit (site : Site) (s : State) : (bitSite site s).StopsAsPull := by
    unfold bitSite
    split
    · trivial
    · split <;> trivial
  unfold seek
  split
  case h_2 => exact bit _ _
  case h_4 => exact bit _ _
  case h_3 =>
    unfold loopHead
    split
    · trivial
    · split
      · refine Res.fails_bind (eofAtBoundary_fails s).stops fun b u _ => ?_
        split
        · trivial
        · exact bit _ _
      · split <;> trivial
  all_goals trivial

theorem rebuild_stops (t : Tree) (s : State) : (rebuild t s).StopsAsPull := by
  rcases rebuild_cases t s with ⟨tab, -, h⟩ | h <;> rw [h] <;> trivial

theorem finishList_stops (s : State) : (finishList s).StopsAsPull := by
  unfold finishList
  split
  · trivial
  · exact (rebuild_stops .main s).andThen _
  · exact (rebuild_stops .len s).andThen _

theorem writeRun_stops (n : Nat) (v : Len) (s : State) : (writeRun n v s).StopsAsPull := by
  rcases Nat.lt_or_ge (s.lenPos + n) s.listLast with h | h
  · rw [writeRun_inside h]; trivial
  · rw [writeRun_end h]; exact finishList_stops _

theorem checkedRun_stops (n : Nat) (v : Len) (s : State) : (checkedRun n v s).StopsAsPull := by
  unfold checkedRun
  split
  · trivial
  · exact writeRun_stops n v s

theorem alignLength_stops (a : BitVec 3) (s : State) : (alignLength a s).StopsAsPull := by
  rcases Nat.lt_or_ge (s.fieldIdx + 1) Config.alSymbols with h | h
  · rw [alignLength_store h]; trivial
  · rw [alignLength_last h]; exact (rebuild_stops .al _).andThen _

theorem preLength_stops (p : BitVec 4) (s : State) : (preLength p s).StopsAsPull := by
  rcases Nat.lt_or_ge (s.fieldIdx + 1) Config.preSymbols with h | h
  · rw [preLength_store h]; trivial
  · rw [preLength_last h]; exact (rebuild_stops .pre _).andThen _

/-- A match whose checks hold copies inside the window. -/
theorem finishMatch_stops {s : State} (hw : s.WindowInv) (offset length : Nat) : (finishMatch offset length s).StopsAsPull := by
  unfold finishMatch
  split
  · trivial
  · obtain ⟨w, hcopy, -⟩ := copyMatch_checked hw ‹_›
    rw [hcopy]
    trivial

theorem readBits_stops (n : Nat) (s : State) : (readBits n s).StopsAsPull := by
  cases hm : s.mode with
  | bitstream => exact (readBits_fails hm n).stops
  | bytestream => rw [readBits_wrongMode hm]; trivial

theorem ReadsOnly.windowInv {s t : State} (h : ReadsOnly s t) (hw : s.WindowInv) : t.WindowInv := by
  obtain ⟨pos, eof, inp, nreal, replies, refused, result, rfl, -, -⟩ := h.exists_eq
  exact { hw with }

theorem matchOffset_stops {s : State} (hw : s.WindowInv) (slot length : Nat) : (matchOffset slot length s).StopsAsPull := by
  unfold matchOffset
  split
  · exact finishMatch_stops hw _ _
  · exact finishMatch_stops (s := s.swapR1) { hw with } _ _
  · exact finishMatch_stops (s := s.swapR2) { hw with } _ _
  · refine Res.fails_bind (readBits_stops _ s) fun v u hu => ?_
    have hu := ((readBits_reads _ s).of_ok hu).windowInv hw
    split
    · trivial
    · exact finishMatch_stops (s := u.shiftR _) { hu with } _ _

theorem startMatch_stops {s : State} (hw : s.WindowInv) (slot : Nat) (hdr : BitVec 3) : (startMatch slot hdr s).StopsAsPull := by
  unfold startMatch
  split
  · trivial
  · exact matchOffset_stops hw _ _

theorem putByte_stops {s : State} (h : s.windowPos < s.winSize) (v : Byte) : (putByte v s).StopsAsPull := by
  rw [putByte_ok h]
  trivial

theorem toByteMode_stops (s : State) : (toByteMode s).StopsAsPull := by
  unfold toByteMode
  split
  · trivial
  · refine Res.fails_bind (need_fails _ s).stops fun _ u _ => ?_
    split <;> trivial

theorem toBitMode_stops (s : State) : (toBitMode s).StopsAsPull := by
  unfold toBitMode
  split
  · trivial
  · split
    · exact Res.fails_bind (fetchByte_fails _ s).stops fun _ _ _ => trivial
    · trivial

theorem readByte_stops (s : State) : (readByte s).StopsAsPull := (readByte_fails_mode s).mono (fun _ _ => trivial) fun _ => id

/-- A payload run that fits the window stops only as a pull does. -/
theorem payloadBytes_stops {n : Nat} {s : State} (h : s.windowPos + n ≤ s.winSize) : (payloadBytes n s).StopsAsPull := by
  induction n generalizing s with
  | zero => trivial
  | succ n ih =>
    refine Res.fails_bind (readByte_stops s) fun b t ht => ?_
    have hread := (readByte_reads s).of_ok ht
    have hpos : t.windowPos = s.windowPos := by rw [hread.1]
    have hwin : t.winSize = s.winSize := by rw [hread.1]
    refine Res.fails_bind (putByte_stops (by omega) b) fun _ u hu => ?_
    obtain ⟨-, rfl⟩ := putByte_eq_ok hu
    refine ih ?_
    show t.windowPos + 1 + n ≤ t.winSize
    omega

theorem execSrun_fault {k : BitVec 1} {z2 : Nat} {s : State} {f : Fault} (h : execSrun k z2 s = .fault f) : f = .hostSilent := by
  unfold execSrun at h
  split at h
  · cases h
  · exact Res.finish_fault (checkedRun_stops _ _ s) h

/-- An element that has room in the window for its bytes stops only as a pull does. -/
theorem exec_fault {i : Instr} {site : Site} {v : State} {f : Fault} (hi : i.site = some site) (hw : v.WindowInv)
    (hlit : site = .mainSym → v.windowPos < v.winSize)
    (hpayload : site = .payload → v.windowPos + v.payloadRun ≤ v.winSize) (h : exec i v = .fault f) : f = .hostSilent := by
  have shapes := exec_shapes (P := fun x g => ∀ v f, (v : State).WindowInv → (x = some .mainSym → v.windowPos < v.winSize) →
      (x = some .payload → v.windowPos + v.payloadRun ≤ v.winSize) → x ≠ none → g v = .fault f → f = .hostSilent)
    (fun _ _ _ _ _ _ _ h => absurd rfl h) (fun _ _ _ _ _ _ h => absurd rfl h)
    (fun m v f _ _ _ _ h => by cases h)
    (fun len v f _ _ _ _ h => by cases h)
    (fun len v f _ _ _ _ h => by cases h)
    (fun len v f _ _ _ _ h => by cases h)
    (fun len v f _ _ _ _ h => by cases h)
    (fun a v f _ _ _ _ h => Res.finish_fault (alignLength_stops a v) h)
    (fun p v f _ _ _ _ h => Res.finish_fault (preLength_stops p v) h)
    (fun z v f _ _ _ _ h => Res.finish_fault (writeRun_stops _ _ v) h)
    (fun n v f _ _ _ _ h => Res.finish_fault (checkedRun_stops n 0 v) h)
    (fun k z2 v f _ _ _ _ h => execSrun_fault h)
    (fun b v f _ hlit _ _ h => Res.finish_fault ((putByte_stops (hlit rfl) b).andThen _) h)
    (fun slot hdr v f hw _ _ _ h => Res.finish_fault (startMatch_stops hw slot hdr) h)
    (fun l v f hw _ _ _ h => Res.finish_fault (matchOffset_stops hw _ _) h)
    (fun a v f hw _ _ _ h => Res.finish_fault (finishMatch_stops (s := v.shiftR _) { hw with } _ _) h)
    (fun v f _ _ _ _ h => Res.finish_fault ((toByteMode_stops v).andThen _) h)
    (fun w0 w1 w2 v f _ _ _ _ h => by cases h)
    (fun v f _ _ hpay _ h => Res.finish_fault ((payloadBytes_stops (hpay rfl)).andThen _) h)
    (fun x v f _ _ _ _ h => Res.finish_fault (toBitMode_stops v) h)
  exact shapes i v f hw (fun h => hlit (Option.some.inj (hi.symm.trans h))) (fun h => hpayload (Option.some.inj (hi.symm.trans h)))
    (by rw [hi]; exact nofun) h

/-! ### Room in the window -/

/-- Where a frame begins at a multiple of 32768, the window has room for all of it (R230). -/
theorem frame_fits {s : State} (hconf : s.ConfigInv) (hframe : s.framePos < s.winSize) (hplace : s.framePos % Config.frameSize = 0) :
    s.framePos + Config.frameSize ≤ s.winSize := by
  obtain ⟨k, hk⟩ : Config.frameSize ∣ s.winSize := Nat.pow_dvd_pow 2 hconf.windowBits.1
  obtain ⟨j, hj⟩ := Nat.dvd_of_mod_eq_zero hplace
  have hjk : j < k := by
    rw [hk, hj] at hframe
    exact Nat.lt_of_mul_lt_mul_left hframe
  calc s.framePos + Config.frameSize = Config.frameSize * (j + 1) := by rw [hj, Nat.mul_add, Nat.mul_one]
    _ ≤ Config.frameSize * k := Nat.mul_le_mul_left _ hjk
    _ = s.winSize := hk.symm

/-- Inside a block, the bytes that the frame still takes fit the window. -/
theorem State.Inv.room {s : State} (h : s.Inv) (hr : s.status = .ready) (hb : s.blockRemaining ≠ 0) {n : Nat}
    (hn : s.produced + n ≤ Config.frameSize) : s.windowPos + n ≤ s.winSize := by
  have hplace : s.framePos % Config.frameSize = 0 := by
    rcases h.placed.placed hr with h | ⟨-, -, h, -⟩
    · exact h
    · exact absurd h hb
  have hfits := frame_fits h.config (h.frame.framePos hr) hplace
  have hpos := h.frame.position hr
  omega

/-- Where a literal, a match or a payload run has been read, what the frame still takes fits the window. -/
theorem State.Inv.room_at {s u v : State} {site : Site} (h : s.Inv) (hr : s.status = .ready) (hs : Sought s (.element site) u)
    (hread : ReadsOnly u v) (hsite : site = .mainSym ∨ site = .payload) {n : Nat} (hn : v.produced + n ≤ Config.frameSize) :
    v.windowPos + n ≤ v.winSize := by
  obtain ⟨pos, eof, inp, nreal, replies, refused, result, rfl, -, -⟩ := hread.exists_eq
  cases hs with
  | payload hc hf hb | mainSym hc hf hb => exact h.room hr hb hn
  | _ => exact absurd hsite (by decide)

theorem State.payloadRun_le {s : State} (h : s.produced < Config.frameSize) : s.produced + s.payloadRun ≤ Config.frameSize := by
  have := Nat.min_le_right s.blockRemaining.toNat (Config.frameSize - s.produced)
  unfold State.payloadRun
  omega

theorem commandStep_ne_fault (s : State) (f : Fault) : commandStep s ≠ .fault f := by
  cases hcmds : s.cmds with
  | nil => rw [commandStep_nil hcmds]; exact nofun
  | cons c cs =>
    rw [commandStep_cons hcmds]
    cases c with
    | construct wb ri =>
      show execConstruct wb ri { s with cmds := cs } ≠ _
      unfold execConstruct
      split
      · exact nofun
      · split <;> exact nofun
    | decodeFrame n =>
      show execDecodeFrame n { s with cmds := cs } ≠ _
      unfold execDecodeFrame
      split
      · unfold resetStep
        split
        · split <;> exact nofun
        · exact nofun
      · exact nofun
    | destroy => exact nofun

/-- Settles O53: every window and output index is in range, so only a pull can stop a step. -/
theorem onlySilenceStops : Obligations.OnlySilenceStops := by
  unfold Obligations.OnlySilenceStops
  refine ⟨fun s he hrep => by simp [pull, he, hrep], fun s f hinv hr hs => ?_, fun s => step_ne_refused s⟩
  by_cases hc : s.ctl = .idle
  · rw [step_idle hc] at hs
    exact absurd hs (commandStep_ne_fault s f)
  cases hseek : seek s with
  | stop g =>
    have hstop := seek_stops s
    rw [step_of_seek_stop hc hseek] at hs
    rw [hseek] at hstop
    cases hs
    exact hstop
  | raise e u => rw [step_of_seek_raise hc hseek] at hs; cases hs
  | ok a u =>
    cases a with
    | complete =>
      obtain ⟨m, hm⟩ := hinv.completes hr hc hseek
      rw [step_of_complete hc hseek, hm] at hs
      cases hs
    | element site =>
      have hsought := seek_ok hc hseek
      cases hf : fetchInstr site u with
      | stop g =>
        have hstop := hsought.fetch_fails hinv hr (hinv.tablesInv hseek)
        rw [step_of_fetch_stop hc hseek hf] at hs
        rw [hf] at hstop
        cases hs
        exact hstop
      | raise e v => rw [step_of_fetch_raise hc hseek hf] at hs; cases hs
      | ok i v =>
        rw [step_of_fetch hc hseek hf] at hs
        have hready := hinv.ready hr hc hseek hf
        have hread := (fetchInstr_reads site u).of_ok hf
        refine exec_fault (fetchInstr_site hf) hready.window (fun hsite => ?_) (fun hsite => ?_) hs
        · exact hinv.room_at hr hsought hread (.inl hsite) (n := 1) (hready.counts (.inl hsite)).1
        · exact hinv.room_at hr hsought hread (.inr hsite) (State.payloadRun_le (hready.counts (.inr hsite)).1)

end Sys2Proof.Machine

end Safety
